-- ==== Sys2Proof/Word.lean ====
section
/-! DEFINITION. The bit strings of the block (spec/00_scope.md R5, R8): 32-bit words, 16-bit halfwords,
8-bit bytes, and the register fields of an encoding. Numbers only; every operation on them that a rule
defines stands in a file under Machine/ or in Decode.lean. -/

namespace Sys2Proof

/-- A register value or an address (R5: register width and address width are 32 bits). -/
abbrev Word := BitVec 32

/-- One instruction halfword (R80, R81). -/
abbrev Half := BitVec 16

/-- One byte of memory or of the comm stream (R50, R270). -/
abbrev Byte := BitVec 8

/-- A 3-bit register field: it names R0 to R7 (R24, R82). -/
abbrev LowReg := BitVec 3

/-- A 4-bit register field: 0 to 12 name R0 to R12, 13 SP, 14 LR, 15 PC (R24). -/
abbrev RegNum := BitVec 4

end Sys2Proof
end

