-- ==== Sys2Proof/Config.lean ====
section
/-! DEFINITION. What the implementation fixes: the step result codes (spec/60_exceptions.md R300) and the
parameters of spec/00_scope.md R5 that have a value. The parameters without one (REGIONS, PKT_CAP, the preempt
predicate, the stop request) are plain data of State, so that every statement quantifies over them. -/

namespace Sys2Proof

/-- The Step Result (R300): "a closed enum of outcomes every executor/run-loop call produces", in the document's
order (decision D2). `interrupt` and `watchpoint` come out of the run loop only. -/
inductive StepResult where
  | ok | undefined | unpredictable | hardFault | bkpt | unsupported | svc | interrupt | watchpoint
  deriving DecidableEq, Repr

/-- The numeric code of a result (R300, decision D2). -/
def StepResult.code : StepResult → Nat
  | .ok => 0 | .undefined => 1 | .unpredictable => 2 | .hardFault => 3 | .bkpt => 4
  | .unsupported => 5 | .svc => 6 | .interrupt => 7 | .watchpoint => 8

namespace Config

/-- `SP_WRITE_MASK` (R5, R22, decision D3): every write of SP stores the value AND this mask. -/
def spWriteMask : Word := 0xFFFFFFFC#32

/-- `DSB_RESULT` (R5, R253, decision D6): DSB executes as a no-operation with result `OK`. -/
def dsbResult : StepResult := .ok

/-- What a byte of memory that nothing has written reads as. DESIGN CHOICE, unsafe (assumption 3): the spec takes the
initial memory content as a launch-state argument (R37, spec/93 row 20), which any list of written bytes expresses. -/
def unwrittenByte : Byte := 0#8

/-- The value of the registers the spec leaves to the launch state (R40). DESIGN CHOICE, unsafe (assumption 1). -/
def launchWord : Word := 0#32

/-- The capacity of the payload buffer at launch (`PKT_CAP`, R5: at least 1, no value given).
DESIGN CHOICE, unsafe (assumption 4). -/
def launchPktCap : Nat := 64

end Config

end Sys2Proof
end

