-- ==== Sys2Proof/Syntax.lean ====
section
/-! DEFINITION. The instructions: one constructor per row of spec/opcode_table.json, in the table's order, its operands
the row's fields. Should-be bits (spec/30_encoding.md R82, R83, R91) are operands too: they take no part in selecting
the row, and the instruction's meaning reports `Unpredictable` when one has the other value (R95), so no bit of an
encoding is dropped. -/

namespace Sys2Proof

/-- The conditions of B<cond> (R121); the encodings `1110` and `1111` are UDF and SVC, not conditions. -/
inductive Cond where
  | eq | ne | cs | cc | mi | pl | vs | vc | hi | ls | ge | lt | gt | le
  deriving DecidableEq, Repr

/-- The instruction set (R82, R83, R85 to R91). Destination registers come first, as the assembler writes them. -/
inductive Instr where
  -- spec/41_shift_add_sub_mov_cmp.md
  | movsReg (rd rm : LowReg)
  | lslsImm (rd rm : LowReg) (imm5 : BitVec 5)
  | lsrsImm (rd rm : LowReg) (imm5 : BitVec 5)
  | asrsImm (rd rm : LowReg) (imm5 : BitVec 5)
  | addsReg (rd rn rm : LowReg)
  | subsReg (rd rn rm : LowReg)
  | addsImm3 (rd rn : LowReg) (imm3 : BitVec 3)
  | subsImm3 (rd rn : LowReg) (imm3 : BitVec 3)
  | movsImm8 (rd : LowReg) (imm8 : BitVec 8)
  | cmpImm8 (rn : LowReg) (imm8 : BitVec 8)
  | addsImm8 (rdn : LowReg) (imm8 : BitVec 8)
  | subsImm8 (rdn : LowReg) (imm8 : BitVec 8)
  -- spec/42_data_processing.md
  | ands (rdn rm : LowReg)
  | eors (rdn rm : LowReg)
  | lslsReg (rdn rm : LowReg)
  | lsrsReg (rdn rm : LowReg)
  | asrsReg (rdn rm : LowReg)
  | adcs (rdn rm : LowReg)
  | sbcs (rdn rm : LowReg)
  | rors (rdn rm : LowReg)
  | tst (rn rm : LowReg)
  | rsbs (rd rn : LowReg)
  | cmpReg (rn rm : LowReg)
  | cmn (rn rm : LowReg)
  | orrs (rdn rm : LowReg)
  | muls (rdm rn : LowReg)
  | bics (rdn rm : LowReg)
  | mvns (rd rm : LowReg)
  -- spec/43_special_data_bx.md
  | addHi (rdn rm : RegNum)
  | cmpHi (rn rm : RegNum)
  | movHi (rd rm : RegNum)
  | bx (rm : RegNum) (sbz : BitVec 3)
  | blx (rm : RegNum) (sbz : BitVec 3)
  -- spec/44_load_store.md
  | ldrLit (rt : LowReg) (imm8 : BitVec 8)
  | strReg (rt rn rm : LowReg)
  | strhReg (rt rn rm : LowReg)
  | strbReg (rt rn rm : LowReg)
  | ldrsbReg (rt rn rm : LowReg)
  | ldrReg (rt rn rm : LowReg)
  | ldrhReg (rt rn rm : LowReg)
  | ldrbReg (rt rn rm : LowReg)
  | ldrshReg (rt rn rm : LowReg)
  | strImm (rt rn : LowReg) (imm5 : BitVec 5)
  | ldrImm (rt rn : LowReg) (imm5 : BitVec 5)
  | strbImm (rt rn : LowReg) (imm5 : BitVec 5)
  | ldrbImm (rt rn : LowReg) (imm5 : BitVec 5)
  | strhImm (rt rn : LowReg) (imm5 : BitVec 5)
  | ldrhImm (rt rn : LowReg) (imm5 : BitVec 5)
  | strSp (rt : LowReg) (imm8 : BitVec 8)
  | ldrSp (rt : LowReg) (imm8 : BitVec 8)
  -- spec/45_misc16.md and spec/46_load_store_multiple.md
  | adr (rd : LowReg) (imm8 : BitVec 8)
  | addRdSp (rd : LowReg) (imm8 : BitVec 8)
  | addSp (imm7 : BitVec 7)
  | subSp (imm7 : BitVec 7)
  | sxth (rd rm : LowReg)
  | sxtb (rd rm : LowReg)
  | uxth (rd rm : LowReg)
  | uxtb (rd rm : LowReg)
  | push (m : BitVec 1) (list : BitVec 8)
  | cps (im : BitVec 1) (low : BitVec 4)
  | rev (rd rm : LowReg)
  | rev16 (rd rm : LowReg)
  | revsh (rd rm : LowReg)
  | pop (p : BitVec 1) (list : BitVec 8)
  | bkpt (imm8 : BitVec 8)
  | nop
  | yield
  | wfe
  | wfi
  | sev
  | hintRes (opA : BitVec 4)
  | stm (rn : LowReg) (list : BitVec 8)
  | ldm (rn : LowReg) (list : BitVec 8)
  -- spec/47_branch_svc.md
  | udf (imm8 : BitVec 8)
  | svc (imm8 : BitVec 8)
  | bcond (cond : Cond) (imm8 : BitVec 8)
  | b (imm11 : BitVec 11)
  -- spec/48_thumb32.md: the should-be bits are named by their place in `hw1:hw2`
  | bl (s : BitVec 1) (imm10 : BitVec 10) (j1 j2 : BitVec 1) (imm11 : BitVec 11)
  | msr (rn : RegNum) (sysm : BitVec 8) (b20 b13 : BitVec 1) (b11_8 : BitVec 4)
  | mrs (rd : RegNum) (sysm : BitVec 8) (b20 : BitVec 1) (b19_16 : BitVec 4) (b13 : BitVec 1)
  | dsb (option : BitVec 4) (b19_16 : BitVec 4) (b13 : BitVec 1) (b11_8 : BitVec 4)
  | dmb (option : BitVec 4) (b19_16 : BitVec 4) (b13 : BitVec 1) (b11_8 : BitVec 4)
  | isb (option : BitVec 4) (b19_16 : BitVec 4) (b13 : BitVec 1) (b11_8 : BitVec 4)
  | udfW (imm4 : BitVec 4) (imm12 : BitVec 12)
  deriving DecidableEq, Repr

end Sys2Proof
end

