-- ==== Sys2Proof/WellFormed.lean ====
section
/-! DEFINITION. Which instruction terms stand for an encoding of their own. The opcode table is read in file order
(spec/30_encoding.md R97), so two rows give up words to an earlier row: LSLS (immediate) with `imm5 = 0` is MOVS
(register) (R141), and a reserved hint with `opA` 0 to 4 is NOP, YIELD, WFE, WFI or SEV (R96, R228). Every other
operand value is an encoding; the operand combinations of R95 are encodings too and report `Unpredictable`. -/

namespace Sys2Proof

/-- R140, R141: `imm5 = 0` is the other row. -/
def shiftIsLsls (imm5 : BitVec 5) : Bool := imm5 != 0#5

/-- R96, R228: `opA` 5 to 15 are the reserved hints. -/
def hintIsReserved (opA : BitVec 4) : Bool := 5 ≤ opA.toNat

/-- The well-formed instructions: those the decoder can answer. -/
def Instr.wellFormed : Instr → Bool
  | .lslsImm _ _ imm5 => shiftIsLsls imm5
  | .hintRes opA => hintIsReserved opA
  | .movsReg .. | .lsrsImm .. | .asrsImm .. | .addsReg .. | .subsReg .. | .addsImm3 .. | .subsImm3 ..
  | .movsImm8 .. | .cmpImm8 .. | .addsImm8 .. | .subsImm8 .. | .ands .. | .eors .. | .lslsReg ..
  | .lsrsReg .. | .asrsReg .. | .adcs .. | .sbcs .. | .rors .. | .tst .. | .rsbs .. | .cmpReg .. | .cmn ..
  | .orrs .. | .muls .. | .bics .. | .mvns .. | .addHi .. | .cmpHi .. | .movHi .. | .bx .. | .blx ..
  | .ldrLit .. | .strReg .. | .strhReg .. | .strbReg .. | .ldrsbReg .. | .ldrReg .. | .ldrhReg ..
  | .ldrbReg .. | .ldrshReg .. | .strImm .. | .ldrImm .. | .strbImm .. | .ldrbImm .. | .strhImm ..
  | .ldrhImm .. | .strSp .. | .ldrSp .. | .adr .. | .addRdSp .. | .addSp .. | .subSp .. | .sxth .. | .sxtb ..
  | .uxth .. | .uxtb .. | .push .. | .cps .. | .rev .. | .rev16 .. | .revsh .. | .pop .. | .bkpt .. | .nop
  | .yield | .wfe | .wfi | .sev | .stm .. | .ldm .. | .udf .. | .svc .. | .bcond .. | .b .. | .bl ..
  | .msr .. | .mrs .. | .dsb .. | .dmb .. | .isb .. | .udfW .. => true

end Sys2Proof
end

