-- ==== Sys2Proof/Decode.lean ====
section
/-! DEFINITION. The decoder and, after it, the encoder, both from spec/30_encoding.md R80 to R96. The decoder follows
the partition of R84 "by successively narrower bitmasks": the top five bits choose a group, further bits the row. It
is total; what selects no row is refused by name (R94, R257). -/

namespace Sys2Proof

/-- R80: the halfword is the first of a 32-bit instruction iff its bits 15:11 are `11101`, `11110` or `11111`. -/
def isWide (hw1 : Half) : Bool :=
  let top := hw1.extractLsb' 11 5
  top == 0b11101#5 || top == 0b11110#5 || top == 0b11111#5

/-- The condition named by a 4-bit `cond` field (R121); `1110` and `1111` are UDF and SVC (R90). -/
def Cond.ofBits (c : BitVec 4) : Option Cond :=
  if c = 0b0000#4 then some .eq else if c = 0b0001#4 then some .ne
  else if c = 0b0010#4 then some .cs else if c = 0b0011#4 then some .cc
  else if c = 0b0100#4 then some .mi else if c = 0b0101#4 then some .pl
  else if c = 0b0110#4 then some .vs else if c = 0b0111#4 then some .vc
  else if c = 0b1000#4 then some .hi else if c = 0b1001#4 then some .ls
  else if c = 0b1010#4 then some .ge else if c = 0b1011#4 then some .lt
  else if c = 0b1100#4 then some .gt else if c = 0b1101#4 then some .le
  else none

/-- R85: group `00`, by `hw1[13:11]` and, for `011`, `hw1[10:9]`. -/
def decodeShiftAddSubMovCmp (h : Half) : Option Instr :=
  let op := h.extractLsb' 11 3
  let r0 := h.extractLsb' 0 3
  let r3 := h.extractLsb' 3 3
  let r6 := h.extractLsb' 6 3
  let r8 := h.extractLsb' 8 3
  let imm5 := h.extractLsb' 6 5
  let imm8 := h.extractLsb' 0 8
  if op = 0b000#3 then
    if imm5 = 0#5 then some (.movsReg r0 r3) else some (.lslsImm r0 r3 imm5)
  else if op = 0b001#3 then some (.lsrsImm r0 r3 imm5)
  else if op = 0b010#3 then some (.asrsImm r0 r3 imm5)
  else if op = 0b011#3 then
    let sub := h.extractLsb' 9 2
    if sub = 0b00#2 then some (.addsReg r0 r3 r6)
    else if sub = 0b01#2 then some (.subsReg r0 r3 r6)
    else if sub = 0b10#2 then some (.addsImm3 r0 r3 r6)
    else some (.subsImm3 r0 r3 r6)
  else if op = 0b100#3 then some (.movsImm8 r8 imm8)
  else if op = 0b101#3 then some (.cmpImm8 r8 imm8)
  else if op = 0b110#3 then some (.addsImm8 r8 imm8)
  else some (.subsImm8 r8 imm8)

/-- R86: group `010000`, by `opc = hw1[9:6]`. -/
def decodeDataProcessing (h : Half) : Option Instr :=
  let opc := h.extractLsb' 6 4
  let d := h.extractLsb' 0 3
  let m := h.extractLsb' 3 3
  if opc = 0b0000#4 then some (.ands d m)
  else if opc = 0b0001#4 then some (.eors d m)
  else if opc = 0b0010#4 then some (.lslsReg d m)
  else if opc = 0b0011#4 then some (.lsrsReg d m)
  else if opc = 0b0100#4 then some (.asrsReg d m)
  else if opc = 0b0101#4 then some (.adcs d m)
  else if opc = 0b0110#4 then some (.sbcs d m)
  else if opc = 0b0111#4 then some (.rors d m)
  else if opc = 0b1000#4 then some (.tst d m)
  else if opc = 0b1001#4 then some (.rsbs d m)
  else if opc = 0b1010#4 then some (.cmpReg d m)
  else if opc = 0b1011#4 then some (.cmn d m)
  else if opc = 0b1100#4 then some (.orrs d m)
  else if opc = 0b1101#4 then some (.muls d m)
  else if opc = 0b1110#4 then some (.bics d m)
  else some (.mvns d m)

/-- R87: group `010001`, by `hw1[9:8]` and, for `11`, `hw1[7]`; the 4-bit register is `D:R` (R82, F-HI). -/
def decodeSpecial (h : Half) : Option Instr :=
  let op := h.extractLsb' 8 2
  let d : RegNum := h.extractLsb' 7 1 ++ h.extractLsb' 0 3
  let m : RegNum := h.extractLsb' 3 4
  if op = 0b00#2 then some (.addHi d m)
  else if op = 0b01#2 then some (.cmpHi d m)
  else if op = 0b10#2 then some (.movHi d m)
  else if h.extractLsb' 7 1 = 0#1 then some (.bx m (h.extractLsb' 0 3))
  else some (.blx m (h.extractLsb' 0 3))

/-- R88: loads and stores with a register offset, `0101`, by `opB = hw1[11:9]`. -/
def decodeLoadStoreReg (h : Half) : Option Instr :=
  let opB := h.extractLsb' 9 3
  let t := h.extractLsb' 0 3
  let n := h.extractLsb' 3 3
  let m := h.extractLsb' 6 3
  if opB = 0b000#3 then some (.strReg t n m)
  else if opB = 0b001#3 then some (.strhReg t n m)
  else if opB = 0b010#3 then some (.strbReg t n m)
  else if opB = 0b011#3 then some (.ldrsbReg t n m)
  else if opB = 0b100#3 then some (.ldrReg t n m)
  else if opB = 0b101#3 then some (.ldrhReg t n m)
  else if opB = 0b110#3 then some (.ldrbReg t n m)
  else some (.ldrshReg t n m)

/-- R96: the hint space `10111111 opA opB`. -/
def decodeHint (h : Half) : Option Instr :=
  let opA := h.extractLsb' 4 4
  if h.extractLsb' 0 4 = 0#4 then
    if opA = 0#4 then some .nop
    else if opA = 1#4 then some .yield
    else if opA = 2#4 then some .wfe
    else if opA = 3#4 then some .wfi
    else if opA = 4#4 then some .sev
    else some (.hintRes opA)
  else none

/-- R89: the miscellaneous group `1011`, by `hw1[11:8]` and narrower fields. -/
def decodeMisc (h : Half) : Option Instr :=
  let op := h.extractLsb' 8 4
  let d := h.extractLsb' 0 3
  let m := h.extractLsb' 3 3
  let imm8 := h.extractLsb' 0 8
  if op = 0b0000#4 then
    if h.extractLsb' 7 1 = 0#1 then some (.addSp (h.extractLsb' 0 7)) else some (.subSp (h.extractLsb' 0 7))
  else if op = 0b0010#4 then
    let sub := h.extractLsb' 6 2
    if sub = 0b00#2 then some (.sxth d m)
    else if sub = 0b01#2 then some (.sxtb d m)
    else if sub = 0b10#2 then some (.uxth d m)
    else some (.uxtb d m)
  else if op = 0b0100#4 then some (.push 0#1 imm8)
  else if op = 0b0101#4 then some (.push 1#1 imm8)
  else if op = 0b0110#4 then
    if h.extractLsb' 5 3 = 0b011#3 then some (.cps (h.extractLsb' 4 1) (h.extractLsb' 0 4)) else none
  else if op = 0b1010#4 then
    let sub := h.extractLsb' 6 2
    if sub = 0b00#2 then some (.rev d m)
    else if sub = 0b01#2 then some (.rev16 d m)
    else if sub = 0b11#2 then some (.revsh d m)
    else none
  else if op = 0b1100#4 then some (.pop 0#1 imm8)
  else if op = 0b1101#4 then some (.pop 1#1 imm8)
  else if op = 0b1110#4 then some (.bkpt imm8)
  else if op = 0b1111#4 then decodeHint h
  else none

/-- R90: group `1101`: UDF and SVC stand before B<cond> in the table. -/
def decodeCondBranch (h : Half) : Option Instr :=
  let cond := h.extractLsb' 8 4
  let imm8 := h.extractLsb' 0 8
  if cond = 0b1110#4 then some (.udf imm8)
  else if cond = 0b1111#4 then some (.svc imm8)
  else (Cond.ofBits cond).map (fun c => .bcond c imm8)

/-- R84: a 16-bit instruction, by its top bits; `none` is `Undefined` (R94). -/
def decode16 (h : Half) : Option Instr :=
  let top := h.extractLsb' 11 5
  let r0 := h.extractLsb' 0 3
  let r3 := h.extractLsb' 3 3
  let r8 := h.extractLsb' 8 3
  let imm5 := h.extractLsb' 6 5
  let imm8 := h.extractLsb' 0 8
  if h.extractLsb' 14 2 = 0b00#2 then decodeShiftAddSubMovCmp h
  else if top = 0b01000#5 then
    if h.extractLsb' 10 1 = 0#1 then decodeDataProcessing h else decodeSpecial h
  else if top = 0b01001#5 then some (.ldrLit r8 imm8)
  else if h.extractLsb' 12 4 = 0b0101#4 then decodeLoadStoreReg h
  else if top = 0b01100#5 then some (.strImm r0 r3 imm5)
  else if top = 0b01101#5 then some (.ldrImm r0 r3 imm5)
  else if top = 0b01110#5 then some (.strbImm r0 r3 imm5)
  else if top = 0b01111#5 then some (.ldrbImm r0 r3 imm5)
  else if top = 0b10000#5 then some (.strhImm r0 r3 imm5)
  else if top = 0b10001#5 then some (.ldrhImm r0 r3 imm5)
  else if top = 0b10010#5 then some (.strSp r8 imm8)
  else if top = 0b10011#5 then some (.ldrSp r8 imm8)
  else if top = 0b10100#5 then some (.adr r8 imm8)
  else if top = 0b10101#5 then some (.addRdSp r8 imm8)
  else if h.extractLsb' 12 4 = 0b1011#4 then decodeMisc h
  else if top = 0b11000#5 then some (.stm r8 imm8)
  else if top = 0b11001#5 then some (.ldm r8 imm8)
  else if h.extractLsb' 12 4 = 0b1101#4 then decodeCondBranch h
  else if top = 0b11100#5 then some (.b (h.extractLsb' 0 11))
  else none

/-- R83, R91: a 32-bit instruction `hw1:hw2`; `none` is `Undefined` (R257). Only the selecting bits are tested. -/
def decode32 (h1 h2 : Half) : Option Instr :=
  let b19_16 := h1.extractLsb' 0 4
  let b13 := h2.extractLsb' 13 1
  let b11_8 := h2.extractLsb' 8 4
  if h1.extractLsb' 11 5 = 0b11110#5 then
    if h2.extractLsb' 14 2 = 0b11#2 then
      if h2.extractLsb' 12 1 = 1#1 then
        some (.bl (h1.extractLsb' 10 1) (h1.extractLsb' 0 10) b13 (h2.extractLsb' 11 1) (h2.extractLsb' 0 11))
      else none
    else if h2.extractLsb' 14 2 = 0b10#2 ∧ h2.extractLsb' 12 1 = 0#1 then
      if h1.extractLsb' 5 6 = 0b011100#6 then
        some (.msr b19_16 (h2.extractLsb' 0 8) (h1.extractLsb' 4 1) b13 b11_8)
      else if h1.extractLsb' 5 6 = 0b011111#6 then
        some (.mrs b11_8 (h2.extractLsb' 0 8) (h1.extractLsb' 4 1) b19_16 b13)
      else if h1.extractLsb' 4 7 = 0b0111011#7 then
        let op := h2.extractLsb' 4 4
        if op = 0b0100#4 then some (.dsb (h2.extractLsb' 0 4) b19_16 b13 b11_8)
        else if op = 0b0101#4 then some (.dmb (h2.extractLsb' 0 4) b19_16 b13 b11_8)
        else if op = 0b0110#4 then some (.isb (h2.extractLsb' 0 4) b19_16 b13 b11_8)
        else none
      else if h1.extractLsb' 4 7 = 0b1111111#7 ∧ b13 = 1#1 then some (.udfW b19_16 (h2.extractLsb' 0 12))
      else none
    else none
  else none

/-- What a fetch delivers (R59): one halfword, or two for a 32-bit instruction. -/
inductive Fetched where
  | narrow (hw1 : Half)
  | wide (hw1 hw2 : Half)
  deriving DecidableEq, Repr

/-- The decoder on fetched halfwords: `none` means no row is selected, which the step reports as `Undefined` (R97). -/
def decodeFetched : Fetched → Option Instr
  | .narrow h => decode16 h
  | .wide h1 h2 => decode32 h1 h2

/-- Why bytes are no instruction. -/
inductive DecodeError where
  /-- Fewer bytes than the instruction needs. -/
  | truncated
  /-- A 16-bit encoding that selects no row (R94). -/
  | undefined16 (hw1 : Half)
  /-- A 32-bit encoding that selects no row (R257). -/
  | undefined32 (hw1 hw2 : Half)
  deriving DecidableEq, Repr

/-- R53: the halfword whose bits 7:0 stand in the byte at the lower address. -/
def halfOfBytes (lo hi : Byte) : Half := hi ++ lo

/-- The decoder on bytes in ascending address order (R53, R80, R81): the instruction and the bytes behind it. -/
def decodeBytes : List Byte → Except DecodeError (Instr × List Byte)
  | b0 :: b1 :: rest =>
    let h1 := halfOfBytes b0 b1
    if isWide h1 then
      match rest with
      | b2 :: b3 :: rest' =>
        let h2 := halfOfBytes b2 b3
        match decode32 h1 h2 with
        | some i => .ok (i, rest')
        | none => .error (.undefined32 h1 h2)
      | _ => .error .truncated
    else
      match decode16 h1 with
      | some i => .ok (i, rest)
      | none => .error (.undefined16 h1)
  | _ => .error .truncated

/-- The bytes of one halfword, the lower address first (R53). -/
def bytesOfHalf (h : Half) : List Byte := [h.extractLsb' 0 8, h.extractLsb' 8 8]

/-- The first and second halfword of an instruction whose bits are `w` as the opcode table numbers them: a 16-bit row
is the halfword itself, with zeros behind it; a 32-bit row is the number `hw1:hw2` with `hw1` in bits 31:16 (R81, R97). -/
def tableHalves (nbits w : Nat) : Half × Half :=
  if nbits ≤ 16 then (BitVec.ofNat 16 w, 0#16) else (BitVec.ofNat 16 (w >>> 16), BitVec.ofNat 16 w)

/-- The bytes a table word stands for in memory, in ascending address order (R53, R81). -/
def tableBytes (nbits w : Nat) : List Byte :=
  let (h1, h2) := tableHalves nbits w
  bytesOfHalf h1 ++ bytesOfHalf h2

/-- The instruction the decoder reads from a word of the opcode table. -/
def decodeTableWord (nbits w : Nat) : Option Instr :=
  match decodeBytes (tableBytes nbits w) with
  | .ok (i, _) => some i
  | .error _ => none

/-! ## The encoder -/

/-- The 4-bit `cond` field of a condition (R121). -/
def Cond.bits : Cond → BitVec 4
  | .eq => 0b0000#4 | .ne => 0b0001#4 | .cs => 0b0010#4 | .cc => 0b0011#4
  | .mi => 0b0100#4 | .pl => 0b0101#4 | .vs => 0b0110#4 | .vc => 0b0111#4
  | .hi => 0b1000#4 | .ls => 0b1001#4 | .ge => 0b1010#4 | .lt => 0b1011#4
  | .gt => 0b1100#4 | .le => 0b1101#4

/-- The fields of a halfword, bit 15 leftmost, as a halfword: every use below has 16 bits. -/
def toHalf {w : Nat} (x : BitVec w) : Half := x.setWidth 16

/-- The F-DP word `010000 opc Rm Rdn` (R82, R86). -/
def encodeDp (opc : BitVec 4) (d m : LowReg) : Half := toHalf (0b010000#6 ++ opc ++ m ++ d)

/-- The F-HI word `010001 opc D Rm R` (R82, R87). -/
def encodeHi (opc : BitVec 2) (d m : RegNum) : Half :=
  toHalf (0b010001#6 ++ opc ++ d.extractLsb' 3 1 ++ m ++ d.extractLsb' 0 3)

/-- The F-LSR word `0101 opB Rm Rn Rt` (R82, R88). -/
def encodeLsr (opB : BitVec 3) (t n m : LowReg) : Half := toHalf (0b0101#4 ++ opB ++ m ++ n ++ t)

/-- The F-SHI and F-LSI words `op imm5 R3 R0` (R82). -/
def encodeI5 (op : BitVec 5) (imm5 : BitVec 5) (r3 r0 : LowReg) : Half := toHalf (op ++ imm5 ++ r3 ++ r0)

/-- The F-AS3 and F-AI3 words `op R6 R3 R0` (R82). -/
def encodeR3 (op : BitVec 7) (r6 r3 r0 : BitVec 3) : Half := toHalf (op ++ r6 ++ r3 ++ r0)

/-- The F-I8 and F-LSM words `op R imm8` (R82). -/
def encodeI8 (op : BitVec 5) (r : LowReg) (imm8 : BitVec 8) : Half := toHalf (op ++ r ++ imm8)

/-- The F-RR word `op Rm Rd` (R82). -/
def encodeRR (op : BitVec 10) (d m : LowReg) : Half := toHalf (op ++ m ++ d)

/-- The F-X8 word `op imm8` (R82). -/
def encodeX8 (op : BitVec 8) (imm8 : BitVec 8) : Half := toHalf (op ++ imm8)

/-- The two halfwords of a barrier (R83, F-BAR). -/
def encodeBarrier (op option b19_16 : BitVec 4) (b13 : BitVec 1) (b11_8 : BitVec 4) : List Half :=
  [toHalf (0b111100111011#12 ++ b19_16), toHalf (0b10#2 ++ b13 ++ 0#1 ++ b11_8 ++ op ++ option)]

/-- The halfwords of an instruction, first halfword first (R82 to R91). -/
def encode : Instr → List Half
  | .movsReg rd rm => [encodeI5 0b00000#5 0#5 rm rd]
  | .lslsImm rd rm imm5 => [encodeI5 0b00000#5 imm5 rm rd]
  | .lsrsImm rd rm imm5 => [encodeI5 0b00001#5 imm5 rm rd]
  | .asrsImm rd rm imm5 => [encodeI5 0b00010#5 imm5 rm rd]
  | .addsReg rd rn rm => [encodeR3 0b0001100#7 rm rn rd]
  | .subsReg rd rn rm => [encodeR3 0b0001101#7 rm rn rd]
  | .addsImm3 rd rn imm3 => [encodeR3 0b0001110#7 imm3 rn rd]
  | .subsImm3 rd rn imm3 => [encodeR3 0b0001111#7 imm3 rn rd]
  | .movsImm8 rd imm8 => [encodeI8 0b00100#5 rd imm8]
  | .cmpImm8 rn imm8 => [encodeI8 0b00101#5 rn imm8]
  | .addsImm8 rdn imm8 => [encodeI8 0b00110#5 rdn imm8]
  | .subsImm8 rdn imm8 => [encodeI8 0b00111#5 rdn imm8]
  | .ands rdn rm => [encodeDp 0b0000#4 rdn rm]
  | .eors rdn rm => [encodeDp 0b0001#4 rdn rm]
  | .lslsReg rdn rm => [encodeDp 0b0010#4 rdn rm]
  | .lsrsReg rdn rm => [encodeDp 0b0011#4 rdn rm]
  | .asrsReg rdn rm => [encodeDp 0b0100#4 rdn rm]
  | .adcs rdn rm => [encodeDp 0b0101#4 rdn rm]
  | .sbcs rdn rm => [encodeDp 0b0110#4 rdn rm]
  | .rors rdn rm => [encodeDp 0b0111#4 rdn rm]
  | .tst rn rm => [encodeDp 0b1000#4 rn rm]
  | .rsbs rd rn => [encodeDp 0b1001#4 rd rn]
  | .cmpReg rn rm => [encodeDp 0b1010#4 rn rm]
  | .cmn rn rm => [encodeDp 0b1011#4 rn rm]
  | .orrs rdn rm => [encodeDp 0b1100#4 rdn rm]
  | .muls rdm rn => [encodeDp 0b1101#4 rdm rn]
  | .bics rdn rm => [encodeDp 0b1110#4 rdn rm]
  | .mvns rd rm => [encodeDp 0b1111#4 rd rm]
  | .addHi rdn rm => [encodeHi 0b00#2 rdn rm]
  | .cmpHi rn rm => [encodeHi 0b01#2 rn rm]
  | .movHi rd rm => [encodeHi 0b10#2 rd rm]
  | .bx rm sbz => [toHalf (0b010001110#9 ++ rm ++ sbz)]
  | .blx rm sbz => [toHalf (0b010001111#9 ++ rm ++ sbz)]
  | .ldrLit rt imm8 => [encodeI8 0b01001#5 rt imm8]
  | .strReg rt rn rm => [encodeLsr 0b000#3 rt rn rm]
  | .strhReg rt rn rm => [encodeLsr 0b001#3 rt rn rm]
  | .strbReg rt rn rm => [encodeLsr 0b010#3 rt rn rm]
  | .ldrsbReg rt rn rm => [encodeLsr 0b011#3 rt rn rm]
  | .ldrReg rt rn rm => [encodeLsr 0b100#3 rt rn rm]
  | .ldrhReg rt rn rm => [encodeLsr 0b101#3 rt rn rm]
  | .ldrbReg rt rn rm => [encodeLsr 0b110#3 rt rn rm]
  | .ldrshReg rt rn rm => [encodeLsr 0b111#3 rt rn rm]
  | .strImm rt rn imm5 => [encodeI5 0b01100#5 imm5 rn rt]
  | .ldrImm rt rn imm5 => [encodeI5 0b01101#5 imm5 rn rt]
  | .strbImm rt rn imm5 => [encodeI5 0b01110#5 imm5 rn rt]
  | .ldrbImm rt rn imm5 => [encodeI5 0b01111#5 imm5 rn rt]
  | .strhImm rt rn imm5 => [encodeI5 0b10000#5 imm5 rn rt]
  | .ldrhImm rt rn imm5 => [encodeI5 0b10001#5 imm5 rn rt]
  | .strSp rt imm8 => [encodeI8 0b10010#5 rt imm8]
  | .ldrSp rt imm8 => [encodeI8 0b10011#5 rt imm8]
  | .adr rd imm8 => [encodeI8 0b10100#5 rd imm8]
  | .addRdSp rd imm8 => [encodeI8 0b10101#5 rd imm8]
  | .addSp imm7 => [toHalf (0b101100000#9 ++ imm7)]
  | .subSp imm7 => [toHalf (0b101100001#9 ++ imm7)]
  | .sxth rd rm => [encodeRR 0b1011001000#10 rd rm]
  | .sxtb rd rm => [encodeRR 0b1011001001#10 rd rm]
  | .uxth rd rm => [encodeRR 0b1011001010#10 rd rm]
  | .uxtb rd rm => [encodeRR 0b1011001011#10 rd rm]
  | .push m list => [toHalf (0b1011010#7 ++ m ++ list)]
  | .cps im low => [toHalf (0b10110110011#11 ++ im ++ low)]
  | .rev rd rm => [encodeRR 0b1011101000#10 rd rm]
  | .rev16 rd rm => [encodeRR 0b1011101001#10 rd rm]
  | .revsh rd rm => [encodeRR 0b1011101011#10 rd rm]
  | .pop p list => [toHalf (0b1011110#7 ++ p ++ list)]
  | .bkpt imm8 => [encodeX8 0b10111110#8 imm8]
  | .nop => [0xBF00#16]
  | .yield => [0xBF10#16]
  | .wfe => [0xBF20#16]
  | .wfi => [0xBF30#16]
  | .sev => [0xBF40#16]
  | .hintRes opA => [toHalf (0xBF#8 ++ opA ++ 0#4)]
  | .stm rn list => [encodeI8 0b11000#5 rn list]
  | .ldm rn list => [encodeI8 0b11001#5 rn list]
  | .udf imm8 => [encodeX8 0b11011110#8 imm8]
  | .svc imm8 => [encodeX8 0b11011111#8 imm8]
  | .bcond cond imm8 => [toHalf (0b1101#4 ++ cond.bits ++ imm8)]
  | .b imm11 => [toHalf (0b11100#5 ++ imm11)]
  | .bl s imm10 j1 j2 imm11 => [toHalf (0b11110#5 ++ s ++ imm10), toHalf (0b11#2 ++ j1 ++ 1#1 ++ j2 ++ imm11)]
  | .msr rn sysm b20 b13 b11_8 =>
    [toHalf (0b11110011100#11 ++ b20 ++ rn), toHalf (0b10#2 ++ b13 ++ 0#1 ++ b11_8 ++ sysm)]
  | .mrs rd sysm b20 b19_16 b13 =>
    [toHalf (0b11110011111#11 ++ b20 ++ b19_16), toHalf (0b10#2 ++ b13 ++ 0#1 ++ rd ++ sysm)]
  | .dsb option b19_16 b13 b11_8 => encodeBarrier 0b0100#4 option b19_16 b13 b11_8
  | .dmb option b19_16 b13 b11_8 => encodeBarrier 0b0101#4 option b19_16 b13 b11_8
  | .isb option b19_16 b13 b11_8 => encodeBarrier 0b0110#4 option b19_16 b13 b11_8
  | .udfW imm4 imm12 => [toHalf (0b111101111111#12 ++ imm4), toHalf (0b1010#4 ++ imm12)]

/-- The bytes of an instruction in ascending address order (R53, R81). -/
def encodeBytes (i : Instr) : List Byte := (encode i).flatMap bytesOfHalf

end Sys2Proof
end

