-- ==== Sys2Proof/Machine/State.lean ====
section
/-! DEFINITION. The state of the machine as plain data, and its value at reset. Three parts of spec/ name it: the CPU
context (spec/10_state.md R20 to R33), the run loop and the packet engine (R35, R36), and what stands outside the
block but decides what it does (R37, R41): memory, regions, watchpoints and the latch, the comm channel, the preempt
predicate, the stop request and the host's commands. The last group is the launch-state argument and the input of the
spec; it is data here so that every statement quantifies over it. -/

namespace Sys2Proof.Machine

/-- The CPU context (R20): "the simulator's complete architectural state". The transient of R33 (`hw1`, `hw2`,
`inst_addr`, `next_pc`, pending writes) exists only within one step and is a value of the step function. -/
structure Context where
  /-- R0 to R12 (R21). -/
  r : Vector Word 13
  /-- SP, the main stack pointer, register 13 (R22). -/
  sp : Word
  /-- LR, the link register, register 14 (R23). -/
  lr : Word
  /-- PC: between steps the address of the next instruction to fetch (R25). -/
  pc : Word
  /-- xPSR (R26): N 31, Z 30, C 29, V 28, T 24, IPSR 5:0, the other bits reserved (R30). -/
  xpsr : Word
  /-- PRIMASK, 1 bit (R32). -/
  primask : BitVec 1
  deriving DecidableEq, Repr

/-! ## The memory port and the platform behind it -/

/-- The size of a memory request (R51). -/
inductive Width where
  | byte | half | word
  deriving DecidableEq, Repr

/-- The kind of a memory request (R51). A fetch is a read: "ordinary reads on the port" (R59). -/
inductive AccessKind where
  | read | write
  deriving DecidableEq, Repr

/-- What a request accesses (R51). -/
structure Access where
  kind : AccessKind
  width : Width
  addr : Word
  deriving DecidableEq, Repr

/-- The two responses of the port (R52). -/
inductive Response where
  | ok | busError
  deriving DecidableEq, Repr

/-- One request on the port and its response (R51, R52). `data` is the value written, or the value read (zero when
the read answered `BusError`). -/
structure PortEvent where
  access : Access
  data : Word
  response : Response
  deriving DecidableEq, Repr

/-- The kinds of watchpoint (R65). -/
inductive WatchKind where
  | read | write | readWrite | breakpoint
  deriving DecidableEq, Repr

/-- A watchpoint `{kind, startAddress, endAddress}` (R65). `matched` is the MODEL's own field: which accesses the
backend's matching rule takes as inside the watched range. The spec leaves that rule to the backend, an oracle to be
quantified over (spec/91 N9, N15; spec/93 row 18); here it is data (assumption 8), and it is consulted only for accesses
to the region whose list holds the watchpoint (DESIGN CHOICE, unsafe: assumption 8). -/
structure Watchpoint where
  kind : WatchKind
  startAddress : Word
  endAddress : Word
  matched : List Access
  deriving DecidableEq, Repr

/-- A memory region `[base, base+size)` with its read-only flag and its watchpoints (R64, R65). -/
structure Region where
  base : Word
  size : Nat
  readOnly : Bool
  watchpoints : List Watchpoint
  deriving DecidableEq, Repr

/-- The content of memory: address and byte pairs, addresses strictly rising, no byte equal to what an unlisted
address reads as (`Memory.wf` in Ops.lean). -/
abbrev Memory := List Host.Cell

/-- The memory port and the backend behind it (R37, R51, R64, R65). -/
structure Bus where
  /-- The declared regions, `REGIONS` (R5, R64). -/
  regions : List Region
  /-- The content of memory (R37). -/
  mem : Memory
  /-- The "was a watchpoint hit since last check" latch (R37, R65). -/
  latch : Bool
  /-- The requests of the current or latest step, in the order issued (R61): the output side of the port of R6.
  The MODEL's own record of that output; no transition reads it (assumption 7). -/
  port : List PortEvent
  deriving DecidableEq, Repr

/-! ## The run loop -/

/-- The run loop's states (R35, R260). -/
inductive RunState where
  | stopped | running
  deriving DecidableEq, Repr

/-- An answer of the preempt predicate (R262). -/
inductive Preempt where
  | ok | interrupt | watchpoint
  deriving DecidableEq, Repr

/-- The registers of the wire view, in its order (R39): R0 to R12, SP, LR, PC, xPSR. -/
inductive HostReg where
  | r (i : Fin 13) | sp | lr | pc | xpsr
  deriving DecidableEq, Repr

/-- One call of a caller-supplied predicate (R262): its answer; whether it consumes the watchpoint latch ("the
predicate may have side effects outside the block"); and the registers it writes, for it "is given the context and
could in principle change it" (assumption 9). -/
structure PredicateCall where
  answer : Preempt
  clearsLatch : Bool
  writes : List (HostReg × Word)
  deriving DecidableEq, Repr

/-- The preempt input (R262): the reference predicate of R263, or a caller's own, given as the calls it will answer,
oldest first (spec/93 row 21). -/
inductive Predicate where
  | reference
  | scripted (calls : List PredicateCall)
  deriving DecidableEq, Repr

/-! ## The packet engine -/

/-- The payload buffer (R271): capacity `PKT_CAP`, the content `data[0 .. len-1]`, the read position and the flags. -/
structure Buffer where
  cap : Nat
  data : List Byte
  rpos : Nat
  overrun : Bool
  hexerr : Bool
  deriving DecidableEq, Repr

/-- The packet state (R36, R272): `last`, `expected` and, under the name `sum`, the running checksum `calc`. -/
structure Packet where
  last : Byte
  expected : Byte
  sum : Byte
  deriving DecidableEq, Repr

/-- Where the packet engine is: idle, or inside `packetGet` (R276) or `packetSend` (R285). `check2` holds the first
checksum character; `reply` whether the packet was valid, ACK or NAK being sent next; `sendPayload` the index of the next
payload byte, the payload's length standing for `#`. -/
inductive EnginePhase where
  | idle
  | scan | capture | check1 | check2 (d1 : Byte) | reply (valid : Bool) | more
  | sendStart | sendPayload (i : Nat) | sendHigh | sendLow | wait
  deriving DecidableEq, Repr

/-- The comm channel (R37, R270): `rx` the received bytes queued, oldest first; `arrivals` the bytes that arrive
later, one batch for each transition that polls or receives (an input); `tx` the bytes sent, oldest first. -/
structure Comm where
  rx : List Byte
  arrivals : List (List Byte)
  tx : List Byte
  deriving DecidableEq, Repr

/-! ## The host -/

/-- What the host can ask for while the block is Stopped: the commands of R6 and R7, its reads and writes of the context
(R38, R295) and of memory (R72: "steps of the host, taken only while the run loop is Stopped"), the payload it gives
`packetSend` (R271), and the platform's own changes of regions and watchpoints (R64, R65). -/
inductive Command where
  | step
  | run
  | packetGet
  | packetSend
  | readReg (k : HostReg)
  | readPrimask
  | readAll
  | writeReg (k : HostReg) (v : Word)
  | writePrimask (v : Word)
  | writeAll (words : Vector Word 17)
  | readMem (addr : Word) (count : Nat)
  | writeMem (addr : Word) (bytes : List Byte)
  | loadBuffer (bytes : List Byte)
  | declareRegion (base : Word) (size : Nat) (readOnly : Bool)
  | addWatchpoint (w : Watchpoint)
  | removeWatchpoint (kind : WatchKind) (startAddress endAddress : Word)
  deriving DecidableEq, Repr

/-- What a host command answers to the host: the value of a register or of PRIMASK, the seventeen words of the wire view
(R39), the bytes read from memory or the refusal of the read (R72), and what became of a watchpoint to be added (R65:
"insertion finds the sorted slot or reports 'already present'"). -/
inductive HostReply where
  | word (v : Word)
  | registers (words : Vector Word 17)
  | memory (bytes : List Byte)
  | busError
  | added | alreadyPresent | noRegion
  deriving DecidableEq, Repr

/-- Why the machine can stop without a next state. -/
inductive Fault where
  /-- Raised by the packet engine when `receiveChar` has no byte queued and none will ever arrive: the call "never
  completes" (R270, R337; spec/93 row 26: stuck). Safe: the model stops where the block waits for ever. -/
  | receiveBlocked
  deriving DecidableEq, Repr

/-- Why an instruction has no meaning. -/
inductive Refusal where
  /-- Raised by `exec` for an instruction of the table without a meaning in this model; no arm does. Safe. -/
  | notModelled (mnemonic : String)
  deriving DecidableEq, Repr

/-- The whole state. -/
structure State where
  /-- The CPU context (R20). -/
  ctx : Context
  /-- The memory port and the platform (R37). -/
  bus : Bus
  /-- The result port (R6): the code the latest step, predicate or stop request delivered; none before the first
  (assumption 6). -/
  result : Option StepResult
  /-- The run loop's one bit (R35). -/
  loop : RunState
  /-- The preempt input (R41, R262). -/
  predicate : Predicate
  /-- The stop request, one value for each coming run-loop iteration; 0 when the list is used up (R41, R264). -/
  stops : List Bool
  /-- The packet engine's place in its command (R276, R285). -/
  engine : EnginePhase
  /-- `last`, `expected`, `calc` (R36). -/
  packet : Packet
  /-- The payload buffer (R271). -/
  buffer : Buffer
  /-- The comm channel (R37, R270). -/
  comm : Comm
  /-- The host's coming commands; when there is none and the block is Stopped, the host issues `step`
  (assumption 5). -/
  commands : List Command
  /-- The answer to the host's latest command that has one (R38, R65, R72): the output side of the host's access
  (assumption 26). -/
  reply : Option HostReply
  deriving DecidableEq, Repr

/-- The context after reset (R40): T = 1, every other xPSR bit and PRIMASK 0; the registers the spec leaves
unspecified hold `Config.launchWord` (assumption 1). -/
def Context.reset : Context where
  r := Vector.replicate 13 Config.launchWord
  sp := Config.launchWord
  lr := Config.launchWord
  pc := Config.launchWord
  xpsr := 0x01000000#32
  primask := 0#1

/-- The platform after reset: no region declared, no watchpoint, nothing written, the latch clear (assumption 2). -/
def Bus.reset : Bus where
  regions := []
  mem := []
  latch := false
  port := []

/-- The machine right after reset (R40, R330, R332): the run loop Stopped, the packet engine idle. The caller's buffer has
no launch value in the spec: its capacity, its empty content, its read position 0 and its clear flags are the model's
(assumption 4). -/
def State.reset : State where
  ctx := Context.reset
  bus := Bus.reset
  result := none
  loop := .stopped
  predicate := .reference
  stops := []
  engine := .idle
  packet := ⟨0#8, 0#8, 0#8⟩
  buffer := ⟨Config.launchPktCap, [], 0, false, false⟩
  comm := ⟨[], [], []⟩
  commands := []
  reply := none

end Sys2Proof.Machine
end

