-- ==== Sys2Proof/Machine/Ops.lean ====
section
/-! DEFINITION. The named operations over memory, the memory port and the registers, and the two ways a step ends:
`State.finish` and `State.raise` (spec/00_scope.md R10 to R12, spec/20_memory.md, spec/60_exceptions.md R301). -/

namespace Sys2Proof.Machine

/-! ## Bit fields -/

/-- `Align4(x)` (R9). -/
def align4 (x : Word) : Word := x &&& 0xFFFFFFFC#32

/-- The address a PC write stores: bit 0 cleared (R25, R113). -/
def clearBit0 (x : Word) : Word := x &&& 0xFFFFFFFE#32

/-- `x` with bit `i` set to `b`. -/
def setBit (x : Word) (i : Nat) (b : Bool) : Word :=
  if b then x ||| BitVec.twoPow 32 i else x &&& ~~~(BitVec.twoPow 32 i)

/-- `sext_32` of the low byte (R9). -/
def sextByte (x : Word) : Word := (x.setWidth 8).signExtend 32

/-- `sext_32` of the low halfword (R9). -/
def sextHalf (x : Word) : Word := (x.setWidth 16).signExtend 32

/-! ## The content of memory (R50, R53) -/

/-- The byte at an address. -/
def Memory.readByte : Memory → Nat → Byte
  | [], _ => Config.unwrittenByte
  | (k, v) :: m, a => if k = a then v else Memory.readByte m a

/-- The memory with the byte at `a` changed to `v`; the canonical form is kept (`Memory.wf`). -/
def Memory.writeByte : Memory → Nat → Byte → Memory
  | [], a, v => if v = Config.unwrittenByte then [] else [(a, v)]
  | (k, w) :: m, a, v =>
    if a < k then if v = Config.unwrittenByte then (k, w) :: m else (a, v) :: (k, w) :: m
    else if a = k then if v = Config.unwrittenByte then m else (a, v) :: m
    else (k, w) :: Memory.writeByte m a v

/-- Every listed address is at least `lo` and inside the address space, the addresses strictly rise, and no listed
byte is the one an unlisted address reads as. -/
def Memory.wfFrom : Nat → Memory → Bool
  | _, [] => true
  | lo, (k, v) :: m => lo ≤ k && k < 2 ^ 32 && v != Config.unwrittenByte && Memory.wfFrom (k + 1) m

/-- The canonical form of memory. -/
def Memory.wf (m : Memory) : Bool := Memory.wfFrom 0 m

/-- How many bytes a request moves (R51). -/
def Width.bytes : Width → Nat
  | .byte => 1 | .half => 2 | .word => 4

/-- The little-endian value at an address, zero-extended to a word (R53). -/
def Memory.read (m : Memory) (w : Width) (a : Nat) : Word :=
  match w with
  | .byte => (m.readByte a).setWidth 32
  | .half => (m.readByte (a + 1) ++ m.readByte a).setWidth 32
  | .word => m.readByte (a + 3) ++ m.readByte (a + 2) ++ m.readByte (a + 1) ++ m.readByte a

/-- The memory with the low bytes of `v` stored at an address, little-endian (R53). -/
def Memory.write (m : Memory) (w : Width) (a : Nat) (v : Word) : Memory :=
  match w with
  | .byte => m.writeByte a (v.extractLsb' 0 8)
  | .half => (m.writeByte a (v.extractLsb' 0 8)).writeByte (a + 1) (v.extractLsb' 8 8)
  | .word =>
    (((m.writeByte a (v.extractLsb' 0 8)).writeByte (a + 1) (v.extractLsb' 8 8)).writeByte (a + 2)
      (v.extractLsb' 16 8)).writeByte (a + 3) (v.extractLsb' 24 8)

/-! ## The backend's contract (R56, R64, R65) -/

/-- Some byte of `[a, a+n)` lies in the region. -/
def Region.touches (g : Region) (a n : Nat) : Bool :=
  0 < g.size && a < g.base.toNat + g.size && g.base.toNat < a + n

/-- All bytes of `[a, a+n)` lie in the region. -/
def Region.contains (g : Region) (a n : Nat) : Bool := g.base.toNat ≤ a && a + n ≤ g.base.toNat + g.size

/-- R56 (a): the one declared region in which all bytes of the access lie; none when a byte lies in no region or in
two, when the bytes do not lie in one region, or when they pass the end of the address space. -/
def Bus.resolve (b : Bus) (w : Width) (addr : Word) : Option Region :=
  match b.regions.filter (fun g => g.touches addr.toNat w.bytes) with
  | [g] => if g.contains addr.toNat w.bytes && addr.toNat + w.bytes ≤ 2 ^ 32 then some g else none
  | _ => none

/-- The access is of a kind the watchpoint watches (R65): a read, a write, either, or, for a breakpoint, whatever the
backend's rule matches. -/
def WatchKind.watches : WatchKind → AccessKind → Bool
  | .read, .read => true
  | .write, .write => true
  | .readWrite, _ => true
  | .breakpoint, _ => true
  | _, _ => false

/-- The access matches the watchpoint (R65). -/
def Watchpoint.hits (p : Watchpoint) (x : Access) : Bool := p.kind.watches x.kind && p.matched.contains x

/-- R56 (c): a breakpoint-kind watchpoint of the region matches. Only the list of the region that holds the access is
consulted, not that of another region into which a watchpoint's range may come from: the spec is silent (N9, N15). DESIGN
CHOICE, unsafe (assumption 8). -/
def Region.breaks (g : Region) (x : Access) : Bool :=
  g.watchpoints.any (fun p => p.kind == .breakpoint && p.hits x)

/-- R65: a read, write or read-write watchpoint of the region matches. Only the list of the region that holds the access
is consulted. DESIGN CHOICE, unsafe (assumption 8). -/
def Region.latches (g : Region) (x : Access) : Bool :=
  g.watchpoints.any (fun p => p.kind != .breakpoint && p.hits x)

/-- R56: the region through which the backend performs the access, or none when it answers `BusError`. -/
def Bus.grants (b : Bus) (x : Access) : Option Region :=
  match b.resolve x.width x.addr with
  | some g => if (x.kind == .write && g.readOnly) || g.breaks x then none else some g
  | none => none

/-- The low bytes of a value, as many as a request of that width moves (R51). -/
def Width.clip (w : Width) (v : Word) : Word :=
  match w with
  | .byte => (v.setWidth 8).setWidth 32
  | .half => (v.setWidth 16).setWidth 32
  | .word => v

/-- The request and its response are seen on the port (R51, R52). -/
def Bus.record (b : Bus) (x : Access) (data : Word) (resp : Response) : Bus :=
  { b with port := b.port ++ [⟨x, data, resp⟩] }

/-- `read{8,16,32}(addr)` on the port (R51, R52, R56, R65). -/
def Bus.read (b : Bus) (w : Width) (addr : Word) : Bus × Option Word :=
  let x : Access := ⟨.read, w, addr⟩
  match b.grants x with
  | some g =>
    let v := b.mem.read w addr.toNat
    (({ b with latch := b.latch || g.latches x } : Bus).record x v .ok, some v)
  | none => (b.record x 0#32 .busError, none)

/-- `write{8,16,32}(addr, value)` on the port (R51, R52, R56, R65); the answer is whether it was `OK`. -/
def Bus.write (b : Bus) (w : Width) (addr v : Word) : Bus × Bool :=
  let x : Access := ⟨.write, w, addr⟩
  match b.grants x with
  | some g =>
    (({ b with mem := b.mem.write w addr.toNat v, latch := b.latch || g.latches x } : Bus).record x (w.clip v) .ok,
      true)
  | none => (b.record x (w.clip v) .busError, false)

/-! ## `MemRead` and `MemWrite` (R11) -/

/-- R54: the address is a multiple of the access size. -/
def aligned (w : Width) (addr : Word) : Bool := addr.toNat % w.bytes == 0

/-- `MemRead(addr, n)`: the alignment check, then one read on the port; `none` is a failure, which the step reports as
`HardFault`. A misaligned read never reaches the port (R55). -/
def State.memRead (s : State) (w : Width) (addr : Word) : State × Option Word :=
  if aligned w addr then
    let (b, v) := s.bus.read w addr
    ({ s with bus := b }, v)
  else (s, none)

/-- `MemWrite(addr, n, v)`: the alignment check, then one write on the port; the answer is whether it was performed. -/
def State.memWrite (s : State) (w : Width) (addr v : Word) : State × Bool :=
  if aligned w addr then
    let (b, ok) := s.bus.write w addr v
    ({ s with bus := b }, ok)
  else (s, false)

/-- The stores of a multiple transfer (R229): the words in order at ascending addresses, each 4 above the one before
modulo 2^32, up to the first that fails. -/
def State.storeWords (s : State) (addr : Word) : List Word → State × Bool
  | [] => (s, true)
  | v :: vs =>
    match s.memWrite .word addr v with
    | (s', true) => State.storeWords s' (addr + 4#32) vs
    | (s', false) => (s', false)

/-- The loads of a multiple transfer (R229): `n` words at ascending addresses, none if one of them fails. -/
def State.loadWords (s : State) (addr : Word) : Nat → State × Option (List Word)
  | 0 => (s, some [])
  | n + 1 =>
    match s.memRead .word addr with
    | (s', some v) =>
      match State.loadWords s' (addr + 4#32) n with
      | (s'', some vs) => (s'', some (v :: vs))
      | (s'', none) => (s'', none)
    | (s', none) => (s', none)

/-! ## Registers (R10, R22, R24) -/

/-- `x[i]`: R0 to R12, SP, LR, and for 15 the address of the current instruction plus 4 (R24). -/
def Context.reg (c : Context) (i : RegNum) : Word :=
  if h : i.toNat < 13 then c.r[i.toNat]
  else if i = 13#4 then c.sp
  else if i = 14#4 then c.lr
  else c.pc + 4#32

/-- A write of SP stores the value through `SP_WRITE_MASK` (R22). -/
def Context.writeSp (c : Context) (v : Word) : Context := { c with sp := v &&& Config.spWriteMask }

/-- `x[i] <- v` for `i` in 0 to 14 (R10). No rule writes `x[15]`: it leaves the context as it is. -/
def Context.writeReg (c : Context) (i : RegNum) (v : Word) : Context :=
  if h : i.toNat < 13 then { c with r := c.r.set i.toNat v }
  else if i = 13#4 then c.writeSp v
  else if i = 14#4 then { c with lr := v }
  else c

/-- The register a 3-bit field names: R0 to R7 (R24). -/
def low (r : LowReg) : RegNum := r.setWidth 4

/-- Register writes in order. -/
def Context.writeRegs (c : Context) : List (RegNum × Word) → Context
  | [] => c
  | (i, v) :: ws => (c.writeReg i v).writeRegs ws

/-! ## How a step ends (R12, R110, R111, R301) -/

/-- `finish X`: the pending writes (the context `c`) are committed, PC is `next_pc`, the result is `X` (R12). -/
def State.finish (s : State) (c : Context) (nextPc : Word) (x : StepResult) : State :=
  { s with ctx := { c with pc := nextPc }, result := some x }

/-- `raise X`, the trap mechanism of R301 whole: the context, PC included, stays as it was before the step, and the
code stands on the result port; nothing is saved, no mode changes, no vector is read. What the step already did on the
memory port stays (R57). There is no return from it in the block: the host issues its next command (R312). -/
def State.raise (s : State) (x : StepResult) : State := { s with result := some x }

/-- `next_pc` of a 16-bit instruction that does not branch (R25, R110). -/
def State.pc2 (s : State) : Word := s.ctx.pc + 2#32

/-- `next_pc` of a 32-bit instruction that does not branch (R25, R110). -/
def State.pc4 (s : State) : Word := s.ctx.pc + 4#32

/-- The end of an ordinary 16-bit instruction: the writes are committed, PC moves past it, the result is `OK`. -/
def State.finish16 (s : State) (c : Context) : State := s.finish c s.pc2 .ok

/-- The end of an ordinary 32-bit instruction. -/
def State.finish32 (s : State) (c : Context) : State := s.finish c s.pc4 .ok

/-- `x[i]` in the state. -/
def State.reg (s : State) (i : RegNum) : Word := s.ctx.reg i

/-- The low register a 3-bit field names, in the state. -/
def State.lowReg (s : State) (r : LowReg) : Word := s.ctx.reg (low r)

/-- A 16-bit instruction that writes one low register and no flag. -/
def State.setLow (s : State) (d : LowReg) (v : Word) : State := s.finish16 (s.ctx.writeReg (low d) v)

/-- A load (R189): one read, its value extended into the register, or `HardFault` with the context unchanged. -/
def State.load (s : State) (w : Width) (addr : Word) (t : LowReg) (extend : Word → Word) : State :=
  match s.memRead w addr with
  | (s', some v) => s'.setLow t (extend v)
  | (s', none) => s'.raise .hardFault

/-- A store (R189): one write, or `HardFault` with the context unchanged. -/
def State.store (s : State) (w : Width) (addr v : Word) : State :=
  match s.memWrite w addr v with
  | (s', true) => s'.finish16 s'.ctx
  | (s', false) => s'.raise .hardFault

end Sys2Proof.Machine
end

