-- ==== Sys2Proof/Machine/Flags.lean ====
section
/-! DEFINITION. The flags of xPSR (spec/10_state.md R26 to R30), the arithmetic that produces them (`Shift_C`,
`AddWithCarry`, spec/40_common_operations.md R115, R116, R119), which instruction writes which (R123), and
`ConditionPassed` (R121). -/

namespace Sys2Proof.Machine

/-! ## The fields of xPSR -/

/-- N, bit 31 (R26). -/
def Context.n (c : Context) : Bool := c.xpsr.getLsbD 31

/-- Z, bit 30 (R26). -/
def Context.z (c : Context) : Bool := c.xpsr.getLsbD 30

/-- C, bit 29 (R26). -/
def Context.c (c : Context) : Bool := c.xpsr.getLsbD 29

/-- V, bit 28 (R26). -/
def Context.v (c : Context) : Bool := c.xpsr.getLsbD 28

/-- T, bit 24 (R28). -/
def Context.t (c : Context) : Bool := c.xpsr.getLsbD 24

/-- IPSR, bits 5:0 (R29). -/
def Context.ipsr (c : Context) : BitVec 6 := c.xpsr.extractLsb' 0 6

/-- N and Z from a result (R123); C and V stay. -/
def Context.setNZ (c : Context) (result : Word) : Context :=
  { c with xpsr := setBit (setBit c.xpsr 31 result.msb) 30 (result == 0#32) }

/-- C. -/
def Context.setC (c : Context) (b : Bool) : Context := { c with xpsr := setBit c.xpsr 29 b }

/-- V. -/
def Context.setV (c : Context) (b : Bool) : Context := { c with xpsr := setBit c.xpsr 28 b }

/-- T (R28, R114). -/
def Context.setT (c : Context) (b : Bool) : Context := { c with xpsr := setBit c.xpsr 24 b }

/-- N, Z, C and V from bits 31:28 of a word (R31, R251). -/
def Context.setNZCV (c : Context) (x : Word) : Context :=
  let nz := setBit (setBit c.xpsr 31 (x.getLsbD 31)) 30 (x.getLsbD 30)
  { c with xpsr := setBit (setBit nz 29 (x.getLsbD 29)) 28 (x.getLsbD 28) }

/-- `N:Z:C:V:zeros(28)` (R31, R252). -/
def Context.apsr (c : Context) : Word :=
  BitVec.ofBool c.n ++ BitVec.ofBool c.z ++ BitVec.ofBool c.c ++ BitVec.ofBool c.v ++ 0#28

/-! ## Shifts (R115 to R118) -/

/-- The shift types of `Shift_C` (R116). -/
inductive ShiftType where
  | lsl | lsr | asr | ror
  deriving DecidableEq, Repr

/-- `LSL_C` (R115), for an amount of at least 1. -/
def lslC (x : Word) (n : Nat) : Word × Bool :=
  let wide := x.toNat * 2 ^ n
  (BitVec.ofNat 32 wide, (wide / 2 ^ 32) % 2 == 1)

/-- `LSR_C` (R115), for an amount of at least 1. -/
def lsrC (x : Word) (n : Nat) : Word × Bool :=
  (BitVec.ofNat 32 (x.toNat / 2 ^ n), (x.toNat / 2 ^ (n - 1)) % 2 == 1)

/-- `ASR_C` (R115), for an amount of at least 1: floor division of the signed value. -/
def asrC (x : Word) (n : Nat) : Word × Bool :=
  (BitVec.ofInt 32 (x.toInt / 2 ^ n), (x.toInt / 2 ^ (n - 1)) % 2 == 1)

/-- `ROR_C` (R115), for an amount of at least 1: the carry is bit 31 of the result. -/
def rorC (x : Word) (n : Nat) : Word × Bool :=
  let m := n % 32
  let result := BitVec.ofNat 32 (x.toNat / 2 ^ m + x.toNat * 2 ^ (32 - m))
  (result, result.msb)

/-- `Shift_C(value, type, amount, carry_in)` (R116): amount 0 returns the value and the carry unchanged. -/
def shiftC (value : Word) (type : ShiftType) (amount : Nat) (carryIn : Bool) : Word × Bool :=
  if amount = 0 then (value, carryIn)
  else
    match type with
    | .lsl => lslC value amount
    | .lsr => lsrC value amount
    | .asr => asrC value amount
    | .ror => rorC value amount

/-- `DecodeImmShift` (R117): the amount of an immediate shift; `imm5 = 0` means 32 for LSR and ASR. -/
def immShiftAmount (type : ShiftType) (imm5 : BitVec 5) : Nat :=
  match type with
  | .lsl => imm5.toNat
  | _ => if imm5 = 0#5 then 32 else imm5.toNat

/-- The amount of a register shift (R118): the bottom byte. -/
def regShiftAmount (x : Word) : Nat := (x.extractLsb' 0 8).toNat

/-! ## Addition (R119) -/

/-- What `AddWithCarry` returns. -/
structure SumFlags where
  result : Word
  carry : Bool
  overflow : Bool
  deriving DecidableEq, Repr

/-- `AddWithCarry(x, y, carry_in)` (R119): the exact unsigned and signed sums, narrowed. -/
def addWithCarry (x y : Word) (carryIn : Bool) : SumFlags :=
  let usum := x.toNat + y.toNat + carryIn.toNat
  let ssum := x.toInt + y.toInt + (carryIn.toNat : Int)
  { result := BitVec.ofNat 32 usum
    carry := 2 ^ 32 ≤ usum
    overflow := ssum > 2 ^ 31 - 1 || ssum < -(2 ^ 31) }

/-! ## The flag-setting ends of an instruction (R122, R123) -/

/-- The flags of an addition: N and Z from the result, C the carry, V the overflow. -/
def Context.setSumFlags (c : Context) (a : SumFlags) : Context := ((c.setNZ a.result).setC a.carry).setV a.overflow

/-- The flags of a shift: N and Z from the result, C the carry, V unchanged. -/
def Context.setShiftFlags (c : Context) (p : Word × Bool) : Context := (c.setNZ p.1).setC p.2

/-- An instruction that adds into a low register and sets the four flags. -/
def State.addInto (s : State) (d : LowReg) (x y : Word) (carryIn : Bool) : State :=
  let a := addWithCarry x y carryIn
  s.finish16 ((s.ctx.writeReg (low d) a.result).setSumFlags a)

/-- An instruction that adds and only sets the four flags: "without writing back the result" (R120). -/
def State.addFlags (s : State) (x y : Word) (carryIn : Bool) : State :=
  s.finish16 (s.ctx.setSumFlags (addWithCarry x y carryIn))

/-- An instruction that shifts into a low register and sets N, Z and C. -/
def State.shiftInto (s : State) (d : LowReg) (value : Word) (type : ShiftType) (amount : Nat) : State :=
  let p := shiftC value type amount s.ctx.c
  s.finish16 ((s.ctx.writeReg (low d) p.1).setShiftFlags p)

/-- An instruction that writes a result to a low register and sets N and Z only. -/
def State.nzInto (s : State) (d : LowReg) (result : Word) : State :=
  s.finish16 ((s.ctx.writeReg (low d) result).setNZ result)

/-! ## Conditions (R121) -/

/-- `ConditionPassed(cond)`. -/
def Context.passes (c : Context) : Cond → Bool
  | .eq => c.z
  | .ne => !c.z
  | .cs => c.c
  | .cc => !c.c
  | .mi => c.n
  | .pl => !c.n
  | .vs => c.v
  | .vc => !c.v
  | .hi => c.c && !c.z
  | .ls => !c.c || c.z
  | .ge => c.n == c.v
  | .lt => c.n != c.v
  | .gt => !c.z && c.n == c.v
  | .le => c.z || c.n != c.v

end Sys2Proof.Machine
end

