-- ==== Sys2Proof/Machine/Operands.lean ====
section
/-! DEFINITION. The operand forms: immediates (spec/30_encoding.md R92), PC-relative bases (spec/40 R112), register
lists (R93), the PC writes (spec/40 R113, R114), the special registers of MRS and MSR (spec/10 R31), and the operand
combinations that are `Unpredictable` (R95). -/

namespace Sys2Proof.Machine

/-! ## Immediates (R92) -/

/-- `zext_32(imm)`. -/
def zext {w : Nat} (imm : BitVec w) : Word := imm.setWidth 32

/-- `zext_32(imm:'0')`. -/
def zext2 {w : Nat} (imm : BitVec w) : Word := (imm ++ 0#1).setWidth 32

/-- `zext_32(imm:'00')`. -/
def zext4 {w : Nat} (imm : BitVec w) : Word := (imm ++ 0#2).setWidth 32

/-- `sext_32(imm:'0')`, a branch offset. -/
def branchOffset {w : Nat} (imm : BitVec w) : Word := (imm ++ 0#1).signExtend 32

/-- The offset of BL: `sext_32(S:I1:I2:imm10:imm11:'0')` with `I1 = NOT(J1 EOR S)`, `I2 = NOT(J2 EOR S)`. -/
def blOffset (s : BitVec 1) (imm10 : BitVec 10) (j1 j2 : BitVec 1) (imm11 : BitVec 11) : Word :=
  (s ++ ~~~(j1 ^^^ s) ++ ~~~(j2 ^^^ s) ++ imm10 ++ imm11 ++ 0#1).signExtend 32

/-! ## PC-relative bases and PC writes -/

/-- The base of ADR and LDR (literal): `Align4(inst_addr) + 4` (R112). -/
def State.literalBase (s : State) : Word := align4 s.ctx.pc + 4#32

/-- The base of B<cond>, B and BL: `inst_addr + 4`, not aligned (R112). -/
def State.branchBase (s : State) : Word := s.ctx.pc + 4#32

/-- `BranchWritePC(addr)` with result `OK` (R113); T is not changed. `c` holds the instruction's other writes. -/
def State.branchTo (s : State) (c : Context) (addr : Word) : State := s.finish c (clearBit0 addr) .ok

/-- `BXWritePC(addr)` with result `OK` (R114): T is bit 0 of the target, PC the target with bit 0 cleared. -/
def State.exchangeTo (s : State) (c : Context) (addr : Word) : State :=
  s.finish (c.setT (addr.getLsbD 0)) (clearBit0 addr) .ok

/-! ## Register lists (R93, R229) -/

/-- The sixteen register numbers in ascending order. -/
def allRegs : List RegNum :=
  [0#4, 1#4, 2#4, 3#4, 4#4, 5#4, 6#4, 7#4, 8#4, 9#4, 10#4, 11#4, 12#4, 13#4, 14#4, 15#4]

/-- The registers of a 16-bit set, in ascending order. -/
def registersIn (set : BitVec 16) : List RegNum := allRegs.filter (fun i => set.getLsbD i.toNat)

/-- The set of LDM and STM: `'00000000':register_list`. -/
def lowSet (list : BitVec 8) : BitVec 16 := list.setWidth 16

/-- The set of PUSH: `'0':M:'000000':register_list`. -/
def pushSet (m : BitVec 1) (list : BitVec 8) : BitVec 16 := 0#1 ++ m ++ 0#6 ++ list

/-- The set of POP: `P:'0000000':register_list`. -/
def popSet (p : BitVec 1) (list : BitVec 8) : BitVec 16 := p ++ 0#7 ++ list

/-- `4*count` as a word (R229). -/
def listBytes (regs : List RegNum) : Word := BitVec.ofNat 32 (4 * regs.length)

/-! ## Special registers (R31) -/

/-- The special registers a SYSm value names. -/
inductive SpecialReg where
  /-- APSR, IAPSR, EAPSR, XPSR (0 to 3): the flags; IPSR and EPSR read as 0. -/
  | flags
  /-- IPSR, EPSR, IEPSR (5 to 7), PSP (9) and CONTROL (20): read as 0, writes ignored. -/
  | zero
  /-- MSP (8). -/
  | msp
  /-- PRIMASK (16). -/
  | primask
  deriving DecidableEq, Repr

/-- R31: the special register of a SYSm value; none for a reserved value. -/
def specialReg (sysm : BitVec 8) : Option SpecialReg :=
  if sysm = 0#8 ∨ sysm = 1#8 ∨ sysm = 2#8 ∨ sysm = 3#8 then some .flags
  else if sysm = 5#8 ∨ sysm = 6#8 ∨ sysm = 7#8 ∨ sysm = 9#8 ∨ sysm = 20#8 then some .zero
  else if sysm = 8#8 then some .msp
  else if sysm = 16#8 then some .primask
  else none

/-- What MRS returns (R31, R252). -/
def Context.readSpecial (c : Context) : SpecialReg → Word
  | .flags => c.apsr
  | .zero => 0#32
  | .msp => c.sp
  | .primask => c.primask.setWidth 32

/-- What MSR writes (R31, R251). -/
def Context.writeSpecial (c : Context) (v : Word) : SpecialReg → Context
  | .flags => c.setNZCV v
  | .zero => c
  | .msp => c.writeSp v
  | .primask => { c with primask := v.extractLsb' 0 1 }

/-! ## Operand combinations that are `Unpredictable` (R95) -/

/-- BX and BLX: the register is PC, or a should-be-zero bit is 1. -/
def bxUnpredictable (rm : RegNum) (sbz : BitVec 3) : Bool := rm == 15#4 || sbz != 0#3

/-- ADD (high registers): both registers are PC. -/
def addHiUnpredictable (rdn rm : RegNum) : Bool := rdn == 15#4 && rm == 15#4

/-- CMP (high registers): both registers low, or one is PC. -/
def cmpHiUnpredictable (rn rm : RegNum) : Bool :=
  (rn.toNat < 8 && rm.toNat < 8) || rn == 15#4 || rm == 15#4

/-- STM: an empty list, or the base in the list and not its lowest register. -/
def stmUnpredictable (rn : LowReg) (list : BitVec 8) : Bool :=
  list == 0#8 || (list.getLsbD rn.toNat && (registersIn (lowSet list)).head? != some (low rn))

/-- CPS: the low four bits are not `0010`. -/
def cpsUnpredictable (low4 : BitVec 4) : Bool := low4 != 0b0010#4

/-- MSR: the source is SP or PC, SYSm is reserved, or a should-be bit has the other value (R91). -/
def msrUnpredictable (rn : RegNum) (sysm : BitVec 8) (b20 b13 : BitVec 1) (b11_8 : BitVec 4) : Bool :=
  rn == 13#4 || rn == 15#4 || (specialReg sysm).isNone || b20 != 0#1 || b13 != 0#1 || b11_8 != 0b1000#4

/-- MRS: the destination is SP or PC, SYSm is reserved, or a should-be bit has the other value (R91). -/
def mrsUnpredictable (rd : RegNum) (sysm : BitVec 8) (b20 : BitVec 1) (b19_16 : BitVec 4) (b13 : BitVec 1) : Bool :=
  rd == 13#4 || rd == 15#4 || (specialReg sysm).isNone || b20 != 0#1 || b19_16 != 0b1111#4 || b13 != 0#1

/-- DSB, DMB, ISB: a should-be bit has the other value (R91). -/
def barrierUnpredictable (b19_16 : BitVec 4) (b13 : BitVec 1) (b11_8 : BitVec 4) : Bool :=
  b19_16 != 0b1111#4 || b13 != 0#1 || b11_8 != 0b1111#4

/-- A barrier (R253 to R255): a should-be bit with the other value is `Unpredictable`; otherwise `finish r`, which
advances PC for `OK` and, for `DSB_RESULT = Undefined` (R253), leaves it. -/
def State.barrier (s : State) (r : StepResult) (b19_16 : BitVec 4) (b13 : BitVec 1) (b11_8 : BitVec 4) : State :=
  if barrierUnpredictable b19_16 b13 b11_8 then s.raise .unpredictable
  else if r = .undefined then s.raise .undefined
  else s.finish s.ctx s.pc4 r

end Sys2Proof.Machine
end

