-- ==== Sys2Proof/Machine/BranchSvc.lean ====
section
/-! DEFINITION. Branches, SVC and UDF: spec/47_branch_svc.md R240 to R243. -/

namespace Sys2Proof.Machine

/-- R243: `Undefined`, PC unmodified. -/
def execUdf (_imm8 : BitVec 8) (s : State) : Host.Outcome State Fault Refusal :=
  .next (s.raise .undefined)

/-- R242: "PC advanced past the instruction first"; no exception is taken (R306). -/
def execSvc (_imm8 : BitVec 8) (s : State) : Host.Outcome State Fault Refusal :=
  .next (s.finish s.ctx s.pc2 .svc)

/-- R240. -/
def execBcond (cond : Cond) (imm8 : BitVec 8) (s : State) : Host.Outcome State Fault Refusal :=
  .next <|
    if s.ctx.passes cond then s.branchTo s.ctx (s.branchBase + branchOffset imm8) else s.finish16 s.ctx

/-- R241. -/
def execB (imm11 : BitVec 11) (s : State) : Host.Outcome State Fault Refusal :=
  .next (s.branchTo s.ctx (s.branchBase + branchOffset imm11))

end Sys2Proof.Machine
end

