-- ==== Sys2Proof/Machine/DataProcessing.lean ====
section
/-! DEFINITION. Data processing (register): spec/42_data_processing.md R160 to R175. -/

namespace Sys2Proof.Machine

/-- R160. -/
def execAnds (rdn rm : LowReg) (s : State) : Host.Outcome State Fault Refusal :=
  .next (s.nzInto rdn (s.lowReg rdn &&& s.lowReg rm))

/-- R161. -/
def execEors (rdn rm : LowReg) (s : State) : Host.Outcome State Fault Refusal :=
  .next (s.nzInto rdn (s.lowReg rdn ^^^ s.lowReg rm))

/-- R162. -/
def execLslsReg (rdn rm : LowReg) (s : State) : Host.Outcome State Fault Refusal :=
  .next (s.shiftInto rdn (s.lowReg rdn) .lsl (regShiftAmount (s.lowReg rm)))

/-- R163. -/
def execLsrsReg (rdn rm : LowReg) (s : State) : Host.Outcome State Fault Refusal :=
  .next (s.shiftInto rdn (s.lowReg rdn) .lsr (regShiftAmount (s.lowReg rm)))

/-- R164. -/
def execAsrsReg (rdn rm : LowReg) (s : State) : Host.Outcome State Fault Refusal :=
  .next (s.shiftInto rdn (s.lowReg rdn) .asr (regShiftAmount (s.lowReg rm)))

/-- R165: the old C is the carry in (R334 (i)). -/
def execAdcs (rdn rm : LowReg) (s : State) : Host.Outcome State Fault Refusal :=
  .next (s.addInto rdn (s.lowReg rdn) (s.lowReg rm) s.ctx.c)

/-- R166. -/
def execSbcs (rdn rm : LowReg) (s : State) : Host.Outcome State Fault Refusal :=
  .next (s.addInto rdn (s.lowReg rdn) (~~~(s.lowReg rm)) s.ctx.c)

/-- R167. -/
def execRors (rdn rm : LowReg) (s : State) : Host.Outcome State Fault Refusal :=
  .next (s.shiftInto rdn (s.lowReg rdn) .ror (regShiftAmount (s.lowReg rm)))

/-- R168: flags only. -/
def execTst (rn rm : LowReg) (s : State) : Host.Outcome State Fault Refusal :=
  .next (s.finish16 (s.ctx.setNZ (s.lowReg rn &&& s.lowReg rm)))

/-- R169: `0 - x[n]`. -/
def execRsbs (rd rn : LowReg) (s : State) : Host.Outcome State Fault Refusal :=
  .next (s.addInto rd (~~~(s.lowReg rn)) 0#32 true)

/-- R170. -/
def execCmpReg (rn rm : LowReg) (s : State) : Host.Outcome State Fault Refusal :=
  .next (s.addFlags (s.lowReg rn) (~~~(s.lowReg rm)) true)

/-- R171. -/
def execCmn (rn rm : LowReg) (s : State) : Host.Outcome State Fault Refusal :=
  .next (s.addFlags (s.lowReg rn) (s.lowReg rm) false)

/-- R172. -/
def execOrrs (rdn rm : LowReg) (s : State) : Host.Outcome State Fault Refusal :=
  .next (s.nzInto rdn (s.lowReg rdn ||| s.lowReg rm))

/-- R173: the low 32 bits of the product; C and V unchanged. -/
def execMuls (rdm rn : LowReg) (s : State) : Host.Outcome State Fault Refusal :=
  .next (s.nzInto rdm (BitVec.ofNat 32 ((s.lowReg rn).toNat * (s.lowReg rdm).toNat)))

/-- R174. -/
def execBics (rdn rm : LowReg) (s : State) : Host.Outcome State Fault Refusal :=
  .next (s.nzInto rdn (s.lowReg rdn &&& ~~~(s.lowReg rm)))

/-- R175. -/
def execMvns (rd rm : LowReg) (s : State) : Host.Outcome State Fault Refusal :=
  .next (s.nzInto rd (~~~(s.lowReg rm)))

end Sys2Proof.Machine
end

