-- ==== Sys2Proof/Machine/LoadStore.lean ====
section
/-! DEFINITION. Load and store single: spec/44_load_store.md R189 to R206; widths and extensions are those of spec/20_memory.md R58. -/

namespace Sys2Proof.Machine

/-- R190. -/
def execLdrLit (rt : LowReg) (imm8 : BitVec 8) (s : State) : Host.Outcome State Fault Refusal :=
  .next (s.load .word (s.literalBase + zext4 imm8) rt id)

/-- R191. -/
def execStrReg (rt rn rm : LowReg) (s : State) : Host.Outcome State Fault Refusal :=
  .next (s.store .word (s.lowReg rn + s.lowReg rm) (s.lowReg rt))

/-- R192. -/
def execStrhReg (rt rn rm : LowReg) (s : State) : Host.Outcome State Fault Refusal :=
  .next (s.store .half (s.lowReg rn + s.lowReg rm) (s.lowReg rt))

/-- R193. -/
def execStrbReg (rt rn rm : LowReg) (s : State) : Host.Outcome State Fault Refusal :=
  .next (s.store .byte (s.lowReg rn + s.lowReg rm) (s.lowReg rt))

/-- R194. -/
def execLdrsbReg (rt rn rm : LowReg) (s : State) : Host.Outcome State Fault Refusal :=
  .next (s.load .byte (s.lowReg rn + s.lowReg rm) rt sextByte)

/-- R195. -/
def execLdrReg (rt rn rm : LowReg) (s : State) : Host.Outcome State Fault Refusal :=
  .next (s.load .word (s.lowReg rn + s.lowReg rm) rt id)

/-- R196: the halfword is zero-extended. -/
def execLdrhReg (rt rn rm : LowReg) (s : State) : Host.Outcome State Fault Refusal :=
  .next (s.load .half (s.lowReg rn + s.lowReg rm) rt id)

/-- R197: the byte is zero-extended. -/
def execLdrbReg (rt rn rm : LowReg) (s : State) : Host.Outcome State Fault Refusal :=
  .next (s.load .byte (s.lowReg rn + s.lowReg rm) rt id)

/-- R198. -/
def execLdrshReg (rt rn rm : LowReg) (s : State) : Host.Outcome State Fault Refusal :=
  .next (s.load .half (s.lowReg rn + s.lowReg rm) rt sextHalf)

/-- R199. -/
def execStrImm (rt rn : LowReg) (imm5 : BitVec 5) (s : State) : Host.Outcome State Fault Refusal :=
  .next (s.store .word (s.lowReg rn + zext4 imm5) (s.lowReg rt))

/-- R200. -/
def execLdrImm (rt rn : LowReg) (imm5 : BitVec 5) (s : State) : Host.Outcome State Fault Refusal :=
  .next (s.load .word (s.lowReg rn + zext4 imm5) rt id)

/-- R201. -/
def execStrbImm (rt rn : LowReg) (imm5 : BitVec 5) (s : State) : Host.Outcome State Fault Refusal :=
  .next (s.store .byte (s.lowReg rn + zext imm5) (s.lowReg rt))

/-- R202: the byte is zero-extended. -/
def execLdrbImm (rt rn : LowReg) (imm5 : BitVec 5) (s : State) : Host.Outcome State Fault Refusal :=
  .next (s.load .byte (s.lowReg rn + zext imm5) rt id)

/-- R203. -/
def execStrhImm (rt rn : LowReg) (imm5 : BitVec 5) (s : State) : Host.Outcome State Fault Refusal :=
  .next (s.store .half (s.lowReg rn + zext2 imm5) (s.lowReg rt))

/-- R204: the halfword is zero-extended. -/
def execLdrhImm (rt rn : LowReg) (imm5 : BitVec 5) (s : State) : Host.Outcome State Fault Refusal :=
  .next (s.load .half (s.lowReg rn + zext2 imm5) rt id)

/-- R205. -/
def execStrSp (rt : LowReg) (imm8 : BitVec 8) (s : State) : Host.Outcome State Fault Refusal :=
  .next (s.store .word (s.ctx.sp + zext4 imm8) (s.lowReg rt))

/-- R206. -/
def execLdrSp (rt : LowReg) (imm8 : BitVec 8) (s : State) : Host.Outcome State Fault Refusal :=
  .next (s.load .word (s.ctx.sp + zext4 imm8) rt id)

end Sys2Proof.Machine
end

