-- ==== Sys2Proof/Machine/LoadStoreMultiple.lean ====
section
/-! DEFINITION. Load and store multiple: spec/46_load_store_multiple.md R229 to R233. -/

namespace Sys2Proof.Machine

/-- R230: the lowest register at the lowest address; SP is written only when every store was performed. -/
def execPush (m : BitVec 1) (list : BitVec 8) (s : State) : Host.Outcome State Fault Refusal :=
  .next <|
    let regs := registersIn (pushSet m list)
    if regs = [] then s.raise .unpredictable
    else
      let start := s.ctx.sp - listBytes regs
      match s.storeWords start (regs.map s.reg) with
      | (s', true) => s'.finish16 (s'.ctx.writeReg 13#4 start)
      | (s', false) => s'.raise .hardFault

/-- R231: the PC word is read last, from the highest address, and written by `LoadWritePC` (R114). -/
def execPop (p : BitVec 1) (list : BitVec 8) (s : State) : Host.Outcome State Fault Refusal :=
  .next <|
    let regs := registersIn (popSet p list)
    if regs = [] then s.raise .unpredictable
    else
      match s.loadWords s.ctx.sp regs.length with
      | (s', some vs) =>
        let c := (s'.ctx.writeRegs (regs.zip vs)).writeReg 13#4 (s.ctx.sp + listBytes regs)
        if p = 1#1 then s'.exchangeTo c (vs.getLastD 0#32) else s'.finish16 c
      | (s', none) => s'.raise .hardFault

/-- R232: a listed base is stored with its old value; the base is written back when every store was performed. -/
def execStm (rn : LowReg) (list : BitVec 8) (s : State) : Host.Outcome State Fault Refusal :=
  .next <|
    if stmUnpredictable rn list then s.raise .unpredictable
    else
      let regs := registersIn (lowSet list)
      match s.storeWords (s.lowReg rn) (regs.map s.reg) with
      | (s', true) => s'.setLow rn (s.lowReg rn + listBytes regs)
      | (s', false) => s'.raise .hardFault

/-- R233: no write-back when the base is in the list. -/
def execLdm (rn : LowReg) (list : BitVec 8) (s : State) : Host.Outcome State Fault Refusal :=
  .next <|
    let regs := registersIn (lowSet list)
    if regs = [] then s.raise .unpredictable
    else
      match s.loadWords (s.lowReg rn) regs.length with
      | (s', some vs) =>
        let c := s'.ctx.writeRegs (regs.zip vs)
        if list.getLsbD rn.toNat then s'.finish16 c
        else s'.finish16 (c.writeReg (low rn) (s.lowReg rn + listBytes regs))
      | (s', none) => s'.raise .hardFault

end Sys2Proof.Machine
end

