-- ==== Sys2Proof/Machine/Misc16.lean ====
section
/-! DEFINITION. Address generation, SP arithmetic, extend, reverse, CPS, BKPT and hints: spec/45_misc16.md R210 to R228. -/

namespace Sys2Proof.Machine

/-- R210. -/
def execAdr (rd : LowReg) (imm8 : BitVec 8) (s : State) : Host.Outcome State Fault Refusal :=
  .next (s.setLow rd (s.literalBase + zext4 imm8))

/-- R211. -/
def execAddRdSp (rd : LowReg) (imm8 : BitVec 8) (s : State) : Host.Outcome State Fault Refusal :=
  .next (s.setLow rd (s.ctx.sp + zext4 imm8))

/-- R212. -/
def execAddSp (imm7 : BitVec 7) (s : State) : Host.Outcome State Fault Refusal :=
  .next (s.finish16 (s.ctx.writeReg 13#4 (s.ctx.sp + zext4 imm7)))

/-- R213. -/
def execSubSp (imm7 : BitVec 7) (s : State) : Host.Outcome State Fault Refusal :=
  .next (s.finish16 (s.ctx.writeReg 13#4 (addWithCarry s.ctx.sp (~~~(zext4 imm7)) true).result))

/-- R214. -/
def execSxth (rd rm : LowReg) (s : State) : Host.Outcome State Fault Refusal :=
  .next (s.setLow rd (sextHalf (s.lowReg rm)))

/-- R215. -/
def execSxtb (rd rm : LowReg) (s : State) : Host.Outcome State Fault Refusal :=
  .next (s.setLow rd (sextByte (s.lowReg rm)))

/-- R216. -/
def execUxth (rd rm : LowReg) (s : State) : Host.Outcome State Fault Refusal :=
  .next (s.setLow rd (zext ((s.lowReg rm).extractLsb' 0 16)))

/-- R217. -/
def execUxtb (rd rm : LowReg) (s : State) : Host.Outcome State Fault Refusal :=
  .next (s.setLow rd (zext ((s.lowReg rm).extractLsb' 0 8)))

/-- R221: PRIMASK <- `im`; execution is always privileged (R314). -/
def execCps (im : BitVec 1) (low4 : BitVec 4) (s : State) : Host.Outcome State Fault Refusal :=
  .next <|
    if cpsUnpredictable low4 then s.raise .unpredictable else s.finish16 { s.ctx with primask := im }

/-- R218. -/
def execRev (rd rm : LowReg) (s : State) : Host.Outcome State Fault Refusal :=
  let v := s.lowReg rm
  .next (s.setLow rd (v.extractLsb' 0 8 ++ v.extractLsb' 8 8 ++ v.extractLsb' 16 8 ++ v.extractLsb' 24 8))

/-- R219. -/
def execRev16 (rd rm : LowReg) (s : State) : Host.Outcome State Fault Refusal :=
  let v := s.lowReg rm
  .next (s.setLow rd (v.extractLsb' 16 8 ++ v.extractLsb' 24 8 ++ v.extractLsb' 0 8 ++ v.extractLsb' 8 8))

/-- R220: the sign is bit 7 of the source. -/
def execRevsh (rd rm : LowReg) (s : State) : Host.Outcome State Fault Refusal :=
  let v := s.lowReg rm
  .next (s.setLow rd ((v.extractLsb' 0 8 ++ v.extractLsb' 8 8).signExtend 32))

/-- R222: PC stays at the BKPT; the immediate is delivered nowhere. -/
def execBkpt (_imm8 : BitVec 8) (s : State) : Host.Outcome State Fault Refusal :=
  .next (s.raise .bkpt)

/-- R223. -/
def execNop (s : State) : Host.Outcome State Fault Refusal :=
  .next (s.finish16 s.ctx)

/-- R224: `Unsupported`, PC advanced. -/
def execYield (s : State) : Host.Outcome State Fault Refusal :=
  .next (s.finish s.ctx s.pc2 .unsupported)

/-- R225: `Unsupported`, PC advanced; the block does not wait. -/
def execWfe (s : State) : Host.Outcome State Fault Refusal :=
  .next (s.finish s.ctx s.pc2 .unsupported)

/-- R226: `Unsupported`, PC advanced; the block does not wait, PRIMASK is not consulted. -/
def execWfi (s : State) : Host.Outcome State Fault Refusal :=
  .next (s.finish s.ctx s.pc2 .unsupported)

/-- R227: `Unsupported`, PC advanced; no event is sent. -/
def execSev (s : State) : Host.Outcome State Fault Refusal :=
  .next (s.finish s.ctx s.pc2 .unsupported)

/-- R228: a reserved hint is a NOP. -/
def execHintRes (_opA : BitVec 4) (s : State) : Host.Outcome State Fault Refusal :=
  .next (s.finish16 s.ctx)

end Sys2Proof.Machine
end

