-- ==== Sys2Proof/Machine/ShiftAddSubMovCmp.lean ====
section
/-! DEFINITION. Shift (immediate), add, subtract, move and compare: spec/41_shift_add_sub_mov_cmp.md R140 to R151. -/

namespace Sys2Proof.Machine

/-- R141: N and Z from the value; C and V unchanged. -/
def execMovsReg (rd rm : LowReg) (s : State) : Host.Outcome State Fault Refusal :=
  .next (s.nzInto rd (s.lowReg rm))

/-- R140. -/
def execLslsImm (rd rm : LowReg) (imm5 : BitVec 5) (s : State) : Host.Outcome State Fault Refusal :=
  .next (s.shiftInto rd (s.lowReg rm) .lsl (immShiftAmount .lsl imm5))

/-- R142. -/
def execLsrsImm (rd rm : LowReg) (imm5 : BitVec 5) (s : State) : Host.Outcome State Fault Refusal :=
  .next (s.shiftInto rd (s.lowReg rm) .lsr (immShiftAmount .lsr imm5))

/-- R143. -/
def execAsrsImm (rd rm : LowReg) (imm5 : BitVec 5) (s : State) : Host.Outcome State Fault Refusal :=
  .next (s.shiftInto rd (s.lowReg rm) .asr (immShiftAmount .asr imm5))

/-- R144. -/
def execAddsReg (rd rn rm : LowReg) (s : State) : Host.Outcome State Fault Refusal :=
  .next (s.addInto rd (s.lowReg rn) (s.lowReg rm) false)

/-- R145. -/
def execSubsReg (rd rn rm : LowReg) (s : State) : Host.Outcome State Fault Refusal :=
  .next (s.addInto rd (s.lowReg rn) (~~~(s.lowReg rm)) true)

/-- R146. -/
def execAddsImm3 (rd rn : LowReg) (imm3 : BitVec 3) (s : State) : Host.Outcome State Fault Refusal :=
  .next (s.addInto rd (s.lowReg rn) (zext imm3) false)

/-- R147. -/
def execSubsImm3 (rd rn : LowReg) (imm3 : BitVec 3) (s : State) : Host.Outcome State Fault Refusal :=
  .next (s.addInto rd (s.lowReg rn) (~~~(zext imm3)) true)

/-- R148: C and V unchanged. -/
def execMovsImm8 (rd : LowReg) (imm8 : BitVec 8) (s : State) : Host.Outcome State Fault Refusal :=
  .next (s.nzInto rd (zext imm8))

/-- R149. -/
def execCmpImm8 (rn : LowReg) (imm8 : BitVec 8) (s : State) : Host.Outcome State Fault Refusal :=
  .next (s.addFlags (s.lowReg rn) (~~~(zext imm8)) true)

/-- R150. -/
def execAddsImm8 (rdn : LowReg) (imm8 : BitVec 8) (s : State) : Host.Outcome State Fault Refusal :=
  .next (s.addInto rdn (s.lowReg rdn) (zext imm8) false)

/-- R151. -/
def execSubsImm8 (rdn : LowReg) (imm8 : BitVec 8) (s : State) : Host.Outcome State Fault Refusal :=
  .next (s.addInto rdn (s.lowReg rdn) (~~~(zext imm8)) true)

end Sys2Proof.Machine
end

