-- ==== Sys2Proof/Machine/SpecialDataBx.lean ====
section
/-! DEFINITION. Special data instructions and branch-exchange: spec/43_special_data_bx.md R180 to R184. -/

namespace Sys2Proof.Machine

/-- R180: no flag; with destination 15 the sum is written to PC by `ALUWritePC` (R113). -/
def execAddHi (rdn rm : RegNum) (s : State) : Host.Outcome State Fault Refusal :=
  .next <|
    if addHiUnpredictable rdn rm then s.raise .unpredictable
    else
      let result := (addWithCarry (s.reg rdn) (s.reg rm) false).result
      if rdn = 15#4 then s.branchTo s.ctx result else s.finish16 (s.ctx.writeReg rdn result)

/-- R181: the one instruction of the group that writes flags. -/
def execCmpHi (rn rm : RegNum) (s : State) : Host.Outcome State Fault Refusal :=
  .next <|
    if cmpHiUnpredictable rn rm then s.raise .unpredictable
    else s.addFlags (s.reg rn) (~~~(s.reg rm)) true

/-- R182: no flag; with destination 15 a branch by `ALUWritePC` (R113). -/
def execMovHi (rd rm : RegNum) (s : State) : Host.Outcome State Fault Refusal :=
  .next <|
    if rd = 15#4 then s.branchTo s.ctx (s.reg rm) else s.finish16 (s.ctx.writeReg rd (s.reg rm))

/-- R183: T is bit 0 of the target; an even target faults at the next step, not here. -/
def execBx (rm : RegNum) (sbz : BitVec 3) (s : State) : Host.Outcome State Fault Refusal :=
  .next <|
    if bxUnpredictable rm sbz then s.raise .unpredictable else s.exchangeTo s.ctx (s.reg rm)

/-- R184: the target is read before LR is written; the return address is `inst_addr + 2` with bit 0 set. -/
def execBlx (rm : RegNum) (sbz : BitVec 3) (s : State) : Host.Outcome State Fault Refusal :=
  .next <|
    if bxUnpredictable rm sbz then s.raise .unpredictable
    else s.exchangeTo (s.ctx.writeReg 14#4 (s.pc2 ||| 1#32)) (s.reg rm)

end Sys2Proof.Machine
end

