-- ==== Sys2Proof/Machine/Thumb32.lean ====
section
/-! DEFINITION. The 32-bit instructions: spec/48_thumb32.md R250 to R256. -/

namespace Sys2Proof.Machine

/-- R250: LR is `inst_addr + 4` with bit 0 set; the base is not aligned. -/
def execBl (sgn : BitVec 1) (imm10 : BitVec 10) (j1 j2 : BitVec 1) (imm11 : BitVec 11) (s : State) :
    Host.Outcome State Fault Refusal :=
  .next (s.branchTo (s.ctx.writeReg 14#4 (s.pc4 ||| 1#32)) (s.branchBase + blOffset sgn imm10 j1 j2 imm11))

/-- R251. -/
def execMsr (rn : RegNum) (sysm : BitVec 8) (b20 b13 : BitVec 1) (b11_8 : BitVec 4) (s : State) :
    Host.Outcome State Fault Refusal :=
  .next <|
    if msrUnpredictable rn sysm b20 b13 b11_8 then s.raise .unpredictable
    else
      match specialReg sysm with
      | some k => s.finish32 (s.ctx.writeSpecial (s.reg rn) k)
      | none => s.raise .unpredictable

/-- R252. -/
def execMrs (rd : RegNum) (sysm : BitVec 8) (b20 : BitVec 1) (b19_16 : BitVec 4) (b13 : BitVec 1) (s : State) :
    Host.Outcome State Fault Refusal :=
  .next <|
    if mrsUnpredictable rd sysm b20 b19_16 b13 then s.raise .unpredictable
    else
      match specialReg sysm with
      | some k => s.finish32 (s.ctx.writeReg rd (s.ctx.readSpecial k))
      | none => s.raise .unpredictable

/-- R253: `finish DSB_RESULT`. -/
def execDsb (_option b19_16 : BitVec 4) (b13 : BitVec 1) (b11_8 : BitVec 4) (s : State) :
    Host.Outcome State Fault Refusal :=
  .next (s.barrier Config.dsbResult b19_16 b13 b11_8)

/-- R254. -/
def execDmb (_option b19_16 : BitVec 4) (b13 : BitVec 1) (b11_8 : BitVec 4) (s : State) :
    Host.Outcome State Fault Refusal :=
  .next (s.barrier .ok b19_16 b13 b11_8)

/-- R255. -/
def execIsb (_option b19_16 : BitVec 4) (b13 : BitVec 1) (b11_8 : BitVec 4) (s : State) :
    Host.Outcome State Fault Refusal :=
  .next (s.barrier .ok b19_16 b13 b11_8)

/-- R256: `Undefined`, PC unmodified. -/
def execUdfW (_imm4 : BitVec 4) (_imm12 : BitVec 12) (s : State) :
    Host.Outcome State Fault Refusal :=
  .next (s.raise .undefined)

end Sys2Proof.Machine
end

