-- ==== Sys2Proof/Machine/Fetch.lean ====
section
/-! DEFINITION. The fetch of a step: spec/20_memory.md R59, steps 2 to 5 of spec/40_common_operations.md R110. -/

namespace Sys2Proof.Machine

/-- The port's record starts empty at a step (assumption 7). -/
def State.clearPort (s : State) : State := { s with bus := { s.bus with port := [] } }

/-- One halfword read with `MemRead(addr, 2)`; `none` is a failure. -/
def State.fetchHalf (s : State) (addr : Word) : State × Option Half :=
  match s.memRead .half addr with
  | (s', some v) => (s', some (v.setWidth 16))
  | (s', none) => (s', none)

/-- R59: the first halfword at PC, and the second at PC + 2 when the first says so, before any decoding. -/
def State.fetch (s : State) : State × Option Fetched :=
  match s.fetchHalf s.ctx.pc with
  | (s1, none) => (s1, none)
  | (s1, some h1) =>
    if isWide h1 then
      match s1.fetchHalf (s.ctx.pc + 2#32) with
      | (s2, none) => (s2, none)
      | (s2, some h2) => (s2, some (.wide h1 h2))
    else (s1, some (.narrow h1))

end Sys2Proof.Machine
end

