-- ==== Sys2Proof/Machine/Executor.lean ====
section
/-! DEFINITION. One step of the executor: spec/40_common_operations.md R110, in its fixed order (decision D9, R310). -/

namespace Sys2Proof.Machine

/-- `step()` (R110): T = 0 is `HardFault` before any access (R28); a failed fetch is `HardFault`; halfwords that select
no row are `Undefined`; otherwise the instruction's meaning, which begins with its `Unpredictable` cases (R95). -/
def State.stepInstr (s : State) : Host.Outcome State Fault Refusal :=
  if s.ctx.t then
    match s.clearPort.fetch with
    | (s1, none) => .next (s1.raise .hardFault)
    | (s1, some f) =>
      match decodeFetched f with
      | none => .next (s1.raise .undefined)
      | some i => exec i s1
  else .next (s.clearPort.raise .hardFault)

end Sys2Proof.Machine
end

