-- ==== Sys2Proof/Machine/HostPort.lean ====
section
/-! DEFINITION. The host's side of the block: its access to the context (spec/10_state.md R38, R39), the payloads that
carry state (spec/55_packet_engine.md R274, R295, R296), its access to memory (spec/20_memory.md R72), and the
platform's regions and watchpoints (R64, R65). -/

namespace Sys2Proof.Machine

/-! ## The context (R38, R39) -/

/-- What the host reads; PC is the stored PC, not `x[15]` (R39). -/
def Context.hostRead (c : Context) : HostReg → Word
  | .r i => c.r[i]
  | .sp => c.sp
  | .lr => c.lr
  | .pc => c.pc
  | .xpsr => c.xpsr

/-- What a host write stores (R38): SP through the mask, xPSR with IPSR zero, PC as given, odd or even. -/
def Context.hostWrite (c : Context) (k : HostReg) (v : Word) : Context :=
  match k with
  | .r i => { c with r := c.r.set i v }
  | .sp => c.writeSp v
  | .lr => { c with lr := v }
  | .pc => { c with pc := v }
  | .xpsr => { c with xpsr := v &&& 0xFFFFFFC0#32 }

/-- A host write of PRIMASK stores bit 0 (R38). -/
def Context.hostWritePrimask (c : Context) (v : Word) : Context := { c with primask := v.extractLsb' 0 1 }

/-- Several host writes in order. -/
def Context.hostWrites (c : Context) : List (HostReg × Word) → Context
  | [] => c
  | (k, v) :: ws => (c.hostWrite k v).hostWrites ws

/-- The seventeen words of the wire view in their order (R39). -/
def Context.words (c : Context) : Vector Word 17 :=
  #v[c.r[0], c.r[1], c.r[2], c.r[3], c.r[4], c.r[5], c.r[6], c.r[7], c.r[8], c.r[9], c.r[10], c.r[11], c.r[12],
    c.sp, c.lr, c.pc, c.xpsr]

/-- All seventeen registers written, each by its host write rule (R38, R295). -/
def Context.hostWriteAll (c : Context) (w : Vector Word 17) : Context :=
  { r := #v[w[0], w[1], w[2], w[3], w[4], w[5], w[6], w[7], w[8], w[9], w[10], w[11], w[12]]
    sp := w[13] &&& Config.spWriteMask
    lr := w[14]
    pc := w[15]
    xpsr := w[16] &&& 0xFFFFFFC0#32
    primask := c.primask }

/-! ## Hexadecimal (R274) -/

/-- The digit the engine emits: `0` to `9`, `a` to `f` (R274). -/
def hexDigit (v : BitVec 4) : Byte := if v.toNat < 10 then 0x30#8 + v.setWidth 8 else 0x57#8 + v.setWidth 8

/-- The value of a digit on input, either case; none for a byte that is no hex digit (R274). -/
def hexValue (b : Byte) : Option (BitVec 4) :=
  if 0x30 ≤ b.toNat ∧ b.toNat ≤ 0x39 then some ((b - 0x30#8).setWidth 4)
  else if 0x61 ≤ b.toNat ∧ b.toNat ≤ 0x66 then some ((b - 0x57#8).setWidth 4)
  else if 0x41 ≤ b.toNat ∧ b.toNat ≤ 0x46 then some ((b - 0x37#8).setWidth 4)
  else none

/-- A byte as two digits, high digit first (R295, R296). -/
def hexOfByte (b : Byte) : List Byte := [hexDigit (b.extractLsb' 4 4), hexDigit (b.extractLsb' 0 4)]

/-- Bytes as digits, two for each (R296). -/
def hexOfBytes (bs : List Byte) : List Byte := bs.flatMap hexOfByte

/-- The bytes a digit string stands for; none when the length is odd or a character is no digit. -/
def bytesOfHex : List Byte → Option (List Byte)
  | [] => some []
  | a :: b :: rest =>
    match hexValue a, hexValue b, bytesOfHex rest with
    | some x, some y, some bs => some ((x ++ y) :: bs)
    | _, _, _ => none
  | _ => none

/-- The four bytes of a word, least significant first (R53, R295). -/
def bytesOfWord (w : Word) : List Byte :=
  [w.extractLsb' 0 8, w.extractLsb' 8 8, w.extractLsb' 16 8, w.extractLsb' 24 8]

/-- Words from bytes, four at a time, least significant first. -/
def wordsOfBytes : List Byte → List Word
  | a :: b :: c :: d :: rest => (d ++ c ++ b ++ a) :: wordsOfBytes rest
  | _ => []

/-- The register dump, the reply to `g` (R295): 136 lowercase digits. -/
def Context.dump (c : Context) : List Byte := hexOfBytes (c.words.toList.flatMap bytesOfWord)

/-- The words of the payload of `G` (R295): none unless it is 136 hex digits. -/
def parseDump (digits : List Byte) : Option (Vector Word 17) :=
  match bytesOfHex digits with
  | some bs =>
    if h : (wordsOfBytes bs).length = 17 ∧ bs.length = 68 then some ⟨(wordsOfBytes bs).toArray, by simpa using h.1⟩ else none
  | none => none

/-! ## Memory, regions and watchpoints (R64, R65, R72) -/

/-- The host stores bytes at ascending addresses modulo 2^32, each where the backend has a byte, whatever the region's
flag; no watchpoint is consulted and the latch stays, and the host is told nothing, also when bytes were skipped: the
spec is silent (R72, R296, N11). DESIGN CHOICE, unsafe (assumption 10). -/
def Bus.hostStore (b : Bus) (addr : Word) : List Byte → Bus
  | [] => b
  | v :: vs =>
    let b' := if (b.resolve .byte addr).isSome then { b with mem := b.mem.writeByte addr.toNat v } else b
    b'.hostStore (addr + 1#32) vs

/-- The bytes at ascending addresses modulo 2^32, as the host reads them (assumption 10). -/
def Bus.hostLoad (b : Bus) (addr : Word) : Nat → List Byte
  | 0 => []
  | n + 1 => b.mem.readByte addr.toNat :: b.hostLoad (addr + 1#32) n

/-- Each byte the host reads lies in exactly one region (R56 (a), R72); alignment, breakpoints and the latch play no part
(assumption 10). -/
def Bus.hostReadable (b : Bus) (addr : Word) : Nat → Bool
  | 0 => true
  | n + 1 => (b.resolve .byte addr).isSome && b.hostReadable (addr + 1#32) n

/-- What a host read of memory answers (R72, R296): the bytes in address order, or `BusError`. -/
def Bus.hostRead (b : Bus) (addr : Word) (n : Nat) : HostReply :=
  if b.hostReadable addr n then .memory (b.hostLoad addr n) else .busError

/-- The reply to `m addr,len` (R296): "raw hex bytes in address order". -/
def Bus.memoryHex (b : Bus) (addr : Word) (n : Nat) : List Byte := hexOfBytes (b.hostLoad addr n)

/-- Same `{kind, startAddress, endAddress}` (R65). -/
def Watchpoint.same (p : Watchpoint) (k : WatchKind) (lo hi : Word) : Bool :=
  p.kind == k && p.startAddress == lo && p.endAddress == hi

/-- The sorted slot of R65, the list being "strictly ordered by start address"; none when an entry with this start address
is present, for the strict order has no slot for a second one (assumption 11). -/
def insertWatchpoint (p : Watchpoint) : List Watchpoint → Option (List Watchpoint)
  | [] => some [p]
  | q :: qs =>
    if p.startAddress.toNat < q.startAddress.toNat then some (p :: q :: qs)
    else if q.startAddress.toNat < p.startAddress.toNat then (insertWatchpoint p qs).map (q :: ·)
    else none

/-- R65: a watchpoint is added to the region its start address lies in, the first one declared (assumption 11), and the
host is told whether it was added or is "already present". -/
def addWatchpoint (p : Watchpoint) : List Region → List Region × HostReply
  | [] => ([], .noRegion)
  | g :: gs =>
    if g.contains p.startAddress.toNat 1 then
      match insertWatchpoint p g.watchpoints with
      | some ps => ({ g with watchpoints := ps } :: gs, .added)
      | none => (g :: gs, .alreadyPresent)
    else
      let (gs', r) := addWatchpoint p gs
      (g :: gs', r)

/-- R65: the identical watchpoint is removed. Every region's list is searched, the host is told nothing, and where no list
holds it nothing changes: the spec is silent on all three (R65, R294, N15). DESIGN CHOICE, unsafe (assumption 11). -/
def Region.removeWatchpoint (g : Region) (k : WatchKind) (lo hi : Word) : Region :=
  { g with watchpoints := g.watchpoints.filter (fun p => !p.same k lo hi) }

/-- The host sets the payload `packetSend` will read: at most `cap` bytes are kept, and a longer payload sets
`overrun` (R271, assumption 12). -/
def Buffer.load (b : Buffer) (bytes : List Byte) : Buffer :=
  { cap := b.cap, data := bytes.take b.cap, rpos := 0, overrun := b.cap < bytes.length, hexerr := false }

end Sys2Proof.Machine
end

