-- ==== Sys2Proof/Machine/PacketEngine.lean ====
section
/-! DEFINITION. The packet engine: spec/55_packet_engine.md R270 to R292, one byte transfer or one poll a
transition (R338). -/

namespace Sys2Proof.Machine

/-- `$` (R273). -/
def dollarByte : Byte := 0x24#8

/-- `#` (R273). -/
def hashByte : Byte := 0x23#8

/-- ACK, `+` (R275). -/
def ackByte : Byte := 0x2B#8

/-- NAK, `-` (R275). -/
def nakByte : Byte := 0x2D#8

/-- Ctrl-C (R275). -/
def ctrlCByte : Byte := 0x03#8

/-! ## The comm port (R270) -/

/-- The bytes that have arrived by this transition join the queue (an input of the engine; assumption 13). -/
def Comm.deliver (c : Comm) : Comm :=
  match c.arrivals with
  | [] => c
  | batch :: later => { c with rx := c.rx ++ batch, arrivals := later }

/-- `hasReceiveData()`: "true when at least one received byte is queued; it consumes nothing". -/
def Comm.hasReceiveData (c : Comm) : Bool := !c.rx.isEmpty

/-- `sendChar(byte)`: one byte behind the transmit stream. -/
def State.sendChar (s : State) (b : Byte) : State := { s with comm := { s.comm with tx := s.comm.tx ++ [b] } }

/-- `receiveChar()`: the oldest queued byte is consumed and the engine goes on with it. With none queued the call
blocks: the machine waits for a later batch, and is stuck when none will come (R270, R337). -/
def State.receiveChar (s : State) (go : Byte → State → State) : Host.Outcome State Fault Refusal :=
  let c := s.comm.deliver
  match c.rx with
  | b :: rest => .next (go b { s with comm := { c with rx := rest } })
  | [] => if s.comm.arrivals.isEmpty then .fault .receiveBlocked else .next { s with comm := c }

/-! ## The buffer's operations (R271) -/

/-- `reset`. -/
def Buffer.clear (b : Buffer) : Buffer := ⟨b.cap, [], 0, false, false⟩

/-- `append(b)`. -/
def Buffer.append (b : Buffer) (x : Byte) : Buffer := { b with data := b.data ++ [x] }

/-- `rewind`. -/
def Buffer.rewind (b : Buffer) : Buffer := { b with rpos := 0 }

/-- `len = PKT_CAP`: no room. -/
def Buffer.full (b : Buffer) : Bool := b.cap ≤ b.data.length

/-! ## packetGet (R276) -/

/-- Entering CAPTURE: the buffer is reset and the sum is zero. -/
def State.startCapture (s : State) : State :=
  { s with buffer := s.buffer.clear, packet := { s.packet with last := dollarByte, sum := 0#8 }, engine := .capture }

/-- SCAN: every byte before a `$` is discarded (R277). -/
def State.scanByte (b : Byte) (s : State) : State :=
  if b = dollarByte then s.startCapture else { s with packet := { s.packet with last := b } }

/-- CAPTURE (R278). -/
def State.captureByte (b : Byte) (s : State) : State :=
  let s := { s with packet := { s.packet with last := b } }
  if b = dollarByte then s.startCapture
  else if b = hashByte then { s with engine := .check1 }
  else if s.buffer.full then { s with buffer := { s.buffer with overrun := true }, engine := .check1 }
  else { s with buffer := s.buffer.append b, packet := { s.packet with sum := s.packet.sum + b } }

/-- The first checksum character. -/
def State.check1Byte (b : Byte) (s : State) : State := { s with engine := .check2 b }

/-- The second checksum character and the decision (R279); ACK or NAK is the next transition's byte transfer (R338). -/
def State.check2Byte (d1 d2 : Byte) (s : State) : State :=
  let s := { s with packet := { s.packet with last := 0#8 } }
  match hexValue d1, hexValue d2 with
  | some x, some y =>
    let s := { s with packet := { s.packet with expected := x ++ y } }
    { s with engine := .reply (s.packet.expected == s.packet.sum) }
  | _, _ => { s with buffer := { s.buffer with hexerr := true }, engine := .reply false }

/-- ACK, and on to MORE; or NAK, and back to SCAN (R279, R280). -/
def State.sendReply (valid : Bool) (s : State) : State :=
  if valid then { s.sendChar ackByte with engine := .more } else { s.sendChar nakByte with engine := .scan }

/-- MORE: one poll; with data queued the engine scans again, otherwise the call returns (R280, R281). -/
def State.peekMore (s : State) : State :=
  let s := { s with comm := s.comm.deliver }
  if s.comm.hasReceiveData then { s with engine := .scan }
  else { s with buffer := s.buffer.rewind, engine := .idle }

/-! ## packetSend (R285) -/

/-- RESEND: the sum is zero and `$` is sent. -/
def State.sendDollar (s : State) : State :=
  { s.sendChar dollarByte with packet := { s.packet with sum := 0#8 }, engine := .sendPayload 0 }

/-- One payload byte, or `#` behind the last. -/
def State.sendPayloadByte (i : Nat) (s : State) : State :=
  match s.buffer.data[i]? with
  | some b => { s.sendChar b with packet := { s.packet with sum := s.packet.sum + b }, engine := .sendPayload (i + 1) }
  | none => { s.sendChar hashByte with engine := .sendHigh }

/-- The high digit of the checksum. -/
def State.sendHighDigit (s : State) : State :=
  { s.sendChar (hexDigit (s.packet.sum.extractLsb' 4 4)) with engine := .sendLow }

/-- The low digit of the checksum. -/
def State.sendLowDigit (s : State) : State :=
  { s.sendChar (hexDigit (s.packet.sum.extractLsb' 0 4)) with engine := .wait }

/-- WAIT (R286, R287): `+` and `$` return, Ctrl-C is skipped, every other byte resends. -/
def State.waitByte (b : Byte) (s : State) : State :=
  let s := { s with packet := { s.packet with last := b } }
  if b = ackByte ∨ b = dollarByte then { s with engine := .idle }
  else if b = ctrlCByte then s
  else { s with engine := .sendStart }

/-! ## The engine -/

/-- Both commands begin with `last`, `expected` and `calc` zero (R272). -/
def State.beginPacket (s : State) (p : EnginePhase) : State := { s with packet := ⟨0#8, 0#8, 0#8⟩, engine := p }

/-- One transition of the engine; idle, it does nothing. -/
def State.engineStep (s : State) : Host.Outcome State Fault Refusal :=
  match s.engine with
  | .idle => .next s
  | .scan => s.receiveChar State.scanByte
  | .capture => s.receiveChar State.captureByte
  | .check1 => s.receiveChar State.check1Byte
  | .check2 d1 => s.receiveChar (State.check2Byte d1)
  | .reply valid => .next (s.sendReply valid)
  | .more => .next s.peekMore
  | .sendStart => .next s.sendDollar
  | .sendPayload i => .next (s.sendPayloadByte i)
  | .sendHigh => .next s.sendHighDigit
  | .sendLow => .next s.sendLowDigit
  | .wait => s.receiveChar State.waitByte

end Sys2Proof.Machine
end

