-- ==== Sys2Proof/Machine/RunLoop.lean ====
section
/-! DEFINITION. The run loop: spec/50_run_loop.md R260 to R268, one iteration a transition. -/

namespace Sys2Proof.Machine

/-- The stop request of this iteration (R264); 0 when the list is used up (assumption 14). -/
def State.takeStop (s : State) : State × Bool :=
  match s.stops with
  | [] => (s, false)
  | b :: bs => ({ s with stops := bs }, b)

/-- The reference predicate (R263): the latch first, then the poll, which consumes nothing. -/
def State.referencePreempt (s : State) : State × Preempt :=
  if s.bus.latch then ({ s with bus := { s.bus with latch := false } }, .watchpoint)
  else
    let c := s.comm.deliver
    ({ s with comm := c }, if c.hasReceiveData then .interrupt else .ok)

/-- The preempt input (R262): exactly one call an iteration. A used-up list of answers says `OK` (assumption 9). -/
def State.preempt (s : State) : State × Preempt :=
  match s.predicate with
  | .reference => s.referencePreempt
  | .scripted [] => (s, .ok)
  | .scripted (p :: ps) =>
    ({ s with
        predicate := .scripted ps
        ctx := s.ctx.hostWrites p.writes
        bus := { s.bus with latch := s.bus.latch && !p.clearsLatch } }, p.answer)

/-- The result a preemption returns; none for `OK` (R262). -/
def Preempt.result : Preempt → Option StepResult
  | .ok => none
  | .interrupt => some .interrupt
  | .watchpoint => some .watchpoint

/-- `done`: Stopped, with the result delivered (R261). -/
def State.stopWith (s : State) (x : StepResult) : State := { s with loop := .stopped, result := some x }

/-- After the step: another iteration for `OK`, Stopped for any other result (R261). -/
def State.afterStep (s : State) : State := if s.result = some .ok then s else { s with loop := .stopped }

/-- One iteration of the loop (R261): the stop request, the predicate, the step, in this order (decision D15). -/
def State.runIteration (s : State) : Host.Outcome State Fault Refusal :=
  let (s1, stop) := s.takeStop
  if stop then .next (s1.stopWith .ok)
  else
    let (s2, p) := s1.preempt
    match p.result with
    | some x => .next (s2.stopWith x)
    | none =>
      match s2.stepInstr with
      | .next s3 => .next s3.afterStep
      | .fault f => .fault f
      | .refused r => .refused r

end Sys2Proof.Machine
end

