-- ==== Sys2Proof/Machine/Control.lean ====
section
/-! DEFINITION. What the machine does next: the packet engine inside a command, the run loop while Running, otherwise
the host's next command (spec/00_scope.md R6, R7; R260, R291, R335, R336). And the load of an instruction for
`State.withFetchWord`. -/

namespace Sys2Proof.Machine

/-- One command of the host, taken only while the block is Stopped (R38, R335). Only the reads and `addWatchpoint` answer;
every other command, a memory write and a removal among them, tells the host nothing and leaves `State.reply` as it is,
where the spec is silent (R72, N11). DESIGN CHOICE (assumptions 10, 11, 26). -/
def State.execCommand (s : State) : Command → Host.Outcome State Fault Refusal
  | .step => s.stepInstr
  | .run => .next { s with loop := .running }
  | .packetGet => .next (s.beginPacket .scan)
  | .packetSend => .next (s.beginPacket .sendStart)
  | .readReg k => .next { s with reply := some (.word (s.ctx.hostRead k)) }
  | .readPrimask => .next { s with reply := some (.word (s.ctx.primask.setWidth 32)) }
  | .readAll => .next { s with reply := some (.registers s.ctx.words) }
  | .writeReg k v => .next { s with ctx := s.ctx.hostWrite k v }
  | .writePrimask v => .next { s with ctx := s.ctx.hostWritePrimask v }
  | .writeAll w => .next { s with ctx := s.ctx.hostWriteAll w }
  | .readMem addr count => .next { s with reply := some (s.bus.hostRead addr count) }
  | .writeMem addr bytes => .next { s with bus := s.bus.hostStore addr bytes }
  | .loadBuffer bytes => .next { s with buffer := s.buffer.load bytes }
  | .declareRegion base size readOnly =>
    .next { s with bus := { s.bus with regions := s.bus.regions ++ [⟨base, size, readOnly, []⟩] } }
  | .addWatchpoint p =>
    let (regions, answer) := Sys2Proof.Machine.addWatchpoint p s.bus.regions
    .next { s with bus := { s.bus with regions := regions }, reply := some answer }
  | .removeWatchpoint k lo hi =>
    .next { s with bus := { s.bus with regions := s.bus.regions.map (·.removeWatchpoint k lo hi) } }

/-- One transition of the machine. With no command left a Stopped block gets a `step` (assumption 5). -/
def State.advance (s : State) : Host.Outcome State Fault Refusal :=
  if s.engine = .idle then
    match s.loop with
    | .running => s.runIteration
    | .stopped =>
      match s.commands with
      | [] => s.stepInstr
      | c :: cs => State.execCommand { s with commands := cs } c
  else s.engineStep

/-- One read-write region that is the whole address space, without a watchpoint. -/
def wholeSpace : Region := ⟨0#32, 2 ^ 32, false, []⟩

/-- The bytes stored at ascending addresses modulo 2^32. -/
def Memory.storeBytes (m : Memory) (addr : Word) : List Byte → Memory
  | [] => m
  | v :: vs => (m.writeByte addr.toNat v).storeBytes (addr + 1#32) vs

/-- Both halfwords at an address can be fetched. -/
def Bus.fetchable (b : Bus) (addr : Word) : Bool :=
  (b.grants ⟨.read, .half, addr⟩).isSome && (b.grants ⟨.read, .half, addr + 2#32⟩).isSome

/-- The state in which the next transition fetches the given bytes: they stand at PC, PC is even and T is 1 (R331),
the block is Stopped with no command waiting, and the bytes lie in a region (assumption 15). -/
def State.loadAtPc (s : State) (bytes : List Byte) : State :=
  let pc := clearBit0 s.ctx.pc
  let regions := if s.bus.fetchable pc then s.bus.regions else [wholeSpace]
  { s with
      ctx := { s.ctx.setT true with pc := pc }
      bus := { s.bus with regions := regions, mem := s.bus.mem.storeBytes pc bytes }
      loop := .stopped
      engine := .idle
      commands := [] }

end Sys2Proof.Machine
end

