-- ==== Sys2Proof/Machine/OpcodeTable.lean ====
section
/-! DEFINITION. The rows of spec/opcode_table.json as data, in file order: width, `match`, `mask` (32-bit rows on
`hw1:hw2`, spec/30_encoding.md R97), the number of the row an instruction stands for, and the row a word selects. It is
written from the table alone; the decoder is written from the encoding rules, and a statement compares the two. -/

namespace Sys2Proof

/-- A row of the opcode table. -/
structure OpcodeRow where
  width : Nat
  pattern : Nat
  mask : Nat
  deriving DecidableEq, Repr

/-- Rows of the opcode table, in file order. -/
def opcodeRowsA : List OpcodeRow := [
  ⟨16, 0x0000, 0xFFC0⟩, ⟨16, 0x0000, 0xF800⟩, ⟨16, 0x0800, 0xF800⟩, ⟨16, 0x1000, 0xF800⟩,
  ⟨16, 0x1800, 0xFE00⟩, ⟨16, 0x1A00, 0xFE00⟩, ⟨16, 0x1C00, 0xFE00⟩, ⟨16, 0x1E00, 0xFE00⟩,
  ⟨16, 0x2000, 0xF800⟩, ⟨16, 0x2800, 0xF800⟩, ⟨16, 0x3000, 0xF800⟩, ⟨16, 0x3800, 0xF800⟩,
  ⟨16, 0x4000, 0xFFC0⟩, ⟨16, 0x4040, 0xFFC0⟩, ⟨16, 0x4080, 0xFFC0⟩, ⟨16, 0x40C0, 0xFFC0⟩,
  ⟨16, 0x4100, 0xFFC0⟩, ⟨16, 0x4140, 0xFFC0⟩, ⟨16, 0x4180, 0xFFC0⟩, ⟨16, 0x41C0, 0xFFC0⟩,
  ⟨16, 0x4200, 0xFFC0⟩, ⟨16, 0x4240, 0xFFC0⟩, ⟨16, 0x4280, 0xFFC0⟩, ⟨16, 0x42C0, 0xFFC0⟩,
  ⟨16, 0x4300, 0xFFC0⟩, ⟨16, 0x4340, 0xFFC0⟩, ⟨16, 0x4380, 0xFFC0⟩, ⟨16, 0x43C0, 0xFFC0⟩]

/-- Rows of the opcode table, in file order. -/
def opcodeRowsB : List OpcodeRow := [
  ⟨16, 0x4400, 0xFF00⟩, ⟨16, 0x4500, 0xFF00⟩, ⟨16, 0x4600, 0xFF00⟩, ⟨16, 0x4700, 0xFF80⟩,
  ⟨16, 0x4780, 0xFF80⟩, ⟨16, 0x4800, 0xF800⟩, ⟨16, 0x5000, 0xFE00⟩, ⟨16, 0x5200, 0xFE00⟩,
  ⟨16, 0x5400, 0xFE00⟩, ⟨16, 0x5600, 0xFE00⟩, ⟨16, 0x5800, 0xFE00⟩, ⟨16, 0x5A00, 0xFE00⟩,
  ⟨16, 0x5C00, 0xFE00⟩, ⟨16, 0x5E00, 0xFE00⟩, ⟨16, 0x6000, 0xF800⟩, ⟨16, 0x6800, 0xF800⟩,
  ⟨16, 0x7000, 0xF800⟩, ⟨16, 0x7800, 0xF800⟩, ⟨16, 0x8000, 0xF800⟩, ⟨16, 0x8800, 0xF800⟩,
  ⟨16, 0x9000, 0xF800⟩, ⟨16, 0x9800, 0xF800⟩, ⟨16, 0xA000, 0xF800⟩, ⟨16, 0xA800, 0xF800⟩,
  ⟨16, 0xB000, 0xFF80⟩, ⟨16, 0xB080, 0xFF80⟩, ⟨16, 0xB200, 0xFFC0⟩, ⟨16, 0xB240, 0xFFC0⟩]

/-- Rows of the opcode table, in file order. -/
def opcodeRowsC : List OpcodeRow := [
  ⟨16, 0xB280, 0xFFC0⟩, ⟨16, 0xB2C0, 0xFFC0⟩, ⟨16, 0xB400, 0xFE00⟩, ⟨16, 0xB660, 0xFFE0⟩,
  ⟨16, 0xBA00, 0xFFC0⟩, ⟨16, 0xBA40, 0xFFC0⟩, ⟨16, 0xBAC0, 0xFFC0⟩, ⟨16, 0xBC00, 0xFE00⟩,
  ⟨16, 0xBE00, 0xFF00⟩, ⟨16, 0xBF00, 0xFFFF⟩, ⟨16, 0xBF10, 0xFFFF⟩, ⟨16, 0xBF20, 0xFFFF⟩,
  ⟨16, 0xBF30, 0xFFFF⟩, ⟨16, 0xBF40, 0xFFFF⟩, ⟨16, 0xBF00, 0xFF0F⟩, ⟨16, 0xC000, 0xF800⟩,
  ⟨16, 0xC800, 0xF800⟩, ⟨16, 0xDE00, 0xFF00⟩, ⟨16, 0xDF00, 0xFF00⟩, ⟨16, 0xD000, 0xF000⟩,
  ⟨16, 0xE000, 0xF800⟩, ⟨32, 0xF000D000, 0xF800D000⟩, ⟨32, 0xF3808000, 0xFFE0D000⟩, ⟨32, 0xF3E08000, 0xFFE0D000⟩,
  ⟨32, 0xF3B08040, 0xFFF0D0F0⟩, ⟨32, 0xF3B08050, 0xFFF0D0F0⟩, ⟨32, 0xF3B08060, 0xFFF0D0F0⟩, ⟨32, 0xF7F0A000, 0xFFF0F000⟩]

/-- The opcode table. -/
def opcodeTable : List OpcodeRow := opcodeRowsA ++ opcodeRowsB ++ opcodeRowsC

/-- The number of the first row, counted from `k`, of the given width with `(word AND mask) = match` (R97). -/
def firstRowFrom (width word : Nat) : Nat → List OpcodeRow → Option Nat
  | _, [] => none
  | k, r :: rs => if r.width = width ∧ word &&& r.mask = r.pattern then some k else firstRowFrom width word (k + 1) rs

/-- "A word selects the first row, in file order, with `(word AND mask) = match`" (R97). -/
def firstRow (width word : Nat) : Option Nat := firstRowFrom width word 0 opcodeTable

/-- The number of an instruction's row. -/
def Instr.row : Instr → Nat
  | .movsReg .. => 0 | .lslsImm .. => 1 | .lsrsImm .. => 2 | .asrsImm .. => 3
  | .addsReg .. => 4 | .subsReg .. => 5 | .addsImm3 .. => 6 | .subsImm3 .. => 7
  | .movsImm8 .. => 8 | .cmpImm8 .. => 9 | .addsImm8 .. => 10 | .subsImm8 .. => 11
  | .ands .. => 12 | .eors .. => 13 | .lslsReg .. => 14 | .lsrsReg .. => 15
  | .asrsReg .. => 16 | .adcs .. => 17 | .sbcs .. => 18 | .rors .. => 19
  | .tst .. => 20 | .rsbs .. => 21 | .cmpReg .. => 22 | .cmn .. => 23
  | .orrs .. => 24 | .muls .. => 25 | .bics .. => 26 | .mvns .. => 27
  | .addHi .. => 28 | .cmpHi .. => 29 | .movHi .. => 30 | .bx .. => 31
  | .blx .. => 32 | .ldrLit .. => 33 | .strReg .. => 34 | .strhReg .. => 35
  | .strbReg .. => 36 | .ldrsbReg .. => 37 | .ldrReg .. => 38 | .ldrhReg .. => 39
  | .ldrbReg .. => 40 | .ldrshReg .. => 41 | .strImm .. => 42 | .ldrImm .. => 43
  | .strbImm .. => 44 | .ldrbImm .. => 45 | .strhImm .. => 46 | .ldrhImm .. => 47
  | .strSp .. => 48 | .ldrSp .. => 49 | .adr .. => 50 | .addRdSp .. => 51
  | .addSp .. => 52 | .subSp .. => 53 | .sxth .. => 54 | .sxtb .. => 55
  | .uxth .. => 56 | .uxtb .. => 57 | .push .. => 58 | .cps .. => 59
  | .rev .. => 60 | .rev16 .. => 61 | .revsh .. => 62 | .pop .. => 63
  | .bkpt .. => 64 | .nop => 65 | .yield => 66 | .wfe => 67
  | .wfi => 68 | .sev => 69 | .hintRes .. => 70 | .stm .. => 71
  | .ldm .. => 72 | .udf .. => 73 | .svc .. => 74 | .bcond .. => 75
  | .b .. => 76 | .bl .. => 77 | .msr .. => 78 | .mrs .. => 79
  | .dsb .. => 80 | .dmb .. => 81 | .isb .. => 82 | .udfW .. => 83

end Sys2Proof
end

