-- ==== Sys2Proof/Safety.lean ====
section
/-! DEFINITION. The terms in which statements speak: what a step leaves unchanged (the frame), what the result of an
instruction is, the form of a packet on the wire, and the invariant of the machine. -/

namespace Sys2Proof.Machine

/-! ## The frame of an instruction -/

/-- `t` differs from `s` at most in: the registers numbered in `regs`, the bits of xPSR in `bits`, PRIMASK, PC, the
result port, the bytes of memory at the addresses `stored`, the watchpoint latch and the record of the memory port. -/
structure FrameButPrimask (s t : State) (regs : List RegNum) (bits : List Nat) (stored : Nat → Prop) : Prop where
  regs_kept : ∀ i : RegNum, i ≠ 15#4 → i ∉ regs → t.ctx.reg i = s.ctx.reg i
  bits_kept : ∀ k, k < 32 → k ∉ bits → t.ctx.xpsr.getLsbD k = s.ctx.xpsr.getLsbD k
  bytes_kept : ∀ a, ¬ stored a → t.bus.mem.readByte a = s.bus.mem.readByte a
  regions_kept : t.bus.regions = s.bus.regions
  loop_kept : t.loop = s.loop
  predicate_kept : t.predicate = s.predicate
  stops_kept : t.stops = s.stops
  engine_kept : t.engine = s.engine
  packet_kept : t.packet = s.packet
  buffer_kept : t.buffer = s.buffer
  comm_kept : t.comm = s.comm
  commands_kept : t.commands = s.commands
  reply_kept : t.reply = s.reply

/-- The same, PRIMASK unchanged too. -/
structure Frame (s t : State) (regs : List RegNum) (bits : List Nat) (stored : Nat → Prop) : Prop
    extends FrameButPrimask s t regs bits stored where
  primask_kept : t.ctx.primask = s.ctx.primask

/-- No byte of memory. -/
def nowhere : Nat → Prop := fun _ => False

/-- The `n` bytes from an address on. -/
def bytesAt (a n : Nat) : Nat → Prop := fun x => a ≤ x ∧ x < a + n

/-- The step ended with `OK` and PC moved past the instruction (R111). -/
def Retired (s t : State) (len : Word) : Prop := t.ctx.pc = s.ctx.pc + len ∧ t.result = some .ok

/-! ## What an instruction does -/

/-- The instruction makes register `d` hold `v` and changes nothing else: no flag, no memory request. -/
def Writes (i : Instr) (s : State) (len : Word) (d : RegNum) (v : Word) : Prop :=
  ∃ t, exec i s = .next t ∧ Retired s t len ∧ t.ctx.reg d = v ∧ Frame s t [d] [] nowhere ∧ t.bus = s.bus

/-- The instruction makes the low register `d` hold `v` and sets N and Z from it; C, V and all else stay. -/
def WritesNZ (i : Instr) (s : State) (d : LowReg) (v : Word) : Prop :=
  ∃ t, exec i s = .next t ∧ Retired s t 2#32 ∧ t.ctx.reg (low d) = v ∧
    t.ctx.n = v.msb ∧ (t.ctx.z = true ↔ v = 0#32) ∧ Frame s t [low d] [31, 30] nowhere ∧ t.bus = s.bus

/-- The instruction makes the low register `d` hold `v`, sets N and Z from it and C to `carry`; V and all else stay. -/
def WritesNZC (i : Instr) (s : State) (d : LowReg) (v : Word) (carry : Bool) : Prop :=
  ∃ t, exec i s = .next t ∧ Retired s t 2#32 ∧ t.ctx.reg (low d) = v ∧
    t.ctx.n = v.msb ∧ (t.ctx.z = true ↔ v = 0#32) ∧ t.ctx.c = carry ∧
    Frame s t [low d] [31, 30, 29] nowhere ∧ t.bus = s.bus

/-- The four flags are those of the exact sums: N and Z of the result `v`, C set iff the unsigned sum `u` does not fit
in 32 bits, V set iff the signed sum `i` does not fit in 32 bits (R119). -/
def FlagsOfSum (c : Context) (v : Word) (u i : Int) : Prop :=
  c.n = v.msb ∧ (c.z = true ↔ v = 0#32) ∧ (c.c = true ↔ 2 ^ 32 ≤ u) ∧
    (c.v = true ↔ i < -(2 ^ 31) ∨ 2 ^ 31 - 1 < i)

/-- The instruction makes the low register `d` hold `v` and sets the four flags of the sums. -/
def WritesSum (i : Instr) (s : State) (d : LowReg) (v : Word) (usum ssum : Int) : Prop :=
  ∃ t, exec i s = .next t ∧ Retired s t 2#32 ∧ t.ctx.reg (low d) = v ∧ FlagsOfSum t.ctx v usum ssum ∧
    Frame s t [low d] [31, 30, 29, 28] nowhere ∧ t.bus = s.bus

/-- The instruction only sets the four flags of the sums: no register changes. -/
def SetsFlagsOfSum (i : Instr) (s : State) (v : Word) (usum ssum : Int) : Prop :=
  ∃ t, exec i s = .next t ∧ Retired s t 2#32 ∧ FlagsOfSum t.ctx v usum ssum ∧
    Frame s t [] [31, 30, 29, 28] nowhere ∧ t.bus = s.bus

/-- The flags of a difference `a - b` with result `v` (R120): C set iff there was no borrow, V set iff the signed
difference does not fit. -/
def FlagsOfDifference (c : Context) (v a b : Word) : Prop :=
  c.n = v.msb ∧ (c.z = true ↔ v = 0#32) ∧ (c.c = true ↔ b.toNat ≤ a.toNat) ∧
    (c.v = true ↔ a.toInt - b.toInt < -(2 ^ 31) ∨ 2 ^ 31 - 1 < a.toInt - b.toInt)

/-- The instruction makes the low register `d` hold `a - b` and sets the four flags of the difference. -/
def WritesDifference (i : Instr) (s : State) (d : LowReg) (a b : Word) : Prop :=
  ∃ t, exec i s = .next t ∧ Retired s t 2#32 ∧ t.ctx.reg (low d) = a - b ∧ FlagsOfDifference t.ctx (a - b) a b ∧
    Frame s t [low d] [31, 30, 29, 28] nowhere ∧ t.bus = s.bus

/-- The instruction only sets the four flags of the difference `a - b`: no register changes. -/
def Compares (i : Instr) (s : State) (a b : Word) : Prop :=
  ∃ t, exec i s = .next t ∧ Retired s t 2#32 ∧ FlagsOfDifference t.ctx (a - b) a b ∧
    Frame s t [] [31, 30, 29, 28] nowhere ∧ t.bus = s.bus

/-- The instruction ends with `OK` at the address `target` and changes nothing else of the state. -/
def Branches (i : Instr) (s : State) (target : Word) : Prop :=
  ∃ t, exec i s = .next t ∧ t.ctx.pc = target ∧ t.result = some .ok ∧ Frame s t [] [] nowhere ∧ t.bus = s.bus

/-- The step ended with the result `x`; the context, PC included, and everything but the result are as before. -/
def Raises (i : Instr) (s : State) (x : StepResult) : Prop :=
  ∃ t, exec i s = .next t ∧ t.result = some x ∧ t.ctx = s.ctx ∧ Frame s t [] [] nowhere ∧ t.bus = s.bus

/-- The step ended with the result `x` and PC moved past the instruction; nothing else changed. -/
def EndsPast (i : Instr) (s : State) (len : Word) (x : StepResult) : Prop :=
  ∃ t, exec i s = .next t ∧ t.result = some x ∧ t.ctx = { s.ctx with pc := s.ctx.pc + len } ∧
    Frame s t [] [] nowhere ∧ t.bus = s.bus

/-! ## Memory requests -/

/-- The access is aligned and the backend performs it (R54, R56). -/
def State.permits (s : State) (k : AccessKind) (w : Width) (addr : Word) : Prop :=
  aligned w addr = true ∧ (s.bus.grants ⟨k, w, addr⟩).isSome = true

/-- The bytes at an address, the value little-endian (R53): the byte, the halfword and the word there. -/
def Memory.byteAt (m : Memory) (a : Nat) : BitVec 8 := m.readByte a
/-- See `Memory.byteAt`. -/
def Memory.halfAt (m : Memory) (a : Nat) : BitVec 16 := m.readByte (a + 1) ++ m.readByte a
/-- See `Memory.byteAt`. -/
def Memory.wordAt (m : Memory) (a : Nat) : BitVec 32 :=
  m.readByte (a + 3) ++ m.readByte (a + 2) ++ m.readByte (a + 1) ++ m.readByte a

/-- The instruction reads once on the port, makes the low register `d` hold `v`, and changes nothing else. -/
def Loads (i : Instr) (s : State) (w : Width) (addr : Word) (d : LowReg) (v : Word) : Prop :=
  ∃ t, exec i s = .next t ∧ Retired s t 2#32 ∧ t.ctx.reg (low d) = v ∧ Frame s t [low d] [] nowhere ∧
    t.bus.mem = s.bus.mem ∧ t.bus.port.map (·.access) = s.bus.port.map (·.access) ++ [⟨.read, w, addr⟩]

/-- The instruction writes once on the port and changes no register and no flag; of memory, only the bytes from `addr`
on, as many as the width has. -/
def Stores (i : Instr) (s : State) (w : Width) (addr : Word) (stored : Memory → Prop) : Prop :=
  ∃ t, exec i s = .next t ∧ Retired s t 2#32 ∧ stored t.bus.mem ∧ Frame s t [] [] (bytesAt addr.toNat w.bytes) ∧
    t.bus.port.map (·.access) = s.bus.port.map (·.access) ++ [⟨.write, w, addr⟩]

/-- The instruction ends with `HardFault`; context and memory are as before, and no request reached the port. -/
def FaultsSilently (i : Instr) (s : State) : Prop := Raises i s .hardFault

/-- The instruction ends with `HardFault` after one request that was answered `BusError`; context and memory are as
before, and so is the latch (that a refused request sets no latch is the model's: assumption 21). -/
def FaultsOnPort (i : Instr) (s : State) (k : AccessKind) (w : Width) (addr : Word) : Prop :=
  ∃ t, exec i s = .next t ∧ t.result = some .hardFault ∧ t.ctx = s.ctx ∧ Frame s t [] [] nowhere ∧
    t.bus.mem = s.bus.mem ∧ t.bus.latch = s.bus.latch ∧
    t.bus.port.map (fun e => (e.access, e.response)) =
      s.bus.port.map (fun e => (e.access, e.response)) ++ [(⟨k, w, addr⟩, .busError)]

/-- The address of transfer number `k` of a multiple transfer (R229). -/
def nthWord (start : Word) (k : Nat) : Word := start + BitVec.ofNat 32 (4 * k)

/-- The requests of a multiple transfer whose word number `k` is the first not permitted (R55, R61, R229): one word for
each before it, answered `OK`, and its own, answered `BusError`; none at all when the start address is misaligned. -/
def requestsRefusedAt (kind : AccessKind) (start : Word) (k : Nat) : List (Access × Response) :=
  if start.toNat % 4 = 0 then
    (List.range k).map (fun j => (⟨kind, .word, nthWord start j⟩, .ok)) ++ [(⟨kind, .word, nthWord start k⟩, .busError)]
  else []

/-- How many registers with a number below `i` the set holds: the place of `i` in the transfer (R229). -/
def place (set : BitVec 16) (i : Nat) : Nat := ((List.range i).filter (fun k => set.getLsbD k)).length

/-! ## Packets (R273) -/

/-- The sum of bytes modulo 256. -/
def sumBytes : List Byte → Byte
  | [] => 0#8
  | b :: bs => b + sumBytes bs

/-- A payload on the wire: `$<payload>#<2-hex-digit-checksum>`. -/
def frameOf (payload : List Byte) : List Byte :=
  [0x24#8] ++ payload ++
    [0x23#8, hexDigit ((sumBytes payload).extractLsb' 4 4), hexDigit ((sumBytes payload).extractLsb' 0 4)]

/-! ## Which instruction touches what -/

/-- The single data request of a load or store, its address from the rule's own formula (R189 to R206). -/
def dataAccess (s : State) : Instr → Option Access
  | .ldrLit _ imm8 => some ⟨.read, .word, BitVec.ofNat 32 (s.ctx.pc.toNat / 4 * 4 + 4 + 4 * imm8.toNat)⟩
  | .strReg _ rn rm => some ⟨.write, .word, s.lowReg rn + s.lowReg rm⟩
  | .strhReg _ rn rm => some ⟨.write, .half, s.lowReg rn + s.lowReg rm⟩
  | .strbReg _ rn rm => some ⟨.write, .byte, s.lowReg rn + s.lowReg rm⟩
  | .ldrsbReg _ rn rm => some ⟨.read, .byte, s.lowReg rn + s.lowReg rm⟩
  | .ldrReg _ rn rm => some ⟨.read, .word, s.lowReg rn + s.lowReg rm⟩
  | .ldrhReg _ rn rm => some ⟨.read, .half, s.lowReg rn + s.lowReg rm⟩
  | .ldrbReg _ rn rm => some ⟨.read, .byte, s.lowReg rn + s.lowReg rm⟩
  | .ldrshReg _ rn rm => some ⟨.read, .half, s.lowReg rn + s.lowReg rm⟩
  | .strImm _ rn imm5 => some ⟨.write, .word, s.lowReg rn + BitVec.ofNat 32 (4 * imm5.toNat)⟩
  | .ldrImm _ rn imm5 => some ⟨.read, .word, s.lowReg rn + BitVec.ofNat 32 (4 * imm5.toNat)⟩
  | .strbImm _ rn imm5 => some ⟨.write, .byte, s.lowReg rn + BitVec.ofNat 32 imm5.toNat⟩
  | .ldrbImm _ rn imm5 => some ⟨.read, .byte, s.lowReg rn + BitVec.ofNat 32 imm5.toNat⟩
  | .strhImm _ rn imm5 => some ⟨.write, .half, s.lowReg rn + BitVec.ofNat 32 (2 * imm5.toNat)⟩
  | .ldrhImm _ rn imm5 => some ⟨.read, .half, s.lowReg rn + BitVec.ofNat 32 (2 * imm5.toNat)⟩
  | .strSp _ imm8 => some ⟨.write, .word, s.ctx.sp + BitVec.ofNat 32 (4 * imm8.toNat)⟩
  | .ldrSp _ imm8 => some ⟨.read, .word, s.ctx.sp + BitVec.ofNat 32 (4 * imm8.toNat)⟩
  | _ => none

/-- The instructions whose row of R123 writes N and Z (MSR only when SYSm is 0 to 3). -/
def writesNZ : Instr → Bool
  | .addsReg .. | .subsReg .. | .addsImm3 .. | .subsImm3 .. | .addsImm8 .. | .subsImm8 .. | .adcs .. | .sbcs ..
  | .rsbs .. | .cmpImm8 .. | .cmpReg .. | .cmpHi .. | .cmn ..
  | .lslsImm .. | .lsrsImm .. | .asrsImm .. | .movsReg .. | .lslsReg .. | .lsrsReg .. | .asrsReg .. | .rors ..
  | .movsImm8 .. | .ands .. | .eors .. | .orrs .. | .bics .. | .mvns .. | .tst .. | .muls .. => true
  | .msr _ sysm _ _ _ => sysm.toNat ≤ 3
  | _ => false

/-- The instructions whose row of R123 writes C. MOVS (register) stands in such a row, but leaves C as it is. -/
def writesC : Instr → Bool
  | .addsReg .. | .subsReg .. | .addsImm3 .. | .subsImm3 .. | .addsImm8 .. | .subsImm8 .. | .adcs .. | .sbcs ..
  | .rsbs .. | .cmpImm8 .. | .cmpReg .. | .cmpHi .. | .cmn ..
  | .lslsImm .. | .lsrsImm .. | .asrsImm .. | .lslsReg .. | .lsrsReg .. | .asrsReg .. | .rors .. => true
  | .msr _ sysm _ _ _ => sysm.toNat ≤ 3
  | _ => false

/-- The instructions whose row of R123 writes V. -/
def writesV : Instr → Bool
  | .addsReg .. | .subsReg .. | .addsImm3 .. | .subsImm3 .. | .addsImm8 .. | .subsImm8 .. | .adcs .. | .sbcs ..
  | .rsbs .. | .cmpImm8 .. | .cmpReg .. | .cmpHi .. | .cmn .. => true
  | .msr _ sysm _ _ _ => sysm.toNat ≤ 3
  | _ => false

/-- The instructions that write T: BX, BLX, and POP with PC in the list (R28). -/
def writesT : Instr → Bool
  | .bx .. | .blx .. => true
  | .pop p _ => p == 1#1
  | _ => false

/-- The instructions that write PRIMASK: CPS, and MSR with SYSm 16 (R32). -/
def writesPrimask : Instr → Bool
  | .cps .. => true
  | .msr _ sysm _ _ _ => sysm == 16#8
  | _ => false

/-- The instructions that write memory: the stores, PUSH and STM (R50, R58). -/
def writesMemory : Instr → Bool
  | .strReg .. | .strhReg .. | .strbReg .. | .strImm .. | .strbImm .. | .strhImm .. | .strSp .. | .push .. | .stm .. =>
    true
  | _ => false

/-- R121's general rule: "bits 3:1 choose the base test ... and bit 0, when set, inverts it". -/
def condHolds (c : Context) (bits : BitVec 4) : Bool :=
  let base := match (bits.extractLsb' 1 3).toNat with
    | 0 => c.z
    | 1 => c.c
    | 2 => c.n
    | 3 => c.v
    | 4 => c.c && !c.z
    | 5 => c.n == c.v
    | _ => c.n == c.v && !c.z
  if bits.getLsbD 0 then !base else base

/-- The even address a PC write stores (R113). -/
def evenOf (x : Word) : Word := x - BitVec.ofNat 32 (x.toNat % 2)

/-- The registers of a 16-bit register set as a list of numbers. -/
def listed (set : BitVec 16) : List RegNum :=
  ((List.range 16).filter (fun k => set.getLsbD k)).map (fun k => BitVec.ofNat 4 k)

/-- The machine stands before one `step`: Stopped, no packet command active, and the host's next command is `step` (R6,
R260), or there is none left (assumption 5). -/
def State.ready (s : State) : Prop :=
  s.engine = .idle ∧ s.loop = .stopped ∧ (s.commands = [] ∨ s.commands.head? = some .step)

/-- The same state with the host's next command, if there is one, taken. -/
def State.taken (s : State) : State := { s with commands := s.commands.tail }

/-- The record of one granted halfword read. -/
def fetchEvent (a : Word) (h : Half) : PortEvent := ⟨⟨.read, .half, a⟩, h.setWidth 32, .ok⟩

/-- The state in which the instruction runs after the fetch of one halfword at PC through region `g`: the requests are
on the port, and a watchpoint may have set the latch (R59, R65). -/
def State.afterFetch (s : State) (g : Region) (h : Half) : State :=
  { s with bus := { s.bus with
      latch := s.bus.latch || g.latches ⟨.read, .half, s.ctx.pc⟩
      port := [fetchEvent s.ctx.pc h] } }

/-- The same after the fetch of two halfwords, through regions `g` and `g'`. -/
def State.afterFetch2 (s : State) (g g' : Region) (h h' : Half) : State :=
  { s with bus := { s.bus with
      latch := s.bus.latch || g.latches ⟨.read, .half, s.ctx.pc⟩ || g'.latches ⟨.read, .half, s.ctx.pc + 2#32⟩
      port := [fetchEvent s.ctx.pc h, fetchEvent (s.ctx.pc + 2#32) h'] } }

/-! ## Which instruction a transition runs -/

/-- The instruction a step of the executor runs: none when T is 0, the fetch fails, or nothing is selected (R110). -/
def State.instrAt (s : State) : Option Instr :=
  if s.ctx.t then
    match s.clearPort.fetch with
    | (_, some f) => decodeFetched f
    | (_, none) => none
  else none

/-- The instruction this transition runs, if any: in a run-loop iteration after the stop request and the predicate
(R261), in a Stopped block for the command `step` or none (assumption 5). -/
def State.runsInstr (s : State) : Option Instr :=
  if s.engine = .idle then
    match s.loop with
    | .running =>
      if s.takeStop.2 then none
      else
        match s.takeStop.1.preempt with
        | (s', .ok) => s'.instrAt
        | _ => none
    | .stopped =>
      match s.commands with
      | [] => s.instrAt
      | .step :: _ => s.instrAt
      | _ => none
  else none

/-- This transition shows PRIMASK: it runs MRS of PRIMASK, or is the host's read of PRIMASK (R32). -/
def State.showsPrimask (s : State) : Bool :=
  (match s.runsInstr with
    | some (.mrs _ sysm _ _ _) => sysm == 16#8
    | _ => false) ||
  (s.engine == .idle && s.loop == .stopped && s.commands.head? == some .readPrimask)

/-- The same state with another value of PRIMASK. -/
def State.withPrimask (s : State) (p : BitVec 1) : State := { s with ctx := { s.ctx with primask := p } }

/-- The engine waits for its next received byte. -/
def EnginePhase.receiving : EnginePhase → Bool
  | .scan | .capture | .check1 | .check2 _ | .wait => true
  | _ => false

/-! ## The invariant -/

/-- Watchpoints "strictly ordered by start address" (R65): no two of them start at one address, so none is there twice. -/
def strictlyOrdered (ps : List Watchpoint) : Prop :=
  ps.Pairwise (fun p q => p.startAddress.toNat < q.startAddress.toNat)

/-- What the packet engine knows in each phase: `calc` is the sum of what was captured, or of what was sent. -/
def State.sumRight (s : State) : Prop :=
  match s.engine with
  | .capture | .check1 | .check2 _ => s.packet.sum = sumBytes s.buffer.data
  | .reply true | .more => s.packet.sum = sumBytes s.buffer.data ∧ s.packet.expected = s.packet.sum
  | .sendPayload i => i ≤ s.buffer.data.length ∧ s.packet.sum = sumBytes (s.buffer.data.take i)
  | .sendHigh | .sendLow => s.packet.sum = sumBytes s.buffer.data
  | _ => True

/-- What every transition keeps. -/
structure State.Inv (s : State) : Prop where
  /-- Memory is in its canonical form. -/
  memory_canonical : s.bus.mem.wf = true
  /-- SP is a multiple of 4 (R22). -/
  sp_aligned : s.ctx.sp &&& 3#32 = 0#32
  /-- IPSR reads as 0 (R29). -/
  ipsr_zero : s.ctx.ipsr = 0#6
  /-- The payload buffer holds at most `PKT_CAP` bytes (R271). -/
  buffer_fits : s.buffer.data.length ≤ s.buffer.cap
  /-- `PKT_CAP` is at least 1 (R5). -/
  cap_positive : 1 ≤ s.buffer.cap
  /-- The run loop and the packet engine are never active together (R291, R336). -/
  turn_taking : s.loop = .running → s.engine = .idle
  /-- Every region's watchpoints are strictly ordered (R65). -/
  watchpoints_ordered : ∀ g ∈ s.bus.regions, strictlyOrdered g.watchpoints
  /-- The engine's running checksum is right (R276, R285). -/
  sum_right : s.sumRight

end Sys2Proof.Machine
end

