-- ==== Sys2Proof/Certificates/Slice0/Obligations.lean ====
section
/-! DEFINITION. The statements for the provers. Each docstring names the rules of spec/ it formalises; the words it uses
(`Writes`, `Frame`, `Raises`, ...) are defined in Sys2Proof/Safety.lean. -/

open Sys2Proof Sys2Proof.Machine

/-! ## Encoding -/

/-- A few words written out from the encodings of R82 and R83 decode to the instructions they stand for. -/
def Obligations.WrittenWordsDecode : Prop :=
  decode16 0b0001100011010001#16 = some (.addsReg 1#3 2#3 3#3) ∧
  decode16 0b0100011101110000#16 = some (.bx 14#4 0#3) ∧
  decode16 0b1011010100010000#16 = some (.push 1#1 0b00010000#8) ∧
  decode32 0b1111000000000000#16 0b1111100000000001#16 = some (.bl 0#1 0#10 1#1 1#1 1#11) ∧
  decode32 0b1111001110000000#16 0b1000100000010000#16 = some (.msr 0#4 16#8 0#1 0#1 0b1000#4)

/-- Every well-formed instruction is read back from its own bytes, whatever stands behind them (R80 to R91). -/
def Obligations.DecodingUndoesEncoding : Prop :=
  ∀ (i : Instr) (rest : List Byte), i.wellFormed = true → decodeBytes (encodeBytes i ++ rest) = .ok (i, rest)

/-- A halfword, or a pair, that decodes is the encoding of what it decodes to: no bit of an encoding is dropped. -/
def Obligations.EncodingUndoesDecoding : Prop :=
  (∀ (h : Half) (i : Instr), decode16 h = some i → encode i = [h] ∧ i.wellFormed = true) ∧
  (∀ (h h' : Half) (i : Instr), decode32 h h' = some i → encode i = [h, h'] ∧ i.wellFormed = true)

/-- The decoder, written from R84 to R91, selects the first row of the opcode table that matches, or none (R97). -/
def Obligations.DecoderSelectsFirstTableRow : Prop :=
  (∀ h : Half, isWide h = false → (decode16 h).map Instr.row = firstRow 16 h.toNat) ∧
  (∀ h h' : Half, isWide h = true →
    (decode32 h h').map Instr.row = firstRow 32 (h.toNat * 65536 + h'.toNat))

/-! ## Reset and the invariant -/

/-- What R40 states of the machine after reset. The spec gives R0 to R12, SP, LR and PC no value (assumption 1);
nothing is said of them here but SP's two low bits. R40 is the spec's decision D12. -/
def Obligations.ResetLeavesStatedValues : Prop :=
  State.reset.ctx.t = true ∧ State.reset.ctx.n = false ∧ State.reset.ctx.z = false ∧ State.reset.ctx.c = false ∧
  State.reset.ctx.v = false ∧ State.reset.ctx.ipsr = 0#6 ∧ State.reset.ctx.primask = 0#1 ∧
  (∀ k, k < 32 → k ≠ 24 → State.reset.ctx.xpsr.getLsbD k = false) ∧
  State.reset.ctx.sp &&& 3#32 = 0#32 ∧ State.reset.loop = .stopped

/-- The invariant holds right after reset. What R40 leaves to the launch state is the model's choice (assumptions 1 to
4). -/
def Obligations.ResetMeetsInvariant : Prop := State.reset.Inv

/-- Every transition keeps the invariant: memory canonical, SP a multiple of 4 (R22), IPSR zero (R29), the payload
buffer within its capacity (R271), run loop and packet engine never active together (R291, R336), watchpoints in order
(R65), the engine's running checksum right (R276, R285). R22 is the spec's decision D3, R29 D28, R271 D18; the
canonical form of memory is the model's own. -/
def Obligations.TransitionsKeepInvariant : Prop :=
  ∀ s t : State, s.Inv → step s = .next t → t.Inv

/-! ## One step -/

/-- R260: the host's command `step`, given to a Stopped block with no packet command active, is one step of R110, with
no predicate call and no stop request before it. A transition of the ready machine runs the instruction its fetched
halfwords decode to: `exec` of it in the state that has the fetch on the port (R59, R110). The order is the spec's
decision D9; that a Stopped machine with no command left gets a `step` too, and the record of the port, are the
model's (assumptions 5, 7). -/
def Obligations.StepRunsTheDecodedInstruction : Prop :=
  (∀ (s : State) (later : List Command), s.engine = .idle → s.loop = .stopped → s.commands = .step :: later →
    step s = ({ s with commands := later } : State).stepInstr) ∧
  (∀ (s : State) (g : Region) (i : Instr), s.ready → s.ctx.t = true → aligned .half s.ctx.pc = true →
    s.bus.grants ⟨.read, .half, s.ctx.pc⟩ = some g →
    isWide (s.bus.mem.halfAt s.ctx.pc.toNat) = false →
    decode16 (s.bus.mem.halfAt s.ctx.pc.toNat) = some i →
    step s = exec i (s.taken.afterFetch g (s.bus.mem.halfAt s.ctx.pc.toNat))) ∧
  (∀ (s : State) (g g' : Region) (i : Instr), s.ready → s.ctx.t = true → aligned .half s.ctx.pc = true →
    s.bus.grants ⟨.read, .half, s.ctx.pc⟩ = some g →
    s.bus.grants ⟨.read, .half, s.ctx.pc + 2#32⟩ = some g' →
    isWide (s.bus.mem.halfAt s.ctx.pc.toNat) = true →
    decode32 (s.bus.mem.halfAt s.ctx.pc.toNat) (s.bus.mem.halfAt (s.ctx.pc + 2#32).toNat) = some i →
    step s = exec i (s.taken.afterFetch2 g g' (s.bus.mem.halfAt s.ctx.pc.toNat)
      (s.bus.mem.halfAt (s.ctx.pc + 2#32).toNat)))

/-- A step that begins with T = 0 is `HardFault`, with no memory access and the whole context unchanged (R28, R110). A
fetch that fails is `HardFault`: PC odd, and nothing reached the port; the first halfword not granted; the second
halfword of a 32-bit instruction not granted (R59, R303 (a) to (d)). The context and memory are unchanged. The order
is the spec's decision D9, two separate fetch reads D27; the record of the port is the model's (assumption 7). So are
that a refused fetch sets no latch (assumption 21) and that a Stopped machine with no command left gets a `step` as
for the host's command (assumption 5). -/
def Obligations.StepFaultsBeforeDecoding : Prop :=
  (∀ s : State, s.ready → s.ctx.t = false →
      step s = .next { s.taken with result := some .hardFault, bus := { s.bus with port := [] } }) ∧
  (∀ s : State, s.ready → s.ctx.t = true → s.ctx.pc.getLsbD 0 = true →
    step s = .next { s.taken with result := some .hardFault, bus := { s.bus with port := [] } }) ∧
  (∀ s : State, s.ready → s.ctx.t = true → s.ctx.pc.getLsbD 0 = false →
    s.bus.grants ⟨.read, .half, s.ctx.pc⟩ = none →
    step s = .next { s.taken with
      result := some .hardFault
      bus := { s.bus with port := [⟨⟨.read, .half, s.ctx.pc⟩, 0#32, .busError⟩] } }) ∧
  (∀ (s : State) (g : Region), s.ready → s.ctx.t = true → s.ctx.pc.getLsbD 0 = false →
    s.bus.grants ⟨.read, .half, s.ctx.pc⟩ = some g →
    isWide (s.bus.mem.halfAt s.ctx.pc.toNat) = true →
    s.bus.grants ⟨.read, .half, s.ctx.pc + 2#32⟩ = none →
    ∃ t, step s = .next t ∧ t.result = some .hardFault ∧ t.ctx = s.ctx ∧ t.bus.mem = s.bus.mem ∧
      t.bus.port.map (fun e => (e.access, e.response)) =
        [(⟨.read, .half, s.ctx.pc⟩, .ok), (⟨.read, .half, s.ctx.pc + 2#32⟩, .busError)])

/-- Halfwords that select no row of the table are `Undefined`, the context unchanged, the fetch the only requests
(R94, R257, R304). The record of the port is the model's (assumption 7). So is that a Stopped machine with no command
left gets a `step` as for the host's command (assumption 5). -/
def Obligations.UnselectedEncodingsAreUndefined : Prop :=
  (∀ (s : State) (g : Region), s.ready → s.ctx.t = true → aligned .half s.ctx.pc = true →
    s.bus.grants ⟨.read, .half, s.ctx.pc⟩ = some g →
    isWide (s.bus.mem.halfAt s.ctx.pc.toNat) = false →
    firstRow 16 (s.bus.mem.halfAt s.ctx.pc.toNat).toNat = none →
    step s = .next { s.taken.afterFetch g (s.bus.mem.halfAt s.ctx.pc.toNat) with result := some .undefined }) ∧
  (∀ (s : State) (g g' : Region), s.ready → s.ctx.t = true → aligned .half s.ctx.pc = true →
    s.bus.grants ⟨.read, .half, s.ctx.pc⟩ = some g →
    s.bus.grants ⟨.read, .half, s.ctx.pc + 2#32⟩ = some g' →
    isWide (s.bus.mem.halfAt s.ctx.pc.toNat) = true →
    firstRow 32 ((s.bus.mem.halfAt s.ctx.pc.toNat).toNat * 65536 +
      (s.bus.mem.halfAt (s.ctx.pc + 2#32).toNat).toNat) = none →
    step s = .next { s.taken.afterFetch2 g g' (s.bus.mem.halfAt s.ctx.pc.toNat)
      (s.bus.mem.halfAt (s.ctx.pc + 2#32).toNat) with result := some .undefined })

/-- R127, R37: a step is a function of the context, of the content of memory and of the regions with their watchpoints: two
states that agree in these end the step with the same result, context, memory and requests, whatever else they hold, the latch
included, which the executor never reads and can only set. And every step ends, with one of the seven results a step can
produce: never `Interrupt` or `Watchpoint` (R111, R300). The record of the port, empty at the start of each step, is the
model's (assumption 7). -/
def Obligations.EveryStepEndsWithAStepResult : Prop :=
  (∀ s s' t : State, s'.ctx = s.ctx → s'.bus.mem = s.bus.mem → s'.bus.regions = s.bus.regions → s.stepInstr = .next t →
    ∃ t' hit, s'.stepInstr = .next t' ∧ t'.result = t.result ∧ t'.ctx = t.ctx ∧ t'.bus.mem = t.bus.mem ∧
      t'.bus.port = t.bus.port ∧ t.bus.latch = (s.bus.latch || hit) ∧ t'.bus.latch = (s'.bus.latch || hit)) ∧
  (∀ s : State, ∃ t x, s.stepInstr = .next t ∧ t.result = some x ∧ x ≠ .interrupt ∧ x ≠ .watchpoint)

/-- R126, over every step: `Undefined`, `Unpredictable`, `HardFault` and `Bkpt` leave the whole context as it was; for
all but `HardFault` memory is as it was and the fetch reads are the only requests. The spec marks R126 as derived from
R110, R111 and R12. The record of the port, empty at the start of each step, is the model's (assumption 7). -/
def Obligations.TrapsLeaveTheContext : Prop :=
  ∀ (s t : State) (x : StepResult), s.stepInstr = .next t → t.result = some x →
    (x = .undefined ∨ x = .unpredictable ∨ x = .hardFault ∨ x = .bkpt) →
    t.ctx = s.ctx ∧
    (x ≠ .hardFault → t.bus.mem = s.bus.mem ∧ t.bus.port.length ≤ 2 ∧
      ∀ e ∈ t.bus.port, e.access.kind = .read ∧ e.access.width = .half ∧
        (e.access.addr = s.ctx.pc ∨ e.access.addr = s.ctx.pc + 2#32))

/-- R339, R61: the requests of a step are those of its fetch, at most 2, reads of the halfwords at PC and PC + 2, and
behind them at most 9 data requests; a step that begins with T = 0 makes none. The spec marks R339 and R61 as derived;
the record of the port is the model's (assumption 7). -/
def Obligations.StepIssuesAtMostElevenRequests : Prop :=
  ∀ s t : State, s.stepInstr = .next t →
    ∃ fetches data : List PortEvent, t.bus.port = fetches ++ data ∧ fetches.length ≤ 2 ∧ data.length ≤ 9 ∧
      (∀ e, fetches[0]? = some e → e.access = ⟨.read, .half, s.ctx.pc⟩) ∧
      (∀ e, fetches[1]? = some e → e.access = ⟨.read, .half, s.ctx.pc + 2#32⟩) ∧
      (s.ctx.t = true → fetches = s.clearPort.fetch.1.bus.port) ∧ (s.ctx.t = false → t.bus.port = [])

/-! ## What no other instruction touches -/

/-- R27, R123: a flag changes only where the instruction's row of the table writes it. That MULS and MOVS (immediate)
leave C and V is the spec's decision D24. -/
def Obligations.FlagsChangeOnlyWhereListed : Prop :=
  ∀ (i : Instr) (s t : State), exec i s = .next t →
    (writesNZ i = false → t.ctx.n = s.ctx.n ∧ t.ctx.z = s.ctx.z) ∧
    (writesC i = false → t.ctx.c = s.ctx.c) ∧ (writesV i = false → t.ctx.v = s.ctx.v)

/-- R28, R29, R30: T is written by BX, BLX and POP of PC only; no instruction writes IPSR or a reserved bit of xPSR.
R32, R50: PRIMASK is written by CPS and MSR only, memory by the stores, PUSH and STM only. R29 is the spec's decision
D28, R30 D14, R32 D31. -/
def Obligations.StatusPrimaskAndMemoryWrittenByListedOnly : Prop :=
  (∀ (i : Instr) (s t : State), exec i s = .next t →
      (writesT i = false → t.ctx.t = s.ctx.t) ∧
      (∀ k, k < 28 → k ≠ 24 → t.ctx.xpsr.getLsbD k = s.ctx.xpsr.getLsbD k)) ∧
  (∀ (i : Instr) (s t : State), exec i s = .next t →
      (writesPrimask i = false → t.ctx.primask = s.ctx.primask) ∧
      (writesMemory i = false → t.bus.mem = s.bus.mem))

/-- R25: "the executor itself never makes PC odd". The advance modulo 2^32 is the spec's decision D13. -/
def Obligations.ExecutorKeepsPcEven : Prop :=
  ∀ s t : State, s.stepInstr = .next t → s.ctx.pc.getLsbD 0 = false → t.ctx.pc.getLsbD 0 = false

/-- R22: whatever an instruction writes to SP, its two low bits stay zero; and no instruction touches what is outside
the context and the memory port (R110). The mask of SP is the spec's decision D3. -/
def Obligations.InstructionsStayInsideTheExecutor : Prop :=
  ∀ (i : Instr) (s t : State), exec i s = .next t →
    (s.ctx.sp &&& 3#32 = 0#32 → t.ctx.sp &&& 3#32 = 0#32) ∧
    t.bus.regions = s.bus.regions ∧ t.loop = s.loop ∧ t.predicate = s.predicate ∧ t.stops = s.stops ∧
    t.engine = s.engine ∧ t.packet = s.packet ∧ t.buffer = s.buffer ∧ t.comm = s.comm ∧ t.commands = s.commands ∧
    t.reply = s.reply

/-! ## Results of the instructions -/

/-- R141, R148, R160, R161, R168, R172 to R175 with R123: the bitwise instructions, the moves to low registers, TST
and the product write N and Z, and leave C and V. That MULS and MOVS (immediate) leave C and V is the spec's decision
D24. -/
def Obligations.LogicalMoveAndProductResults : Prop :=
  (∀ (s : State) (d m : LowReg),
      WritesNZ (.ands d m) s d (s.lowReg d &&& s.lowReg m) ∧
      WritesNZ (.eors d m) s d (s.lowReg d ^^^ s.lowReg m) ∧
      WritesNZ (.orrs d m) s d (s.lowReg d ||| s.lowReg m) ∧
      WritesNZ (.bics d m) s d (s.lowReg d &&& ~~~(s.lowReg m)) ∧
      WritesNZ (.mvns d m) s d (~~~(s.lowReg m))) ∧
  (∀ (s : State) (d m : LowReg), WritesNZ (.movsReg d m) s d (s.lowReg m)) ∧
  (∀ (s : State) (d : LowReg) (imm8 : BitVec 8), WritesNZ (.movsImm8 d imm8) s d (BitVec.ofNat 32 imm8.toNat)) ∧
  (∀ (s : State) (n m : LowReg), ∃ t, exec (.tst n m) s = .next t ∧ Retired s t 2#32 ∧
    t.ctx.n = (s.lowReg n &&& s.lowReg m).msb ∧ (t.ctx.z = true ↔ s.lowReg n &&& s.lowReg m = 0#32) ∧
    Frame s t [] [31, 30] nowhere ∧ t.bus = s.bus) ∧
  (∀ (s : State) (d n : LowReg), WritesNZ (.muls d n) s d (s.lowReg n * s.lowReg d))

/-- R144, R146, R150, R165, R171 with R119: sums, their carry the unsigned and their overflow the signed sum's. -/
def Obligations.AdditionResults : Prop :=
  (∀ (s : State) (d n m : LowReg), WritesSum (.addsReg d n m) s d (s.lowReg n + s.lowReg m)
    ((s.lowReg n).toNat + (s.lowReg m).toNat) ((s.lowReg n).toInt + (s.lowReg m).toInt)) ∧
  (∀ (s : State) (d n : LowReg) (imm3 : BitVec 3), WritesSum (.addsImm3 d n imm3) s d
    (s.lowReg n + BitVec.ofNat 32 imm3.toNat) ((s.lowReg n).toNat + imm3.toNat) ((s.lowReg n).toInt + imm3.toNat)) ∧
  (∀ (s : State) (d : LowReg) (imm8 : BitVec 8), WritesSum (.addsImm8 d imm8) s d
    (s.lowReg d + BitVec.ofNat 32 imm8.toNat) ((s.lowReg d).toNat + imm8.toNat) ((s.lowReg d).toInt + imm8.toNat)) ∧
  (∀ (s : State) (d m : LowReg), WritesSum (.adcs d m) s d
    (s.lowReg d + s.lowReg m + BitVec.ofNat 32 s.ctx.c.toNat)
    ((s.lowReg d).toNat + (s.lowReg m).toNat + s.ctx.c.toNat)
    ((s.lowReg d).toInt + (s.lowReg m).toInt + s.ctx.c.toNat)) ∧
  (∀ (s : State) (n m : LowReg), SetsFlagsOfSum (.cmn n m) s (s.lowReg n + s.lowReg m)
    ((s.lowReg n).toNat + (s.lowReg m).toNat) ((s.lowReg n).toInt + (s.lowReg m).toInt))

/-- R145, R147, R149, R151, R166, R169, R170, R181 with R120: differences; C is set iff there was no borrow; SBCS
takes one more away when C was clear. Compares set the flags of a difference and write no register; the high-register
CMP does so where it is not one of the operand pairs of R95, and is `Unpredictable` there. -/
def Obligations.DifferenceResults : Prop :=
  (∀ (s : State) (d n m : LowReg), WritesDifference (.subsReg d n m) s d (s.lowReg n) (s.lowReg m)) ∧
  (∀ (s : State) (d n : LowReg) (imm3 : BitVec 3),
    WritesDifference (.subsImm3 d n imm3) s d (s.lowReg n) (BitVec.ofNat 32 imm3.toNat)) ∧
  (∀ (s : State) (d : LowReg) (imm8 : BitVec 8),
    WritesDifference (.subsImm8 d imm8) s d (s.lowReg d) (BitVec.ofNat 32 imm8.toNat)) ∧
  (∀ (s : State) (d n : LowReg), WritesDifference (.rsbs d n) s d 0#32 (s.lowReg n)) ∧
  (∀ (s : State) (d m : LowReg), ∃ t, exec (.sbcs d m) s = .next t ∧ Retired s t 2#32 ∧
    t.ctx.reg (low d) = s.lowReg d - s.lowReg m - BitVec.ofNat 32 (!s.ctx.c).toNat ∧
    t.ctx.n = (t.ctx.reg (low d)).msb ∧ (t.ctx.z = true ↔ t.ctx.reg (low d) = 0#32) ∧
    (t.ctx.c = true ↔ (s.lowReg m).toNat + (!s.ctx.c).toNat ≤ (s.lowReg d).toNat) ∧
    (t.ctx.v = true ↔ (s.lowReg d).toInt - (s.lowReg m).toInt - (!s.ctx.c).toNat < -(2 ^ 31) ∨
      2 ^ 31 - 1 < (s.lowReg d).toInt - (s.lowReg m).toInt - (!s.ctx.c).toNat) ∧
    Frame s t [low d] [31, 30, 29, 28] nowhere ∧ t.bus = s.bus) ∧
  (∀ (s : State) (n : LowReg) (imm8 : BitVec 8),
    Compares (.cmpImm8 n imm8) s (s.lowReg n) (BitVec.ofNat 32 imm8.toNat)) ∧
  (∀ (s : State) (n m : LowReg), Compares (.cmpReg n m) s (s.lowReg n) (s.lowReg m)) ∧
  (∀ (s : State) (n m : RegNum), n ≠ 15#4 → m ≠ 15#4 → (8 ≤ n.toNat ∨ 8 ≤ m.toNat) →
    Compares (.cmpHi n m) s (s.reg n) (s.reg m)) ∧
  (∀ (s : State) (n m : RegNum), (n = 15#4 ∨ m = 15#4 ∨ (n.toNat < 8 ∧ m.toNat < 8)) →
    Raises (.cmpHi n m) s .unpredictable)

/-- R140, R142, R143 with R116, R117: the constant shifts; the carry is the last bit shifted out; an `imm5` of 0 means
32 for LSRS and ASRS. (LSLS with `imm5` = 0 is the MOVS row; it leaves the value and C as they are.) R162, R163, R164,
R167 with R118: shifts and the rotate by the bottom byte of a register. An amount of 0 leaves C; beyond 32 the carry
of LSLS and LSRS is 0 and that of ASRS the sign; a rotate's carry is bit 31 of the result. -/
def Obligations.ShiftResults : Prop :=
  (∀ (s : State) (d m : LowReg) (imm5 : BitVec 5), WritesNZC (.lslsImm d m imm5) s d (s.lowReg m <<< imm5.toNat)
    (if imm5 = 0#5 then s.ctx.c else (s.lowReg m).getLsbD (32 - imm5.toNat))) ∧
  (∀ (s : State) (d m : LowReg) (imm5 : BitVec 5),
    WritesNZC (.lsrsImm d m imm5) s d (s.lowReg m >>> (if imm5 = 0#5 then 32 else imm5.toNat))
      ((s.lowReg m).getLsbD ((if imm5 = 0#5 then 32 else imm5.toNat) - 1))) ∧
  (∀ (s : State) (d m : LowReg) (imm5 : BitVec 5),
    WritesNZC (.asrsImm d m imm5) s d ((s.lowReg m).sshiftRight (if imm5 = 0#5 then 32 else imm5.toNat))
      ((s.lowReg m).getLsbD ((if imm5 = 0#5 then 32 else imm5.toNat) - 1))) ∧
  (∀ (s : State) (d m : LowReg) (n : Nat), n = (s.lowReg m).toNat % 256 →
      WritesNZC (.lslsReg d m) s d (s.lowReg d <<< n)
        (if n = 0 then s.ctx.c else if n ≤ 32 then (s.lowReg d).getLsbD (32 - n) else false) ∧
      WritesNZC (.lsrsReg d m) s d (s.lowReg d >>> n)
        (if n = 0 then s.ctx.c else if n ≤ 32 then (s.lowReg d).getLsbD (n - 1) else false) ∧
      WritesNZC (.asrsReg d m) s d ((s.lowReg d).sshiftRight n)
        (if n = 0 then s.ctx.c else if n ≤ 32 then (s.lowReg d).getLsbD (n - 1) else (s.lowReg d).msb) ∧
      WritesNZC (.rors d m) s d ((s.lowReg d).rotateRight n)
        (if n = 0 then s.ctx.c else ((s.lowReg d).rotateRight n).msb))

/-- R180, R182: ADD and MOV on any registers set no flag. A write of SP goes through the mask (R22); a write of
register 15 is a branch to the value with bit 0 cleared (R113), T unchanged; ADD of PC to PC is `Unpredictable` (R95).
The mask of SP is the spec's decision D3. -/
def Obligations.HighRegisterAddAndMove : Prop :=
  (∀ (s : State) (d m : RegNum), d ≠ 15#4 →
    Writes (.addHi d m) s 2#32 d
      (if d = 13#4 then (s.reg d + s.reg m) &&& 0xFFFFFFFC#32 else s.reg d + s.reg m) ∧
    Writes (.movHi d m) s 2#32 d (if d = 13#4 then s.reg m &&& 0xFFFFFFFC#32 else s.reg m)) ∧
  (∀ (s : State) (m : RegNum), m ≠ 15#4 → Branches (.addHi 15#4 m) s (evenOf (s.ctx.pc + 4#32 + s.reg m))) ∧
  (∀ (s : State) (m : RegNum), Branches (.movHi 15#4 m) s (evenOf (s.reg m))) ∧
  (∀ s : State, Raises (.addHi 15#4 15#4) s .unpredictable)

/-- R183, R184 with R114: BX and BLX branch to the register's value with bit 0 cleared and set T to that bit; BLX
writes the return address with bit 0 set into LR, and reads its target before. The forms of R95 are `Unpredictable`.
The `Unpredictable` forms are the spec's decision D5, no special return value D22. -/
def Obligations.ExchangeBranches : Prop :=
  (∀ (s : State) (m : RegNum), m ≠ 15#4 →
    (∃ t, exec (.bx m 0#3) s = .next t ∧ t.result = some .ok ∧ t.ctx.pc = evenOf (s.reg m) ∧
      t.ctx.t = (s.reg m).getLsbD 0 ∧ Frame s t [] [24] nowhere ∧ t.bus = s.bus) ∧
    (∃ t, exec (.blx m 0#3) s = .next t ∧ t.result = some .ok ∧ t.ctx.pc = evenOf (s.reg m) ∧
      t.ctx.t = (s.reg m).getLsbD 0 ∧ t.ctx.lr = (s.ctx.pc + 2#32) ||| 1#32 ∧
      Frame s t [14#4] [24] nowhere ∧ t.bus = s.bus)) ∧
  (∀ (s : State) (m : RegNum) (sbz : BitVec 3), m = 15#4 ∨ sbz ≠ 0#3 →
    Raises (.bx m sbz) s .unpredictable ∧ Raises (.blx m sbz) s .unpredictable)

/-- R210 to R213 with R112: addresses from PC rounded down to a multiple of 4, and SP arithmetic. No flag changes. The
mask of SP is the spec's decision D3. -/
def Obligations.AddressArithmetic : Prop :=
  (∀ (s : State) (d : LowReg) (imm8 : BitVec 8),
    Writes (.adr d imm8) s 2#32 (low d) (BitVec.ofNat 32 (s.ctx.pc.toNat / 4 * 4 + 4 + 4 * imm8.toNat)) ∧
    Writes (.addRdSp d imm8) s 2#32 (low d) (s.ctx.sp + BitVec.ofNat 32 (4 * imm8.toNat))) ∧
  (∀ (s : State) (imm7 : BitVec 7),
    Writes (.addSp imm7) s 2#32 13#4 ((s.ctx.sp + BitVec.ofNat 32 (4 * imm7.toNat)) &&& 0xFFFFFFFC#32) ∧
    Writes (.subSp imm7) s 2#32 13#4 ((s.ctx.sp - BitVec.ofNat 32 (4 * imm7.toNat)) &&& 0xFFFFFFFC#32))

/-- R214 to R217: the low halfword or byte, sign- or zero-extended as a number. R218 to R220: which byte of the source
stands in which byte of the result; REVSH extends the sign of the source's low byte. No flag changes. -/
def Obligations.ExtendAndReverseResults : Prop :=
  (∀ (s : State) (d m : LowReg),
      Writes (.sxth d m) s 2#32 (low d) (BitVec.ofInt 32 (BitVec.ofNat 16 (s.lowReg m).toNat).toInt) ∧
      Writes (.sxtb d m) s 2#32 (low d) (BitVec.ofInt 32 (BitVec.ofNat 8 (s.lowReg m).toNat).toInt) ∧
      Writes (.uxth d m) s 2#32 (low d) (BitVec.ofNat 32 ((s.lowReg m).toNat % 65536)) ∧
      Writes (.uxtb d m) s 2#32 (low d) (BitVec.ofNat 32 ((s.lowReg m).toNat % 256))) ∧
  (∀ (s : State) (d m : LowReg),
      (∃ v, Writes (.rev d m) s 2#32 (low d) v ∧
        ∀ j, j < 4 → v.extractLsb' (8 * j) 8 = (s.lowReg m).extractLsb' (8 * (3 - j)) 8) ∧
      (∃ v, Writes (.rev16 d m) s 2#32 (low d) v ∧
        ∀ j, j < 2 → v.extractLsb' (16 * j) 8 = (s.lowReg m).extractLsb' (16 * j + 8) 8 ∧
          v.extractLsb' (16 * j + 8) 8 = (s.lowReg m).extractLsb' (16 * j) 8) ∧
      (∃ v, Writes (.revsh d m) s 2#32 (low d) v ∧
        v.extractLsb' 0 8 = (s.lowReg m).extractLsb' 8 8 ∧ v.extractLsb' 8 8 = (s.lowReg m).extractLsb' 0 8 ∧
        ∀ k, 16 ≤ k → k < 32 → v.getLsbD k = (s.lowReg m).getLsbD 7))

/-- R221 to R228, R242, R243, R253 to R256 with R67, R111: CPS writes PRIMASK and nothing else; NOP, the reserved
hints and the barriers, whatever their option, only advance PC; the four unsupported hints and SVC advance PC and
report; BKPT and the two UDF report with PC at the instruction. The should-be bits are the spec's decision D5, DSB D6,
the barriers D7, the hints D32. -/
def Obligations.SystemInstructionResults : Prop :=
  (∀ (s : State) (im : BitVec 1), ∃ t, exec (.cps im 0b0010#4) s = .next t ∧ Retired s t 2#32 ∧
    t.ctx.primask = im ∧ FrameButPrimask s t [] [] nowhere ∧ t.bus = s.bus) ∧
  (∀ (s : State) (im : BitVec 1) (low4 : BitVec 4), low4 ≠ 0b0010#4 → Raises (.cps im low4) s .unpredictable) ∧
  (∀ (s : State) (imm8 : BitVec 8), Raises (.bkpt imm8) s .bkpt ∧ Raises (.udf imm8) s .undefined ∧
    EndsPast (.svc imm8) s 2#32 .svc) ∧
  (∀ (s : State) (imm4 : BitVec 4) (imm12 : BitVec 12), Raises (.udfW imm4 imm12) s .undefined) ∧
  (∀ s : State, EndsPast .nop s 2#32 .ok ∧ EndsPast .yield s 2#32 .unsupported ∧ EndsPast .wfe s 2#32 .unsupported ∧
    EndsPast .wfi s 2#32 .unsupported ∧ EndsPast .sev s 2#32 .unsupported) ∧
  (∀ (s : State) (opA : BitVec 4), EndsPast (.hintRes opA) s 2#32 .ok) ∧
  (∀ (s : State) (option : BitVec 4),
      EndsPast (.dsb option 0b1111#4 0#1 0b1111#4) s 4#32 .ok ∧
      EndsPast (.dmb option 0b1111#4 0#1 0b1111#4) s 4#32 .ok ∧
      EndsPast (.isb option 0b1111#4 0#1 0b1111#4) s 4#32 .ok)

/-- R240, R241 with R112, R113, R121: B<cond> branches when its condition holds, and otherwise moves past; B always.
The base is `inst_addr + 4`, not aligned; the offset is twice the signed immediate. -/
def Obligations.ConditionalAndPlainBranches : Prop :=
  (∀ (s : State) (cond : Cond) (imm8 : BitVec 8),
    (condHolds s.ctx cond.bits = true →
      Branches (.bcond cond imm8) s (evenOf (s.ctx.pc + 4#32 + BitVec.ofInt 32 (2 * imm8.toInt)))) ∧
    (condHolds s.ctx cond.bits = false → EndsPast (.bcond cond imm8) s 2#32 .ok)) ∧
  (∀ (s : State) (imm11 : BitVec 11),
    Branches (.b imm11) s (evenOf (s.ctx.pc + 4#32 + BitVec.ofInt 32 (2 * imm11.toInt))))

/-- R250: BL branches to `inst_addr + 4` plus the signed offset `S:I1:I2:imm10:imm11:'0'`, where `I1` is 1 iff `J1`
equals `S` and `I2` is 1 iff `J2` equals `S`, and writes the return address with bit 0 set into LR. -/
def Obligations.BranchWithLink : Prop :=
  ∀ (s : State) (sgn : BitVec 1) (imm10 : BitVec 10) (j1 j2 : BitVec 1) (imm11 : BitVec 11),
    ∃ t, exec (.bl sgn imm10 j1 j2 imm11) s = .next t ∧ t.result = some .ok ∧
      t.ctx.pc = evenOf (s.ctx.pc + 4#32 + BitVec.ofInt 32
        (2 * ((2 ^ 11 * imm10.toNat + imm11.toNat : Int) + 2 ^ 21 * (if j2 = sgn then 1 else 0) +
          2 ^ 22 * (if j1 = sgn then 1 else 0) - 2 ^ 23 * sgn.toNat))) ∧
      t.ctx.lr = (s.ctx.pc + 4#32) ||| 1#32 ∧ Frame s t [14#4] [] nowhere ∧ t.bus = s.bus

/-- R251, R252 with R31, in the legal forms. MSR: SYSm 0 to 3 copies bits 31:28 into the flags, 8 writes SP through
its mask, 16 writes PRIMASK from bit 0, the read-as-zero registers take nothing. MRS: the four flags above zeros (T is
never shown), SP, PRIMASK, or 0. The registers the block lacks are the spec's decisions D4 and D23, the mask of SP D3.
-/
def Obligations.SpecialRegisterMoves : Prop :=
  (∀ (s : State) (n : RegNum) (sysm : BitVec 8), n ≠ 13#4 → n ≠ 15#4 →
      (sysm.toNat ≤ 3 → ∃ t, exec (.msr n sysm 0#1 0#1 0b1000#4) s = .next t ∧ Retired s t 4#32 ∧
        t.ctx.n = (s.reg n).getLsbD 31 ∧ t.ctx.z = (s.reg n).getLsbD 30 ∧ t.ctx.c = (s.reg n).getLsbD 29 ∧
        t.ctx.v = (s.reg n).getLsbD 28 ∧ Frame s t [] [31, 30, 29, 28] nowhere ∧ t.bus = s.bus) ∧
      (sysm = 8#8 → Writes (.msr n sysm 0#1 0#1 0b1000#4) s 4#32 13#4 (s.reg n &&& 0xFFFFFFFC#32)) ∧
      (sysm = 16#8 → ∃ t, exec (.msr n sysm 0#1 0#1 0b1000#4) s = .next t ∧ Retired s t 4#32 ∧
        t.ctx.primask = BitVec.ofBool ((s.reg n).getLsbD 0) ∧ FrameButPrimask s t [] [] nowhere ∧ t.bus = s.bus) ∧
      (sysm = 5#8 ∨ sysm = 6#8 ∨ sysm = 7#8 ∨ sysm = 9#8 ∨ sysm = 20#8 →
        EndsPast (.msr n sysm 0#1 0#1 0b1000#4) s 4#32 .ok)) ∧
  (∀ (s : State) (d : RegNum) (sysm : BitVec 8), d ≠ 13#4 → d ≠ 15#4 →
      (sysm.toNat ≤ 3 → Writes (.mrs d sysm 0#1 0b1111#4 0#1) s 4#32 d (BitVec.ofNat 32
        (2 ^ 31 * s.ctx.n.toNat + 2 ^ 30 * s.ctx.z.toNat + 2 ^ 29 * s.ctx.c.toNat + 2 ^ 28 * s.ctx.v.toNat))) ∧
      (sysm = 8#8 → Writes (.mrs d sysm 0#1 0b1111#4 0#1) s 4#32 d s.ctx.sp) ∧
      (sysm = 16#8 → Writes (.mrs d sysm 0#1 0b1111#4 0#1) s 4#32 d (BitVec.ofNat 32 s.ctx.primask.toNat)) ∧
      (sysm = 5#8 ∨ sysm = 6#8 ∨ sysm = 7#8 ∨ sysm = 9#8 ∨ sysm = 20#8 →
        Writes (.mrs d sysm 0#1 0b1111#4 0#1) s 4#32 d 0#32))

/-- R95: SP or PC as the register of MSR or MRS, a reserved SYSm value, a should-be bit with the other value, an empty
register list, and STM with the base in the list and not its lowest register are `Unpredictable` and change nothing,
with no request made. (The forms of BX, BLX, ADD, CMP and CPS stand with those instructions.) The should-be bits are
the spec's decision D5. -/
def Obligations.IllegalFormsAreUnpredictable : Prop :=
  (∀ (s : State) (n : RegNum) (sysm : BitVec 8) (b20 b13 : BitVec 1) (b11_8 : BitVec 4),
    (n = 13#4 ∨ n = 15#4 ∨ sysm.toNat ∉ [0, 1, 2, 3, 5, 6, 7, 8, 9, 16, 20] ∨ b20 ≠ 0#1 ∨ b13 ≠ 0#1 ∨ b11_8 ≠ 0b1000#4) →
    Raises (.msr n sysm b20 b13 b11_8) s .unpredictable) ∧
  (∀ (s : State) (d : RegNum) (sysm : BitVec 8) (b20 b13 : BitVec 1) (b19_16 : BitVec 4),
    (d = 13#4 ∨ d = 15#4 ∨ sysm.toNat ∉ [0, 1, 2, 3, 5, 6, 7, 8, 9, 16, 20] ∨ b20 ≠ 0#1 ∨ b13 ≠ 0#1 ∨ b19_16 ≠ 0b1111#4) →
    Raises (.mrs d sysm b20 b19_16 b13) s .unpredictable) ∧
  (∀ (s : State) (option b19_16 b11_8 : BitVec 4) (b13 : BitVec 1),
    (b19_16 ≠ 0b1111#4 ∨ b13 ≠ 0#1 ∨ b11_8 ≠ 0b1111#4) →
    Raises (.dsb option b19_16 b13 b11_8) s .unpredictable ∧
    Raises (.dmb option b19_16 b13 b11_8) s .unpredictable ∧
    Raises (.isb option b19_16 b13 b11_8) s .unpredictable) ∧
  (∀ (s : State) (n : LowReg), Raises (.push 0#1 0#8) s .unpredictable ∧ Raises (.pop 0#1 0#8) s .unpredictable ∧
    Raises (.stm n 0#8) s .unpredictable ∧ Raises (.ldm n 0#8) s .unpredictable) ∧
  (∀ (s : State) (n : LowReg) (list : BitVec 8), list.getLsbD n.toNat = true → place (lowSet list) n.toNat ≠ 0 →
    Raises (.stm n list) s .unpredictable)

/-! ## Loads and stores -/

/-- R190, R195, R200, R206: a word load writes the little-endian word at its address into the register. The record of
the port is the model's (assumption 7). -/
def Obligations.WordLoadResults : Prop :=
  ∀ (s : State) (d n m : LowReg) (imm5 : BitVec 5) (imm8 : BitVec 8) (a : Word), s.permits .read .word a →
    (a = BitVec.ofNat 32 (s.ctx.pc.toNat / 4 * 4 + 4 + 4 * imm8.toNat) →
      Loads (.ldrLit d imm8) s .word a d (s.bus.mem.wordAt a.toNat)) ∧
    (a = s.lowReg n + s.lowReg m → Loads (.ldrReg d n m) s .word a d (s.bus.mem.wordAt a.toNat)) ∧
    (a = s.lowReg n + BitVec.ofNat 32 (4 * imm5.toNat) →
      Loads (.ldrImm d n imm5) s .word a d (s.bus.mem.wordAt a.toNat)) ∧
    (a = s.ctx.sp + BitVec.ofNat 32 (4 * imm8.toNat) →
      Loads (.ldrSp d imm8) s .word a d (s.bus.mem.wordAt a.toNat))

/-- R194, R196, R197, R198, R202, R204: halfword and byte loads, zero- or sign-extended. The record of the port is the
model's (assumption 7). -/
def Obligations.NarrowLoadResults : Prop :=
  (∀ (s : State) (d n m : LowReg) (imm5 : BitVec 5) (a : Word), s.permits .read .half a →
    (a = s.lowReg n + s.lowReg m →
      Loads (.ldrhReg d n m) s .half a d (BitVec.ofNat 32 (s.bus.mem.halfAt a.toNat).toNat) ∧
      Loads (.ldrshReg d n m) s .half a d (BitVec.ofInt 32 (s.bus.mem.halfAt a.toNat).toInt)) ∧
    (a = s.lowReg n + BitVec.ofNat 32 (2 * imm5.toNat) →
      Loads (.ldrhImm d n imm5) s .half a d (BitVec.ofNat 32 (s.bus.mem.halfAt a.toNat).toNat))) ∧
  (∀ (s : State) (d n m : LowReg) (imm5 : BitVec 5) (a : Word), s.permits .read .byte a →
    (a = s.lowReg n + s.lowReg m →
      Loads (.ldrbReg d n m) s .byte a d (BitVec.ofNat 32 (s.bus.mem.byteAt a.toNat).toNat) ∧
      Loads (.ldrsbReg d n m) s .byte a d (BitVec.ofInt 32 (s.bus.mem.byteAt a.toNat).toInt)) ∧
    (a = s.lowReg n + BitVec.ofNat 32 imm5.toNat →
      Loads (.ldrbImm d n imm5) s .byte a d (BitVec.ofNat 32 (s.bus.mem.byteAt a.toNat).toNat)))

/-- R191, R192, R193, R199, R201, R203, R205: a store writes the register's word, low halfword or low byte at its
address, and no other byte. Memory in its canonical form is a premise (it is part of the invariant). The record of the
port is the model's (assumption 7). -/
def Obligations.StoreResults : Prop :=
  (∀ (s : State) (t n m : LowReg) (imm5 : BitVec 5) (imm8 : BitVec 8) (a : Word),
    s.bus.mem.wf = true → s.permits .write .word a →
    (a = s.lowReg n + s.lowReg m → Stores (.strReg t n m) s .word a (fun mem => mem.wordAt a.toNat = s.lowReg t)) ∧
    (a = s.lowReg n + BitVec.ofNat 32 (4 * imm5.toNat) →
      Stores (.strImm t n imm5) s .word a (fun mem => mem.wordAt a.toNat = s.lowReg t)) ∧
    (a = s.ctx.sp + BitVec.ofNat 32 (4 * imm8.toNat) →
      Stores (.strSp t imm8) s .word a (fun mem => mem.wordAt a.toNat = s.lowReg t))) ∧
  (∀ (s : State) (t n m : LowReg) (imm5 : BitVec 5) (a : Word),
    s.bus.mem.wf = true → s.permits .write .half a →
    (a = s.lowReg n + s.lowReg m →
      Stores (.strhReg t n m) s .half a (fun mem => mem.halfAt a.toNat = BitVec.ofNat 16 (s.lowReg t).toNat)) ∧
    (a = s.lowReg n + BitVec.ofNat 32 (2 * imm5.toNat) →
      Stores (.strhImm t n imm5) s .half a (fun mem => mem.halfAt a.toNat = BitVec.ofNat 16 (s.lowReg t).toNat))) ∧
  (∀ (s : State) (t n m : LowReg) (imm5 : BitVec 5) (a : Word),
    s.bus.mem.wf = true → s.permits .write .byte a →
    (a = s.lowReg n + s.lowReg m →
      Stores (.strbReg t n m) s .byte a (fun mem => mem.byteAt a.toNat = BitVec.ofNat 8 (s.lowReg t).toNat)) ∧
    (a = s.lowReg n + BitVec.ofNat 32 imm5.toNat →
      Stores (.strbImm t n imm5) s .byte a (fun mem => mem.byteAt a.toNat = BitVec.ofNat 8 (s.lowReg t).toNat)))

/-- R54, R55, R57, R189 for all seventeen loads and stores: a misaligned access is `HardFault` and never appears on
the port; one the backend answers with `BusError` is `HardFault`; registers, flags, PC and memory are unchanged. R57
is the spec's decision D8, R55 D26; the record of the port, and that a refused request sets no latch, are the model's
(assumptions 7, 21). -/
def Obligations.LoadAndStoreFaults : Prop :=
  ∀ (i : Instr) (s : State) (x : Access), dataAccess s i = some x →
    (x.addr.toNat % x.width.bytes ≠ 0 → FaultsSilently i s) ∧
    (x.addr.toNat % x.width.bytes = 0 → s.bus.grants x = none → FaultsOnPort i s x.kind x.width x.addr)

/-- R230: PUSH stores the listed registers at ascending addresses below SP, the lowest number lowest, and lowers SP by
four times their count; no other byte, register or flag changes. The mask of SP is the spec's decision D3. The
requests are one word for each listed register, in ascending register number and address (R61, R229); the record of
the port is the model's (assumption 7). -/
def Obligations.PushStoresAndLowersSp : Prop :=
  ∀ (s : State) (m : BitVec 1) (list : BitVec 8) (count : Nat) (start : Word),
    count = place (pushSet m list) 16 → start = s.ctx.sp - BitVec.ofNat 32 (4 * count) → count ≠ 0 →
    s.bus.mem.wf = true → (∀ k, k < count → s.permits .write .word (nthWord start k)) →
    ∃ t, exec (.push m list) s = .next t ∧ Retired s t 2#32 ∧ t.ctx.sp = start &&& 0xFFFFFFFC#32 ∧
      (∀ i : RegNum, (pushSet m list).getLsbD i.toNat = true →
        t.bus.mem.wordAt (nthWord start (place (pushSet m list) i.toNat)).toNat = s.reg i) ∧
      Frame s t [13#4] [] (fun x => ∃ k, k < count ∧ bytesAt (nthWord start k).toNat 4 x) ∧
      t.bus.port.map (·.access) = s.bus.port.map (·.access) ++
        (List.range count).map (fun k => ⟨.write, .word, nthWord start k⟩)

/-- R231 with R114: POP loads the listed registers from ascending addresses at SP and raises SP by four times their
count; with PC in the list the last word is the branch target, its bit 0 going to T. No byte of memory changes. The
mask of SP is the spec's decision D3, R114 D22. The requests are one word for each listed register, in ascending
register number and address (R61, R229); the record of the port is the model's (assumption 7). -/
def Obligations.PopLoadsAndRaisesSp : Prop :=
  ∀ (s : State) (p : BitVec 1) (list : BitVec 8) (count : Nat),
    count = place (popSet p list) 16 → count ≠ 0 →
    (∀ k, k < count → s.permits .read .word (nthWord s.ctx.sp k)) →
    ∃ t, exec (.pop p list) s = .next t ∧ t.result = some .ok ∧
      t.ctx.sp = (s.ctx.sp + BitVec.ofNat 32 (4 * count)) &&& 0xFFFFFFFC#32 ∧
      (∀ d : LowReg, list.getLsbD d.toNat = true →
        t.ctx.reg (low d) = s.bus.mem.wordAt (nthWord s.ctx.sp (place (popSet p list) d.toNat)).toNat) ∧
      (p = 0#1 → t.ctx.pc = s.ctx.pc + 2#32 ∧ t.ctx.t = s.ctx.t) ∧
      (p = 1#1 → t.ctx.pc = evenOf (s.bus.mem.wordAt (nthWord s.ctx.sp (count - 1)).toNat) ∧
        t.ctx.t = (s.bus.mem.wordAt (nthWord s.ctx.sp (count - 1)).toNat).getLsbD 0) ∧
      Frame s t (13#4 :: listed (popSet p list)) [24] nowhere ∧
      t.bus.port.map (·.access) = s.bus.port.map (·.access) ++
        (List.range count).map (fun k => ⟨.read, .word, nthWord s.ctx.sp k⟩)

/-- R232: STM stores the listed registers at ascending addresses from the base and writes the base back; a listed
base, being the lowest register, is stored with its old value. The requests are one word for each listed register, in
ascending register number and address (R61, R229); the record of the port is the model's (assumption 7). -/
def Obligations.StoreMultipleWritesBack : Prop :=
  ∀ (s : State) (n : LowReg) (list : BitVec 8) (count : Nat),
    count = place (lowSet list) 16 → count ≠ 0 →
    (list.getLsbD n.toNat = true → place (lowSet list) n.toNat = 0) →
    s.bus.mem.wf = true → (∀ k, k < count → s.permits .write .word (nthWord (s.lowReg n) k)) →
    ∃ t, exec (.stm n list) s = .next t ∧ Retired s t 2#32 ∧
      t.ctx.reg (low n) = s.lowReg n + BitVec.ofNat 32 (4 * count) ∧
      (∀ d : LowReg, list.getLsbD d.toNat = true →
        t.bus.mem.wordAt (nthWord (s.lowReg n) (place (lowSet list) d.toNat)).toNat = s.lowReg d) ∧
      Frame s t [low n] [] (fun x => ∃ k, k < count ∧ bytesAt (nthWord (s.lowReg n) k).toNat 4 x) ∧
      t.bus.port.map (·.access) = s.bus.port.map (·.access) ++
        (List.range count).map (fun k => ⟨.write, .word, nthWord (s.lowReg n) k⟩)

/-- R233: LDM loads the listed registers from ascending addresses at the base; the base is written back when it is not
in the list, and holds its loaded word when it is. The requests are one word for each listed register, in ascending
register number and address (R61, R229); the record of the port is the model's (assumption 7). -/
def Obligations.LoadMultipleWritesBack : Prop :=
  ∀ (s : State) (n : LowReg) (list : BitVec 8) (count : Nat),
    count = place (lowSet list) 16 → count ≠ 0 →
    (∀ k, k < count → s.permits .read .word (nthWord (s.lowReg n) k)) →
    ∃ t, exec (.ldm n list) s = .next t ∧ Retired s t 2#32 ∧
      (list.getLsbD n.toNat = false → t.ctx.reg (low n) = s.lowReg n + BitVec.ofNat 32 (4 * count)) ∧
      (∀ d : LowReg, list.getLsbD d.toNat = true →
        t.ctx.reg (low d) = s.bus.mem.wordAt (nthWord (s.lowReg n) (place (lowSet list) d.toNat)).toNat) ∧
      Frame s t (low n :: listed (lowSet list)) [] nowhere ∧
      t.bus.port.map (·.access) = s.bus.port.map (·.access) ++
        (List.range count).map (fun k => ⟨.read, .word, nthWord (s.lowReg n) k⟩)

/-- R57, R229, R303: a multiple transfer whose word number `k` is the first not permitted is `HardFault` with the
whole context unchanged, also what POP and LDM had read; the words PUSH and STM stored before it stay stored, and
nothing else. The requests made are those of the words before `k`, answered `OK`, and that of word `k`, answered
`BusError`; a misaligned start address makes none (R55, R61). R57 and R229 are the spec's decision D8; the record of
the port is the model's (assumption 7). -/
def Obligations.MultipleTransferFaults : Prop :=
  (∀ (s : State) (m : BitVec 1) (list : BitVec 8) (start : Word) (k : Nat),
    start = s.ctx.sp - BitVec.ofNat 32 (4 * place (pushSet m list) 16) → k < place (pushSet m list) 16 →
    s.bus.mem.wf = true → (∀ j, j < k → s.permits .write .word (nthWord start j)) →
    ¬ s.permits .write .word (nthWord start k) →
    ∃ t, exec (.push m list) s = .next t ∧ t.result = some .hardFault ∧ t.ctx = s.ctx ∧
      (∀ i : RegNum, (pushSet m list).getLsbD i.toNat = true → place (pushSet m list) i.toNat < k →
        t.bus.mem.wordAt (nthWord start (place (pushSet m list) i.toNat)).toNat = s.reg i) ∧
      Frame s t [] [] (fun x => ∃ j, j < k ∧ bytesAt (nthWord start j).toNat 4 x) ∧
      t.bus.port.map (fun e => (e.access, e.response)) =
        s.bus.port.map (fun e => (e.access, e.response)) ++ requestsRefusedAt .write start k) ∧
  (∀ (s : State) (n : LowReg) (list : BitVec 8) (k : Nat),
    (list.getLsbD n.toNat = true → place (lowSet list) n.toNat = 0) → k < place (lowSet list) 16 →
    s.bus.mem.wf = true → (∀ j, j < k → s.permits .write .word (nthWord (s.lowReg n) j)) →
    ¬ s.permits .write .word (nthWord (s.lowReg n) k) →
    ∃ t, exec (.stm n list) s = .next t ∧ t.result = some .hardFault ∧ t.ctx = s.ctx ∧
      (∀ d : LowReg, list.getLsbD d.toNat = true → place (lowSet list) d.toNat < k →
        t.bus.mem.wordAt (nthWord (s.lowReg n) (place (lowSet list) d.toNat)).toNat = s.lowReg d) ∧
      Frame s t [] [] (fun x => ∃ j, j < k ∧ bytesAt (nthWord (s.lowReg n) j).toNat 4 x) ∧
      t.bus.port.map (fun e => (e.access, e.response)) =
        s.bus.port.map (fun e => (e.access, e.response)) ++ requestsRefusedAt .write (s.lowReg n) k) ∧
  (∀ (s : State) (p : BitVec 1) (list : BitVec 8) (k : Nat), k < place (popSet p list) 16 →
    ¬ s.permits .read .word (nthWord s.ctx.sp k) →
    ∃ t, exec (.pop p list) s = .next t ∧ t.result = some .hardFault ∧ t.ctx = s.ctx ∧
      t.bus.mem = s.bus.mem ∧ Frame s t [] [] nowhere ∧
      ((∀ j, j < k → s.permits .read .word (nthWord s.ctx.sp j)) → t.bus.port.map (fun e => (e.access, e.response)) =
        s.bus.port.map (fun e => (e.access, e.response)) ++ requestsRefusedAt .read s.ctx.sp k)) ∧
  (∀ (s : State) (n : LowReg) (list : BitVec 8) (k : Nat), k < place (lowSet list) 16 →
    ¬ s.permits .read .word (nthWord (s.lowReg n) k) →
    ∃ t, exec (.ldm n list) s = .next t ∧ t.result = some .hardFault ∧ t.ctx = s.ctx ∧
      t.bus.mem = s.bus.mem ∧ Frame s t [] [] nowhere ∧
      ((∀ j, j < k → s.permits .read .word (nthWord (s.lowReg n) j)) → t.bus.port.map (fun e => (e.access, e.response)) =
        s.bus.port.map (fun e => (e.access, e.response)) ++ requestsRefusedAt .read (s.lowReg n) k))

/-! ## Memory -/

/-- R56: the port answers `OK` exactly when the bytes of the access lie inside the address space and inside one
declared region, none of them in another, it is no write to a read-only region, and no breakpoint-kind watchpoint of
the region matches it; otherwise it answers `BusError`. `grants` names that region. R56 is the spec's decision D11;
the matching rule as data, and the record of the port, are the model's (assumptions 7, 8). -/
def Obligations.BusErrorContract : Prop :=
  (∀ (b : Bus) (x : Access) (g : Region), b.grants x = some g ↔
    ∃ k, b.regions[k]? = some g ∧ x.addr.toNat + x.width.bytes ≤ 2 ^ 32 ∧
      (∀ a, bytesAt x.addr.toNat x.width.bytes a → bytesAt g.base.toNat g.size a) ∧
      (∀ (j : Nat) (h : Region), b.regions[j]? = some h → j ≠ k →
        ∀ a, bytesAt x.addr.toNat x.width.bytes a → ¬ bytesAt h.base.toNat h.size a) ∧
      ¬ (x.kind = .write ∧ g.readOnly = true) ∧
      ¬ ∃ p ∈ g.watchpoints, p.kind = .breakpoint ∧ x ∈ p.matched) ∧
  (∀ (b : Bus) (w : Width) (a v : Word),
    ((b.read w a).2.isSome = true ↔ (b.grants ⟨.read, w, a⟩).isSome = true) ∧
    ((b.write w a v).2 = true ↔ (b.grants ⟨.write, w, a⟩).isSome = true) ∧
    ((b.read w a).1.port = b.port ++ [⟨⟨.read, w, a⟩, (b.read w a).2.getD 0#32,
      if (b.read w a).2.isSome then .ok else .busError⟩]))

/-- R53: a byte, a halfword and a word read at an address are put together from the same bytes, the lowest address
least significant. After a word is written its four bytes stand little-endian, and its two halfwords read low half
first; a written halfword and byte likewise; the other bytes stay. Instruction fetch has the same order: the fetched
halfword is the one that stands little-endian at its address, an instruction's bytes are those of its halfwords, the
first halfword at the lower address, each with its low byte first (so the pair is no little-endian word). The bytes of
a register in the dump have this order too. -/
def Obligations.LittleEndianMixedWidths : Prop :=
  (∀ (m : Memory) (a : Nat),
    (m.read .byte a).toNat = (m.readByte a).toNat ∧
    (m.read .half a).toNat = (m.readByte a).toNat + 256 * (m.readByte (a + 1)).toNat ∧
    (m.read .word a).toNat = (m.read .half a).toNat + 65536 * (m.read .half (a + 2)).toNat) ∧
  (∀ (m : Memory) (a : Nat) (v : Word), m.wf = true →
    (a + 4 ≤ 2 ^ 32 → (m.write .word a v).read .word a = v ∧
      ((m.write .word a v).read .half a).toNat = v.toNat % 65536 ∧
      ((m.write .word a v).read .half (a + 2)).toNat = v.toNat / 65536 ∧
      (∀ j, j < 4 → ((m.write .word a v).read .byte (a + j)).toNat = v.toNat / 256 ^ j % 256) ∧
      (∀ x, x < a ∨ a + 4 ≤ x → (m.write .word a v).readByte x = m.readByte x)) ∧
    (a + 2 ≤ 2 ^ 32 → ((m.write .half a v).read .half a).toNat = v.toNat % 65536 ∧
      (∀ j, j < 2 → ((m.write .half a v).read .byte (a + j)).toNat = v.toNat / 256 ^ j % 256) ∧
      (∀ x, x < a ∨ a + 2 ≤ x → (m.write .half a v).readByte x = m.readByte x)) ∧
    (a + 1 ≤ 2 ^ 32 → ((m.write .byte a v).read .byte a).toNat = v.toNat % 256 ∧
      (∀ x, x ≠ a → (m.write .byte a v).readByte x = m.readByte x))) ∧
  (∀ (s s' : State) (a : Word) (h : Half), s.fetchHalf a = (s', some h) →
    h.toNat = (s.bus.mem.readByte a.toNat).toNat + 256 * (s.bus.mem.readByte (a.toNat + 1)).toNat) ∧
  (∀ (i : Instr) (k : Nat) (h : Half), (encode i)[k]? = some h →
    ((encodeBytes i)[2 * k]?.map BitVec.toNat) = some (h.toNat % 256) ∧
    ((encodeBytes i)[2 * k + 1]?.map BitVec.toNat) = some (h.toNat / 256)) ∧
  (∀ (v : Word) (j : Nat), j < 4 → ((bytesOfWord v)[j]?.map BitVec.toNat) = some (v.toNat / 256 ^ j % 256))

/-- R65: an access that a read, write or read-write watchpoint of its region matches completes with `OK` and its
normal effect, and sets the latch; with none matching the latch is as it was. The list of a region is "strictly
ordered by start address": an insertion is refused exactly when an entry has that start address, and otherwise gives a
strictly ordered list with the new entry and the old ones; the host is told which. A removal takes the identical
entries out and leaves every other. The matching rule as data, consulted for accesses to its own region, is the
model's (assumption 8), and so are the region an added watchpoint goes to and the refusal of a different one at a
start address that is taken, and that a removal searches every region and answers nothing (assumption 11). -/
def Obligations.WatchpointsLatchWithoutEffect : Prop :=
  (∀ (b : Bus) (w : Width) (a v : Word) (g : Region),
    (b.grants ⟨.read, w, a⟩ = some g →
      (b.read w a).2 = some (b.mem.read w a.toNat) ∧ (b.read w a).1.mem = b.mem ∧
      ((b.read w a).1.latch = true ↔ b.latch = true ∨ ∃ p ∈ g.watchpoints,
        (p.kind = .read ∨ p.kind = .readWrite) ∧ (⟨.read, w, a⟩ : Access) ∈ p.matched)) ∧
    (b.grants ⟨.write, w, a⟩ = some g →
      (b.write w a v).2 = true ∧ (b.write w a v).1.mem = b.mem.write w a.toNat v ∧
      ((b.write w a v).1.latch = true ↔ b.latch = true ∨ ∃ p ∈ g.watchpoints,
        (p.kind = .write ∨ p.kind = .readWrite) ∧ (⟨.write, w, a⟩ : Access) ∈ p.matched))) ∧
  (∀ (p : Watchpoint) (ps : List Watchpoint), strictlyOrdered ps →
    (insertWatchpoint p ps = none ↔ ∃ q ∈ ps, q.startAddress = p.startAddress) ∧
    (∀ qs, insertWatchpoint p ps = some qs → strictlyOrdered qs ∧ ∀ q, q ∈ qs ↔ q = p ∨ q ∈ ps)) ∧
  (∀ (s : State) (g : Region) (p : Watchpoint) (later : List Command),
    s.engine = .idle → s.loop = .stopped → s.commands = .addWatchpoint p :: later → s.bus.regions = [g] →
    bytesAt g.base.toNat g.size p.startAddress.toNat →
    (∀ qs, insertWatchpoint p g.watchpoints = some qs → step s = .next { s with
      commands := later, reply := some .added, bus := { s.bus with regions := [{ g with watchpoints := qs }] } }) ∧
    (insertWatchpoint p g.watchpoints = none → step s = .next { s with
      commands := later, reply := some .alreadyPresent })) ∧
  (∀ (s : State) (k : WatchKind) (lo hi : Word) (later : List Command),
    s.engine = .idle → s.loop = .stopped → s.commands = .removeWatchpoint k lo hi :: later →
    step s = .next { s with
      commands := later
      bus := { s.bus with regions := s.bus.regions.map (fun g => { g with
        watchpoints := g.watchpoints.filter (fun p => p.kind ≠ k ∨ p.startAddress ≠ lo ∨ p.endAddress ≠ hi) }) } })

/-! ## Arithmetic laws -/

/-- R125, the five laws: (a) a shift by 256 is a shift by 0, the carry unchanged, for every shift type and every
register whose bottom byte is 0; (b) `AddWithCarry` commutes; (c), (d) two worked sums; (e) shifts lose information.
-/
def Obligations.ArithmeticLaws : Prop :=
  (∀ (v r : Word) (ty : ShiftType) (carry : Bool), r.toNat % 256 = 0 →
    shiftC v ty (regShiftAmount r) carry = (v, carry)) ∧
  (∀ (x y : Word) (c : Bool), addWithCarry x y c = addWithCarry y x c) ∧
  addWithCarry 0x7FFFFFFF#32 1#32 false = ⟨0x80000000#32, false, true⟩ ∧
  addWithCarry 0xFFFFFFFF#32 1#32 false = ⟨0#32, true, false⟩ ∧
  (∀ ty : ShiftType, ty ≠ .ror → ∃ (x y : Word) (n : Nat), x ≠ y ∧ shiftC x ty n false = shiftC y ty n false)

/-! ## The run loop -/

/-- R261 to R264: a stop request ends the run with `OK` before the predicate. Without one the reference predicate ends
the run with `Watchpoint` when the latch is set, which it clears, and else with `Interrupt` when a byte is queued,
which it leaves queued. No instruction is executed. The order is the spec's decision D15, the latch before the poll
D16; 0 for a used-up list of stop requests is the model's (assumption 14). -/
def Obligations.RunEndsBeforeAnInstruction : Prop :=
  (∀ (s : State) (later : List Bool), s.engine = .idle → s.loop = .running → s.stops = true :: later →
      step s = .next { s with stops := later, loop := .stopped, result := some .ok }) ∧
  (∀ (s : State) (later : List Bool), s.engine = .idle → s.loop = .running → s.predicate = .reference →
      (s.stops = [] ∧ later = [] ∨ s.stops = false :: later) →
      (s.bus.latch = true → step s = .next { s with
        stops := later, loop := .stopped, result := some .watchpoint, bus := { s.bus with latch := false } }) ∧
      (s.bus.latch = false → s.comm.arrivals = [] → s.comm.rx ≠ [] → step s = .next { s with
        stops := later, loop := .stopped, result := some .interrupt }))

/-- R262, R264: a caller's predicate is called exactly once an iteration, after a stop request that reads 0 and before
the step, with its side effects on the latch and the context; an answer that is not `OK` ends the run with that value
and no instruction executes; after `OK` the step follows, and the loop goes on exactly when its result is `OK`. The
order is the spec's decision D15; that the predicate writes registers as the host does is the model's (assumption 9),
and so is 0 for a used-up list of stop requests (assumption 14). -/
def Obligations.CallerPredicateDecides : Prop :=
  ∀ (s s1 : State) (later : List Bool) (p : PredicateCall) (ps : List PredicateCall),
    s.engine = .idle → s.loop = .running → s.predicate = .scripted (p :: ps) →
    (s.stops = [] ∧ later = [] ∨ s.stops = false :: later) →
    s1 = { s with
      stops := later, predicate := .scripted ps, ctx := s.ctx.hostWrites p.writes
      bus := { s.bus with latch := if p.clearsLatch then false else s.bus.latch } } →
    (p.answer = .interrupt → step s = .next { s1 with loop := .stopped, result := some .interrupt }) ∧
    (p.answer = .watchpoint → step s = .next { s1 with loop := .stopped, result := some .watchpoint }) ∧
    (p.answer = .ok → ∀ t, s1.stepInstr = .next t →
      step s = .next (if t.result = some .ok then t else { t with loop := .stopped }))

/-- R260, R261: the host's command `run`, given to a Stopped block with no packet command active, only sets Running
(that it is a transition of its own is the model's: assumption 25). R261: with a quiet stop request and predicate one
iteration is one step; the loop goes on exactly when the result is `OK`, and is Stopped with any other result. The
order is the spec's decision D15; 0 for a used-up list of stop requests is the model's (assumption 14). -/
def Obligations.RunStepsUntilNotOk : Prop :=
  (∀ (s : State) (later : List Command), s.engine = .idle → s.loop = .stopped → s.commands = .run :: later →
    step s = .next { s with commands := later, loop := .running }) ∧
  (∀ s t : State, s.engine = .idle → s.loop = .running → s.stops = [] → s.predicate = .reference →
    s.bus.latch = false → s.comm.arrivals = [] → s.comm.rx = [] → s.stepInstr = .next t →
    (t.result = some .ok → step s = .next t) ∧
    (t.result ≠ some .ok → step s = .next { t with loop := .stopped }))

/-- R266: a watchpoint hit by an instruction that ends `OK` stops the run after that instruction, whose effect is
complete, and before the next one. The spec marks R266 as derived from R261 and R263. The order is the spec's decision
D15, the latch before the poll D16; 0 for a used-up list of stop requests is the model's (assumption 14). -/
def Obligations.WatchpointStopsAfterTheInstruction : Prop :=
  ∀ s t : State, s.engine = .idle → s.loop = .running → s.stops = [] → s.predicate = .reference →
    s.bus.latch = false → s.comm.arrivals = [] → s.comm.rx = [] →
    s.stepInstr = .next t → t.result = some .ok → t.bus.latch = true →
    Host.Core.run Sys2Proof.core 2 s =
      .next { t with loop := .stopped, result := some .watchpoint, bus := { t.bus with latch := false } }

/-- R32, R263, R309: PRIMASK decides nothing. With another value of PRIMASK the meaning of any instruction but MRS of
PRIMASK gives the same state but for PRIMASK itself; and so does a whole transition of the machine, be it a fetch and
step, a run-loop iteration with its stop request and predicate, a byte or poll of the packet engine, or a host
command, unless it runs MRS of PRIMASK or is the host's own read of PRIMASK; a stuck transition is stuck with either
value. R32 is the spec's decision D31. -/
def Obligations.PrimaskDecidesNothing : Prop :=
  (∀ (i : Instr) (s t : State) (p : BitVec 1), exec i s = .next t →
    (∀ d b20 b19_16 b13, i ≠ .mrs d 16#8 b20 b19_16 b13) →
    ∃ q, exec i (s.withPrimask p) = .next (t.withPrimask q)) ∧
  (∀ (s t : State) (p : BitVec 1), step s = .next t → s.showsPrimask = false →
    ∃ q, step (s.withPrimask p) = .next (t.withPrimask q)) ∧
  (∀ (s : State) (p : BitVec 1) (f : Fault), step s = .fault f → step (s.withPrimask p) = .fault f)

/-! ## The packet engine -/

/-- R274: a byte is a digit exactly when it is one of the 22 characters `0`-`9`, `a`-`f`, `A`-`F`, with the values 0
to 15; the digits emitted are `0`-`9` and `a`-`f`. R274 is the spec's decision D33. -/
def Obligations.HexDigitsAreTheSixteen : Prop :=
  (∀ v : BitVec 4, hexDigit v =
    (if v.toNat < 10 then BitVec.ofNat 8 (0x30 + v.toNat) else BitVec.ofNat 8 (0x61 + (v.toNat - 10)))) ∧
  (∀ (b : Byte) (v : BitVec 4), hexValue b = some v ↔
    (0x30 ≤ b.toNat ∧ b.toNat ≤ 0x39 ∧ v.toNat = b.toNat - 0x30) ∨
    (0x61 ≤ b.toNat ∧ b.toNat ≤ 0x66 ∧ v.toNat = b.toNat - 0x61 + 10) ∨
    (0x41 ≤ b.toNat ∧ b.toNat ≤ 0x46 ∧ v.toNat = b.toNat - 0x41 + 10))

/-- R285, R273, R339: from RESEND, `len + 4` transitions transmit exactly the frame of the payload and leave the
engine waiting; the buffer, and everything that is not the engine's, is unchanged. R285 is the spec's decision D20,
the lower case of the digits D33; one byte a transition is R338's (D25). -/
def Obligations.SendTransmitsTheFrame : Prop :=
  ∀ s : State, s.engine = .sendStart →
    Host.Core.run Sys2Proof.core (s.buffer.data.length + 4) s = .next { s with
      engine := .wait
      packet := { s.packet with sum := sumBytes s.buffer.data }
      comm := { s.comm with tx := s.comm.tx ++ frameOf s.buffer.data } }

/-- R286, R287, R288: what one received byte does to a waiting `packetSend`. Which bytes return, are skipped or resend
is the spec's decision D20, the consumed `$` D29; batches of arrivals are the model's (assumption 13). -/
def Obligations.AcknowledgementRules : Prop :=
  ∀ (s : State) (b : Byte) (rest : List Byte), s.engine = .wait → s.comm.arrivals = [] → s.comm.rx = b :: rest →
    step s = .next { s with
      comm := { s.comm with rx := rest }
      packet := { s.packet with last := b }
      engine := if b = 0x2B#8 ∨ b = 0x24#8 then .idle else if b = 0x03#8 then .wait else .sendStart }

/-- R276, R281, R290: a `packetGet` that scans, given the frame of a payload with neither `$` nor `#` and no longer
than the buffer, and nothing behind it, returns after the frame's bytes, one acknowledgement and one poll: the buffer
holds the payload, read from the start, and exactly one `+` was transmitted. R276 is the spec's decisions D17 to D19;
one byte a transition is R338's (D25). -/
def Obligations.GetReturnsThePayload : Prop :=
  ∀ (s : State) (payload : List Byte), s.engine = .scan → s.comm.arrivals = [] → s.comm.rx = frameOf payload →
    0x24#8 ∉ payload → 0x23#8 ∉ payload → payload.length ≤ s.buffer.cap →
    Host.Core.run Sys2Proof.core (payload.length + 6) s = .next { s with
      engine := .idle
      packet := ⟨0#8, sumBytes payload, sumBytes payload⟩
      buffer := ⟨s.buffer.cap, payload, 0, false, false⟩
      comm := ⟨[], [], s.comm.tx ++ [0x2B#8]⟩ }

/-- R290, the loopback law: the bytes one engine's `packetSend` transmits, given to another's `packetGet`, reconstruct
the exact payload and produce exactly one `+`; that `+`, given to the waiting sender, makes it return without a
resend. The payloads it excludes are the spec's decision D36; one byte a transition is R338's (D25). -/
def Obligations.LoopbackReconstructsThePayload : Prop :=
  ∀ (s g : State), s.engine = .sendStart → s.comm.tx = [] → s.comm.rx = [] → s.comm.arrivals = [] →
    g.engine = .scan → g.comm.tx = [] → g.comm.arrivals = [] →
    0x24#8 ∉ s.buffer.data → 0x23#8 ∉ s.buffer.data → s.buffer.data.length ≤ g.buffer.cap →
    ∃ s' g' s'', Host.Core.run Sys2Proof.core (s.buffer.data.length + 4) s = .next s' ∧ s'.engine = .wait ∧
      Host.Core.run Sys2Proof.core (s.buffer.data.length + 6) { g with comm := { g.comm with rx := s'.comm.tx } } =
        .next g' ∧
      g'.engine = .idle ∧ g'.buffer.data = s.buffer.data ∧ g'.comm.tx = [0x2B#8] ∧ g'.comm.rx = [] ∧
      step { s' with comm := { s'.comm with rx := g'.comm.tx } } = .next s'' ∧
      s''.engine = .idle ∧ s''.comm.tx = s'.comm.tx

/-- R277, R278: scanning discards every byte but `$`; while capturing, `$` restarts with an empty buffer and clear
flags, `#` ends the capture, a byte that fits is appended and summed, and one that does not sets `overrun`, is
dropped, and ends the capture. A byte that does not fit is the spec's decision D18. -/
def Obligations.ScanAndCaptureRules : Prop :=
  ∀ (s : State) (b : Byte) (rest : List Byte), s.comm.arrivals = [] → s.comm.rx = b :: rest →
    (s.engine = .scan → b ≠ 0x24#8 → step s = .next { s with
      comm := { s.comm with rx := rest }, packet := { s.packet with last := b } }) ∧
    ((s.engine = .scan ∨ s.engine = .capture) → b = 0x24#8 → step s = .next { s with
      comm := { s.comm with rx := rest }, packet := { s.packet with last := b, sum := 0#8 }
      buffer := ⟨s.buffer.cap, [], 0, false, false⟩, engine := .capture }) ∧
    (s.engine = .capture → b = 0x23#8 → step s = .next { s with
      comm := { s.comm with rx := rest }, packet := { s.packet with last := b }, engine := .check1 }) ∧
    (s.engine = .capture → b ≠ 0x24#8 → b ≠ 0x23#8 → s.buffer.data.length < s.buffer.cap → step s = .next { s with
      comm := { s.comm with rx := rest }, packet := { s.packet with last := b, sum := s.packet.sum + b }
      buffer := { s.buffer with data := s.buffer.data ++ [b] } }) ∧
    (s.engine = .capture → b ≠ 0x24#8 → b ≠ 0x23#8 → s.buffer.cap ≤ s.buffer.data.length → step s = .next { s with
      comm := { s.comm with rx := rest }, packet := { s.packet with last := b }
      buffer := { s.buffer with overrun := true }, engine := .check1 })

/-- R279: two bytes are read as the checksum, hex or not. A pair that is not two hex digits sets `hexerr` and is
rejected; a number that differs from the sum is rejected; the number that equals the sum is accepted. The next
transition sends `-` and goes back to scanning, or sends `+`. R280, R281: after an ACK one poll decides: with data
queued the engine scans again, otherwise the call returns with the buffer rewound; the poll consumes nothing. R279 is
the spec's decision D19, R280 D17. -/
def Obligations.ChecksumAndPollRules : Prop :=
  (∀ (s : State) (d1 : Byte) (rest : List Byte), s.engine = .check1 → s.comm.arrivals = [] → s.comm.rx = d1 :: rest →
    step s = .next { s with comm := { s.comm with rx := rest }, engine := .check2 d1 }) ∧
  (∀ (s : State) (d1 d2 : Byte) (rest : List Byte), s.engine = .check2 d1 → s.comm.arrivals = [] →
      s.comm.rx = d2 :: rest →
      (hexValue d1 = none ∨ hexValue d2 = none → step s = .next { s with
        comm := { s.comm with rx := rest }, packet := { s.packet with last := 0#8 }
        buffer := { s.buffer with hexerr := true }, engine := .reply false }) ∧
      (∀ x y, hexValue d1 = some x → hexValue d2 = some y →
        (16 * x.toNat + y.toNat ≠ s.packet.sum.toNat → step s = .next { s with
          comm := { s.comm with rx := rest }
          packet := { s.packet with last := 0#8, expected := BitVec.ofNat 8 (16 * x.toNat + y.toNat) }
          engine := .reply false }) ∧
        (16 * x.toNat + y.toNat = s.packet.sum.toNat → step s = .next { s with
          comm := { s.comm with rx := rest }
          packet := { s.packet with last := 0#8, expected := s.packet.sum }
          engine := .reply true }))) ∧
  (∀ s : State,
      (s.engine = .reply false → step s = .next { s with
        comm := { s.comm with tx := s.comm.tx ++ [0x2D#8] }, engine := .scan }) ∧
      (s.engine = .reply true → step s = .next { s with
        comm := { s.comm with tx := s.comm.tx ++ [0x2B#8] }, engine := .more })) ∧
  (∀ s : State, s.engine = .more → s.comm.arrivals = [] →
      (s.comm.rx ≠ [] → step s = .next { s with engine := .scan }) ∧
      (s.comm.rx = [] → step s = .next { s with engine := .idle, buffer := { s.buffer with rpos := 0 } }))

/-- R270, R337: a `receiveChar` with nothing queued and nothing ever arriving never completes: it has no next state,
the fault `receiveBlocked` (assumption 17). While a batch of arrivals is still to come the call waits for it: an empty
batch leaves the engine where it is, and the first byte of any other is received like one already queued. R270 is the
spec's decision D21; arrivals in batches are the model's (assumption 13). -/
def Obligations.ReceiveBlocksForEver : Prop :=
  (∀ s : State, s.engine.receiving = true → s.comm.rx = [] → s.comm.arrivals = [] →
    step s = .fault .receiveBlocked) ∧
  (∀ (s : State) (later : List (List Byte)), s.engine.receiving = true → s.comm.rx = [] →
    s.comm.arrivals = [] :: later → step s = .next { s with comm := { s.comm with arrivals := later } }) ∧
  (∀ (s : State) (b : Byte) (bs : List Byte) (later : List (List Byte)), s.engine.receiving = true → s.comm.rx = [] →
    s.comm.arrivals = (b :: bs) :: later →
    step s = step { s with comm := { s.comm with rx := b :: bs, arrivals := [] :: later } })

/-- R272: every `packetGet` and every `packetSend` starts with `last`, `expected` and `calc` zero. R272 is the spec's
decision D29. -/
def Obligations.CommandsBeginWithZeroPacketState : Prop :=
  ∀ (s : State) (later : List Command), s.engine = .idle → s.loop = .stopped →
    (s.commands = .packetGet :: later →
      step s = .next { s with commands := later, packet := ⟨0#8, 0#8, 0#8⟩, engine := .scan }) ∧
    (s.commands = .packetSend :: later →
      step s = .next { s with commands := later, packet := ⟨0#8, 0#8, 0#8⟩, engine := .sendStart })

/-! ## The host's view -/

/-- R38, R295: what a host write stores, register by register, and that it changes no other register; a write of all
seventeen words stores word by word, in the order of R39, what the single writes store, and leaves PRIMASK; and that
the host's reads and writes are transitions of a Stopped block that change nothing else. R38 is the spec's decision
D28; the field that holds the answer of a read, and that a write answers nothing, are the model's (assumption 26). -/
def Obligations.HostWriteRules : Prop :=
  (∀ (c : Context) (k : HostReg) (v : Word),
    (c.hostWrite k v).hostRead k = (match k with
      | .sp => v &&& 0xFFFFFFFC#32
      | .xpsr => v &&& 0xFFFFFFC0#32
      | _ => v) ∧
    (∀ j, j ≠ k → (c.hostWrite k v).hostRead j = c.hostRead j) ∧
    (c.hostWrite k v).primask = c.primask ∧
    (c.hostWritePrimask v).primask = BitVec.ofBool (v.getLsbD 0) ∧
    (∀ j, (c.hostWritePrimask v).hostRead j = c.hostRead j)) ∧
  (∀ (c : Context) (w : Vector Word 17) (k : HostReg),
    (c.hostWriteAll w).hostRead k = (match k with
      | .r i => w[i.val]
      | .sp => w[13] &&& 0xFFFFFFFC#32
      | .lr => w[14]
      | .pc => w[15]
      | .xpsr => w[16] &&& 0xFFFFFFC0#32) ∧
    (c.hostWriteAll w).primask = c.primask) ∧
  (∀ (s : State) (later : List Command) (k : HostReg) (v : Word) (w : Vector Word 17), s.engine = .idle → s.loop = .stopped →
    (s.commands = .writeReg k v :: later →
      step s = .next { s with commands := later, ctx := s.ctx.hostWrite k v }) ∧
    (s.commands = .writePrimask v :: later →
      step s = .next { s with commands := later, ctx := s.ctx.hostWritePrimask v }) ∧
    (s.commands = .writeAll w :: later →
      step s = .next { s with commands := later, ctx := s.ctx.hostWriteAll w }) ∧
    (s.commands = .readReg k :: later →
      step s = .next { s with commands := later, reply := some (.word (s.ctx.hostRead k)) }) ∧
    (s.commands = .readPrimask :: later →
      step s = .next { s with commands := later, reply := some (.word (BitVec.ofNat 32 s.ctx.primask.toNat)) }) ∧
    (s.commands = .readAll :: later →
      step s = .next { s with commands := later, reply := some (.registers s.ctx.words) }))

/-- R295: the register dump is 136 lowercase hex digits, eight for each of R0 to R12, SP, LR, PC, xPSR, each word's
least significant byte first, high digit first; read back and written by the host it gives the original context, field
for field, SP's two low bits and IPSR apart. R295 is the spec's decision D35. -/
def Obligations.RegisterDumpRoundTrip : Prop :=
  ∀ c : Context, c.dump.length = 136 ∧
    c.words.toList = c.r.toList ++ [c.sp, c.lr, c.pc, c.xpsr] ∧
    (∀ (k : Fin 17) (j : Nat), j < 4 →
      c.dump[8 * k.val + 2 * j]? = some (hexDigit ((c.words[k]).extractLsb' (8 * j + 4) 4)) ∧
      c.dump[8 * k.val + 2 * j + 1]? = some (hexDigit ((c.words[k]).extractLsb' (8 * j) 4))) ∧
    ∃ w, parseDump c.dump = some w ∧
      (∀ d : Context, d.primask = c.primask → d.hostWriteAll w =
        { c with sp := c.sp &&& 0xFFFFFFFC#32, xpsr := c.xpsr &&& 0xFFFFFFC0#32 })

/-- R296: memory goes to the host as two digits a byte, high digit first, in address order; reading the digits back
gives the bytes. R72: a host read is a transition of a Stopped block that changes nothing but its answer: these bytes,
when each lies in exactly one region, and otherwise the refusal. That a stored byte is returned whatever its address,
and what is refused, is the model's choice (assumption 10), and so is the field that holds the answer (assumption 26).
-/
def Obligations.MemoryHexRoundTrip : Prop :=
  (∀ (b : Bus) (addr : Word) (n : Nat),
    (b.memoryHex addr n).length = 2 * n ∧
    bytesOfHex (b.memoryHex addr n) =
      some ((List.range n).map (fun k => b.mem.readByte (addr + BitVec.ofNat 32 k).toNat)) ∧
    (∀ k, k < n → (b.memoryHex addr n)[2 * k]? =
      some (hexDigit ((b.mem.readByte (addr + BitVec.ofNat 32 k).toNat).extractLsb' 4 4)) ∧
      (b.memoryHex addr n)[2 * k + 1]? =
        some (hexDigit ((b.mem.readByte (addr + BitVec.ofNat 32 k).toNat).extractLsb' 0 4)))) ∧
  (∀ (s : State) (later : List Command) (addr : Word) (n : Nat), s.engine = .idle → s.loop = .stopped →
    s.commands = .readMem addr n :: later →
    ((∀ k, k < n → (s.bus.resolve .byte (addr + BitVec.ofNat 32 k)).isSome = true) →
      step s = .next { s with
        commands := later
        reply := some (.memory ((List.range n).map (fun k => s.bus.mem.readByte (addr + BitVec.ofNat 32 k).toNat))) }) ∧
    ((∃ k, k < n ∧ s.bus.resolve .byte (addr + BitVec.ofNat 32 k) = none) →
      step s = .next { s with commands := later, reply := some .busError }))
end

