-- ==== Sys2Proof/Laws/Bits.lean ====
section
/-! SUPPORT. Bit-level facts: fields of concatenations (what the decoder undoes of the encoder), one bit of xPSR set,
bit 0 and the low bits cleared. -/

namespace Sys2Proof

/-- A field that lies in the less significant part of a concatenation. -/
theorem extract_append_low {m n : Nat} (x : BitVec m) (y : BitVec n) (i k : Nat) (h : i + k ≤ n) :
    (x ++ y).extractLsb' i k = y.extractLsb' i k := BitVec.extractLsb'_append_eq_of_add_le h

/-- A field that lies in the more significant part of a concatenation. -/
theorem extract_append_high {m n : Nat} (x : BitVec m) (y : BitVec n) (i k : Nat) (h : n ≤ i) :
    (x ++ y).extractLsb' i k = x.extractLsb' (i - n) k := BitVec.extractLsb'_append_eq_of_le h

/-- A field of a string read as a halfword. -/
theorem extract_toHalf {w : Nat} (x : BitVec w) (i k : Nat) (h : i + k ≤ 16) :
    (toHalf x).extractLsb' i k = x.extractLsb' i k := by
  apply BitVec.eq_of_getLsbD_eq
  intro j hj
  have : i + j < 16 := by omega
  simp [toHalf, this]

/-- A halfword made of its two bytes. -/
theorem halfOfBytes_bytesOfHalf (h : Half) : halfOfBytes (h.extractLsb' 0 8) (h.extractLsb' 8 8) = h := by
  apply BitVec.eq_of_getLsbD_eq
  intro j hj
  simp only [halfOfBytes, BitVec.getLsbD_append, BitVec.getLsbD_extractLsb']
  by_cases h8 : j < 8
  · simp [h8]
  · have : j - 8 < 8 := by omega
    simp [h8, this, show 8 + (j - 8) = j by omega]

end Sys2Proof

namespace Sys2Proof.Machine

/-- The bits of a word after one of them is set to a value. -/
theorem getLsbD_setBit (x : Word) (i : Nat) (b : Bool) (k : Nat) (hk : k < 32) :
    (setBit x i b).getLsbD k = if k = i then b else x.getLsbD k := by
  by_cases h : k = i
  · subst h; cases b <;> simp [setBit, hk]
  · cases b <;> simp [setBit, hk, h]

/-- Setting a bit to the value it has changes nothing. -/
theorem setBit_self (x : Word) (i : Nat) (b : Bool) (h : x.getLsbD i = b) : setBit x i b = x := by
  apply BitVec.eq_of_getLsbD_eq
  intro k hk
  rw [getLsbD_setBit x i b k hk]
  split
  · next e => rw [e, h]
  · rfl

/-- Bit 0 of a stored PC is 0 (R25). -/
@[simp] theorem getLsbD_clearBit0_zero (x : Word) : (clearBit0 x).getLsbD 0 = false := by
  simp [clearBit0]

/-- The other bits of a stored PC are the target's. -/
theorem getLsbD_clearBit0 (x : Word) (k : Nat) (hk : 0 < k) (hk' : k < 32) :
    (clearBit0 x).getLsbD k = x.getLsbD k := by
  have : ∀ k : Fin 32, 0 < k.val → (0xFFFFFFFE#32).getLsbD k.val = true := by decide
  have := this ⟨k, hk'⟩ hk
  simp only [clearBit0, BitVec.getLsbD_and, this, Bool.and_true]

/-- An even address is stored as it is. -/
theorem clearBit0_of_even (x : Word) (h : x.getLsbD 0 = false) : clearBit0 x = x := by
  apply BitVec.eq_of_getLsbD_eq
  intro k hk
  by_cases h0 : k = 0
  · subst h0; rw [getLsbD_clearBit0_zero, h]
  · exact getLsbD_clearBit0 x k (by omega) hk

/-- The mask of SP clears its two low bits (R22). -/
@[simp] theorem and_spWriteMask_low (x : Word) : (x &&& Config.spWriteMask) &&& 3#32 = 0#32 := by
  rw [BitVec.and_assoc]
  show x &&& (0xFFFFFFFC#32 &&& 3#32) = 0#32
  rw [show (0xFFFFFFFC#32 &&& 3#32) = 0#32 by decide, BitVec.and_zero]

/-- A word with two low zero bits passes the mask of SP unchanged. -/
theorem and_spWriteMask_of_aligned (x : Word) (h : x &&& 3#32 = 0#32) : x &&& Config.spWriteMask = x := by
  have e : x &&& (0xFFFFFFFC#32 ||| 3#32) = x := by
    rw [show (0xFFFFFFFC#32 ||| 3#32) = BitVec.allOnes 32 by decide, BitVec.and_allOnes]
  have d : x &&& (0xFFFFFFFC#32 ||| 3#32) = (x &&& 0xFFFFFFFC#32) ||| (x &&& 3#32) := by
    apply BitVec.eq_of_getLsbD_eq
    intro k _
    simp only [BitVec.getLsbD_and, BitVec.getLsbD_or, Bool.and_or_distrib_left]
  rw [d, h, BitVec.or_zero] at e
  exact e

end Sys2Proof.Machine
end

