-- ==== Sys2Proof/Laws/Memory.lean ====
section
/-! SUPPORT. Memory: a read after a write, and the canonical form kept by every memory operation. -/

namespace Sys2Proof.Machine

/-! ## The canonical form -/

/-- A lower bound may be lowered. -/
theorem Memory.wfFrom_mono (m : Memory) (lo lo' : Nat) (h : lo' ≤ lo) (hm : Memory.wfFrom lo m = true) :
    Memory.wfFrom lo' m = true := by
  cases m with
  | nil => rfl
  | cons e m =>
    obtain ⟨k, v⟩ := e
    simp only [Memory.wfFrom, Bool.and_eq_true, decide_eq_true_eq] at hm ⊢
    exact ⟨⟨⟨by omega, hm.1.1.2⟩, hm.1.2⟩, hm.2⟩

/-- An address below the bound is not listed. -/
theorem Memory.readByte_below (m : Memory) (lo a : Nat) (h : a < lo) (hm : Memory.wfFrom lo m = true) :
    m.readByte a = Config.unwrittenByte := by
  induction m generalizing lo with
  | nil => rfl
  | cons e m ih =>
    obtain ⟨k, v⟩ := e
    simp only [Memory.wfFrom, Bool.and_eq_true, decide_eq_true_eq] at hm
    have hk : k ≠ a := by omega
    simp only [Memory.readByte, hk, if_false]
    exact ih (k + 1) (by omega) hm.2

/-- A write keeps the canonical form above the bound. -/
theorem Memory.wfFrom_writeByte (m : Memory) (lo a : Nat) (v : Byte) (ha : lo ≤ a) (ha' : a < 2 ^ 32)
    (hm : Memory.wfFrom lo m = true) : Memory.wfFrom lo (m.writeByte a v) = true := by
  induction m generalizing lo with
  | nil =>
    simp only [Memory.writeByte]
    split
    · rfl
    · next hv => simp only [Memory.wfFrom]; simp [ha, hv]; omega
  | cons e m ih =>
    obtain ⟨k, w⟩ := e
    have hm' := hm
    simp only [Memory.wfFrom, Bool.and_eq_true, decide_eq_true_eq] at hm
    simp only [Memory.writeByte]
    split
    · next hlt =>
      split
      · exact hm'
      · next hv =>
        simp only [Memory.wfFrom, Bool.and_eq_true, decide_eq_true_eq]
        refine ⟨⟨⟨ha, ha'⟩, by simpa using hv⟩, ⟨⟨⟨by omega, hm.1.1.2⟩, hm.1.2⟩, hm.2⟩⟩
    · next hge =>
      split
      · next heq =>
        subst heq
        split
        · exact Memory.wfFrom_mono m _ _ (by omega) hm.2
        · next hv =>
          simp only [Memory.wfFrom, Bool.and_eq_true, decide_eq_true_eq]
          exact ⟨⟨⟨ha, ha'⟩, by simpa using hv⟩, hm.2⟩
      · next hne =>
        simp only [Memory.wfFrom, Bool.and_eq_true, decide_eq_true_eq]
        exact ⟨hm.1, ih (k + 1) (by omega) hm.2⟩

/-- A write of one byte keeps the canonical form. -/
theorem Memory.wf_writeByte (m : Memory) (a : Nat) (v : Byte) (ha : a < 2 ^ 32) (hm : m.wf = true) :
    (m.writeByte a v).wf = true := Memory.wfFrom_writeByte m 0 a v (by omega) ha hm

/-- A write that fits in the address space keeps the canonical form. -/
theorem Memory.wf_write (m : Memory) (w : Width) (a : Nat) (v : Word) (ha : a + w.bytes ≤ 2 ^ 32)
    (hm : m.wf = true) : (m.write w a v).wf = true := by
  cases w <;> simp only [Memory.write, Width.bytes] at ha ⊢
  · exact Memory.wf_writeByte _ _ _ (by omega) hm
  · exact Memory.wf_writeByte _ _ _ (by omega) (Memory.wf_writeByte _ _ _ (by omega) hm)
  · exact Memory.wf_writeByte _ _ _ (by omega) (Memory.wf_writeByte _ _ _ (by omega)
      (Memory.wf_writeByte _ _ _ (by omega) (Memory.wf_writeByte _ _ _ (by omega) hm)))

/-- Bytes stored one after another keep the canonical form. -/
theorem Memory.wf_storeBytes (m : Memory) (addr : Word) (bs : List Byte) (hm : m.wf = true) :
    (m.storeBytes addr bs).wf = true := by
  induction bs generalizing m addr with
  | nil => exact hm
  | cons b bs ih => exact ih _ _ (Memory.wf_writeByte _ _ _ addr.isLt hm)

/-- The host's stores keep the canonical form. -/
theorem Bus.wf_hostStore (b : Bus) (addr : Word) (bs : List Byte) (hm : b.mem.wf = true) :
    (b.hostStore addr bs).mem.wf = true := by
  induction bs generalizing b addr with
  | nil => exact hm
  | cons v vs ih =>
    simp only [Bus.hostStore]
    apply ih
    split
    · exact Memory.wf_writeByte _ _ _ addr.isLt hm
    · exact hm

/-! ## Reads after writes -/

/-- Another byte keeps its value, in every memory. -/
theorem Memory.readByte_writeByte_ne (m : Memory) (a x : Nat) (v : Byte) (h : x ≠ a) :
    (m.writeByte a v).readByte x = m.readByte x := by
  induction m with
  | nil =>
    simp only [Memory.writeByte]
    split
    · rfl
    · simp [Memory.readByte, Ne.symm h]
  | cons e m ih =>
    obtain ⟨k, w⟩ := e
    simp only [Memory.writeByte]
    split
    · split
      · rfl
      · simp [Memory.readByte, Ne.symm h]
    · split
      · next heq =>
        subst heq
        split <;> simp [Memory.readByte, Ne.symm h]
      · simp only [Memory.readByte]
        split
        · rfl
        · exact ih

/-- The byte written, above the bound. -/
theorem Memory.readByte_writeByte_from (m : Memory) (lo a : Nat) (v : Byte)
    (hm : Memory.wfFrom lo m = true) : (m.writeByte a v).readByte a = v := by
  induction m generalizing lo with
  | nil =>
    simp only [Memory.writeByte]
    split
    · next hv => simp [Memory.readByte, hv]
    · simp [Memory.readByte]
  | cons e m ih =>
    obtain ⟨k, w⟩ := e
    simp only [Memory.wfFrom, Bool.and_eq_true, decide_eq_true_eq] at hm
    simp only [Memory.writeByte]
    split
    · next hlt =>
      split
      · next hv =>
        have : k ≠ a := by omega
        simp only [Memory.readByte, this, if_false, hv]
        exact Memory.readByte_below m (k + 1) a (by omega) hm.2
      · simp [Memory.readByte]
    · split
      · next heq =>
        subst heq
        split
        · next hv => rw [hv]; exact Memory.readByte_below m (a + 1) a (by omega) hm.2
        · simp [Memory.readByte]
      · next hne =>
        have : k ≠ a := fun e => hne e.symm
        simp only [Memory.readByte, this, if_false]
        exact ih (k + 1) hm.2

/-- A read of one byte after a write of one byte. -/
theorem Memory.readByte_writeByte (m : Memory) (a x : Nat) (v : Byte) (hm : m.wf = true) :
    (m.writeByte a v).readByte x = if x = a then v else m.readByte x := by
  split
  · next h => subst h; exact Memory.readByte_writeByte_from m 0 x v hm
  · next h => exact Memory.readByte_writeByte_ne m a x v h

/-- A write leaves every byte outside it, in every memory. -/
theorem Memory.readByte_write_outside (m : Memory) (w : Width) (a x : Nat) (v : Word) (h : ¬ bytesAt a w.bytes x) :
    (m.write w a v).readByte x = m.readByte x := by
  simp only [bytesAt, not_and, Nat.not_lt] at h
  cases w <;> simp only [Width.bytes] at h <;> simp only [Memory.write]
  · exact Memory.readByte_writeByte_ne _ _ _ _ (by omega)
  · rw [Memory.readByte_writeByte_ne _ _ _ _ (by omega), Memory.readByte_writeByte_ne _ _ _ _ (by omega)]
  · rw [Memory.readByte_writeByte_ne _ _ _ _ (by omega), Memory.readByte_writeByte_ne _ _ _ _ (by omega),
      Memory.readByte_writeByte_ne _ _ _ _ (by omega), Memory.readByte_writeByte_ne _ _ _ _ (by omega)]

/-- A byte that was stored reads back. -/
theorem Memory.byteAt_write (m : Memory) (a : Nat) (v : Word) (hm : m.wf = true) :
    (m.write .byte a v).byteAt a = v.extractLsb' 0 8 := by
  simp [Memory.byteAt, Memory.write, Memory.readByte_writeByte, hm]

/-- A halfword that was stored reads back. -/
theorem Memory.halfAt_write (m : Memory) (a : Nat) (v : Word) (ha : a + 2 ≤ 2 ^ 32) (hm : m.wf = true) :
    (m.write .half a v).halfAt a = v.extractLsb' 0 16 := by
  have h1 := Memory.wf_writeByte m a (v.extractLsb' 0 8) (by omega) hm
  simp only [Memory.halfAt, Memory.write]
  simp only [Memory.readByte_writeByte _ _ _ _ h1, Memory.readByte_writeByte _ _ _ _ hm]
  simp only [show a ≠ a + 1 by omega, if_true, if_false]
  apply BitVec.eq_of_getLsbD_eq
  intro k hk
  simp only [BitVec.getLsbD_append, BitVec.getLsbD_extractLsb']
  by_cases h : k < 8
  · simp [h, hk]
  · have h8 : k - 8 < 8 := by omega
    simp [h, h8, hk, show 8 + (k - 8) = k by omega]

/-- A word that was stored reads back. -/
theorem Memory.wordAt_write (m : Memory) (a : Nat) (v : Word) (ha : a + 4 ≤ 2 ^ 32) (hm : m.wf = true) :
    (m.write .word a v).wordAt a = v := by
  have h1 := Memory.wf_writeByte m a (v.extractLsb' 0 8) (by omega) hm
  have h2 := Memory.wf_writeByte _ (a + 1) (v.extractLsb' 8 8) (by omega) h1
  have h3 := Memory.wf_writeByte _ (a + 2) (v.extractLsb' 16 8) (by omega) h2
  simp only [Memory.wordAt, Memory.write]
  simp only [Memory.readByte_writeByte _ _ _ _ h3, Memory.readByte_writeByte _ _ _ _ h2,
    Memory.readByte_writeByte _ _ _ _ h1, Memory.readByte_writeByte _ _ _ _ hm]
  simp only [show a + 2 ≠ a + 3 by omega, show a + 1 ≠ a + 3 by omega, show a + 1 ≠ a + 2 by omega,
    show a ≠ a + 3 by omega, show a ≠ a + 2 by omega, show a ≠ a + 1 by omega, if_true, if_false]
  apply BitVec.eq_of_getLsbD_eq
  intro k hk
  simp only [BitVec.getLsbD_append, BitVec.getLsbD_extractLsb']
  by_cases h8 : k < 8
  · simp [h8]
  · by_cases h16 : k - 8 < 8
    · simp [h8, h16, show 8 + (k - 8) = k by omega]
    · by_cases h24 : k - 8 - 8 < 8
      · simp [h8, h16, h24, show 16 + (k - 8 - 8) = k by omega]
      · simp [h8, h16, h24, show 24 + (k - 8 - 8 - 8) = k by omega, show k - 8 - 8 - 8 < 8 by omega]

end Sys2Proof.Machine
end

