-- ==== Sys2Proof/Laws/State.lean ====
section
/-! SUPPORT. What every update leaves in every field: one lemma a field, true by unfolding the record, so that no later
proof unfolds an update of State, Bus or Context. -/

namespace Sys2Proof.Machine

variable (s : State) (c : Context)

/-! ## The ends of a step -/

@[simp] theorem State.raise_ctx (x : StepResult) : (s.raise x).ctx = s.ctx := rfl
@[simp] theorem State.raise_bus (x : StepResult) : (s.raise x).bus = s.bus := rfl
@[simp] theorem State.raise_result (x : StepResult) : (s.raise x).result = some x := rfl
@[simp] theorem State.raise_loop (x : StepResult) : (s.raise x).loop = s.loop := rfl
@[simp] theorem State.raise_predicate (x : StepResult) : (s.raise x).predicate = s.predicate := rfl
@[simp] theorem State.raise_stops (x : StepResult) : (s.raise x).stops = s.stops := rfl
@[simp] theorem State.raise_engine (x : StepResult) : (s.raise x).engine = s.engine := rfl
@[simp] theorem State.raise_packet (x : StepResult) : (s.raise x).packet = s.packet := rfl
@[simp] theorem State.raise_buffer (x : StepResult) : (s.raise x).buffer = s.buffer := rfl
@[simp] theorem State.raise_comm (x : StepResult) : (s.raise x).comm = s.comm := rfl
@[simp] theorem State.raise_commands (x : StepResult) : (s.raise x).commands = s.commands := rfl
@[simp] theorem State.raise_reply (x : StepResult) : (s.raise x).reply = s.reply := rfl

@[simp] theorem State.finish_ctx (p : Word) (x : StepResult) : (s.finish c p x).ctx = { c with pc := p } := rfl
@[simp] theorem State.finish_bus (p : Word) (x : StepResult) : (s.finish c p x).bus = s.bus := rfl
@[simp] theorem State.finish_result (p : Word) (x : StepResult) : (s.finish c p x).result = some x := rfl
@[simp] theorem State.finish_loop (p : Word) (x : StepResult) : (s.finish c p x).loop = s.loop := rfl
@[simp] theorem State.finish_predicate (p : Word) (x : StepResult) : (s.finish c p x).predicate = s.predicate := rfl
@[simp] theorem State.finish_stops (p : Word) (x : StepResult) : (s.finish c p x).stops = s.stops := rfl
@[simp] theorem State.finish_engine (p : Word) (x : StepResult) : (s.finish c p x).engine = s.engine := rfl
@[simp] theorem State.finish_packet (p : Word) (x : StepResult) : (s.finish c p x).packet = s.packet := rfl
@[simp] theorem State.finish_buffer (p : Word) (x : StepResult) : (s.finish c p x).buffer = s.buffer := rfl
@[simp] theorem State.finish_comm (p : Word) (x : StepResult) : (s.finish c p x).comm = s.comm := rfl
@[simp] theorem State.finish_commands (p : Word) (x : StepResult) : (s.finish c p x).commands = s.commands := rfl
@[simp] theorem State.finish_reply (p : Word) (x : StepResult) : (s.finish c p x).reply = s.reply := rfl

/-! ## The context: SP -/

@[simp] theorem Context.writeSp_r (v : Word) : (c.writeSp v).r = c.r := rfl
@[simp] theorem Context.writeSp_sp (v : Word) : (c.writeSp v).sp = v &&& Config.spWriteMask := rfl
@[simp] theorem Context.writeSp_lr (v : Word) : (c.writeSp v).lr = c.lr := rfl
@[simp] theorem Context.writeSp_pc (v : Word) : (c.writeSp v).pc = c.pc := rfl
@[simp] theorem Context.writeSp_xpsr (v : Word) : (c.writeSp v).xpsr = c.xpsr := rfl
@[simp] theorem Context.writeSp_primask (v : Word) : (c.writeSp v).primask = c.primask := rfl

/-! ## The context: the flags -/

@[simp] theorem Context.setNZ_r (v : Word) : (c.setNZ v).r = c.r := rfl
@[simp] theorem Context.setNZ_sp (v : Word) : (c.setNZ v).sp = c.sp := rfl
@[simp] theorem Context.setNZ_lr (v : Word) : (c.setNZ v).lr = c.lr := rfl
@[simp] theorem Context.setNZ_pc (v : Word) : (c.setNZ v).pc = c.pc := rfl
@[simp] theorem Context.setNZ_primask (v : Word) : (c.setNZ v).primask = c.primask := rfl

@[simp] theorem Context.setC_r (b : Bool) : (c.setC b).r = c.r := rfl
@[simp] theorem Context.setC_sp (b : Bool) : (c.setC b).sp = c.sp := rfl
@[simp] theorem Context.setC_lr (b : Bool) : (c.setC b).lr = c.lr := rfl
@[simp] theorem Context.setC_pc (b : Bool) : (c.setC b).pc = c.pc := rfl
@[simp] theorem Context.setC_primask (b : Bool) : (c.setC b).primask = c.primask := rfl

@[simp] theorem Context.setV_r (b : Bool) : (c.setV b).r = c.r := rfl
@[simp] theorem Context.setV_sp (b : Bool) : (c.setV b).sp = c.sp := rfl
@[simp] theorem Context.setV_lr (b : Bool) : (c.setV b).lr = c.lr := rfl
@[simp] theorem Context.setV_pc (b : Bool) : (c.setV b).pc = c.pc := rfl
@[simp] theorem Context.setV_primask (b : Bool) : (c.setV b).primask = c.primask := rfl

@[simp] theorem Context.setT_r (b : Bool) : (c.setT b).r = c.r := rfl
@[simp] theorem Context.setT_sp (b : Bool) : (c.setT b).sp = c.sp := rfl
@[simp] theorem Context.setT_lr (b : Bool) : (c.setT b).lr = c.lr := rfl
@[simp] theorem Context.setT_pc (b : Bool) : (c.setT b).pc = c.pc := rfl
@[simp] theorem Context.setT_primask (b : Bool) : (c.setT b).primask = c.primask := rfl

@[simp] theorem Context.setNZCV_r (v : Word) : (c.setNZCV v).r = c.r := rfl
@[simp] theorem Context.setNZCV_sp (v : Word) : (c.setNZCV v).sp = c.sp := rfl
@[simp] theorem Context.setNZCV_lr (v : Word) : (c.setNZCV v).lr = c.lr := rfl
@[simp] theorem Context.setNZCV_pc (v : Word) : (c.setNZCV v).pc = c.pc := rfl
@[simp] theorem Context.setNZCV_primask (v : Word) : (c.setNZCV v).primask = c.primask := rfl

/-! ## The bus -/

variable (b : Bus)

@[simp] theorem Bus.record_regions (x : Access) (d : Word) (r : Response) : (b.record x d r).regions = b.regions := rfl
@[simp] theorem Bus.record_mem (x : Access) (d : Word) (r : Response) : (b.record x d r).mem = b.mem := rfl
@[simp] theorem Bus.record_latch (x : Access) (d : Word) (r : Response) : (b.record x d r).latch = b.latch := rfl
@[simp] theorem Bus.record_port (x : Access) (d : Word) (r : Response) :
    (b.record x d r).port = b.port ++ [⟨x, d, r⟩] := rfl

@[simp] theorem State.clearPort_ctx : s.clearPort.ctx = s.ctx := rfl
@[simp] theorem State.clearPort_mem : s.clearPort.bus.mem = s.bus.mem := rfl
@[simp] theorem State.clearPort_regions : s.clearPort.bus.regions = s.bus.regions := rfl
@[simp] theorem State.clearPort_latch : s.clearPort.bus.latch = s.bus.latch := rfl
@[simp] theorem State.clearPort_port : s.clearPort.bus.port = [] := rfl
@[simp] theorem State.clearPort_result : s.clearPort.result = s.result := rfl
@[simp] theorem State.clearPort_loop : s.clearPort.loop = s.loop := rfl
@[simp] theorem State.clearPort_predicate : s.clearPort.predicate = s.predicate := rfl
@[simp] theorem State.clearPort_stops : s.clearPort.stops = s.stops := rfl
@[simp] theorem State.clearPort_engine : s.clearPort.engine = s.engine := rfl
@[simp] theorem State.clearPort_packet : s.clearPort.packet = s.packet := rfl
@[simp] theorem State.clearPort_buffer : s.clearPort.buffer = s.buffer := rfl
@[simp] theorem State.clearPort_comm : s.clearPort.comm = s.comm := rfl
@[simp] theorem State.clearPort_commands : s.clearPort.commands = s.commands := rfl
@[simp] theorem State.clearPort_reply : s.clearPort.reply = s.reply := rfl

/-! ## The packet engine and the run loop -/

@[simp] theorem State.sendChar_ctx (x : Byte) : (s.sendChar x).ctx = s.ctx := rfl
@[simp] theorem State.sendChar_bus (x : Byte) : (s.sendChar x).bus = s.bus := rfl
@[simp] theorem State.sendChar_result (x : Byte) : (s.sendChar x).result = s.result := rfl
@[simp] theorem State.sendChar_loop (x : Byte) : (s.sendChar x).loop = s.loop := rfl
@[simp] theorem State.sendChar_predicate (x : Byte) : (s.sendChar x).predicate = s.predicate := rfl
@[simp] theorem State.sendChar_stops (x : Byte) : (s.sendChar x).stops = s.stops := rfl
@[simp] theorem State.sendChar_engine (x : Byte) : (s.sendChar x).engine = s.engine := rfl
@[simp] theorem State.sendChar_packet (x : Byte) : (s.sendChar x).packet = s.packet := rfl
@[simp] theorem State.sendChar_buffer (x : Byte) : (s.sendChar x).buffer = s.buffer := rfl
@[simp] theorem State.sendChar_rx (x : Byte) : (s.sendChar x).comm.rx = s.comm.rx := rfl
@[simp] theorem State.sendChar_arrivals (x : Byte) : (s.sendChar x).comm.arrivals = s.comm.arrivals := rfl
@[simp] theorem State.sendChar_tx (x : Byte) : (s.sendChar x).comm.tx = s.comm.tx ++ [x] := rfl
@[simp] theorem State.sendChar_commands (x : Byte) : (s.sendChar x).commands = s.commands := rfl
@[simp] theorem State.sendChar_reply (x : Byte) : (s.sendChar x).reply = s.reply := rfl

@[simp] theorem State.sendReply_ctx (v : Bool) : (s.sendReply v).ctx = s.ctx := by cases v <;> rfl
@[simp] theorem State.sendReply_bus (v : Bool) : (s.sendReply v).bus = s.bus := by cases v <;> rfl
@[simp] theorem State.sendReply_result (v : Bool) : (s.sendReply v).result = s.result := by cases v <;> rfl
@[simp] theorem State.sendReply_loop (v : Bool) : (s.sendReply v).loop = s.loop := by cases v <;> rfl
@[simp] theorem State.sendReply_predicate (v : Bool) : (s.sendReply v).predicate = s.predicate := by cases v <;> rfl
@[simp] theorem State.sendReply_stops (v : Bool) : (s.sendReply v).stops = s.stops := by cases v <;> rfl
@[simp] theorem State.sendReply_engine (v : Bool) : (s.sendReply v).engine = if v then .more else .scan := by
  cases v <;> rfl
@[simp] theorem State.sendReply_packet (v : Bool) : (s.sendReply v).packet = s.packet := by cases v <;> rfl
@[simp] theorem State.sendReply_buffer (v : Bool) : (s.sendReply v).buffer = s.buffer := by cases v <;> rfl
@[simp] theorem State.sendReply_rx (v : Bool) : (s.sendReply v).comm.rx = s.comm.rx := by cases v <;> rfl
@[simp] theorem State.sendReply_arrivals (v : Bool) : (s.sendReply v).comm.arrivals = s.comm.arrivals := by
  cases v <;> rfl
@[simp] theorem State.sendReply_tx (v : Bool) :
    (s.sendReply v).comm.tx = s.comm.tx ++ [if v then ackByte else nakByte] := by cases v <;> rfl
@[simp] theorem State.sendReply_commands (v : Bool) : (s.sendReply v).commands = s.commands := by cases v <;> rfl
@[simp] theorem State.sendReply_reply (v : Bool) : (s.sendReply v).reply = s.reply := by cases v <;> rfl

variable (p : Buffer)

@[simp] theorem Buffer.clear_cap : p.clear.cap = p.cap := rfl
@[simp] theorem Buffer.clear_data : p.clear.data = [] := rfl
@[simp] theorem Buffer.clear_rpos : p.clear.rpos = 0 := rfl
@[simp] theorem Buffer.clear_overrun : p.clear.overrun = false := rfl
@[simp] theorem Buffer.clear_hexerr : p.clear.hexerr = false := rfl
@[simp] theorem Buffer.append_cap (x : Byte) : (p.append x).cap = p.cap := rfl
@[simp] theorem Buffer.append_data (x : Byte) : (p.append x).data = p.data ++ [x] := rfl
@[simp] theorem Buffer.append_rpos (x : Byte) : (p.append x).rpos = p.rpos := rfl
@[simp] theorem Buffer.append_overrun (x : Byte) : (p.append x).overrun = p.overrun := rfl
@[simp] theorem Buffer.append_hexerr (x : Byte) : (p.append x).hexerr = p.hexerr := rfl
@[simp] theorem Buffer.rewind_cap : p.rewind.cap = p.cap := rfl
@[simp] theorem Buffer.rewind_data : p.rewind.data = p.data := rfl
@[simp] theorem Buffer.rewind_rpos : p.rewind.rpos = 0 := rfl
@[simp] theorem Buffer.rewind_overrun : p.rewind.overrun = p.overrun := rfl
@[simp] theorem Buffer.rewind_hexerr : p.rewind.hexerr = p.hexerr := rfl

@[simp] theorem State.stopWith_ctx (x : StepResult) : (s.stopWith x).ctx = s.ctx := rfl
@[simp] theorem State.stopWith_bus (x : StepResult) : (s.stopWith x).bus = s.bus := rfl
@[simp] theorem State.stopWith_result (x : StepResult) : (s.stopWith x).result = some x := rfl
@[simp] theorem State.stopWith_loop (x : StepResult) : (s.stopWith x).loop = .stopped := rfl
@[simp] theorem State.stopWith_engine (x : StepResult) : (s.stopWith x).engine = s.engine := rfl
@[simp] theorem State.stopWith_buffer (x : StepResult) : (s.stopWith x).buffer = s.buffer := rfl
@[simp] theorem State.stopWith_packet (x : StepResult) : (s.stopWith x).packet = s.packet := rfl
@[simp] theorem State.stopWith_comm (x : StepResult) : (s.stopWith x).comm = s.comm := rfl
@[simp] theorem State.stopWith_predicate (x : StepResult) : (s.stopWith x).predicate = s.predicate := rfl
@[simp] theorem State.stopWith_stops (x : StepResult) : (s.stopWith x).stops = s.stops := rfl
@[simp] theorem State.stopWith_commands (x : StepResult) : (s.stopWith x).commands = s.commands := rfl
@[simp] theorem State.stopWith_reply (x : StepResult) : (s.stopWith x).reply = s.reply := rfl

end Sys2Proof.Machine
end

