-- ==== Sys2Proof/Laws/Registers.lean ====
section
/-! SUPPORT. Registers and flags read back: `x[i]` after a write of `x[j]`, each bit of xPSR after each flag update. -/

namespace Sys2Proof.Machine

variable (c : Context)

/-! ## Registers -/

/-- What `x[j] <- v` makes `x[i]` read (R10, R22): no rule writes `x[15]`. -/
theorem Context.reg_writeReg (i j : RegNum) (v : Word) :
    (c.writeReg j v).reg i = if i = j ∧ i ≠ 15#4 then (if i = 13#4 then v &&& Config.spWriteMask else v) else c.reg i := by
  have key : ∀ a b : RegNum, a.toNat = b.toNat ↔ a = b := fun a b =>
    ⟨fun h => BitVec.eq_of_toNat_eq h, fun h => by rw [h]⟩
  unfold Context.writeReg
  split
  · next hj =>
    have j13 : j ≠ 13#4 := fun e => by subst e; revert hj; decide
    have j15 : j ≠ 15#4 := fun e => by subst e; revert hj; decide
    unfold Context.reg
    by_cases hij : i = j
    · subst hij; simp [hj, j13, j15]
    · simp only [hij, false_and, if_false]
      split
      · next hi =>
        have : j.toNat ≠ i.toNat := fun e => hij ((key j i).mp e).symm
        simp [this]
      · rfl
  · next hj =>
    split
    · next h13 =>
      subst h13
      unfold Context.reg Context.writeSp
      by_cases hi : i = 13#4
      · subst hi; simp
      · simp [hi]
    · next h13 =>
      split
      · next h14 =>
        subst h14
        unfold Context.reg
        by_cases hi : i = 14#4
        · subst hi; simp
        · simp [hi]
      · next h14 =>
        have j15 : j = 15#4 := by
          revert hj h13 h14; revert j; decide
        subst j15
        by_cases hi : i = 15#4 <;> simp [hi]

/-- A register other than SP and PC reads back what was written. -/
theorem Context.reg_writeReg_same (i : RegNum) (v : Word) (h13 : i ≠ 13#4) (h15 : i ≠ 15#4) :
    (c.writeReg i v).reg i = v := by simp [Context.reg_writeReg, h13, h15]

/-- Another register keeps its value. -/
theorem Context.reg_writeReg_ne (i j : RegNum) (v : Word) (h : i ≠ j) : (c.writeReg j v).reg i = c.reg i := by
  simp [Context.reg_writeReg, h]

@[simp] theorem Context.writeReg_xpsr (j : RegNum) (v : Word) : (c.writeReg j v).xpsr = c.xpsr := by
  unfold Context.writeReg; split; rfl; split; rfl; split <;> rfl

@[simp] theorem Context.writeReg_primask (j : RegNum) (v : Word) : (c.writeReg j v).primask = c.primask := by
  unfold Context.writeReg; split; rfl; split; rfl; split <;> rfl

@[simp] theorem Context.writeReg_pc (j : RegNum) (v : Word) : (c.writeReg j v).pc = c.pc := by
  unfold Context.writeReg; split; rfl; split; rfl; split <;> rfl

/-- A register other than the numbered PC does not see the stored PC, xPSR or PRIMASK. -/
theorem Context.reg_congr (c' : Context) (i : RegNum) (h : i ≠ 15#4) (hr : c'.r = c.r) (hs : c'.sp = c.sp)
    (hl : c'.lr = c.lr) : c'.reg i = c.reg i := by
  have : ∀ i : RegNum, i ≠ 15#4 → ¬ i.toNat < 13 → i ≠ 13#4 → i = 14#4 := by decide
  unfold Context.reg
  split
  · simp [hr]
  · next h13 =>
    split
    · exact hs
    · next hn =>
      have := this i h h13 hn
      subst this; simp [hl]

/-- A register read from a context with the same registers. -/
theorem Context.reg_eq_of {c c' : Context} {i : RegNum} {v : Word} (hi : i ≠ 15#4) (h : c.reg i = v)
    (e : c'.r = c.r ∧ c'.sp = c.sp ∧ c'.lr = c.lr) : c'.reg i = v :=
  (c.reg_congr c' i hi e.1 e.2.1 e.2.2).trans h

/-- The 3-bit field names neither SP, LR nor PC (R24). -/
theorem low_ne (d : LowReg) : low d ≠ 13#4 ∧ low d ≠ 14#4 ∧ low d ≠ 15#4 := by revert d; decide

/-- Different fields name different registers. -/
theorem low_inj (d e : LowReg) : low d = low e ↔ d = e := by revert d e; decide

/-- The low register just written. -/
@[simp] theorem Context.reg_writeReg_low (d : LowReg) (v : Word) : (c.writeReg (low d) v).reg (low d) = v :=
  c.reg_writeReg_same _ v (low_ne d).1 (low_ne d).2.2

/-! ## The bits of xPSR -/

/-- Bit `k` of xPSR after N and Z are set. -/
theorem Context.bit_setNZ (v : Word) (k : Nat) (hk : k < 32) : (c.setNZ v).xpsr.getLsbD k =
    if k = 30 then v == 0#32 else if k = 31 then v.msb else c.xpsr.getLsbD k := by
  simp only [Context.setNZ, getLsbD_setBit _ _ _ k hk]

/-- Bit `k` of xPSR after C is set. -/
theorem Context.bit_setC (b : Bool) (k : Nat) (hk : k < 32) : (c.setC b).xpsr.getLsbD k =
    if k = 29 then b else c.xpsr.getLsbD k := getLsbD_setBit _ _ _ k hk

/-- Bit `k` of xPSR after V is set. -/
theorem Context.bit_setV (b : Bool) (k : Nat) (hk : k < 32) : (c.setV b).xpsr.getLsbD k =
    if k = 28 then b else c.xpsr.getLsbD k := getLsbD_setBit _ _ _ k hk

/-- Bit `k` of xPSR after T is set. -/
theorem Context.bit_setT (b : Bool) (k : Nat) (hk : k < 32) : (c.setT b).xpsr.getLsbD k =
    if k = 24 then b else c.xpsr.getLsbD k := getLsbD_setBit _ _ _ k hk

/-- Bit `k` of xPSR after the four flags are copied from a word (R251). -/
theorem Context.bit_setNZCV (v : Word) (k : Nat) (hk : k < 32) : (c.setNZCV v).xpsr.getLsbD k =
    if 28 ≤ k then v.getLsbD k else c.xpsr.getLsbD k := by
  simp only [Context.setNZCV, getLsbD_setBit _ _ _ k hk]
  have : k < 28 ∨ k = 28 ∨ k = 29 ∨ k = 30 ∨ k = 31 := by omega
  rcases this with h | h | h | h | h
  · simp [show k ≠ 28 by omega, show k ≠ 29 by omega, show k ≠ 30 by omega, show k ≠ 31 by omega,
      show ¬ 28 ≤ k by omega]
  all_goals subst h; rfl

/-- Bit `k` of xPSR after the flags of a sum are set (R123). -/
theorem Context.bit_setSumFlags (a : SumFlags) (k : Nat) (hk : k < 32) : (c.setSumFlags a).xpsr.getLsbD k =
    if k = 28 then a.overflow else if k = 29 then a.carry else if k = 30 then a.result == 0#32
    else if k = 31 then a.result.msb else c.xpsr.getLsbD k := by
  simp only [Context.setSumFlags, Context.bit_setV _ _ k hk, Context.bit_setC _ _ k hk, Context.bit_setNZ _ _ k hk]

/-- Bit `k` of xPSR after the flags of a shift are set (R123). -/
theorem Context.bit_setShiftFlags (p : Word × Bool) (k : Nat) (hk : k < 32) :
    (c.setShiftFlags p).xpsr.getLsbD k =
    if k = 29 then p.2 else if k = 30 then p.1 == 0#32
    else if k = 31 then p.1.msb else c.xpsr.getLsbD k := by
  simp only [Context.setShiftFlags, Context.bit_setC _ _ k hk, Context.bit_setNZ _ _ k hk]

@[simp] theorem Context.setSumFlags_r (a : SumFlags) : (c.setSumFlags a).r = c.r := rfl
@[simp] theorem Context.setSumFlags_sp (a : SumFlags) : (c.setSumFlags a).sp = c.sp := rfl
@[simp] theorem Context.setSumFlags_lr (a : SumFlags) : (c.setSumFlags a).lr = c.lr := rfl
@[simp] theorem Context.setSumFlags_pc (a : SumFlags) : (c.setSumFlags a).pc = c.pc := rfl
@[simp] theorem Context.setSumFlags_primask (a : SumFlags) : (c.setSumFlags a).primask = c.primask := rfl
@[simp] theorem Context.setShiftFlags_r (p : Word × Bool) : (c.setShiftFlags p).r = c.r := rfl
@[simp] theorem Context.setShiftFlags_sp (p : Word × Bool) : (c.setShiftFlags p).sp = c.sp := rfl
@[simp] theorem Context.setShiftFlags_lr (p : Word × Bool) : (c.setShiftFlags p).lr = c.lr := rfl
@[simp] theorem Context.setShiftFlags_pc (p : Word × Bool) : (c.setShiftFlags p).pc = c.pc := rfl
@[simp] theorem Context.setShiftFlags_primask (p : Word × Bool) : (c.setShiftFlags p).primask = c.primask := rfl

end Sys2Proof.Machine
end

