-- ==== Sys2Proof/Laws/Ops.lean ====
section
/-! SUPPORT. What each shared operation over the memory port can do, said once: one request (`memRead`, `memWrite`), a
multiple transfer (`loadWords`, `storeWords`), a load and a store. -/

namespace Sys2Proof.Machine

/-! ## One request -/

/-- A granted access lies inside the address space (R56). -/
theorem Bus.grants_bound (b : Bus) (x : Access) (g : Region) (h : b.grants x = some g) :
    x.addr.toNat + x.width.bytes ≤ 2 ^ 32 := by
  unfold Bus.grants Bus.resolve at h
  split at h
  · next g' hg =>
    split at hg
    · split at hg
      · next hc => simp only [Bool.and_eq_true, decide_eq_true_eq] at hc; exact hc.2
      · cases hg
    · cases hg
  · cases h

/-- Only the regions decide what is granted. -/
theorem Bus.grants_congr (b b' : Bus) (x : Access) (h : b'.regions = b.regions) : b'.grants x = b.grants x := by
  simp only [Bus.grants, Bus.resolve, h]

/-- Whether an access is permitted depends on the regions only. -/
theorem State.permits_congr (s t : State) (k : AccessKind) (w : Width) (a : Word) (h : t.bus.regions = s.bus.regions) :
    t.permits k w a ↔ s.permits k w a := by
  simp only [State.permits, Bus.grants_congr s.bus t.bus _ h]

/-- A permitted read: the value, the request on the port, and perhaps the latch (R51, R52, R65). -/
theorem State.memRead_permitted (s : State) (w : Width) (a : Word) (h : s.permits .read w a) :
    ∃ l, s.memRead w a =
      ({ s with bus := { s.bus with
          latch := l, port := s.bus.port ++ [⟨⟨.read, w, a⟩, s.bus.mem.read w a.toNat, .ok⟩] } },
        some (s.bus.mem.read w a.toNat)) := by
  obtain ⟨ha, hg⟩ := h
  obtain ⟨g, hg⟩ := Option.isSome_iff_exists.mp hg
  exact ⟨s.bus.latch || g.latches ⟨.read, w, a⟩, by simp [State.memRead, ha, Bus.read, hg, Bus.record]⟩

/-- A misaligned read never reaches the port (R55). -/
theorem State.memRead_misaligned (s : State) (w : Width) (a : Word) (h : aligned w a = false) :
    s.memRead w a = (s, none) := by simp [State.memRead, h]

/-- A read the backend does not grant answers `BusError`. -/
theorem State.memRead_busError (s : State) (w : Width) (a : Word) (ha : aligned w a = true)
    (hg : s.bus.grants ⟨.read, w, a⟩ = none) :
    s.memRead w a =
      ({ s with bus := { s.bus with port := s.bus.port ++ [⟨⟨.read, w, a⟩, 0#32, .busError⟩] } }, none) := by
  simp [State.memRead, ha, Bus.read, hg, Bus.record]

/-- A permitted write: the bytes, the request on the port, and perhaps the latch. -/
theorem State.memWrite_permitted (s : State) (w : Width) (a v : Word) (h : s.permits .write w a) :
    ∃ l, s.memWrite w a v =
      ({ s with bus := { s.bus with
          mem := s.bus.mem.write w a.toNat v
          latch := l, port := s.bus.port ++ [⟨⟨.write, w, a⟩, w.clip v, .ok⟩] } }, true) := by
  obtain ⟨ha, hg⟩ := h
  obtain ⟨g, hg⟩ := Option.isSome_iff_exists.mp hg
  exact ⟨s.bus.latch || g.latches ⟨.write, w, a⟩, by simp [State.memWrite, ha, Bus.write, hg, Bus.record]⟩

/-- A misaligned write never reaches the port (R55). -/
theorem State.memWrite_misaligned (s : State) (w : Width) (a v : Word) (h : aligned w a = false) :
    s.memWrite w a v = (s, false) := by simp [State.memWrite, h]

/-- A write the backend does not grant answers `BusError` and stores nothing. -/
theorem State.memWrite_busError (s : State) (w : Width) (a v : Word) (ha : aligned w a = true)
    (hg : s.bus.grants ⟨.write, w, a⟩ = none) :
    s.memWrite w a v =
      ({ s with bus := { s.bus with port := s.bus.port ++ [⟨⟨.write, w, a⟩, w.clip v, .busError⟩] } }, false) := by
  simp [State.memWrite, ha, Bus.write, hg, Bus.record]

/-! ## What only touches the bus -/

/-- `t` differs from `s` in the bus only, and not in the regions. -/
def OnlyBus (s t : State) : Prop := t = { s with bus := t.bus } ∧ t.bus.regions = s.bus.regions

theorem OnlyBus.refl (s : State) : OnlyBus s s := ⟨rfl, rfl⟩

theorem OnlyBus.trans {s t u : State} (h : OnlyBus s t) (h' : OnlyBus t u) : OnlyBus s u := by
  refine ⟨?_, h'.2.trans h.2⟩
  rw [h'.1, h.1]

theorem OnlyBus.ctx {s t : State} (h : OnlyBus s t) : t.ctx = s.ctx := by rw [h.1]

/-- One read: nothing but the port and the latch, and at most one request. -/
theorem State.memRead_effect (s : State) (w : Width) (a : Word) :
    OnlyBus s (s.memRead w a).1 ∧ (s.memRead w a).1.bus.mem = s.bus.mem ∧
      (s.memRead w a).1.bus.port.length ≤ s.bus.port.length + 1 := by
  by_cases ha : aligned w a = true
  · cases hg : s.bus.grants ⟨.read, w, a⟩ with
    | none => rw [s.memRead_busError w a ha hg]; exact ⟨⟨rfl, rfl⟩, rfl, by simp⟩
    | some g =>
      obtain ⟨l, e⟩ := s.memRead_permitted w a ⟨ha, by simp [hg]⟩
      rw [e]; exact ⟨⟨rfl, rfl⟩, rfl, by simp⟩
  · rw [s.memRead_misaligned w a (by simpa using ha)]; exact ⟨OnlyBus.refl s, rfl, by simp⟩

/-- One write: nothing but the bus; bytes outside the access stay; the canonical form is kept; at most one request. -/
theorem State.memWrite_effect (s : State) (w : Width) (a v : Word) :
    OnlyBus s (s.memWrite w a v).1 ∧
      (∀ x, ¬ bytesAt a.toNat w.bytes x → (s.memWrite w a v).1.bus.mem.readByte x = s.bus.mem.readByte x) ∧
      (s.bus.mem.wf = true → (s.memWrite w a v).1.bus.mem.wf = true) ∧
      (s.memWrite w a v).1.bus.port.length ≤ s.bus.port.length + 1 := by
  by_cases ha : aligned w a = true
  · cases hg : s.bus.grants ⟨.write, w, a⟩ with
    | none => rw [s.memWrite_busError w a v ha hg]; exact ⟨⟨rfl, rfl⟩, fun _ _ => rfl, id, by simp⟩
    | some g =>
      obtain ⟨l, e⟩ := s.memWrite_permitted w a v ⟨ha, by simp [hg]⟩
      rw [e]
      exact ⟨⟨rfl, rfl⟩, fun x hx => Memory.readByte_write_outside _ _ _ _ _ hx,
        Memory.wf_write _ _ _ _ (s.bus.grants_bound _ g hg), by simp⟩
  · rw [s.memWrite_misaligned w a v (by simpa using ha)]
    exact ⟨OnlyBus.refl s, fun _ _ => rfl, id, by simp⟩

/-! ## Multiple transfers (R229) -/

/-- The addresses of a multiple transfer, one by one. -/
theorem nthWord_succ (a : Word) (k : Nat) : nthWord (a + 4#32) k = nthWord a (k + 1) := by
  apply BitVec.eq_of_toNat_eq
  simp only [nthWord, BitVec.toNat_add, BitVec.toNat_ofNat]
  omega

@[simp] theorem nthWord_zero (a : Word) : nthWord a 0 = a := by simp [nthWord]

/-- The loads of a multiple transfer change nothing but the port and the latch; at most one request each. -/
theorem State.loadWords_effect (s : State) (a : Word) (n : Nat) :
    OnlyBus s (s.loadWords a n).1 ∧ (s.loadWords a n).1.bus.mem = s.bus.mem ∧
      (s.loadWords a n).1.bus.port.length ≤ s.bus.port.length + n := by
  induction n generalizing s a with
  | zero => exact ⟨OnlyBus.refl s, rfl, by simp [State.loadWords]⟩
  | succ n ih =>
    obtain ⟨h1, h2, h3⟩ := s.memRead_effect .word a
    simp only [State.loadWords]
    split
    · next s' v e =>
      rw [e] at h1 h2 h3
      obtain ⟨i1, i2, i3⟩ := ih s' (a + 4#32)
      split <;> (next e' => rw [e'] at i1 i2 i3; exact ⟨h1.trans i1, i2.trans h2, by simp at h3 i3 ⊢; omega⟩)
    · next s' e => rw [e] at h1 h2 h3; exact ⟨h1, h2, by simp at h3 ⊢; omega⟩

/-- When every word may be read, all are: the values are those in memory, in ascending address order. -/
theorem State.loadWords_permitted (s : State) (a : Word) (n : Nat)
    (h : ∀ k, k < n → s.permits .read .word (nthWord a k)) :
    (s.loadWords a n).2 = some ((List.range n).map (fun k => s.bus.mem.wordAt (nthWord a k).toNat)) := by
  induction n generalizing s a with
  | zero => rfl
  | succ n ih =>
    obtain ⟨l, e⟩ := s.memRead_permitted .word a (by simpa using h 0 (by omega))
    simp only [State.loadWords, e]
    generalize hs : ({ s with bus := { s.bus with latch := l, port := s.bus.port ++ [⟨⟨.read, .word, a⟩,
      s.bus.mem.read .word a.toNat, .ok⟩] } } : State) = s'
    have hm : s'.bus.mem = s.bus.mem := by rw [← hs]
    have hr : s'.bus.regions = s.bus.regions := by rw [← hs]
    have := ih s' (a + 4#32) (fun k hk => by
      rw [State.permits_congr s s' _ _ _ hr, nthWord_succ]; exact h (k + 1) (by omega))
    split
    · next s'' vs e' =>
      rw [e'] at this
      simp only [Option.some.injEq] at this
      simp only [this, List.range_succ_eq_map, List.map_cons, List.map_map, nthWord_zero, Option.some.injEq,
        List.cons.injEq, hm]
      exact ⟨rfl, List.map_congr_left (fun k _ => by simp [nthWord_succ])⟩
    · next s'' e' => rw [e'] at this; cases this

/-- The stores of a multiple transfer change nothing but the bus; a byte outside all its words stays; the canonical form
is kept; at most one request a word. -/
theorem State.storeWords_effect (s : State) (a : Word) (vs : List Word) :
    OnlyBus s (s.storeWords a vs).1 ∧
      (∀ x, (∀ k, k < vs.length → ¬ bytesAt (nthWord a k).toNat 4 x) →
        (s.storeWords a vs).1.bus.mem.readByte x = s.bus.mem.readByte x) ∧
      (s.bus.mem.wf = true → (s.storeWords a vs).1.bus.mem.wf = true) ∧
      (s.storeWords a vs).1.bus.port.length ≤ s.bus.port.length + vs.length := by
  induction vs generalizing s a with
  | nil => exact ⟨OnlyBus.refl s, fun _ _ => rfl, id, by simp [State.storeWords]⟩
  | cons v vs ih =>
    obtain ⟨h1, h2, h3, h4⟩ := s.memWrite_effect .word a v
    simp only [State.storeWords]
    split
    · next s' e =>
      rw [e] at h1 h2 h3 h4
      obtain ⟨i1, i2, i3, i4⟩ := ih s' (a + 4#32)
      refine ⟨h1.trans i1, fun x hx => ?_, fun hw => i3 (h3 hw), by simp at h4 i4 ⊢; omega⟩
      rw [i2 x (fun k hk => by rw [nthWord_succ]; exact hx (k + 1) (by simpa using hk))]
      exact h2 x (by simpa [Width.bytes] using hx 0 (by simp))
    · next s' e =>
      rw [e] at h1 h2 h3 h4
      exact ⟨h1, fun x hx => h2 x (by simpa [Width.bytes] using hx 0 (by simp)), h3, by simp at h4 ⊢; omega⟩

/-- Words at different places of a short transfer do not overlap, even when the addresses wrap. -/
theorem nthWord_disjoint (a : Word) (j k : Nat) (hj : j < 16) (hk : k < 16) (hjk : j ≠ k)
    (_hb : (nthWord a j).toNat + 4 ≤ 2 ^ 32) (_hb' : (nthWord a k).toNat + 4 ≤ 2 ^ 32) (x : Nat)
    (hx : bytesAt (nthWord a j).toNat 4 x) : ¬ bytesAt (nthWord a k).toNat 4 x := by
  simp only [bytesAt, nthWord, BitVec.toNat_add, BitVec.toNat_ofNat] at *
  omega

/-- When every word may be written, all are: each place holds its word afterwards. -/
theorem State.storeWords_permitted (s : State) (a : Word) (vs : List Word) (hl : vs.length ≤ 16)
    (hw : s.bus.mem.wf = true) (h : ∀ k, k < vs.length → s.permits .write .word (nthWord a k)) :
    (s.storeWords a vs).2 = true ∧
      ∀ k (hk : k < vs.length), (s.storeWords a vs).1.bus.mem.wordAt (nthWord a k).toNat = vs[k] := by
  induction vs generalizing s a with
  | nil => exact ⟨rfl, fun k hk => absurd hk (by simp)⟩
  | cons v vs ih =>
    have h0 : s.permits .write .word a := by simpa using h 0 (by simp)
    obtain ⟨l, e⟩ := s.memWrite_permitted .word a v h0
    have hb : ∀ k, k < (v :: vs).length → (nthWord a k).toNat + 4 ≤ 2 ^ 32 := fun k hk => by
      obtain ⟨g, hg⟩ := Option.isSome_iff_exists.mp (h k hk).2
      exact s.bus.grants_bound _ g hg
    simp only [State.storeWords, e]
    generalize hs : ({ s with bus := { s.bus with
          mem := s.bus.mem.write .word a.toNat v
          latch := l, port := s.bus.port ++ [⟨⟨.write, .word, a⟩, Width.clip .word v, .ok⟩] } } : State) = s'
    have hm : s'.bus.mem = s.bus.mem.write .word a.toNat v := by rw [← hs]
    have hr : s'.bus.regions = s.bus.regions := by rw [← hs]
    have hb0 : a.toNat + 4 ≤ 2 ^ 32 := by simpa using hb 0 (by simp)
    have hw' : s'.bus.mem.wf = true := by rw [hm]; exact Memory.wf_write _ .word _ _ hb0 hw
    obtain ⟨i1, i2⟩ := ih s' (a + 4#32) (by simp at hl; omega) hw' (fun k hk => by
      rw [State.permits_congr s s' _ _ _ hr, nthWord_succ]; exact h (k + 1) (by simpa using hk))
    refine ⟨i1, fun k hk => ?_⟩
    cases k with
    | succ k => rw [← nthWord_succ]; exact i2 k (by simpa using hk)
    | zero =>
      have keep : ∀ x, bytesAt a.toNat 4 x →
          (s'.storeWords (a + 4#32) vs).1.bus.mem.readByte x = s'.bus.mem.readByte x := fun x hx => by
        refine (s'.storeWords_effect (a + 4#32) vs).2.1 x (fun k hk => ?_)
        rw [nthWord_succ]
        exact nthWord_disjoint a 0 (k + 1) (by omega) (by simp at hl; omega) (by omega)
          (hb 0 (by simp)) (hb (k + 1) (by simpa using hk)) x (by simpa using hx)
      simp only [nthWord_zero, List.getElem_cons_zero]
      rw [← Memory.wordAt_write s.bus.mem a.toNat v hb0 hw, ← hm]
      simp only [Memory.wordAt]
      rw [keep _ ⟨by omega, by omega⟩, keep _ ⟨by omega, by omega⟩, keep _ ⟨by omega, by omega⟩,
        keep _ ⟨by omega, by omega⟩]

/-- The requests of a multiple transfer that may store every word: one word each, at ascending places (R61, R229). -/
theorem State.storeWords_accesses (s : State) (a : Word) (vs : List Word)
    (h : ∀ k, k < vs.length → s.permits .write .word (nthWord a k)) :
    (s.storeWords a vs).1.bus.port.map (·.access) =
      s.bus.port.map (·.access) ++ (List.range vs.length).map (fun k => ⟨.write, .word, nthWord a k⟩) := by
  induction vs generalizing s a with
  | nil => simp [State.storeWords]
  | cons v vs ih =>
    obtain ⟨l, e⟩ := s.memWrite_permitted .word a v (by simpa using h 0 (by simp))
    simp only [State.storeWords, e]
    rw [ih _ _ (fun k hk => by
      refine (State.permits_congr s _ _ _ _ rfl).mpr ?_
      rw [nthWord_succ]; exact h (k + 1) (by simpa using hk))]
    simp [List.range_succ_eq_map, nthWord_succ, Function.comp_def]

/-- The requests of a multiple transfer that may load every word. -/
theorem State.loadWords_accesses (s : State) (a : Word) (n : Nat)
    (h : ∀ k, k < n → s.permits .read .word (nthWord a k)) :
    (s.loadWords a n).1.bus.port.map (·.access) =
      s.bus.port.map (·.access) ++ (List.range n).map (fun k => ⟨.read, .word, nthWord a k⟩) := by
  induction n generalizing s a with
  | zero => simp [State.loadWords]
  | succ n ih =>
    obtain ⟨l, e⟩ := s.memRead_permitted .word a (by simpa using h 0 (by omega))
    simp only [State.loadWords, e]
    generalize hs : ({ s with bus := { s.bus with latch := l, port := s.bus.port ++ [⟨⟨.read, .word, a⟩,
      s.bus.mem.read .word a.toNat, .ok⟩] } } : State) = s'
    have hp : s'.bus.port = s.bus.port ++ [⟨⟨.read, .word, a⟩, s.bus.mem.read .word a.toNat, .ok⟩] := by rw [← hs]
    have hr : s'.bus.regions = s.bus.regions := by rw [← hs]
    have i := ih s' (a + 4#32) (fun k hk => by
      rw [State.permits_congr s s' _ _ _ hr, nthWord_succ]; exact h (k + 1) (by omega))
    split <;> (next e' => rw [e', hp] at i; simp only [i]; simp [List.range_succ_eq_map, nthWord_succ, Function.comp_def])

/-- Every word of a multiple transfer is as aligned as its start address. -/
theorem nthWord_mod (a : Word) (k : Nat) : (nthWord a k).toNat % 4 = a.toNat % 4 := by
  simp only [nthWord, BitVec.toNat_add, BitVec.toNat_ofNat]
  omega

/-- Behind its first word, a multiple transfer that is refused at word `k + 1` is one refused at word `k`. -/
theorem requestsRefusedAt_succ (kind : AccessKind) (a : Word) (k : Nat) (h : a.toNat % 4 = 0) :
    requestsRefusedAt kind a (k + 1) = (⟨kind, .word, a⟩, .ok) :: requestsRefusedAt kind (a + 4#32) k := by
  have h' : (a + 4#32).toNat % 4 = 0 := by rw [BitVec.toNat_add, BitVec.toNat_ofNat]; omega
  simp only [requestsRefusedAt, h, h', if_true]
  simp [List.range_succ_eq_map, nthWord_succ, Function.comp_def]

/-- A multiple transfer whose store number `k` is the first not permitted fails with the requests up to it. -/
theorem State.storeWords_refused (s : State) (a : Word) (vs : List Word) (k : Nat) (hk : k < vs.length)
    (h : ∀ j, j < k → s.permits .write .word (nthWord a j)) (hn : ¬ s.permits .write .word (nthWord a k)) :
    (s.storeWords a vs).2 = false ∧ (s.storeWords a vs).1.bus.port.map (fun e => (e.access, e.response)) =
      s.bus.port.map (fun e => (e.access, e.response)) ++ requestsRefusedAt .write a k := by
  induction vs generalizing s a k with
  | nil => simp at hk
  | cons v vs ih =>
    cases k with
    | zero =>
      rw [nthWord_zero] at hn
      by_cases ha : aligned .word a = true
      · have hg : s.bus.grants ⟨.write, .word, a⟩ = none := by simpa [State.permits, ha] using hn
        have hm : a.toNat % 4 = 0 := by simpa [aligned, Width.bytes] using ha
        simp [State.storeWords, s.memWrite_busError .word a v ha hg, requestsRefusedAt, hm]
      · have hm : ¬ a.toNat % 4 = 0 := by simpa [aligned, Width.bytes] using ha
        simp [State.storeWords, s.memWrite_misaligned .word a v (by simpa using ha), requestsRefusedAt, hm]
    | succ k =>
      have h0 : s.permits .write .word a := by simpa using h 0 (by omega)
      have hm : a.toNat % 4 = 0 := by simpa [aligned, Width.bytes] using h0.1
      obtain ⟨l, e⟩ := s.memWrite_permitted .word a v h0
      simp only [State.storeWords, e]
      generalize hs : ({ s with bus := { s.bus with
          mem := s.bus.mem.write .word a.toNat v
          latch := l, port := s.bus.port ++ [⟨⟨.write, .word, a⟩, Width.clip .word v, .ok⟩] } } : State) = s'
      have hp : s'.bus.port = s.bus.port ++ [⟨⟨.write, .word, a⟩, Width.clip .word v, .ok⟩] := by rw [← hs]
      have hr : s'.bus.regions = s.bus.regions := by rw [← hs]
      obtain ⟨i1, i2⟩ := ih s' (a + 4#32) k (by simpa using hk)
        (fun j hj => (State.permits_congr s s' _ _ _ hr).mpr (by rw [nthWord_succ]; exact h (j + 1) (by omega)))
        (fun hp' => hn (by rw [← nthWord_succ]; exact (State.permits_congr s s' _ _ _ hr).mp hp'))
      rw [requestsRefusedAt_succ _ _ _ hm]
      exact ⟨i1, by rw [i2, hp]; simp⟩

/-- A multiple transfer whose load number `k` is the first not permitted fails with the requests up to it. -/
theorem State.loadWords_refused (s : State) (a : Word) (n k : Nat) (hk : k < n)
    (h : ∀ j, j < k → s.permits .read .word (nthWord a j)) (hn : ¬ s.permits .read .word (nthWord a k)) :
    (s.loadWords a n).2 = none ∧ (s.loadWords a n).1.bus.port.map (fun e => (e.access, e.response)) =
      s.bus.port.map (fun e => (e.access, e.response)) ++ requestsRefusedAt .read a k := by
  induction n generalizing s a k with
  | zero => omega
  | succ n ih =>
    cases k with
    | zero =>
      rw [nthWord_zero] at hn
      by_cases ha : aligned .word a = true
      · have hg : s.bus.grants ⟨.read, .word, a⟩ = none := by simpa [State.permits, ha] using hn
        have hm : a.toNat % 4 = 0 := by simpa [aligned, Width.bytes] using ha
        simp [State.loadWords, s.memRead_busError .word a ha hg, requestsRefusedAt, hm]
      · have hm : ¬ a.toNat % 4 = 0 := by simpa [aligned, Width.bytes] using ha
        simp [State.loadWords, s.memRead_misaligned .word a (by simpa using ha), requestsRefusedAt, hm]
    | succ k =>
      have h0 : s.permits .read .word a := by simpa using h 0 (by omega)
      have hm : a.toNat % 4 = 0 := by simpa [aligned, Width.bytes] using h0.1
      obtain ⟨l, e⟩ := s.memRead_permitted .word a h0
      simp only [State.loadWords, e]
      generalize hs : ({ s with bus := { s.bus with latch := l, port := s.bus.port ++ [⟨⟨.read, .word, a⟩,
        s.bus.mem.read .word a.toNat, .ok⟩] } } : State) = s'
      have hp : s'.bus.port = s.bus.port ++ [⟨⟨.read, .word, a⟩, s.bus.mem.read .word a.toNat, .ok⟩] := by rw [← hs]
      have hr : s'.bus.regions = s.bus.regions := by rw [← hs]
      obtain ⟨i1, i2⟩ := ih s' (a + 4#32) k (by omega)
        (fun j hj => (State.permits_congr s s' _ _ _ hr).mpr (by rw [nthWord_succ]; exact h (j + 1) (by omega)))
        (fun hp' => hn (by rw [← nthWord_succ]; exact (State.permits_congr s s' _ _ _ hr).mp hp'))
      rw [requestsRefusedAt_succ _ _ _ hm]
      split
      · next e' => rw [e'] at i1; cases i1
      · next e' => rw [e'] at i2; exact ⟨rfl, by simp only [i2, hp]; simp⟩

end Sys2Proof.Machine
end

