-- ==== Sys2Proof/Laws/Frames.lean ====
section
/-! SUPPORT. What the shared ends of an instruction do, said once: the frame of `finish` and `raise`, and the flag-setting
ends (`nzInto`, `shiftInto`, `addInto`, `addFlags`), in the words of Safety.lean. -/

namespace Sys2Proof.Machine

variable (s : State)

/-- `finish` changes what the context `c` changes, PC and the result, and nothing else. -/
theorem frame_finish (c : Context) (p : Word) (x : StepResult) (regs : List RegNum) (bits : List Nat)
    (hr : ∀ i : RegNum, i ≠ 15#4 → i ∉ regs → c.reg i = s.ctx.reg i)
    (hb : ∀ k, k < 32 → k ∉ bits → c.xpsr.getLsbD k = s.ctx.xpsr.getLsbD k)
    (hp : c.primask = s.ctx.primask) : Frame s (s.finish c p x) regs bits nowhere where
  regs_kept i hi hn := by
    rw [← hr i hi hn]; exact Context.reg_congr _ _ i hi rfl rfl rfl
  bits_kept k hk hn := hb k hk hn
  primask_kept := hp
  bytes_kept _ _ := rfl
  regions_kept := rfl
  loop_kept := rfl
  predicate_kept := rfl
  stops_kept := rfl
  engine_kept := rfl
  packet_kept := rfl
  buffer_kept := rfl
  comm_kept := rfl
  commands_kept := rfl
  reply_kept := rfl

/-- `raise` changes the result only. -/
theorem frame_raise (x : StepResult) : Frame s (s.raise x) [] [] nowhere where
  regs_kept _ _ _ := rfl
  bits_kept _ _ _ := rfl
  primask_kept := rfl
  bytes_kept _ _ := rfl
  regions_kept := rfl
  loop_kept := rfl
  predicate_kept := rfl
  stops_kept := rfl
  engine_kept := rfl
  packet_kept := rfl
  buffer_kept := rfl
  comm_kept := rfl
  commands_kept := rfl
  reply_kept := rfl

/-- What only touches the bus keeps the context, and the bytes the caller says it keeps. -/
theorem frame_onlyBus {t : State} (h : OnlyBus s t) (stored : Nat → Prop)
    (hm : ∀ a, ¬ stored a → t.bus.mem.readByte a = s.bus.mem.readByte a) : Frame s t [] [] stored where
  regs_kept _ _ _ := by rw [h.ctx]
  bits_kept _ _ _ := by rw [h.ctx]
  primask_kept := by rw [h.ctx]
  bytes_kept := hm
  regions_kept := h.2
  loop_kept := by rw [h.1]
  predicate_kept := by rw [h.1]
  stops_kept := by rw [h.1]
  engine_kept := by rw [h.1]
  packet_kept := by rw [h.1]
  buffer_kept := by rw [h.1]
  comm_kept := by rw [h.1]
  commands_kept := by rw [h.1]
  reply_kept := by rw [h.1]

/-- Frames one after the other. -/
theorem Frame.trans {s t u : State} {r r' : List RegNum} {b b' : List Nat} {p p' : Nat → Prop}
    (h : Frame s t r b p) (h' : Frame t u r' b' p') :
    Frame s u (r ++ r') (b ++ b') (fun a => p a ∨ p' a) where
  regs_kept i hi hn := by
    simp only [List.mem_append, not_or] at hn
    rw [h'.regs_kept i hi hn.2, h.regs_kept i hi hn.1]
  bits_kept k hk hn := by
    simp only [List.mem_append, not_or] at hn
    rw [h'.bits_kept k hk hn.2, h.bits_kept k hk hn.1]
  primask_kept := h'.primask_kept.trans h.primask_kept
  bytes_kept a ha := by
    simp only [not_or] at ha
    rw [h'.bytes_kept a ha.2, h.bytes_kept a ha.1]
  regions_kept := h'.regions_kept.trans h.regions_kept
  loop_kept := h'.loop_kept.trans h.loop_kept
  predicate_kept := h'.predicate_kept.trans h.predicate_kept
  stops_kept := h'.stops_kept.trans h.stops_kept
  engine_kept := h'.engine_kept.trans h.engine_kept
  packet_kept := h'.packet_kept.trans h.packet_kept
  buffer_kept := h'.buffer_kept.trans h.buffer_kept
  comm_kept := h'.comm_kept.trans h.comm_kept
  commands_kept := h'.commands_kept.trans h.commands_kept
  reply_kept := h'.reply_kept.trans h.reply_kept

/-- A frame that allows more. -/
theorem Frame.weaken {s t : State} {r r' : List RegNum} {b b' : List Nat} {p p' : Nat → Prop} (h : Frame s t r b p)
    (hr : ∀ i ∈ r, i ∈ r') (hb : ∀ k ∈ b, k ∈ b') (hp : ∀ a, p a → p' a) : Frame s t r' b' p' :=
  { h with
    regs_kept := fun i hi hn => h.regs_kept i hi (fun hm => hn (hr i hm))
    bits_kept := fun k hk hn => h.bits_kept k hk (fun hm => hn (hb k hm))
    bytes_kept := fun a ha => h.bytes_kept a (fun hm => ha (hp a hm)) }

/-- A register the frame keeps does not see a register write. -/
theorem reg_writeReg_kept (c : Context) (d : RegNum) (v : Word) (i : RegNum) (h : i ∉ [d]) :
    (c.writeReg d v).reg i = c.reg i := c.reg_writeReg_ne i d v (by simpa using h)

/-- The end of an instruction that writes one register of any number, no flag. -/
theorem writes_finish (i : Instr) (d : RegNum) (v w len : Word) (hd : d ≠ 15#4)
    (hw : w = if d = 13#4 then v &&& Config.spWriteMask else v)
    (he : exec i s = .next (s.finish (s.ctx.writeReg d v) (s.ctx.pc + len) .ok)) : Writes i s len d w := by
  refine ⟨_, he, ⟨rfl, rfl⟩, ?_, ?_, rfl⟩
  · refine Context.reg_eq_of (c := s.ctx.writeReg d v) hd ?_ (by exact ⟨rfl, rfl, rfl⟩)
    rw [Context.reg_writeReg]; simp [hd, hw]
  · exact frame_finish s _ _ _ _ _ (fun i _ hn => reg_writeReg_kept _ _ _ _ hn) (fun k _ _ => by simp) (by simp)

/-- The end of an instruction that writes one low register, no flag. -/
theorem writes_setLow (i : Instr) (d : LowReg) (v : Word) (he : exec i s = .next (s.setLow d v)) :
    Writes i s 2#32 (low d) v :=
  writes_finish s i (low d) v v 2#32 (low_ne d).2.2 (by simp [(low_ne d).1]) he

/-- The end of an instruction that writes one low register with N and Z. -/
theorem writesNZ_nzInto (i : Instr) (d : LowReg) (v : Word) (he : exec i s = .next (s.nzInto d v)) :
    WritesNZ i s d v := by
  refine ⟨_, he, ⟨rfl, rfl⟩, ?_, ?_, ?_, ?_, rfl⟩
  · exact Context.reg_eq_of (low_ne d).2.2 (Context.reg_writeReg_low s.ctx d v) (by exact ⟨rfl, rfl, rfl⟩)
  · exact Context.bit_setNZ _ v 31 (by omega)
  · have hz : (s.nzInto d v).ctx.z = (v == 0#32) := Context.bit_setNZ _ v 30 (by omega)
    rw [hz]; simp
  · refine frame_finish s _ _ _ _ _ (fun i hi hn => ?_) (fun k hk hn => ?_) (by simp)
    · exact Context.reg_eq_of hi (reg_writeReg_kept s.ctx (low d) v i hn) (by exact ⟨rfl, rfl, rfl⟩)
    · simp only [List.mem_cons, List.not_mem_nil, or_false, not_or] at hn
      rw [Context.bit_setNZ _ v k hk]; simp [hn]

/-- The end of an instruction that shifts into a low register. -/
theorem writesNZC_shiftInto (i : Instr) (d : LowReg) (value : Word) (ty : ShiftType) (n : Nat) (v : Word) (carry : Bool)
    (hv : shiftC value ty n s.ctx.c = (v, carry)) (he : exec i s = .next (s.shiftInto d value ty n)) :
    WritesNZC i s d v carry := by
  unfold State.shiftInto at he
  rw [hv] at he
  refine ⟨_, he, ⟨rfl, rfl⟩, ?_, ?_, ?_, ?_, ?_, rfl⟩
  · exact Context.reg_eq_of (low_ne d).2.2 (Context.reg_writeReg_low s.ctx d v) (by exact ⟨rfl, rfl, rfl⟩)
  · exact Context.bit_setShiftFlags _ (v, carry) 31 (by omega)
  · have hz : Context.z (Context.setShiftFlags (s.ctx.writeReg (low d) v) (v, carry)) = (v == 0#32) :=
      Context.bit_setShiftFlags _ (v, carry) 30 (by omega)
    show Context.z (Context.setShiftFlags (s.ctx.writeReg (low d) v) (v, carry)) = true ↔ v = 0#32
    rw [hz]; simp
  · exact Context.bit_setShiftFlags _ (v, carry) 29 (by omega)
  · refine frame_finish s _ _ _ _ _ (fun i hi hn => ?_) (fun k hk hn => ?_) (by simp)
    · exact Context.reg_eq_of hi (reg_writeReg_kept s.ctx (low d) v i hn) (by exact ⟨rfl, rfl, rfl⟩)
    · simp only [List.mem_cons, List.not_mem_nil, or_false, not_or] at hn
      rw [Context.bit_setShiftFlags _ _ k hk]; simp [hn]

/-- The flags after a sum's four flags are set. -/
theorem flags_setSumFlags (c : Context) (a : SumFlags) :
    (c.setSumFlags a).n = a.result.msb ∧ (c.setSumFlags a).z = (a.result == 0#32) ∧
      (c.setSumFlags a).c = a.carry ∧ (c.setSumFlags a).v = a.overflow :=
  ⟨Context.bit_setSumFlags c a 31 (by omega), Context.bit_setSumFlags c a 30 (by omega),
    Context.bit_setSumFlags c a 29 (by omega), Context.bit_setSumFlags c a 28 (by omega)⟩

/-- The end of an instruction that adds into a low register: the result, the four flags, the frame. -/
theorem addInto_effect (d : LowReg) (x y : Word) (cin : Bool) :
    Retired s (s.addInto d x y cin) 2#32 ∧
    (s.addInto d x y cin).ctx.reg (low d) = (addWithCarry x y cin).result ∧
    (s.addInto d x y cin).ctx.n = (addWithCarry x y cin).result.msb ∧
    (s.addInto d x y cin).ctx.z = ((addWithCarry x y cin).result == 0#32) ∧
    (s.addInto d x y cin).ctx.c = (addWithCarry x y cin).carry ∧
    (s.addInto d x y cin).ctx.v = (addWithCarry x y cin).overflow ∧
    Frame s (s.addInto d x y cin) [low d] [31, 30, 29, 28] nowhere ∧ (s.addInto d x y cin).bus = s.bus := by
  obtain ⟨h1, h2, h3, h4⟩ := flags_setSumFlags (s.ctx.writeReg (low d) (addWithCarry x y cin).result) (addWithCarry x y cin)
  refine ⟨⟨rfl, rfl⟩, ?_, h1, h2, h3, h4, ?_, rfl⟩
  · exact Context.reg_eq_of (low_ne d).2.2 (Context.reg_writeReg_low s.ctx d (addWithCarry x y cin).result)
      (by exact ⟨rfl, rfl, rfl⟩)
  · refine frame_finish s _ _ _ _ _ (fun i hi hn => ?_) (fun k hk hn => ?_) (by simp)
    · exact Context.reg_eq_of hi (reg_writeReg_kept s.ctx (low d) (addWithCarry x y cin).result i hn)
        (by exact ⟨rfl, rfl, rfl⟩)
    · simp only [List.mem_cons, List.not_mem_nil, or_false, not_or] at hn
      rw [Context.bit_setSumFlags _ _ k hk]; simp [hn]

/-- The end of an instruction that only sets the flags of a sum. -/
theorem addFlags_effect (x y : Word) (cin : Bool) :
    Retired s (s.addFlags x y cin) 2#32 ∧
    (s.addFlags x y cin).ctx.n = (addWithCarry x y cin).result.msb ∧
    (s.addFlags x y cin).ctx.z = ((addWithCarry x y cin).result == 0#32) ∧
    (s.addFlags x y cin).ctx.c = (addWithCarry x y cin).carry ∧
    (s.addFlags x y cin).ctx.v = (addWithCarry x y cin).overflow ∧
    Frame s (s.addFlags x y cin) [] [31, 30, 29, 28] nowhere ∧ (s.addFlags x y cin).bus = s.bus := by
  obtain ⟨h1, h2, h3, h4⟩ := flags_setSumFlags s.ctx (addWithCarry x y cin)
  refine ⟨⟨rfl, rfl⟩, h1, h2, h3, h4, ?_, rfl⟩
  refine frame_finish s _ _ _ _ _ (fun i hi _ => Context.reg_congr _ _ i hi rfl rfl rfl) (fun k hk hn => ?_) rfl
  simp only [List.mem_cons, List.not_mem_nil, or_false, not_or] at hn
  rw [Context.bit_setSumFlags _ _ k hk]; simp [hn]

/-- The end of a branch: PC is the even target, nothing else changes. -/
theorem branches_branchTo (i : Instr) (addr target : Word) (ht : clearBit0 addr = target)
    (he : exec i s = .next (s.branchTo s.ctx addr)) : Branches i s target :=
  ⟨_, he, ht, rfl, frame_finish s _ _ _ _ _ (fun _ _ _ => rfl) (fun _ _ _ => rfl) rfl, rfl⟩

/-- The end of an instruction that only reports and stays. -/
theorem raises_raise (i : Instr) (x : StepResult) (he : exec i s = .next (s.raise x)) : Raises i s x :=
  ⟨_, he, rfl, rfl, frame_raise s x, rfl⟩

/-- The end of an instruction that only moves past itself. -/
theorem endsPast_finish (i : Instr) (len : Word) (x : StepResult)
    (he : exec i s = .next (s.finish s.ctx (s.ctx.pc + len) x)) : EndsPast i s len x :=
  ⟨_, he, rfl, rfl, frame_finish s _ _ _ _ _ (fun _ _ _ => rfl) (fun _ _ _ => rfl) rfl, rfl⟩

/-- A permitted load (R189). -/
theorem loads_load (i : Instr) (w : Width) (a : Word) (d : LowReg) (ext : Word → Word) (v : Word)
    (hp : s.permits .read w a) (hv : ext (s.bus.mem.read w a.toNat) = v)
    (he : exec i s = .next (s.load w a d ext)) : Loads i s w a d v := by
  obtain ⟨l, e⟩ := s.memRead_permitted w a hp
  unfold State.load at he
  rw [e] at he
  simp only [hv] at he
  refine ⟨_, he, ⟨rfl, rfl⟩, ?_, ?_, rfl, by simp [State.setLow, State.finish16]⟩
  · exact Context.reg_eq_of (low_ne d).2.2 (Context.reg_writeReg_low s.ctx d v) (by exact ⟨rfl, rfl, rfl⟩)
  · have f := (frame_onlyBus s (t := { s with bus := { s.bus with latch := l, port := s.bus.port ++
      [⟨⟨.read, w, a⟩, s.bus.mem.read w a.toNat, .ok⟩] } }) ⟨rfl, rfl⟩ nowhere (fun _ _ => rfl)).trans
      (frame_finish { s with bus := { s.bus with latch := l, port := s.bus.port ++
        [⟨⟨.read, w, a⟩, s.bus.mem.read w a.toNat, .ok⟩] } } (s.ctx.writeReg (low d) v) s.pc2 .ok [low d] []
        (fun i _ hn => reg_writeReg_kept _ _ _ _ hn) (fun k _ _ => by simp) (by simp))
    exact f.weaken (by simp) (by simp) (by simp [nowhere])

/-- A permitted store (R189). -/
theorem stores_store (i : Instr) (w : Width) (a v : Word) (stored : Memory → Prop)
    (hp : s.permits .write w a) (hs : stored (s.bus.mem.write w a.toNat v))
    (he : exec i s = .next (s.store w a v)) : Stores i s w a stored := by
  obtain ⟨l, e⟩ := s.memWrite_permitted w a v hp
  unfold State.store at he
  rw [e] at he
  simp only at he
  refine ⟨_, he, ⟨rfl, rfl⟩, hs, ?_, by simp [State.finish16]⟩
  have f := (frame_onlyBus s (t := { s with bus := { s.bus with
      mem := s.bus.mem.write w a.toNat v, latch := l, port := s.bus.port ++
      [⟨⟨.write, w, a⟩, w.clip v, .ok⟩] } }) ⟨rfl, rfl⟩ (bytesAt a.toNat w.bytes)
      (fun x hx => Memory.readByte_write_outside _ _ _ _ _ hx)).trans
      (frame_finish { s with bus := { s.bus with
        mem := s.bus.mem.write w a.toNat v, latch := l, port := s.bus.port ++
        [⟨⟨.write, w, a⟩, w.clip v, .ok⟩] } } s.ctx s.pc2 .ok [] []
        (fun i _ _ => rfl) (fun k _ _ => rfl) rfl)
  exact f.weaken (by simp) (by simp) (by simp [nowhere])

end Sys2Proof.Machine
end

