-- ==== Sys2Proof/Laws/Host.lean ====
section
/-! SUPPORT. What the host's operations can do, said once: a command taken, a watchpoint put into its sorted slot or
removed (R65), and a read of memory (R72). -/

namespace Sys2Proof.Machine

@[simp] theorem State.taken_ctx (s : State) : s.taken.ctx = s.ctx := rfl
@[simp] theorem State.taken_bus (s : State) : s.taken.bus = s.bus := rfl
@[simp] theorem State.taken_commands (s : State) : s.taken.commands = s.commands.tail := rfl

/-- The removal of a watchpoint that the region's list does not hold leaves the region as it is. -/
theorem Region.removeWatchpoint_absent (g : Region) (k : WatchKind) (lo hi : Word)
    (h : ∀ p ∈ g.watchpoints, p.same k lo hi = false) : g.removeWatchpoint k lo hi = g := by
  simp only [Region.removeWatchpoint]
  rw [List.filter_eq_self.mpr (fun p hp => by simp [h p hp])]

/-- An insertion that succeeds adds the new watchpoint and keeps the others. -/
theorem mem_insertWatchpoint (p : Watchpoint) (ps qs : List Watchpoint) (h : insertWatchpoint p ps = some qs)
    (q : Watchpoint) : q ∈ qs ↔ q = p ∨ q ∈ ps := by
  induction ps generalizing qs with
  | nil => simp only [insertWatchpoint, Option.some.injEq] at h; simp [← h]
  | cons r rs ih =>
    simp only [insertWatchpoint] at h
    split at h
    · simp only [Option.some.injEq] at h; simp [← h]
    · split at h
      · obtain ⟨us, hu, rfl⟩ := Option.map_eq_some_iff.mp h
        simp only [List.mem_cons, ih us hu]
        exact or_left_comm
      · cases h

/-- An insertion is refused only for an entry with the same start address. -/
theorem insertWatchpoint_refused (p : Watchpoint) (ps : List Watchpoint) (h : insertWatchpoint p ps = none) :
    ∃ q ∈ ps, q.startAddress = p.startAddress := by
  induction ps with
  | nil => cases h
  | cons r rs ih =>
    simp only [insertWatchpoint] at h
    split at h
    · cases h
    · split at h
      · obtain ⟨q, hq, e⟩ := ih (by simpa using h)
        exact ⟨q, .tail _ hq, e⟩
      · exact ⟨r, .head _, BitVec.eq_of_toNat_eq (by omega)⟩

/-- The bytes of a host read, one by one. -/
theorem Bus.hostLoad_eq (b : Bus) (addr : Word) (n : Nat) :
    b.hostLoad addr n = (List.range n).map (fun k => b.mem.readByte (addr + BitVec.ofNat 32 k).toNat) := by
  induction n generalizing addr with
  | zero => rfl
  | succ n ih =>
    simp only [Bus.hostLoad, ih, List.range_succ_eq_map, List.map_cons, List.map_map, BitVec.add_zero]
    refine congrArg _ (List.map_congr_left (fun k _ => ?_))
    simp [BitVec.add_assoc, BitVec.add_comm 1#32]

/-- When a host read is answered with bytes: each lies in exactly one region. -/
theorem Bus.hostReadable_iff (b : Bus) (addr : Word) (n : Nat) :
    b.hostReadable addr n = true ↔ ∀ k, k < n → (b.resolve .byte (addr + BitVec.ofNat 32 k)).isSome = true := by
  induction n generalizing addr with
  | zero => simp [Bus.hostReadable]
  | succ n ih =>
    simp only [Bus.hostReadable, Bool.and_eq_true, ih]
    constructor
    · rintro ⟨h0, h⟩ k hk
      cases k with
      | zero => simpa using h0
      | succ k => have := h k (by omega); rwa [BitVec.add_assoc, BitVec.add_comm 1#32, ← BitVec.ofNat_add] at this
    · intro h
      refine ⟨by simpa using h 0 (by omega), fun k hk => ?_⟩
      rw [BitVec.add_assoc, BitVec.add_comm 1#32, ← BitVec.ofNat_add]
      exact h (k + 1) (by omega)

end Sys2Proof.Machine
end

