-- ==== Sys2Proof/Laws/PerInstr.lean ====
section
/-! SUPPORT. The family `Encoding`: each instruction is read back from its own halfwords. One lemma for each constructor of
`Instr`; the encoder's fields are taken apart again by the lemmas on concatenations of Laws/Bits.lean. -/

set_option linter.unusedSimpArgs false

namespace Sys2Proof.Laws.Encoding

/-- A well-formed instruction is one narrow halfword, or a wide first and a second one, that decode to it. -/
def Statement (i : Instr) : Prop :=
  i.wellFormed = true →
    (∃ h, encode i = [h] ∧ isWide h = false ∧ decode16 h = some i) ∨
    (∃ h h', encode i = [h, h'] ∧ isWide h = true ∧ decode32 h h' = some i)

/-- A 16-bit instruction. -/
theorem narrow {i : Instr} (h : Half) (he : encode i = [h]) (hw : isWide h = false) (hd : decode16 h = some i) :
    Statement i := fun _ => Or.inl ⟨h, he, hw, hd⟩

/-- A 32-bit instruction. -/
theorem wide {i : Instr} (h h' : Half) (he : encode i = [h, h']) (hw : isWide h = true)
    (hd : decode32 h h' = some i) : Statement i := fun _ => Or.inr ⟨h, h', he, hw, hd⟩

/-- The two ends of a 4-bit register number. -/
theorem regnum_split (d : RegNum) : d.extractLsb' 3 1 ++ d.extractLsb' 0 3 = d := by revert d; decide

/-- The one-bit strings. -/
theorem bit_cases (b : BitVec 1) : b = 0#1 ∨ b = 1#1 := by revert b; decide

/-- See `Statement`. -/
theorem movsReg (rd rm : LowReg) : Statement (.movsReg rd rm) := narrow _ rfl
    (by simp (disch := omega) [encodeI5, isWide, extract_append_high, extract_toHalf, -Nat.reduceAdd])
    (by simp (disch := omega) [encodeI5, decode16, decodeShiftAddSubMovCmp, extract_append_low,
      extract_append_high, extract_toHalf, -Nat.reduceAdd])

/-- See `Statement`. -/
theorem lslsImm (rd rm : LowReg) (imm5 : BitVec 5) : Statement (.lslsImm rd rm imm5) := fun hw => by
  have h : imm5 ≠ 0#5 := by simpa [Instr.wellFormed, shiftIsLsls] using hw
  refine narrow _ rfl ?_ ?_ hw
  · simp (disch := omega) [encodeI5, isWide, extract_append_high, extract_toHalf, -Nat.reduceAdd]
  · simp (disch := omega) [encodeI5, decode16, decodeShiftAddSubMovCmp, h, extract_append_low,
      extract_append_high, extract_toHalf, -Nat.reduceAdd]

/-- See `Statement`. -/
theorem lsrsImm (rd rm : LowReg) (imm5 : BitVec 5) : Statement (.lsrsImm rd rm imm5) := narrow _ rfl
    (by simp (disch := omega) [encodeI5, isWide, extract_append_high, extract_toHalf, -Nat.reduceAdd])
    (by simp (disch := omega) [encodeI5, decode16, decodeShiftAddSubMovCmp, extract_append_low,
      extract_append_high, extract_toHalf, -Nat.reduceAdd])

/-- See `Statement`. -/
theorem asrsImm (rd rm : LowReg) (imm5 : BitVec 5) : Statement (.asrsImm rd rm imm5) := narrow _ rfl
    (by simp (disch := omega) [encodeI5, isWide, extract_append_high, extract_toHalf, -Nat.reduceAdd])
    (by simp (disch := omega) [encodeI5, decode16, decodeShiftAddSubMovCmp, extract_append_low,
      extract_append_high, extract_toHalf, -Nat.reduceAdd])

/-- See `Statement`. -/
theorem addsReg (rd rn rm : LowReg) : Statement (.addsReg rd rn rm) := narrow _ rfl
    (by simp (disch := omega) [encodeR3, isWide, extract_append_high, extract_toHalf, -Nat.reduceAdd])
    (by simp (disch := omega) [encodeR3, decode16, decodeShiftAddSubMovCmp, extract_append_low,
      extract_append_high, extract_toHalf, -Nat.reduceAdd])

/-- See `Statement`. -/
theorem subsReg (rd rn rm : LowReg) : Statement (.subsReg rd rn rm) := narrow _ rfl
    (by simp (disch := omega) [encodeR3, isWide, extract_append_high, extract_toHalf, -Nat.reduceAdd])
    (by simp (disch := omega) [encodeR3, decode16, decodeShiftAddSubMovCmp, extract_append_low,
      extract_append_high, extract_toHalf, -Nat.reduceAdd])

/-- See `Statement`. -/
theorem addsImm3 (rd rn : LowReg) (imm3 : BitVec 3) : Statement (.addsImm3 rd rn imm3) := narrow _ rfl
    (by simp (disch := omega) [encodeR3, isWide, extract_append_high, extract_toHalf, -Nat.reduceAdd])
    (by simp (disch := omega) [encodeR3, decode16, decodeShiftAddSubMovCmp, extract_append_low,
      extract_append_high, extract_toHalf, -Nat.reduceAdd])

/-- See `Statement`. -/
theorem subsImm3 (rd rn : LowReg) (imm3 : BitVec 3) : Statement (.subsImm3 rd rn imm3) := narrow _ rfl
    (by simp (disch := omega) [encodeR3, isWide, extract_append_high, extract_toHalf, -Nat.reduceAdd])
    (by simp (disch := omega) [encodeR3, decode16, decodeShiftAddSubMovCmp, extract_append_low,
      extract_append_high, extract_toHalf, -Nat.reduceAdd])

/-- See `Statement`. -/
theorem movsImm8 (rd : LowReg) (imm8 : BitVec 8) : Statement (.movsImm8 rd imm8) := narrow _ rfl
    (by simp (disch := omega) [encodeI8, isWide, extract_append_high, extract_toHalf, -Nat.reduceAdd])
    (by simp (disch := omega) [encodeI8, decode16, decodeShiftAddSubMovCmp, extract_append_low,
      extract_append_high, extract_toHalf, -Nat.reduceAdd])

/-- See `Statement`. -/
theorem cmpImm8 (rn : LowReg) (imm8 : BitVec 8) : Statement (.cmpImm8 rn imm8) := narrow _ rfl
    (by simp (disch := omega) [encodeI8, isWide, extract_append_high, extract_toHalf, -Nat.reduceAdd])
    (by simp (disch := omega) [encodeI8, decode16, decodeShiftAddSubMovCmp, extract_append_low,
      extract_append_high, extract_toHalf, -Nat.reduceAdd])

/-- See `Statement`. -/
theorem addsImm8 (rdn : LowReg) (imm8 : BitVec 8) : Statement (.addsImm8 rdn imm8) := narrow _ rfl
    (by simp (disch := omega) [encodeI8, isWide, extract_append_high, extract_toHalf, -Nat.reduceAdd])
    (by simp (disch := omega) [encodeI8, decode16, decodeShiftAddSubMovCmp, extract_append_low,
      extract_append_high, extract_toHalf, -Nat.reduceAdd])

/-- See `Statement`. -/
theorem subsImm8 (rdn : LowReg) (imm8 : BitVec 8) : Statement (.subsImm8 rdn imm8) := narrow _ rfl
    (by simp (disch := omega) [encodeI8, isWide, extract_append_high, extract_toHalf, -Nat.reduceAdd])
    (by simp (disch := omega) [encodeI8, decode16, decodeShiftAddSubMovCmp, extract_append_low,
      extract_append_high, extract_toHalf, -Nat.reduceAdd])

/-- See `Statement`. -/
theorem ands (rdn rm : LowReg) : Statement (.ands rdn rm) := narrow _ rfl
    (by simp (disch := omega) [encodeDp, isWide, extract_append_high, extract_toHalf, -Nat.reduceAdd])
    (by simp (disch := omega) [encodeDp, decode16, decodeDataProcessing, extract_append_low,
      extract_append_high, extract_toHalf, -Nat.reduceAdd])

/-- See `Statement`. -/
theorem eors (rdn rm : LowReg) : Statement (.eors rdn rm) := narrow _ rfl
    (by simp (disch := omega) [encodeDp, isWide, extract_append_high, extract_toHalf, -Nat.reduceAdd])
    (by simp (disch := omega) [encodeDp, decode16, decodeDataProcessing, extract_append_low,
      extract_append_high, extract_toHalf, -Nat.reduceAdd])

/-- See `Statement`. -/
theorem lslsReg (rdn rm : LowReg) : Statement (.lslsReg rdn rm) := narrow _ rfl
    (by simp (disch := omega) [encodeDp, isWide, extract_append_high, extract_toHalf, -Nat.reduceAdd])
    (by simp (disch := omega) [encodeDp, decode16, decodeDataProcessing, extract_append_low,
      extract_append_high, extract_toHalf, -Nat.reduceAdd])

/-- See `Statement`. -/
theorem lsrsReg (rdn rm : LowReg) : Statement (.lsrsReg rdn rm) := narrow _ rfl
    (by simp (disch := omega) [encodeDp, isWide, extract_append_high, extract_toHalf, -Nat.reduceAdd])
    (by simp (disch := omega) [encodeDp, decode16, decodeDataProcessing, extract_append_low,
      extract_append_high, extract_toHalf, -Nat.reduceAdd])

/-- See `Statement`. -/
theorem asrsReg (rdn rm : LowReg) : Statement (.asrsReg rdn rm) := narrow _ rfl
    (by simp (disch := omega) [encodeDp, isWide, extract_append_high, extract_toHalf, -Nat.reduceAdd])
    (by simp (disch := omega) [encodeDp, decode16, decodeDataProcessing, extract_append_low,
      extract_append_high, extract_toHalf, -Nat.reduceAdd])

/-- See `Statement`. -/
theorem adcs (rdn rm : LowReg) : Statement (.adcs rdn rm) := narrow _ rfl
    (by simp (disch := omega) [encodeDp, isWide, extract_append_high, extract_toHalf, -Nat.reduceAdd])
    (by simp (disch := omega) [encodeDp, decode16, decodeDataProcessing, extract_append_low,
      extract_append_high, extract_toHalf, -Nat.reduceAdd])

/-- See `Statement`. -/
theorem sbcs (rdn rm : LowReg) : Statement (.sbcs rdn rm) := narrow _ rfl
    (by simp (disch := omega) [encodeDp, isWide, extract_append_high, extract_toHalf, -Nat.reduceAdd])
    (by simp (disch := omega) [encodeDp, decode16, decodeDataProcessing, extract_append_low,
      extract_append_high, extract_toHalf, -Nat.reduceAdd])

/-- See `Statement`. -/
theorem rors (rdn rm : LowReg) : Statement (.rors rdn rm) := narrow _ rfl
    (by simp (disch := omega) [encodeDp, isWide, extract_append_high, extract_toHalf, -Nat.reduceAdd])
    (by simp (disch := omega) [encodeDp, decode16, decodeDataProcessing, extract_append_low,
      extract_append_high, extract_toHalf, -Nat.reduceAdd])

/-- See `Statement`. -/
theorem tst (rn rm : LowReg) : Statement (.tst rn rm) := narrow _ rfl
    (by simp (disch := omega) [encodeDp, isWide, extract_append_high, extract_toHalf, -Nat.reduceAdd])
    (by simp (disch := omega) [encodeDp, decode16, decodeDataProcessing, extract_append_low,
      extract_append_high, extract_toHalf, -Nat.reduceAdd])

/-- See `Statement`. -/
theorem rsbs (rd rn : LowReg) : Statement (.rsbs rd rn) := narrow _ rfl
    (by simp (disch := omega) [encodeDp, isWide, extract_append_high, extract_toHalf, -Nat.reduceAdd])
    (by simp (disch := omega) [encodeDp, decode16, decodeDataProcessing, extract_append_low,
      extract_append_high, extract_toHalf, -Nat.reduceAdd])

/-- See `Statement`. -/
theorem cmpReg (rn rm : LowReg) : Statement (.cmpReg rn rm) := narrow _ rfl
    (by simp (disch := omega) [encodeDp, isWide, extract_append_high, extract_toHalf, -Nat.reduceAdd])
    (by simp (disch := omega) [encodeDp, decode16, decodeDataProcessing, extract_append_low,
      extract_append_high, extract_toHalf, -Nat.reduceAdd])

/-- See `Statement`. -/
theorem cmn (rn rm : LowReg) : Statement (.cmn rn rm) := narrow _ rfl
    (by simp (disch := omega) [encodeDp, isWide, extract_append_high, extract_toHalf, -Nat.reduceAdd])
    (by simp (disch := omega) [encodeDp, decode16, decodeDataProcessing, extract_append_low,
      extract_append_high, extract_toHalf, -Nat.reduceAdd])

/-- See `Statement`. -/
theorem orrs (rdn rm : LowReg) : Statement (.orrs rdn rm) := narrow _ rfl
    (by simp (disch := omega) [encodeDp, isWide, extract_append_high, extract_toHalf, -Nat.reduceAdd])
    (by simp (disch := omega) [encodeDp, decode16, decodeDataProcessing, extract_append_low,
      extract_append_high, extract_toHalf, -Nat.reduceAdd])

/-- See `Statement`. -/
theorem muls (rdm rn : LowReg) : Statement (.muls rdm rn) := narrow _ rfl
    (by simp (disch := omega) [encodeDp, isWide, extract_append_high, extract_toHalf, -Nat.reduceAdd])
    (by simp (disch := omega) [encodeDp, decode16, decodeDataProcessing, extract_append_low,
      extract_append_high, extract_toHalf, -Nat.reduceAdd])

/-- See `Statement`. -/
theorem bics (rdn rm : LowReg) : Statement (.bics rdn rm) := narrow _ rfl
    (by simp (disch := omega) [encodeDp, isWide, extract_append_high, extract_toHalf, -Nat.reduceAdd])
    (by simp (disch := omega) [encodeDp, decode16, decodeDataProcessing, extract_append_low,
      extract_append_high, extract_toHalf, -Nat.reduceAdd])

/-- See `Statement`. -/
theorem mvns (rd rm : LowReg) : Statement (.mvns rd rm) := narrow _ rfl
    (by simp (disch := omega) [encodeDp, isWide, extract_append_high, extract_toHalf, -Nat.reduceAdd])
    (by simp (disch := omega) [encodeDp, decode16, decodeDataProcessing, extract_append_low,
      extract_append_high, extract_toHalf, -Nat.reduceAdd])

/-- See `Statement`. -/
theorem addHi (rdn rm : RegNum) : Statement (.addHi rdn rm) := narrow _ rfl
    (by simp (disch := omega) [encodeHi, isWide, extract_append_high, extract_toHalf, -Nat.reduceAdd])
    (by simp (disch := omega) [encodeHi, decode16, decodeSpecial, regnum_split, extract_append_low,
      extract_append_high, extract_toHalf, -Nat.reduceAdd])

/-- See `Statement`. -/
theorem cmpHi (rn rm : RegNum) : Statement (.cmpHi rn rm) := narrow _ rfl
    (by simp (disch := omega) [encodeHi, isWide, extract_append_high, extract_toHalf, -Nat.reduceAdd])
    (by simp (disch := omega) [encodeHi, decode16, decodeSpecial, regnum_split, extract_append_low,
      extract_append_high, extract_toHalf, -Nat.reduceAdd])

/-- See `Statement`. -/
theorem movHi (rd rm : RegNum) : Statement (.movHi rd rm) := narrow _ rfl
    (by simp (disch := omega) [encodeHi, isWide, extract_append_high, extract_toHalf, -Nat.reduceAdd])
    (by simp (disch := omega) [encodeHi, decode16, decodeSpecial, regnum_split, extract_append_low,
      extract_append_high, extract_toHalf, -Nat.reduceAdd])

/-- See `Statement`. -/
theorem bx (rm : RegNum) (sbz : BitVec 3) : Statement (.bx rm sbz) := narrow _ rfl
    (by simp (disch := omega) [isWide, extract_append_high, extract_toHalf, -Nat.reduceAdd])
    (by simp (disch := omega) [decode16, decodeSpecial, extract_append_low, extract_append_high,
      extract_toHalf, -Nat.reduceAdd])

/-- See `Statement`. -/
theorem blx (rm : RegNum) (sbz : BitVec 3) : Statement (.blx rm sbz) := narrow _ rfl
    (by simp (disch := omega) [isWide, extract_append_high, extract_toHalf, -Nat.reduceAdd])
    (by simp (disch := omega) [decode16, decodeSpecial, extract_append_low, extract_append_high,
      extract_toHalf, -Nat.reduceAdd])

/-- See `Statement`. -/
theorem ldrLit (rt : LowReg) (imm8 : BitVec 8) : Statement (.ldrLit rt imm8) := narrow _ rfl
    (by simp (disch := omega) [encodeI8, isWide, extract_append_high, extract_toHalf, -Nat.reduceAdd])
    (by simp (disch := omega) [encodeI8, decode16, extract_append_low, extract_append_high, extract_toHalf,
      -Nat.reduceAdd])

/-- See `Statement`. -/
theorem strReg (rt rn rm : LowReg) : Statement (.strReg rt rn rm) := narrow _ rfl
    (by simp (disch := omega) [encodeLsr, isWide, extract_append_high, extract_toHalf, -Nat.reduceAdd])
    (by simp (disch := omega) [encodeLsr, decode16, decodeLoadStoreReg, extract_append_low,
      extract_append_high, extract_toHalf, -Nat.reduceAdd])

/-- See `Statement`. -/
theorem strhReg (rt rn rm : LowReg) : Statement (.strhReg rt rn rm) := narrow _ rfl
    (by simp (disch := omega) [encodeLsr, isWide, extract_append_high, extract_toHalf, -Nat.reduceAdd])
    (by simp (disch := omega) [encodeLsr, decode16, decodeLoadStoreReg, extract_append_low,
      extract_append_high, extract_toHalf, -Nat.reduceAdd])

/-- See `Statement`. -/
theorem strbReg (rt rn rm : LowReg) : Statement (.strbReg rt rn rm) := narrow _ rfl
    (by simp (disch := omega) [encodeLsr, isWide, extract_append_high, extract_toHalf, -Nat.reduceAdd])
    (by simp (disch := omega) [encodeLsr, decode16, decodeLoadStoreReg, extract_append_low,
      extract_append_high, extract_toHalf, -Nat.reduceAdd])

/-- See `Statement`. -/
theorem ldrsbReg (rt rn rm : LowReg) : Statement (.ldrsbReg rt rn rm) := narrow _ rfl
    (by simp (disch := omega) [encodeLsr, isWide, extract_append_high, extract_toHalf, -Nat.reduceAdd])
    (by simp (disch := omega) [encodeLsr, decode16, decodeLoadStoreReg, extract_append_low,
      extract_append_high, extract_toHalf, -Nat.reduceAdd])

/-- See `Statement`. -/
theorem ldrReg (rt rn rm : LowReg) : Statement (.ldrReg rt rn rm) := narrow _ rfl
    (by simp (disch := omega) [encodeLsr, isWide, extract_append_high, extract_toHalf, -Nat.reduceAdd])
    (by simp (disch := omega) [encodeLsr, decode16, decodeLoadStoreReg, extract_append_low,
      extract_append_high, extract_toHalf, -Nat.reduceAdd])

/-- See `Statement`. -/
theorem ldrhReg (rt rn rm : LowReg) : Statement (.ldrhReg rt rn rm) := narrow _ rfl
    (by simp (disch := omega) [encodeLsr, isWide, extract_append_high, extract_toHalf, -Nat.reduceAdd])
    (by simp (disch := omega) [encodeLsr, decode16, decodeLoadStoreReg, extract_append_low,
      extract_append_high, extract_toHalf, -Nat.reduceAdd])

/-- See `Statement`. -/
theorem ldrbReg (rt rn rm : LowReg) : Statement (.ldrbReg rt rn rm) := narrow _ rfl
    (by simp (disch := omega) [encodeLsr, isWide, extract_append_high, extract_toHalf, -Nat.reduceAdd])
    (by simp (disch := omega) [encodeLsr, decode16, decodeLoadStoreReg, extract_append_low,
      extract_append_high, extract_toHalf, -Nat.reduceAdd])

/-- See `Statement`. -/
theorem ldrshReg (rt rn rm : LowReg) : Statement (.ldrshReg rt rn rm) := narrow _ rfl
    (by simp (disch := omega) [encodeLsr, isWide, extract_append_high, extract_toHalf, -Nat.reduceAdd])
    (by simp (disch := omega) [encodeLsr, decode16, decodeLoadStoreReg, extract_append_low,
      extract_append_high, extract_toHalf, -Nat.reduceAdd])

/-- See `Statement`. -/
theorem strImm (rt rn : LowReg) (imm5 : BitVec 5) : Statement (.strImm rt rn imm5) := narrow _ rfl
    (by simp (disch := omega) [encodeI5, isWide, extract_append_high, extract_toHalf, -Nat.reduceAdd])
    (by simp (disch := omega) [encodeI5, decode16, extract_append_low, extract_append_high, extract_toHalf,
      -Nat.reduceAdd])

/-- See `Statement`. -/
theorem ldrImm (rt rn : LowReg) (imm5 : BitVec 5) : Statement (.ldrImm rt rn imm5) := narrow _ rfl
    (by simp (disch := omega) [encodeI5, isWide, extract_append_high, extract_toHalf, -Nat.reduceAdd])
    (by simp (disch := omega) [encodeI5, decode16, extract_append_low, extract_append_high, extract_toHalf,
      -Nat.reduceAdd])

/-- See `Statement`. -/
theorem strbImm (rt rn : LowReg) (imm5 : BitVec 5) : Statement (.strbImm rt rn imm5) := narrow _ rfl
    (by simp (disch := omega) [encodeI5, isWide, extract_append_high, extract_toHalf, -Nat.reduceAdd])
    (by simp (disch := omega) [encodeI5, decode16, extract_append_low, extract_append_high, extract_toHalf,
      -Nat.reduceAdd])

/-- See `Statement`. -/
theorem ldrbImm (rt rn : LowReg) (imm5 : BitVec 5) : Statement (.ldrbImm rt rn imm5) := narrow _ rfl
    (by simp (disch := omega) [encodeI5, isWide, extract_append_high, extract_toHalf, -Nat.reduceAdd])
    (by simp (disch := omega) [encodeI5, decode16, extract_append_low, extract_append_high, extract_toHalf,
      -Nat.reduceAdd])

/-- See `Statement`. -/
theorem strhImm (rt rn : LowReg) (imm5 : BitVec 5) : Statement (.strhImm rt rn imm5) := narrow _ rfl
    (by simp (disch := omega) [encodeI5, isWide, extract_append_high, extract_toHalf, -Nat.reduceAdd])
    (by simp (disch := omega) [encodeI5, decode16, extract_append_low, extract_append_high, extract_toHalf,
      -Nat.reduceAdd])

/-- See `Statement`. -/
theorem ldrhImm (rt rn : LowReg) (imm5 : BitVec 5) : Statement (.ldrhImm rt rn imm5) := narrow _ rfl
    (by simp (disch := omega) [encodeI5, isWide, extract_append_high, extract_toHalf, -Nat.reduceAdd])
    (by simp (disch := omega) [encodeI5, decode16, extract_append_low, extract_append_high, extract_toHalf,
      -Nat.reduceAdd])

/-- See `Statement`. -/
theorem strSp (rt : LowReg) (imm8 : BitVec 8) : Statement (.strSp rt imm8) := narrow _ rfl
    (by simp (disch := omega) [encodeI8, isWide, extract_append_high, extract_toHalf, -Nat.reduceAdd])
    (by simp (disch := omega) [encodeI8, decode16, extract_append_low, extract_append_high, extract_toHalf,
      -Nat.reduceAdd])

/-- See `Statement`. -/
theorem ldrSp (rt : LowReg) (imm8 : BitVec 8) : Statement (.ldrSp rt imm8) := narrow _ rfl
    (by simp (disch := omega) [encodeI8, isWide, extract_append_high, extract_toHalf, -Nat.reduceAdd])
    (by simp (disch := omega) [encodeI8, decode16, extract_append_low, extract_append_high, extract_toHalf,
      -Nat.reduceAdd])

/-- See `Statement`. -/
theorem adr (rd : LowReg) (imm8 : BitVec 8) : Statement (.adr rd imm8) := narrow _ rfl
    (by simp (disch := omega) [encodeI8, isWide, extract_append_high, extract_toHalf, -Nat.reduceAdd])
    (by simp (disch := omega) [encodeI8, decode16, extract_append_low, extract_append_high, extract_toHalf,
      -Nat.reduceAdd])

/-- See `Statement`. -/
theorem addRdSp (rd : LowReg) (imm8 : BitVec 8) : Statement (.addRdSp rd imm8) := narrow _ rfl
    (by simp (disch := omega) [encodeI8, isWide, extract_append_high, extract_toHalf, -Nat.reduceAdd])
    (by simp (disch := omega) [encodeI8, decode16, extract_append_low, extract_append_high, extract_toHalf,
      -Nat.reduceAdd])

/-- See `Statement`. -/
theorem addSp (imm7 : BitVec 7) : Statement (.addSp imm7) := narrow _ rfl
    (by simp (disch := omega) [isWide, extract_append_high, extract_toHalf, -Nat.reduceAdd])
    (by simp (disch := omega) [decode16, decodeMisc, extract_append_low, extract_append_high, extract_toHalf,
      -Nat.reduceAdd])

/-- See `Statement`. -/
theorem subSp (imm7 : BitVec 7) : Statement (.subSp imm7) := narrow _ rfl
    (by simp (disch := omega) [isWide, extract_append_high, extract_toHalf, -Nat.reduceAdd])
    (by simp (disch := omega) [decode16, decodeMisc, extract_append_low, extract_append_high, extract_toHalf,
      -Nat.reduceAdd])

/-- See `Statement`. -/
theorem sxth (rd rm : LowReg) : Statement (.sxth rd rm) := narrow _ rfl
    (by simp (disch := omega) [encodeRR, isWide, extract_append_high, extract_toHalf, -Nat.reduceAdd])
    (by simp (disch := omega) [encodeRR, decode16, decodeMisc, extract_append_low, extract_append_high,
      extract_toHalf, -Nat.reduceAdd])

/-- See `Statement`. -/
theorem sxtb (rd rm : LowReg) : Statement (.sxtb rd rm) := narrow _ rfl
    (by simp (disch := omega) [encodeRR, isWide, extract_append_high, extract_toHalf, -Nat.reduceAdd])
    (by simp (disch := omega) [encodeRR, decode16, decodeMisc, extract_append_low, extract_append_high,
      extract_toHalf, -Nat.reduceAdd])

/-- See `Statement`. -/
theorem uxth (rd rm : LowReg) : Statement (.uxth rd rm) := narrow _ rfl
    (by simp (disch := omega) [encodeRR, isWide, extract_append_high, extract_toHalf, -Nat.reduceAdd])
    (by simp (disch := omega) [encodeRR, decode16, decodeMisc, extract_append_low, extract_append_high,
      extract_toHalf, -Nat.reduceAdd])

/-- See `Statement`. -/
theorem uxtb (rd rm : LowReg) : Statement (.uxtb rd rm) := narrow _ rfl
    (by simp (disch := omega) [encodeRR, isWide, extract_append_high, extract_toHalf, -Nat.reduceAdd])
    (by simp (disch := omega) [encodeRR, decode16, decodeMisc, extract_append_low, extract_append_high,
      extract_toHalf, -Nat.reduceAdd])

/-- See `Statement`. -/
theorem push (m : BitVec 1) (list : BitVec 8) : Statement (.push m list) := by
  rcases bit_cases m with rfl | rfl <;> refine narrow _ rfl ?_ ?_ <;>
    simp (disch := omega) [isWide, decode16, decodeMisc, extract_append_low, extract_append_high,
      extract_toHalf, -Nat.reduceAdd]

/-- See `Statement`. -/
theorem cps (im : BitVec 1) (low : BitVec 4) : Statement (.cps im low) := narrow _ rfl
    (by simp (disch := omega) [isWide, extract_append_high, extract_toHalf, -Nat.reduceAdd])
    (by simp (disch := omega) [decode16, decodeMisc, extract_append_low, extract_append_high, extract_toHalf,
      -Nat.reduceAdd])

/-- See `Statement`. -/
theorem rev (rd rm : LowReg) : Statement (.rev rd rm) := narrow _ rfl
    (by simp (disch := omega) [encodeRR, isWide, extract_append_high, extract_toHalf, -Nat.reduceAdd])
    (by simp (disch := omega) [encodeRR, decode16, decodeMisc, extract_append_low, extract_append_high,
      extract_toHalf, -Nat.reduceAdd])

/-- See `Statement`. -/
theorem rev16 (rd rm : LowReg) : Statement (.rev16 rd rm) := narrow _ rfl
    (by simp (disch := omega) [encodeRR, isWide, extract_append_high, extract_toHalf, -Nat.reduceAdd])
    (by simp (disch := omega) [encodeRR, decode16, decodeMisc, extract_append_low, extract_append_high,
      extract_toHalf, -Nat.reduceAdd])

/-- See `Statement`. -/
theorem revsh (rd rm : LowReg) : Statement (.revsh rd rm) := narrow _ rfl
    (by simp (disch := omega) [encodeRR, isWide, extract_append_high, extract_toHalf, -Nat.reduceAdd])
    (by simp (disch := omega) [encodeRR, decode16, decodeMisc, extract_append_low, extract_append_high,
      extract_toHalf, -Nat.reduceAdd])

/-- See `Statement`. -/
theorem pop (p : BitVec 1) (list : BitVec 8) : Statement (.pop p list) := by
  rcases bit_cases p with rfl | rfl <;> refine narrow _ rfl ?_ ?_ <;>
    simp (disch := omega) [isWide, decode16, decodeMisc, extract_append_low, extract_append_high,
      extract_toHalf, -Nat.reduceAdd]

/-- See `Statement`. -/
theorem bkpt (imm8 : BitVec 8) : Statement (.bkpt imm8) := narrow _ rfl
    (by simp (disch := omega) [encodeX8, isWide, extract_append_high, extract_toHalf, -Nat.reduceAdd])
    (by simp (disch := omega) [encodeX8, decode16, decodeMisc, extract_append_low, extract_append_high,
      extract_toHalf, -Nat.reduceAdd])

/-- See `Statement`. -/
theorem nop : Statement .nop := narrow _ rfl (by decide) (by decide)

/-- See `Statement`. -/
theorem yield : Statement .yield := narrow _ rfl (by decide) (by decide)

/-- See `Statement`. -/
theorem wfe : Statement .wfe := narrow _ rfl (by decide) (by decide)

/-- See `Statement`. -/
theorem wfi : Statement .wfi := narrow _ rfl (by decide) (by decide)

/-- See `Statement`. -/
theorem sev : Statement .sev := narrow _ rfl (by decide) (by decide)

/-- See `Statement`. -/
theorem hintRes (opA : BitVec 4) : Statement (.hintRes opA) := by
  unfold Statement; intro hw
  refine Or.inl ⟨_, rfl, ?_, ?_⟩ <;> revert hw <;> revert opA <;> decide

/-- See `Statement`. -/
theorem stm (rn : LowReg) (list : BitVec 8) : Statement (.stm rn list) := narrow _ rfl
    (by simp (disch := omega) [encodeI8, isWide, extract_append_high, extract_toHalf, -Nat.reduceAdd])
    (by simp (disch := omega) [encodeI8, decode16, extract_append_low, extract_append_high, extract_toHalf,
      -Nat.reduceAdd])

/-- See `Statement`. -/
theorem ldm (rn : LowReg) (list : BitVec 8) : Statement (.ldm rn list) := narrow _ rfl
    (by simp (disch := omega) [encodeI8, isWide, extract_append_high, extract_toHalf, -Nat.reduceAdd])
    (by simp (disch := omega) [encodeI8, decode16, extract_append_low, extract_append_high, extract_toHalf,
      -Nat.reduceAdd])

/-- See `Statement`. -/
theorem udf (imm8 : BitVec 8) : Statement (.udf imm8) := narrow _ rfl
    (by simp (disch := omega) [encodeX8, isWide, extract_append_high, extract_toHalf, -Nat.reduceAdd])
    (by simp (disch := omega) [encodeX8, decode16, decodeCondBranch, extract_append_low, extract_append_high,
      extract_toHalf, -Nat.reduceAdd])

/-- See `Statement`. -/
theorem svc (imm8 : BitVec 8) : Statement (.svc imm8) := narrow _ rfl
    (by simp (disch := omega) [encodeX8, isWide, extract_append_high, extract_toHalf, -Nat.reduceAdd])
    (by simp (disch := omega) [encodeX8, decode16, decodeCondBranch, extract_append_low, extract_append_high,
      extract_toHalf, -Nat.reduceAdd])

/-- See `Statement`. -/
theorem bcond (cond : Cond) (imm8 : BitVec 8) : Statement (.bcond cond imm8) := by
  cases cond <;> refine narrow _ rfl ?_ ?_ <;>
    simp (disch := omega) [Cond.bits, Cond.ofBits, isWide, decode16, decodeCondBranch, extract_append_low,
      extract_append_high, extract_toHalf, -Nat.reduceAdd]

/-- See `Statement`. -/
theorem b (imm11 : BitVec 11) : Statement (.b imm11) := narrow _ rfl
    (by simp (disch := omega) [isWide, extract_append_high, extract_toHalf, -Nat.reduceAdd])
    (by simp (disch := omega) [decode16, extract_append_low, extract_append_high, extract_toHalf, -Nat.reduceAdd])

/-- See `Statement`. -/
theorem bl (s : BitVec 1) (imm10 : BitVec 10) (j1 j2 : BitVec 1) (imm11 : BitVec 11) : Statement (.bl s imm10 j1 j2 imm11) := wide _ _ rfl
    (by simp (disch := omega) [isWide, extract_append_high, extract_toHalf, -Nat.reduceAdd])
    (by simp (disch := omega) [decode32, extract_append_low, extract_append_high, extract_toHalf, -Nat.reduceAdd])

/-- See `Statement`. -/
theorem msr (rn : RegNum) (sysm : BitVec 8) (b20 b13 : BitVec 1) (b11_8 : BitVec 4) : Statement (.msr rn sysm b20 b13 b11_8) := wide _ _ rfl
    (by simp (disch := omega) [isWide, extract_append_high, extract_toHalf, -Nat.reduceAdd])
    (by simp (disch := omega) [decode32, extract_append_low, extract_append_high, extract_toHalf, -Nat.reduceAdd])

/-- See `Statement`. -/
theorem mrs (rd : RegNum) (sysm : BitVec 8) (b20 : BitVec 1) (b19_16 : BitVec 4) (b13 : BitVec 1) : Statement (.mrs rd sysm b20 b19_16 b13) := wide _ _ rfl
    (by simp (disch := omega) [isWide, extract_append_high, extract_toHalf, -Nat.reduceAdd])
    (by simp (disch := omega) [decode32, extract_append_low, extract_append_high, extract_toHalf, -Nat.reduceAdd])

/-- See `Statement`. -/
theorem dsb (option : BitVec 4) (b19_16 : BitVec 4) (b13 : BitVec 1) (b11_8 : BitVec 4) : Statement (.dsb option b19_16 b13 b11_8) := wide _ _ rfl
    (by simp (disch := omega) [encodeBarrier, isWide, extract_append_high, extract_toHalf, -Nat.reduceAdd])
    (by simp (disch := omega) [encodeBarrier, decode32, extract_append_low, extract_append_high,
      extract_toHalf, -Nat.reduceAdd])

/-- See `Statement`. -/
theorem dmb (option : BitVec 4) (b19_16 : BitVec 4) (b13 : BitVec 1) (b11_8 : BitVec 4) : Statement (.dmb option b19_16 b13 b11_8) := wide _ _ rfl
    (by simp (disch := omega) [encodeBarrier, isWide, extract_append_high, extract_toHalf, -Nat.reduceAdd])
    (by simp (disch := omega) [encodeBarrier, decode32, extract_append_low, extract_append_high,
      extract_toHalf, -Nat.reduceAdd])

/-- See `Statement`. -/
theorem isb (option : BitVec 4) (b19_16 : BitVec 4) (b13 : BitVec 1) (b11_8 : BitVec 4) : Statement (.isb option b19_16 b13 b11_8) := wide _ _ rfl
    (by simp (disch := omega) [encodeBarrier, isWide, extract_append_high, extract_toHalf, -Nat.reduceAdd])
    (by simp (disch := omega) [encodeBarrier, decode32, extract_append_low, extract_append_high,
      extract_toHalf, -Nat.reduceAdd])

/-- See `Statement`. -/
theorem udfW (imm4 : BitVec 4) (imm12 : BitVec 12) : Statement (.udfW imm4 imm12) := wide _ _ rfl
    (by simp (disch := omega) [isWide, extract_append_high, extract_toHalf, -Nat.reduceAdd])
    (by simp (disch := omega) [decode32, extract_append_low, extract_append_high, extract_toHalf, -Nat.reduceAdd])

end Sys2Proof.Laws.Encoding
end

