-- ==== Sys2Proof/Tests/Slice0.lean ====
section
/-! SUPPORT. Tests: the well-formedness checks, decoding of words written out from the spec's encodings, one step of each
instruction on the values of the worked example in its rule (spec/41 to spec/48, "Example"), a few whole transitions,
and for each statement with hypotheses a state that meets them. -/

namespace Sys2Proof.Tests

open Sys2Proof.Machine

/-! ## Helpers -/

/-- A machine with one read-write region, the whole address space, registers written as listed, PC at `pc`. -/
def at_ (pc : Word) (regs : List (RegNum × Word)) : State :=
  { State.reset with
    ctx := { State.reset.ctx.writeRegs regs with pc := pc }
    bus := { State.reset.bus with regions := [wholeSpace] } }

/-- The same at address 0x100. -/
def st (regs : List (RegNum × Word)) : State := at_ 0x100#32 regs

/-- With the four flags as given, N most significant. -/
def flagged (f : BitVec 4) (s : State) : State :=
  { s with ctx := s.ctx.setNZCV (f ++ 0#28) }

/-- With bytes stored from an address on. -/
def mem (a : Word) (bytes : List Byte) (s : State) : State :=
  { s with bus := { s.bus with mem := s.bus.mem.storeBytes a bytes } }

/-- N, Z, C, V. -/
def nzcv (t : State) : BitVec 4 := t.ctx.xpsr.extractLsb' 28 4

/-- What a view shows of the next state, if there is one. -/
def seen {α : Type} (o : Host.Outcome State Fault Refusal) (f : State → α) : Option α :=
  match o with
  | .next t => some (f t)
  | _ => none

/-- One step of the instruction a halfword decodes to. -/
def run16 {α : Type} (h : Half) (s : State) (f : State → α) : Option α :=
  (decode16 h).bind (fun i => seen (exec i s) f)

/-- One step of the instruction two halfwords decode to. -/
def run32 {α : Type} (h h' : Half) (s : State) (f : State → α) : Option α :=
  (decode32 h h').bind (fun i => seen (exec i s) f)

/-- PC and the result. -/
def ended (t : State) : Word × Option StepResult := (t.ctx.pc, t.result)

/-! ## Well-formedness -/

theorem test_wellFormed_refuses_lsls_by_zero : (Instr.lslsImm 0#3 1#3 0#5).wellFormed = false := by decide
theorem test_wellFormed_refuses_named_hint : (Instr.hintRes 4#4).wellFormed = false := by decide
theorem test_wellFormed_takes_the_first_reserved_hint : (Instr.hintRes 5#4).wellFormed = true := by decide

/-! ## Decoding: words written out from the encodings of R82 to R91 -/

theorem test_decode_shift_add_sub_mov_cmp :
    decode16 0b0000000000001000#16 = some (.movsReg 0#3 1#3) ∧
    decode16 0b0000000011010001#16 = some (.lslsImm 1#3 2#3 3#5) ∧
    decode16 0b0000100000001000#16 = some (.lsrsImm 0#3 1#3 0#5) ∧
    decode16 0b0001000001100011#16 = some (.asrsImm 3#3 4#3 1#5) ∧
    decode16 0b0001100010001000#16 = some (.addsReg 0#3 1#3 2#3) ∧
    decode16 0b0001101010001000#16 = some (.subsReg 0#3 1#3 2#3) ∧
    decode16 0b0001110111001000#16 = some (.addsImm3 0#3 1#3 7#3) ∧
    decode16 0b0001111001011010#16 = some (.subsImm3 2#3 3#3 1#3) ∧
    decode16 0b0010000011111111#16 = some (.movsImm8 0#3 255#8) ∧
    decode16 0b0010100100000000#16 = some (.cmpImm8 1#3 0#8) ∧
    decode16 0b0011001000000001#16 = some (.addsImm8 2#3 1#8) ∧
    decode16 0b0011101100000001#16 = some (.subsImm8 3#3 1#8) := by
  decide

theorem test_decode_data_processing :
    decode16 0b0100000000001010#16 = some (.ands 2#3 1#3) ∧
    decode16 0b0100000001001010#16 = some (.eors 2#3 1#3) ∧
    decode16 0b0100000010001010#16 = some (.lslsReg 2#3 1#3) ∧
    decode16 0b0100000011001010#16 = some (.lsrsReg 2#3 1#3) ∧
    decode16 0b0100000100001010#16 = some (.asrsReg 2#3 1#3) ∧
    decode16 0b0100000101001010#16 = some (.adcs 2#3 1#3) ∧
    decode16 0b0100000110001010#16 = some (.sbcs 2#3 1#3) ∧
    decode16 0b0100000111001010#16 = some (.rors 2#3 1#3) ∧
    decode16 0b0100001000001010#16 = some (.tst 2#3 1#3) ∧
    decode16 0b0100001001001010#16 = some (.rsbs 2#3 1#3) ∧
    decode16 0b0100001010001010#16 = some (.cmpReg 2#3 1#3) ∧
    decode16 0b0100001011001010#16 = some (.cmn 2#3 1#3) ∧
    decode16 0b0100001100001010#16 = some (.orrs 2#3 1#3) ∧
    decode16 0b0100001101001010#16 = some (.muls 2#3 1#3) ∧
    decode16 0b0100001110001010#16 = some (.bics 2#3 1#3) ∧
    decode16 0b0100001111001010#16 = some (.mvns 2#3 1#3) := by
  decide

theorem test_decode_special_data_bx :
    decode16 0b0100010010001000#16 = some (.addHi 8#4 1#4) ∧
    decode16 0b0100010110001000#16 = some (.cmpHi 8#4 1#4) ∧
    decode16 0b0100011010001000#16 = some (.movHi 8#4 1#4) ∧
    decode16 0b0100011101110000#16 = some (.bx 14#4 0#3) ∧
    decode16 0b0100011110011000#16 = some (.blx 3#4 0#3) := by
  decide

theorem test_decode_load_store :
    decode16 0b0100100000000001#16 = some (.ldrLit 0#3 1#8) ∧
    decode16 0b0101000010001000#16 = some (.strReg 0#3 1#3 2#3) ∧
    decode16 0b0101001010001000#16 = some (.strhReg 0#3 1#3 2#3) ∧
    decode16 0b0101010010001000#16 = some (.strbReg 0#3 1#3 2#3) ∧
    decode16 0b0101011010001000#16 = some (.ldrsbReg 0#3 1#3 2#3) ∧
    decode16 0b0101100010001000#16 = some (.ldrReg 0#3 1#3 2#3) ∧
    decode16 0b0101101010001000#16 = some (.ldrhReg 0#3 1#3 2#3) ∧
    decode16 0b0101110010001000#16 = some (.ldrbReg 0#3 1#3 2#3) ∧
    decode16 0b0101111010001000#16 = some (.ldrshReg 0#3 1#3 2#3) ∧
    decode16 0b0110000001010011#16 = some (.strImm 3#3 2#3 1#5) ∧
    decode16 0b0110100001010011#16 = some (.ldrImm 3#3 2#3 1#5) ∧
    decode16 0b0111000001010011#16 = some (.strbImm 3#3 2#3 1#5) ∧
    decode16 0b0111100001010011#16 = some (.ldrbImm 3#3 2#3 1#5) ∧
    decode16 0b1000000001010011#16 = some (.strhImm 3#3 2#3 1#5) ∧
    decode16 0b1000100001010011#16 = some (.ldrhImm 3#3 2#3 1#5) ∧
    decode16 0b1001000000000001#16 = some (.strSp 0#3 1#8) ∧
    decode16 0b1001100000000001#16 = some (.ldrSp 0#3 1#8) := by
  decide

theorem test_decode_misc16 :
    decode16 0b1010000000000001#16 = some (.adr 0#3 1#8) ∧
    decode16 0b1010100000000001#16 = some (.addRdSp 0#3 1#8) ∧
    decode16 0b1011000000000010#16 = some (.addSp 2#7) ∧
    decode16 0b1011000010000010#16 = some (.subSp 2#7) ∧
    decode16 0b1011001000001000#16 = some (.sxth 0#3 1#3) ∧
    decode16 0b1011001001001000#16 = some (.sxtb 0#3 1#3) ∧
    decode16 0b1011001010001000#16 = some (.uxth 0#3 1#3) ∧
    decode16 0b1011001011001000#16 = some (.uxtb 0#3 1#3) ∧
    decode16 0b1011011001110010#16 = some (.cps 1#1 2#4) ∧
    decode16 0b1011101000001000#16 = some (.rev 0#3 1#3) ∧
    decode16 0b1011101001001000#16 = some (.rev16 0#3 1#3) ∧
    decode16 0b1011101011001000#16 = some (.revsh 0#3 1#3) ∧
    decode16 0b1011111010101011#16 = some (.bkpt 0xAB#8) ∧
    decode16 0b1011111100000000#16 = some (.nop) ∧
    decode16 0b1011111100010000#16 = some (.yield) ∧
    decode16 0b1011111100100000#16 = some (.wfe) ∧
    decode16 0b1011111100110000#16 = some (.wfi) ∧
    decode16 0b1011111101000000#16 = some (.sev) ∧
    decode16 0b1011111101010000#16 = some (.hintRes 5#4) := by
  decide

theorem test_decode_load_store_multiple :
    decode16 0b1011010100010000#16 = some (.push 1#1 0x10#8) ∧
    decode16 0b1011110100010000#16 = some (.pop 1#1 0x10#8) ∧
    decode16 0b1100000000000110#16 = some (.stm 0#3 6#8) ∧
    decode16 0b1100100000000110#16 = some (.ldm 0#3 6#8) := by
  decide

theorem test_decode_branch_svc :
    decode16 0b1101000000000001#16 = some (.bcond .eq 1#8) ∧
    decode16 0b1101110111111110#16 = some (.bcond .le 0xFE#8) ∧
    decode16 0b1101111000000000#16 = some (.udf 0#8) ∧
    decode16 0b1101111100000101#16 = some (.svc 5#8) ∧
    decode16 0b1110000000000010#16 = some (.b 2#11) := by
  decide

theorem test_decode_thumb32 :
    decode32 0b1111000000000000#16 0b1111100000000001#16 = some (.bl 0#1 0#10 1#1 1#1 1#11) ∧
    decode32 0b1111011111111111#16 0b1111111111111110#16 = some (.bl 1#1 0x3FF#10 1#1 1#1 0x7FE#11) ∧
    decode32 0b1111001110000000#16 0b1000100000010000#16 = some (.msr 0#4 16#8 0#1 0#1 8#4) ∧
    decode32 0b1111001111101111#16 0b1000000100001000#16 = some (.mrs 1#4 8#8 0#1 15#4 0#1) ∧
    decode32 0b1111001110111111#16 0b1000111101001111#16 = some (.dsb 15#4 15#4 0#1 15#4) ∧
    decode32 0b1111001110111111#16 0b1000111101011111#16 = some (.dmb 15#4 15#4 0#1 15#4) ∧
    decode32 0b1111001110111111#16 0b1000111101101111#16 = some (.isb 15#4 15#4 0#1 15#4) ∧
    decode32 0b1111011111110000#16 0b1010000000000000#16 = some (.udfW 0#4 0#12) := by
  decide

theorem test_undefined_words :
    decode16 0xBF51#16 = none ∧ decode16 0xB100#16 = none ∧ decode16 0xBA80#16 = none ∧
    decode32 0xE800#16 0x0000#16 = none ∧ decode32 0xF000#16 0x8000#16 = none := by
  decide

/-! ## The worked examples of the rules -/

theorem test_lsls_imm :
    run16 0x00D1#16 (flagged 0b0000#4 (st [(2#4, 0xA0000001#32)])) (fun t => (t.reg 1#4, nzcv t)) =
      some (8#32, 0b0010#4) := by
  decide
theorem test_movs_reg :
    run16 0x0008#16 (flagged 0b0010#4 (st [(1#4, 0x80000000#32)])) (fun t => (t.reg 0#4, nzcv t)) =
      some (0x80000000#32, 0b1010#4) := by
  decide
theorem test_lsrs_imm_32 :
    run16 0x0808#16 (flagged 0b0000#4 (st [(1#4, 0x80000000#32)])) (fun t => (t.reg 0#4, nzcv t)) =
      some (0#32, 0b0110#4) := by
  decide
theorem test_asrs_imm :
    run16 0x1063#16 (flagged 0b0000#4 (st [(4#4, 0x80000001#32)])) (fun t => (t.reg 3#4, nzcv t)) =
      some (0xC0000000#32, 0b1010#4) := by
  decide
theorem test_adds_reg :
    run16 0x1888#16 (flagged 0b0000#4 (st [(1#4, 0x7FFFFFFF#32), (2#4, 1#32)])) (fun t => (t.reg 0#4, nzcv t)) =
      some (0x80000000#32, 0b1001#4) := by
  decide
theorem test_subs_reg :
    run16 0x1A88#16 (flagged 0b0111#4 (st [(1#4, 0#32), (2#4, 1#32)])) (fun t => (t.reg 0#4, nzcv t)) =
      some (0xFFFFFFFF#32, 0b1000#4) := by
  decide
theorem test_adds_imm3 :
    run16 0x1DC8#16 (flagged 0b0000#4 (st [(1#4, 0xFFFFFFFC#32)])) (fun t => (t.reg 0#4, nzcv t)) =
      some (3#32, 0b0010#4) := by
  decide
theorem test_subs_imm3 :
    run16 0x1E5A#16 (flagged 0b0000#4 (st [(3#4, 1#32)])) (fun t => (t.reg 2#4, nzcv t)) =
      some (0#32, 0b0110#4) := by
  decide
theorem test_movs_imm8 :
    run16 0x20FF#16 (flagged 0b0011#4 (st [])) (fun t => (t.reg 0#4, nzcv t)) =
      some (255#32, 0b0011#4) := by
  decide
theorem test_cmp_imm8 :
    run16 0x2900#16 (flagged 0b0000#4 (st [(1#4, 0#32)])) (fun t => (t.reg 1#4, nzcv t)) =
      some (0#32, 0b0110#4) := by
  decide
theorem test_adds_imm8 :
    run16 0x3201#16 (flagged 0b0000#4 (st [(2#4, 0xFFFFFFFF#32)])) (fun t => (t.reg 2#4, nzcv t)) =
      some (0#32, 0b0110#4) := by
  decide
theorem test_subs_imm8 :
    run16 0x3B01#16 (flagged 0b0000#4 (st [(3#4, 0x80000000#32)])) (fun t => (t.reg 3#4, nzcv t)) =
      some (0x7FFFFFFF#32, 0b0011#4) := by
  decide
theorem test_ands :
    run16 0x4008#16 (flagged 0b1111#4 (st [(0#4, 0xF0F0F0F0#32), (1#4, 0x0FF00FF0#32)])) (fun t => (t.reg 0#4, nzcv t)) =
      some (0x00F000F0#32, 0b0011#4) := by
  decide
theorem test_eors :
    run16 0x4048#16 (flagged 0b0000#4 (st [(0#4, 0x12345678#32), (1#4, 0x12345678#32)])) (fun t => (t.reg 0#4, nzcv t)) =
      some (0#32, 0b0100#4) := by
  decide
theorem test_lsls_reg_32 :
    run16 0x4088#16 (flagged 0b0000#4 (st [(0#4, 1#32), (1#4, 32#32)])) (fun t => (t.reg 0#4, nzcv t)) =
      some (0#32, 0b0110#4) := by
  decide
theorem test_lsrs_reg_256 :
    run16 0x40C8#16 (flagged 0b0000#4 (st [(0#4, 0x80000000#32), (1#4, 0x100#32)])) (fun t => (t.reg 0#4, nzcv t)) =
      some (0x80000000#32, 0b1000#4) := by
  decide
theorem test_asrs_reg_40 :
    run16 0x4108#16 (flagged 0b0000#4 (st [(0#4, 0x80000000#32), (1#4, 40#32)])) (fun t => (t.reg 0#4, nzcv t)) =
      some (0xFFFFFFFF#32, 0b1010#4) := by
  decide
theorem test_adcs :
    run16 0x4148#16 (flagged 0b0010#4 (st [(0#4, 0xFFFFFFFF#32), (1#4, 0#32)])) (fun t => (t.reg 0#4, nzcv t)) =
      some (0#32, 0b0110#4) := by
  decide
theorem test_sbcs :
    run16 0x4188#16 (flagged 0b0000#4 (st [(0#4, 5#32), (1#4, 3#32)])) (fun t => (t.reg 0#4, nzcv t)) =
      some (1#32, 0b0010#4) := by
  decide
theorem test_rors_32 :
    run16 0x41C8#16 (flagged 0b0000#4 (st [(0#4, 0x80000001#32), (1#4, 32#32)])) (fun t => (t.reg 0#4, nzcv t)) =
      some (0x80000001#32, 0b1010#4) := by
  decide
theorem test_tst :
    run16 0x4208#16 (flagged 0b0000#4 (st [(0#4, 0x80000000#32), (1#4, 0x80000000#32)])) (fun t => (t.reg 0#4, nzcv t)) =
      some (0x80000000#32, 0b1000#4) := by
  decide
theorem test_rsbs :
    run16 0x4248#16 (flagged 0b0000#4 (st [(1#4, 1#32)])) (fun t => (t.reg 0#4, nzcv t)) =
      some (0xFFFFFFFF#32, 0b1000#4) := by
  decide
theorem test_cmp_reg :
    run16 0x4288#16 (flagged 0b0000#4 (st [(0#4, 1#32), (1#4, 2#32)])) (fun t => (t.reg 0#4, nzcv t)) =
      some (1#32, 0b1000#4) := by
  decide
theorem test_cmn :
    run16 0x42C8#16 (flagged 0b0000#4 (st [(0#4, 1#32), (1#4, 0xFFFFFFFF#32)])) (fun t => (t.reg 0#4, nzcv t)) =
      some (1#32, 0b0110#4) := by
  decide
theorem test_orrs :
    run16 0x4308#16 (flagged 0b0000#4 (st [(0#4, 1#32), (1#4, 0x80000000#32)])) (fun t => (t.reg 0#4, nzcv t)) =
      some (0x80000001#32, 0b1000#4) := by
  decide
theorem test_muls :
    run16 0x4348#16 (flagged 0b0000#4 (st [(0#4, 0xFFFFFFFF#32), (1#4, 0xFFFFFFFF#32)])) (fun t => (t.reg 0#4, nzcv t)) =
      some (1#32, 0b0000#4) := by
  decide
theorem test_bics :
    run16 0x4388#16 (flagged 0b0000#4 (st [(0#4, 0xFF#32), (1#4, 0xF#32)])) (fun t => (t.reg 0#4, nzcv t)) =
      some (0xF0#32, 0b0000#4) := by
  decide
theorem test_mvns :
    run16 0x43C8#16 (flagged 0b0000#4 (st [(1#4, 0#32)])) (fun t => (t.reg 0#4, nzcv t)) =
      some (0xFFFFFFFF#32, 0b1000#4) := by
  decide
theorem test_add_hi :
    run16 0x4488#16 (flagged 0b0000#4 (st [(8#4, 0xFFFFFFFF#32), (1#4, 2#32)])) (fun t => (t.reg 8#4, nzcv t)) =
      some (1#32, 0b0000#4) := by
  decide
theorem test_add_pc :
    run16 0x4487#16 (st [(0#4, 0x11#32)]) ended = some (0x114#32, some .ok) := by
  decide
theorem test_cmp_hi :
    run16 0x4588#16 (flagged 0b0000#4 (st [(8#4, 5#32), (1#4, 5#32)])) (fun t => (t.reg 8#4, nzcv t)) =
      some (5#32, 0b0110#4) := by
  decide
theorem test_cmp_hi_of_low_registers :
    run16 0x4508#16 (st []) ended = some (0x100#32, some .unpredictable) := by
  decide
theorem test_mov_hi :
    run16 0x4688#16 (flagged 0b0000#4 (st [(1#4, 0x80000000#32)])) (fun t => (t.reg 8#4, nzcv t)) =
      some (0x80000000#32, 0b0000#4) := by
  decide
theorem test_bx :
    run16 0x4770#16 (st [(14#4, 0x101#32)]) (fun t => (ended t, t.ctx.t)) = some ((0x100#32, some .ok), true) := by
  decide
theorem test_bx_to_even :
    run16 0x4770#16 (st [(14#4, 0x102#32)]) (fun t => (ended t, t.ctx.t)) = some ((0x102#32, some .ok), false) := by
  decide
theorem test_blx :
    run16 0x4798#16 (at_ 0x200#32 [(3#4, 0x301#32)]) (fun t => (ended t, t.ctx.t, t.ctx.lr)) =
      some ((0x300#32, some .ok), true, 0x203#32) := by
  decide
theorem test_ldr_lit :
    run16 0x4801#16 (mem 0x108#32 [0x78#8, 0x56#8, 0x34#8, 0x12#8] (at_ 0x102#32 [])) (fun t => t.reg 0#4) = some 0x12345678#32 := by
  decide
theorem test_str_reg :
    run16 0x5088#16 (st [(1#4, 0x20000000#32), (2#4, 8#32), (0#4, 0x12345678#32)]) (fun t => t.bus.hostLoad 0x20000008#32 5) =
      some [0x78#8, 0x56#8, 0x34#8, 0x12#8, 0x00#8] := by
  decide
theorem test_strh_reg :
    run16 0x5288#16 (st [(1#4, 0x20000000#32), (2#4, 2#32), (0#4, 0xABCD1234#32)]) (fun t => t.bus.hostLoad 0x20000002#32 3) =
      some [0x34#8, 0x12#8, 0x00#8] := by
  decide
theorem test_strb_reg :
    run16 0x5488#16 (st [(1#4, 0x20000000#32), (2#4, 3#32), (0#4, 0xABCD12EF#32)]) (fun t => t.bus.hostLoad 0x20000003#32 2) =
      some [0xEF#8, 0x00#8] := by
  decide
theorem test_ldrsb_reg :
    run16 0x5688#16 (mem 7#32 [0x80#8] (at_ 0x100#32 [(1#4, 4#32), (2#4, 3#32)])) (fun t => t.reg 0#4) = some 0xFFFFFF80#32 := by
  decide
theorem test_ldr_reg :
    run16 0x5888#16 (mem 4#32 [0x78#8, 0x56#8, 0x34#8, 0x12#8] (at_ 0x100#32 [(2#4, 4#32)])) (fun t => t.reg 0#4) = some 0x12345678#32 := by
  decide
theorem test_ldrh_reg :
    run16 0x5A88#16 (mem 6#32 [0x34#8, 0x12#8, 0xFF#8] (at_ 0x100#32 [(2#4, 6#32)])) (fun t => t.reg 0#4) = some 0x1234#32 := by
  decide
theorem test_ldrb_reg :
    run16 0x5C88#16 (mem 7#32 [0x12#8, 0xFF#8] (at_ 0x100#32 [(1#4, 4#32), (2#4, 3#32)])) (fun t => t.reg 0#4) = some 0x12#32 := by
  decide
theorem test_ldrsh_reg :
    run16 0x5E88#16 (mem 6#32 [0x01#8, 0x80#8] (at_ 0x100#32 [(1#4, 2#32), (2#4, 4#32)])) (fun t => t.reg 0#4) = some 0xFFFF8001#32 := by
  decide
theorem test_str_imm :
    run16 0x6048#16 (st [(1#4, 0x20000000#32), (0#4, 0xDEADBEEF#32)]) (fun t => t.bus.hostLoad 0x20000004#32 5) =
      some [0xEF#8, 0xBE#8, 0xAD#8, 0xDE#8, 0x00#8] := by
  decide
theorem test_ldr_imm :
    run16 0x6848#16 (mem 4#32 [0x78#8, 0x56#8, 0x34#8, 0x12#8] (at_ 0x100#32 [])) (fun t => t.reg 0#4) = some 0x12345678#32 := by
  decide
theorem test_strb_imm :
    run16 0x7048#16 (st [(1#4, 0x20000000#32), (0#4, 0xAB#32)]) (fun t => t.bus.hostLoad 0x20000001#32 2) =
      some [0xAB#8, 0x00#8] := by
  decide
theorem test_ldrb_imm :
    run16 0x7848#16 (mem 4#32 [0x78#8, 0x56#8, 0x34#8] (at_ 0x100#32 [(1#4, 4#32)])) (fun t => t.reg 0#4) = some 0x56#32 := by
  decide
theorem test_strh_imm :
    run16 0x8048#16 (st [(1#4, 0x20000000#32), (0#4, 0xBEEF#32)]) (fun t => t.bus.hostLoad 0x20000002#32 3) =
      some [0xEF#8, 0xBE#8, 0x00#8] := by
  decide
theorem test_ldrh_imm :
    run16 0x8848#16 (mem 4#32 [0x78#8, 0x56#8, 0x34#8, 0x12#8] (at_ 0x100#32 [(1#4, 4#32)])) (fun t => t.reg 0#4) = some 0x1234#32 := by
  decide
theorem test_str_sp :
    run16 0x9001#16 (st [(13#4, 0x20001000#32), (0#4, 7#32)]) (fun t => t.bus.hostLoad 0x20001004#32 4) =
      some [0x07#8, 0x00#8, 0x00#8, 0x00#8] := by
  decide
theorem test_ldr_sp :
    run16 0x9801#16 (mem 0x20001004#32 [0x07#8, 0x00#8, 0x00#8, 0x00#8] (at_ 0x100#32 [(13#4, 0x20001000#32)])) (fun t => t.reg 0#4) = some 7#32 := by
  decide
theorem test_adr :
    run16 0xA001#16 (at_ 0x102#32 []) (fun t => t.reg 0#4) = some 0x108#32 := by
  decide
theorem test_add_rd_sp :
    run16 0xA801#16 (at_ 0x100#32 [(13#4, 0x20001000#32)]) (fun t => t.reg 0#4) = some 0x20001004#32 := by
  decide
theorem test_add_sp :
    run16 0xB002#16 (at_ 0x100#32 [(13#4, 0x20000FF8#32)]) (fun t => t.reg 13#4) = some 0x20001000#32 := by
  decide
theorem test_sub_sp :
    run16 0xB082#16 (at_ 0x100#32 [(13#4, 0x20001000#32)]) (fun t => t.reg 13#4) = some 0x20000FF8#32 := by
  decide
theorem test_sxth :
    run16 0xB208#16 (at_ 0x100#32 [(1#4, 0x12348765#32)]) (fun t => t.reg 0#4) = some 0xFFFF8765#32 := by
  decide
theorem test_sxtb :
    run16 0xB248#16 (at_ 0x100#32 [(1#4, 0x12345680#32)]) (fun t => t.reg 0#4) = some 0xFFFFFF80#32 := by
  decide
theorem test_uxth :
    run16 0xB288#16 (at_ 0x100#32 [(1#4, 0x12348765#32)]) (fun t => t.reg 0#4) = some 0x8765#32 := by
  decide
theorem test_uxtb :
    run16 0xB2C8#16 (at_ 0x100#32 [(1#4, 0x12345680#32)]) (fun t => t.reg 0#4) = some 0x80#32 := by
  decide
theorem test_rev :
    run16 0xBA08#16 (at_ 0x100#32 [(1#4, 0x12345678#32)]) (fun t => t.reg 0#4) = some 0x78563412#32 := by
  decide
theorem test_rev16 :
    run16 0xBA48#16 (at_ 0x100#32 [(1#4, 0x12345678#32)]) (fun t => t.reg 0#4) = some 0x34127856#32 := by
  decide
theorem test_revsh :
    run16 0xBAC8#16 (at_ 0x100#32 [(1#4, 0x12345680#32)]) (fun t => t.reg 0#4) = some 0xFFFF8056#32 := by
  decide
theorem test_cpsid :
    run16 0xB672#16 (st []) (fun t => (t.ctx.primask, ended t)) = some (1#1, 0x102#32, some .ok) := by
  decide
theorem test_cps_should_be_bits :
    run16 0xB660#16 (st []) ended = some (0x100#32, some .unpredictable) := by
  decide
theorem test_bkpt :
    run16 0xBEAB#16 (st []) ended = some (0x100#32, some .bkpt) := by
  decide
theorem test_nop :
    run16 0xBF00#16 (st []) ended = some (0x102#32, some .ok) := by
  decide
theorem test_yield :
    run16 0xBF10#16 (st []) ended = some (0x102#32, some .unsupported) := by
  decide
theorem test_wfe :
    run16 0xBF20#16 (st []) ended = some (0x102#32, some .unsupported) := by
  decide
theorem test_wfi :
    run16 0xBF30#16 (st []) ended = some (0x102#32, some .unsupported) := by
  decide
theorem test_sev :
    run16 0xBF40#16 (st []) ended = some (0x102#32, some .unsupported) := by
  decide
theorem test_reserved_hint :
    run16 0xBF50#16 (st []) ended = some (0x102#32, some .ok) := by
  decide
theorem test_push :
    run16 0xB510#16 (st [(13#4, 0x20001000#32), (4#4, 0x44444444#32), (14#4, 0x123#32)])
      (fun t => (t.ctx.sp, t.bus.mem.wordAt 0x20000FF8, t.bus.mem.wordAt 0x20000FFC)) =
      some (0x20000FF8#32, 0x44444444#32, 0x123#32) := by
  decide
theorem test_push_nothing :
    run16 0xB400#16 (st []) ended = some (0x100#32, some .unpredictable) := by
  decide
theorem test_pop :
    run16 0xBD10#16 (mem 0x20000FF8#32 [0x44#8, 0x44#8, 0x44#8, 0x44#8, 0x23#8, 0x01#8, 0#8, 0#8]
      (st [(13#4, 0x20000FF8#32)])) (fun t => (t.reg 4#4, t.ctx.sp, ended t)) =
      some (0x44444444#32, 0x20001000#32, 0x122#32, some .ok) := by
  decide
theorem test_stm :
    run16 0xC006#16 (st [(0#4, 0x20000000#32), (1#4, 0x11111111#32), (2#4, 0x22222222#32)])
      (fun t => (t.reg 0#4, t.bus.mem.wordAt 0x20000000, t.bus.mem.wordAt 0x20000004)) =
      some (0x20000008#32, 0x11111111#32, 0x22222222#32) := by
  decide
theorem test_stm_listed_base :
    run16 0xC103#16 (st []) ended = some (0x100#32, some .unpredictable) := by
  decide
theorem test_ldm :
    run16 0xC806#16 (mem 0x20000000#32 [0x11#8, 0x11#8, 0x11#8, 0x11#8, 0x22#8, 0x22#8, 0x22#8, 0x22#8]
      (st [(0#4, 0x20000000#32)])) (fun t => (t.reg 0#4, t.reg 1#4, t.reg 2#4)) =
      some (0x20000008#32, 0x11111111#32, 0x22222222#32) := by
  decide
theorem test_ldm_listed_base :
    run16 0xC803#16 (mem 0x20000000#32 [0x11#8, 0x11#8, 0x11#8, 0x11#8, 0x22#8, 0x22#8, 0x22#8, 0x22#8]
      (st [(0#4, 0x20000000#32)])) (fun t => (t.reg 0#4, t.reg 1#4)) = some (0x11111111#32, 0x22222222#32) := by
  decide
theorem test_beq_taken :
    run16 0xD001#16 (flagged 0b0100#4 (st [])) ended = some (0x106#32, some .ok) := by
  decide
theorem test_blt_to_itself :
    run16 0xDBFE#16 (flagged 0b1000#4 (st [])) ended = some (0x100#32, some .ok) := by
  decide
theorem test_b :
    run16 0xE002#16 (st []) ended = some (0x108#32, some .ok) := by
  decide
theorem test_svc :
    run16 0xDF05#16 (st []) ended = some (0x102#32, some .svc) := by
  decide
theorem test_udf :
    run16 0xDE00#16 (st []) ended = some (0x100#32, some .undefined) := by
  decide
theorem test_bl :
    run32 0xF000#16 0xF801#16 (st []) (fun t => (t.ctx.lr, t.ctx.pc)) = some (0x105#32, 0x106#32) := by
  decide
theorem test_bl_backwards :
    run32 0xF7FF#16 0xFFFE#16 (at_ 0x102#32 []) (fun t => (t.ctx.lr, t.ctx.pc)) = some (0x107#32, 0x102#32) := by
  decide
theorem test_msr_apsr :
    run32 0xF380#16 0x8800#16 (st [(0#4, 0xA0000000#32)]) nzcv = some 0b1010#4 := by
  decide
theorem test_msr_reserved :
    run32 0xF380#16 0x8804#16 (st []) ended = some (0x100#32, some .unpredictable) := by
  decide
theorem test_mrs_apsr :
    run32 0xF3EF#16 0x8000#16 (flagged 0b0110#4 (st [])) (fun t => t.reg 0#4) = some 0x60000000#32 := by
  decide
theorem test_mrs_msp :
    run32 0xF3EF#16 0x8108#16 (st [(13#4, 0x20001000#32)]) (fun t => t.reg 1#4) = some 0x20001000#32 := by
  decide
theorem test_dsb :
    run32 0xF3BF#16 0x8F4F#16 (st []) ended = some (0x104#32, some .ok) := by
  decide
theorem test_dmb :
    run32 0xF3BF#16 0x8F5F#16 (st []) ended = some (0x104#32, some .ok) := by
  decide
theorem test_isb :
    run32 0xF3BF#16 0x8F6F#16 (st []) ended = some (0x104#32, some .ok) := by
  decide
theorem test_udf_w :
    run32 0xF7F0#16 0xA000#16 (st []) ended = some (0x100#32, some .undefined) := by
  decide

/-! ## Whole transitions -/

theorem test_first_step_from_reset_has_nothing_to_fetch :
    seen (step State.reset) (fun t => (t.ctx, t.result)) = some (Context.reset, some .hardFault) := by
  decide
theorem test_withFetchWord_runs_movs :
    seen (step (State.reset.withFetchWord 16 0x20FF)) (fun t => (t.reg 0#4, t.ctx.pc)) = some (255#32, 2#32) := by
  decide
theorem test_withFetchWord_runs_bl :
    seen (step (State.reset.withFetchWord 32 0xF000F801)) (fun t => (t.ctx.lr, t.ctx.pc)) = some (5#32, 6#32) := by
  decide
theorem test_undefined_word_is_a_next_state :
    seen (step (State.reset.withFetchWord 16 0xBF51)) ended = some (0#32, some .undefined) := by
  decide

/-! ## Packets -/

/-- A machine inside a packet command, with received bytes queued. -/
def engineAt (p : EnginePhase) (data rx : List Byte) : State :=
  { st [] with engine := p, buffer := ⟨4, data, 0, false, false⟩, comm := ⟨rx, [], []⟩ }

/-- `n` transitions. -/
def after {α : Type} (n : Nat) (s : State) (f : State → α) : Option α :=
  seen (Host.Core.run Sys2Proof.core n s) f

/-- spec/95 K1: `$#00` is an empty payload, answered `+`. -/
theorem test_packetGet_empty :
    after 6 (engineAt .scan [1#8] [0x24#8, 0x23#8, 0x30#8, 0x30#8]) (fun t => (t.engine, t.buffer.data, t.comm.tx)) =
      some (.idle, [], [0x2B#8]) := by
  decide

/-- spec/95 K4: `$?#f3` has a wrong checksum, is answered `-`, and the engine scans on. -/
theorem test_packetGet_wrong_checksum :
    after 6 (engineAt .scan [] [0x24#8, 0x3F#8, 0x23#8, 0x66#8, 0x33#8]) (fun t => (t.engine, t.buffer.data, t.comm.tx)) =
      some (.scan, [0x3F#8], [0x2D#8]) := by
  decide

/-- R338: the second checksum character and the acknowledgement are two transitions. -/
theorem test_packetGet_acknowledges_in_its_own_transition :
    after 4 (engineAt .scan [] [0x24#8, 0x23#8, 0x30#8, 0x30#8]) (fun t => (t.engine, t.comm.rx, t.comm.tx)) =
      some (.reply true, [], []) ∧
    after 5 (engineAt .scan [] [0x24#8, 0x23#8, 0x30#8, 0x30#8]) (fun t => (t.engine, t.comm.tx)) =
      some (.more, [0x2B#8]) := by
  decide

/-- spec/95 K20: `OK` goes out as `$OK#9a`, and `+` ends the command. -/
theorem test_packetSend :
    after 7 (engineAt .sendStart [0x4F#8, 0x4B#8] [0x2B#8]) (fun t => (t.engine, t.comm.tx)) =
      some (.idle, [0x24#8, 0x4F#8, 0x4B#8, 0x23#8, 0x39#8, 0x61#8]) := by
  decide

/-! ## The hypotheses of the statements are met -/

/-- A region of 4 bytes from 0x100 on. -/
def tiny : Region := ⟨0x100#32, 4, false, []⟩

/-- The machine at 0x100 with the given halfwords there. -/
def code (halves : List Half) : State := mem 0x100#32 (halves.flatMap bytesOfHalf) (st [])

/-- The same with the given regions. -/
def codeIn (regions : List Region) (halves : List Half) : State :=
  { code halves with bus := { (code halves).bus with regions := regions } }

theorem witness_DecodingUndoesEncoding :
    (Instr.lslsImm 0#3 0#3 1#5).wellFormed = true ∧ (Instr.hintRes 5#4).wellFormed = true ∧
    (Instr.hintRes 15#4).wellFormed = true ∧ (Instr.bl 1#1 0x3FF#10 0#1 1#1 0x7FF#11).wellFormed = true := by
  decide

theorem witness_EncodingUndoesDecoding :
    decode16 0x0040#16 = some (.lslsImm 0#3 0#3 1#5) ∧ decode16 0xBFF0#16 = some (.hintRes 15#4) ∧
    decode32 0xF7FF#16 0xAFFF#16 = some (.udfW 15#4 0xFFF#12) := by
  decide

theorem witness_DecoderSelectsFirstTableRow :
    isWide 0xE7FF#16 = false ∧ isWide 0xE800#16 = true ∧ isWide 0xFFFF#16 = true := by decide

theorem witness_TransitionsKeepInvariant_reset :
    State.reset.Inv ∧ (seen (step State.reset) (fun _ => true)) = some true := by
  refine ⟨⟨by decide, by decide, by decide, by decide, by decide, by decide, ?_, by simp [State.sumRight, State.reset]⟩,
    by decide⟩
  intro g h
  simp [State.reset, Bus.reset] at h

theorem witness_TransitionsKeepInvariant_capture :
    (engineAt .capture [] [0x41#8]).Inv ∧ (seen (step (engineAt .capture [] [0x41#8])) (·.buffer.data)) = some [0x41#8] := by
  refine ⟨⟨by decide, by decide, by decide, by decide, by decide, by decide, ?_, rfl⟩, by decide⟩
  intro g h
  simp only [engineAt, st, at_, List.mem_singleton] at h
  subst h
  exact List.Pairwise.nil

theorem witness_StepRunsTheDecodedInstruction :
    ((code [0x20FF#16]).ready ∧ (code [0x20FF#16]).ctx.t = true ∧ aligned .half (code [0x20FF#16]).ctx.pc = true ∧
      (code [0x20FF#16]).bus.grants ⟨.read, .half, 0x100#32⟩ = some wholeSpace ∧
      isWide ((code [0x20FF#16]).bus.mem.halfAt 0x100) = false ∧
      decode16 ((code [0x20FF#16]).bus.mem.halfAt 0x100) = some (.movsImm8 0#3 255#8)) ∧
    ((code [0xF000#16, 0xF801#16]).ready ∧
      (code [0xF000#16, 0xF801#16]).bus.grants ⟨.read, .half, 0x100#32⟩ = some wholeSpace ∧
      (code [0xF000#16, 0xF801#16]).bus.grants ⟨.read, .half, 0x102#32⟩ = some wholeSpace ∧
      isWide ((code [0xF000#16, 0xF801#16]).bus.mem.halfAt 0x100) = true ∧
      decode32 ((code [0xF000#16, 0xF801#16]).bus.mem.halfAt 0x100) ((code [0xF000#16, 0xF801#16]).bus.mem.halfAt 0x102) =
        some (.bl 0#1 0#10 1#1 1#1 1#11)) :=
  ⟨⟨⟨rfl, rfl, .inl rfl⟩, by decide, by decide, by decide, by decide, by decide⟩,
    ⟨rfl, rfl, .inl rfl⟩, by decide, by decide, by decide, by decide⟩

/-- The host's command `step`: one step, no stop request and no predicate, and the command behind it stays. -/
theorem witness_StepRunsTheDecodedInstruction_command :
    (let s : State := { code [0x20FF#16] with commands := [.step, .readAll], stops := [true], comm := ⟨[3#8], [], []⟩ }
     s.ready ∧ seen (step s) (fun t => (t.reg 0#4, ended t, t.commands, t.stops)) =
       some (255#32, (0x102#32, some .ok), [.readAll], [true])) :=
  ⟨⟨rfl, rfl, .inr rfl⟩, by decide⟩

/-- T = 0; PC odd; no region; the second halfword outside the region. -/
theorem witness_StepFaultsBeforeDecoding :
    ({ st [] with ctx := (st []).ctx.setT false } : State).ready ∧ ((st []).ctx.setT false).t = false ∧
    (at_ 0x101#32 []).ready ∧ (at_ 0x101#32 []).ctx.t = true ∧ (at_ 0x101#32 []).ctx.pc.getLsbD 0 = true ∧
    State.reset.ready ∧ State.reset.ctx.t = true ∧ State.reset.ctx.pc.getLsbD 0 = false ∧
    State.reset.bus.grants ⟨.read, .half, State.reset.ctx.pc⟩ = none ∧
    ((codeIn [⟨0x100#32, 2, false, []⟩] [0xF000#16]).ready ∧
      (codeIn [⟨0x100#32, 2, false, []⟩] [0xF000#16]).bus.grants ⟨.read, .half, 0x100#32⟩ =
        some ⟨0x100#32, 2, false, []⟩ ∧
      isWide ((codeIn [⟨0x100#32, 2, false, []⟩] [0xF000#16]).bus.mem.halfAt 0x100) = true ∧
      (codeIn [⟨0x100#32, 2, false, []⟩] [0xF000#16]).bus.grants ⟨.read, .half, 0x102#32⟩ = none) :=
  ⟨⟨rfl, rfl, .inl rfl⟩, by decide, ⟨rfl, rfl, .inl rfl⟩, by decide, by decide, ⟨rfl, rfl, .inl rfl⟩, by decide, by decide, by decide,
    ⟨rfl, rfl, .inl rfl⟩, by decide, by decide, by decide⟩

theorem witness_UnselectedEncodingsAreUndefined :
    (isWide ((code [0xBF51#16]).bus.mem.halfAt 0x100) = false ∧
      firstRow 16 ((code [0xBF51#16]).bus.mem.halfAt 0x100).toNat = none) ∧
    (isWide ((code [0xE800#16]).bus.mem.halfAt 0x100) = true ∧
      firstRow 32 (((code [0xE800#16]).bus.mem.halfAt 0x100).toNat * 65536 +
        ((code [0xE800#16]).bus.mem.halfAt 0x102).toNat) = none) ∧
    (code [0xE800#16]).bus.grants ⟨.read, .half, 0x102#32⟩ = some wholeSpace := by
  decide

/-- One step for each of the four results; the `HardFault` is that of a store to no region. -/
theorem witness_TrapsLeaveTheContext :
    seen (code [0xDE00#16]).stepInstr (·.result) = some (some .undefined) ∧
    seen (code [0x4778#16]).stepInstr (·.result) = some (some .unpredictable) ∧
    seen (codeIn [tiny] [0x6000#16]).stepInstr (·.result) = some (some .hardFault) ∧
    seen (code [0xBE00#16]).stepInstr (·.result) = some (some .bkpt) := by
  decide

/-- Two states that agree in the context, the content of memory and the regions, and in nothing else a step might look at:
the latch, set in one of them, stays as it is, and the requests are the same. -/
theorem witness_EveryStepEndsWithAStepResult :
    (let s := code [0xDF00#16]
     let s' : State := { s with
       bus := { s.bus with latch := true, port := [⟨⟨.write, .byte, 0#32⟩, 0#32, .busError⟩] }
       loop := .running, stops := [true], comm := ⟨[3#8], [], []⟩, result := some .bkpt }
     s'.ctx = s.ctx ∧ s'.bus.mem = s.bus.mem ∧ s'.bus.regions = s.bus.regions ∧
     seen s.stepInstr (fun t => (t.result, t.bus.port.map (·.access), t.bus.latch)) =
       some (some .svc, [⟨.read, .half, 0x100#32⟩], false) ∧
     seen s'.stepInstr (fun t => (t.result, t.bus.port.map (·.access), t.bus.latch)) =
       some (some .svc, [⟨.read, .half, 0x100#32⟩], true)) := by
  decide

/-- PUSH of nine registers: one fetch and nine stores; PC even before and after. -/
theorem witness_StepIssuesAtMostElevenRequests :
    seen (code [0xB5FF#16]).stepInstr (fun t => (t.bus.port.length, t.ctx.pc)) = some (10, 0x102#32) ∧
    (code [0xB5FF#16]).ctx.pc.getLsbD 0 = false := by
  decide

theorem witness_FlagsChangeOnlyWhereListed :
    seen (exec (.movsImm8 0#3 0#8) (st [])) (fun _ => true) = some true ∧
    writesNZ (.nop) = false ∧ writesC (.movsImm8 0#3 0#8) = false ∧ writesV (.lslsImm 0#3 0#3 1#5) = false ∧
    writesC (.msr 0#4 4#8 0#1 0#1 8#4) = false ∧ writesC (.msr 0#4 3#8 0#1 0#1 8#4) = true := by
  decide

theorem witness_StatusPrimaskAndMemoryWrittenByListedOnly :
    seen (exec (.pop 0#1 1#8) (st [])) (fun _ => true) = some true ∧ writesT (.pop 0#1 1#8) = false ∧
    writesPrimask (.msr 0#4 8#8 0#1 0#1 8#4) = false ∧ writesMemory (.ldm 0#3 1#8) = false := by
  decide

theorem witness_InstructionsStayInsideTheExecutor :
    seen (exec (.addSp 127#7) (st [])) (·.ctx.sp) = some 508#32 ∧ (st []).ctx.sp &&& 3#32 = 0#32 := by decide

/-- The amounts 0, 1, 32, 33 and 255, and 256, whose bottom byte is 0. -/
theorem witness_ShiftResults :
    ((st [(1#4, 256#32)]).lowReg 1#3).toNat % 256 = 0 ∧ ((st [(1#4, 1#32)]).lowReg 1#3).toNat % 256 = 1 ∧
    ((st [(1#4, 32#32)]).lowReg 1#3).toNat % 256 = 32 ∧ ((st [(1#4, 33#32)]).lowReg 1#3).toNat % 256 = 33 ∧
    ((st [(1#4, 255#32)]).lowReg 1#3).toNat % 256 = 255 := by
  decide

/-- The register pairs at the edges of the clauses: a legal pair with one high register, a pair of low ones, PC. -/
theorem witness_DifferenceResults :
    ((8#4 : RegNum) ≠ 15#4 ∧ (7#4 : RegNum) ≠ 15#4 ∧ 8 ≤ (8#4 : RegNum).toNat) ∧
    ((7#4 : RegNum).toNat < 8 ∧ (0#4 : RegNum).toNat < 8) ∧ ((14#4 : RegNum) ≠ 15#4 ∧ 8 ≤ (14#4 : RegNum).toNat) := by
  decide

theorem witness_HighRegisterAddAndMove : (14#4 : RegNum) ≠ 15#4 ∧ (0#4 : RegNum) ≠ 15#4 := by decide

theorem witness_ExchangeBranches : (14#4 : RegNum) ≠ 15#4 ∧ (4#3 : BitVec 3) ≠ 0#3 := by decide

theorem witness_SystemInstructionResults : (0b0011#4 : BitVec 4) ≠ 0b0010#4 ∧ (0b0000#4 : BitVec 4) ≠ 0b0010#4 := by
  decide

theorem witness_ConditionalAndPlainBranches :
    condHolds (flagged 0b0100#4 (st [])).ctx (Cond.eq).bits = true ∧ condHolds (st []).ctx (Cond.eq).bits = false ∧
    condHolds (st []).ctx (Cond.le).bits = false ∧ condHolds (flagged 0b1000#4 (st [])).ctx (Cond.le).bits = true := by
  decide

theorem witness_SpecialRegisterMoves :
    ((12#4 : RegNum) ≠ 13#4 ∧ (12#4 : RegNum) ≠ 15#4 ∧ (14#4 : RegNum) ≠ 13#4 ∧ (14#4 : RegNum) ≠ 15#4) ∧
    (0#8 : BitVec 8).toNat ≤ 3 ∧ (3#8 : BitVec 8).toNat ≤ 3 := by
  decide

/-- SYSm 4 and 255 are reserved; `LDM`'s empty list needs no hypothesis; STM R1!, {R0, R1} lists its base second. -/
theorem witness_IllegalFormsAreUnpredictable :
    (4#8 : BitVec 8).toNat ∉ [0, 1, 2, 3, 5, 6, 7, 8, 9, 16, 20] ∧ (255#8 : BitVec 8).toNat ∉ [0, 1, 2, 3, 5, 6, 7, 8, 9, 16, 20] ∧
    (1#1 : BitVec 1) ≠ 0#1 ∧ (0#4 : BitVec 4) ≠ 0b1000#4 ∧ (0b1110#4 : BitVec 4) ≠ 0b1111#4 ∧
    (3#8 : BitVec 8).getLsbD (1#3 : LowReg).toNat = true ∧ place (lowSet 3#8) (1#3 : LowReg).toNat ≠ 0 := by
  decide

/-- At both ends of the address space. -/
theorem witness_WordLoadResults :
    ((at_ 0#32 []).permits .read .word 0#32 ∧ (0#32 : Word) = (at_ 0#32 []).lowReg 0#3 + (at_ 0#32 []).lowReg 0#3 ∧
      (0#32 : Word) = (at_ 0#32 []).lowReg 0#3 + BitVec.ofNat 32 (4 * (0#5 : BitVec 5).toNat) ∧
      (0#32 : Word) = (at_ 0#32 []).ctx.sp + BitVec.ofNat 32 (4 * (0#8 : BitVec 8).toNat)) ∧
    ((at_ 0xFFFFFFF8#32 []).permits .read .word 0xFFFFFFFC#32 ∧
      (0xFFFFFFFC#32 : Word) = BitVec.ofNat 32 ((at_ 0xFFFFFFF8#32 []).ctx.pc.toNat / 4 * 4 + 4 + 4 * (0#8 : BitVec 8).toNat)) :=
  ⟨⟨⟨by decide, by decide⟩, by decide, by decide, by decide⟩, ⟨by decide, by decide⟩, by decide⟩

theorem witness_NarrowLoadResults :
    ((st [(1#4, 0xFFFFFFFE#32)]).permits .read .half 0xFFFFFFFE#32 ∧
      (0xFFFFFFFE#32 : Word) = (st [(1#4, 0xFFFFFFFE#32)]).lowReg 1#3 + (st [(1#4, 0xFFFFFFFE#32)]).lowReg 2#3) ∧
    ((st []).permits .read .half 62#32 ∧
      (62#32 : Word) = (st []).lowReg 1#3 + BitVec.ofNat 32 (2 * (31#5 : BitVec 5).toNat)) ∧
    ((st [(1#4, 0xFFFFFFFF#32)]).permits .read .byte 0xFFFFFFFF#32 ∧
      (0xFFFFFFFF#32 : Word) = (st [(1#4, 0xFFFFFFFF#32)]).lowReg 1#3 + (st [(1#4, 0xFFFFFFFF#32)]).lowReg 2#3) ∧
    ((st []).permits .read .byte 31#32 ∧ (31#32 : Word) = (st []).lowReg 1#3 + BitVec.ofNat 32 (31#5 : BitVec 5).toNat) :=
  ⟨⟨⟨by decide, by decide⟩, by decide⟩, ⟨⟨by decide, by decide⟩, by decide⟩, ⟨⟨by decide, by decide⟩, by decide⟩,
    ⟨by decide, by decide⟩, by decide⟩

theorem witness_StoreResults :
    (st [(1#4, 0xFFFFFFFC#32)]).bus.mem.wf = true ∧
    ((st [(1#4, 0xFFFFFFFC#32)]).permits .write .word 0xFFFFFFFC#32 ∧
      (0xFFFFFFFC#32 : Word) = (st [(1#4, 0xFFFFFFFC#32)]).lowReg 1#3 + (st [(1#4, 0xFFFFFFFC#32)]).lowReg 2#3) ∧
    ((st []).permits .write .word 124#32 ∧ (124#32 : Word) = (st []).lowReg 1#3 + BitVec.ofNat 32 (4 * (31#5 : BitVec 5).toNat)) ∧
    ((st []).permits .write .word 1020#32 ∧ (1020#32 : Word) = (st []).ctx.sp + BitVec.ofNat 32 (4 * (255#8 : BitVec 8).toNat)) ∧
    ((st []).permits .write .half 62#32 ∧ (62#32 : Word) = (st []).lowReg 1#3 + BitVec.ofNat 32 (2 * (31#5 : BitVec 5).toNat)) ∧
    ((st [(1#4, 0xFFFFFFFE#32)]).permits .write .half 0xFFFFFFFE#32 ∧
      (0xFFFFFFFE#32 : Word) = (st [(1#4, 0xFFFFFFFE#32)]).lowReg 1#3 + (st [(1#4, 0xFFFFFFFE#32)]).lowReg 2#3) ∧
    ((st [(1#4, 0xFFFFFFFF#32)]).permits .write .byte 0xFFFFFFFF#32 ∧
      (0xFFFFFFFF#32 : Word) = (st [(1#4, 0xFFFFFFFF#32)]).lowReg 1#3 + (st [(1#4, 0xFFFFFFFF#32)]).lowReg 2#3) ∧
    ((st []).permits .write .byte 31#32 ∧ (31#32 : Word) = (st []).lowReg 1#3 + BitVec.ofNat 32 (31#5 : BitVec 5).toNat) :=
  ⟨by decide, ⟨⟨by decide, by decide⟩, by decide⟩, ⟨⟨by decide, by decide⟩, by decide⟩, ⟨⟨by decide, by decide⟩, by decide⟩,
    ⟨⟨by decide, by decide⟩, by decide⟩, ⟨⟨by decide, by decide⟩, by decide⟩, ⟨⟨by decide, by decide⟩, by decide⟩,
    ⟨by decide, by decide⟩, by decide⟩

/-- A word load at address 1, and an aligned one where no region is. -/
theorem witness_LoadAndStoreFaults :
    (dataAccess (st [(1#4, 1#32)]) (.ldrReg 0#3 1#3 2#3) = some ⟨.read, .word, 1#32⟩ ∧
      (1#32 : Word).toNat % Width.word.bytes ≠ 0) ∧
    (dataAccess State.reset (.strhImm 0#3 1#3 31#5) = some ⟨.write, .half, 62#32⟩ ∧
      (62#32 : Word).toNat % Width.half.bytes = 0 ∧ State.reset.bus.grants ⟨.write, .half, 62#32⟩ = none) := by
  decide

/-- PUSH {LR} to the last word of the address space. -/
theorem witness_PushStoresAndLowersSp :
    1 = place (pushSet 1#1 0#8) 16 ∧ (0xFFFFFFFC#32 : Word) = (st []).ctx.sp - BitVec.ofNat 32 (4 * 1) ∧
    (st []).bus.mem.wf = true ∧ (∀ k, k < 1 → (st []).permits .write .word (nthWord 0xFFFFFFFC#32 k)) := by
  refine ⟨by decide, by decide, by decide, fun k h => ?_⟩
  obtain rfl : k = 0 := by omega
  exact ⟨by decide, by decide⟩

/-- POP {R0, PC}, the last word the last of the address space; and POP {R0}. -/
theorem witness_PopLoadsAndRaisesSp :
    2 = place (popSet 1#1 1#8) 16 ∧ 1 = place (popSet 0#1 1#8) 16 ∧
    (∀ k, k < 2 → (st [(13#4, 0xFFFFFFF8#32)]).permits .read .word (nthWord (st [(13#4, 0xFFFFFFF8#32)]).ctx.sp k)) := by
  refine ⟨by decide, by decide, fun k h => ?_⟩
  obtain rfl | rfl : k = 0 ∨ k = 1 := by omega
  · exact ⟨by decide, by decide⟩
  · exact ⟨by decide, by decide⟩

/-- STM R0!, {R0, R1}: the base is listed, and lowest. -/
theorem witness_StoreMultipleWritesBack :
    2 = place (lowSet 3#8) 16 ∧ (3#8 : BitVec 8).getLsbD (0#3 : LowReg).toNat = true ∧
    place (lowSet 3#8) (0#3 : LowReg).toNat = 0 ∧ (st []).bus.mem.wf = true ∧
    (∀ k, k < 2 → (st []).permits .write .word (nthWord ((st []).lowReg 0#3) k)) := by
  refine ⟨by decide, by decide, by decide, by decide, fun k h => ?_⟩
  obtain rfl | rfl : k = 0 ∨ k = 1 := by omega
  · exact ⟨by decide, by decide⟩
  · exact ⟨by decide, by decide⟩

/-- LDM with the base in the list, and with the base not in it. -/
theorem witness_LoadMultipleWritesBack :
    2 = place (lowSet 3#8) 16 ∧ (3#8 : BitVec 8).getLsbD (0#3 : LowReg).toNat = true ∧
    (3#8 : BitVec 8).getLsbD (7#3 : LowReg).toNat = false ∧
    (∀ k, k < 2 → (st []).permits .read .word (nthWord ((st []).lowReg 0#3) k)) := by
  refine ⟨by decide, by decide, by decide, fun k h => ?_⟩
  obtain rfl | rfl : k = 0 ∨ k = 1 := by omega
  · exact ⟨by decide, by decide⟩
  · exact ⟨by decide, by decide⟩

/-- A region of one word: the first transfer is performed, the second is not. -/
def oneWord (regs : List (RegNum × Word)) : State :=
  { st regs with bus := { (st regs).bus with regions := [tiny] } }

theorem witness_MultipleTransferFaults :
    ((0x100#32 : Word) = (oneWord [(13#4, 0x108#32)]).ctx.sp - BitVec.ofNat 32 (4 * place (pushSet 0#1 3#8) 16) ∧
      1 < place (pushSet 0#1 3#8) 16 ∧ (oneWord [(13#4, 0x108#32)]).permits .write .word (nthWord 0x100#32 0) ∧
      ¬ (oneWord [(13#4, 0x108#32)]).permits .write .word (nthWord 0x100#32 1)) ∧
    ((oneWord [(0#4, 0x100#32)]).permits .write .word (nthWord ((oneWord [(0#4, 0x100#32)]).lowReg 0#3) 0) ∧
      ¬ (oneWord [(0#4, 0x100#32)]).permits .write .word (nthWord ((oneWord [(0#4, 0x100#32)]).lowReg 0#3) 1)) ∧
    (1 < place (popSet 1#1 1#8) 16 ∧
      ¬ (oneWord [(13#4, 0x100#32)]).permits .read .word (nthWord (oneWord [(13#4, 0x100#32)]).ctx.sp 1)) ∧
    (1 < place (lowSet 3#8) 16 ∧
      ¬ (oneWord [(0#4, 0x100#32)]).permits .read .word (nthWord ((oneWord [(0#4, 0x100#32)]).lowReg 0#3) 1)) := by
  refine ⟨⟨by decide, by decide, ⟨by decide, by decide⟩, ?_⟩, ⟨⟨by decide, by decide⟩, ?_⟩, ⟨by decide, ?_⟩, by decide, ?_⟩ <;>
  · rintro ⟨-, h⟩
    revert h
    decide

/-- The requests of a transfer refused at its second word, and of one with a misaligned base. -/
theorem witness_MultipleTransferFaults_requests :
    seen (exec (.stm 0#3 3#8) (oneWord [(0#4, 0x100#32)])) (fun t => t.bus.port.map (fun e => (e.access, e.response))) =
      some [(⟨.write, .word, 0x100#32⟩, .ok), (⟨.write, .word, 0x104#32⟩, .busError)] ∧
    seen (exec (.ldm 0#3 3#8) (oneWord [(0#4, 0x102#32)])) (fun t => (t.result, t.bus.port)) = some (some .hardFault, []) ∧
    (requestsRefusedAt .read 0x100#32 1 =
      [(⟨.read, .word, 0x100#32⟩, .ok), (⟨.read, .word, 0x104#32⟩, .busError)]) ∧
    requestsRefusedAt .read 0x102#32 0 = [] := by
  decide

/-- The last word, halfword and byte of the address space, in a memory that is not empty. -/
theorem witness_LittleEndianMixedWidths :
    Memory.wf [⟨3, 1#8⟩] = true ∧ (0xFFFFFFFC : Nat) + 4 ≤ 2 ^ 32 ∧ (0xFFFFFFFE : Nat) + 2 ≤ 2 ^ 32 ∧
    (0xFFFFFFFF : Nat) + 1 ≤ 2 ^ 32 ∧
    (Memory.write [⟨3, 1#8⟩] .half 0xFFFFFFFE 0xAB10#32).read .byte 0xFFFFFFFF = 0xAB#32 ∧
    (((code [0xB510#16]).fetchHalf 0x100#32).2 = some 0xB510#16 ∧ (code [0xB510#16]).bus.mem.readByte 0x100 = 0x10#8 ∧
      (code [0xB510#16]).bus.mem.readByte 0x101 = 0xB5#8) ∧
    (encode (.bl 0#1 0#10 1#1 1#1 1#11))[1]? = some 0xF801#16 ∧
    encodeBytes (.bl 0#1 0#10 1#1 1#1 1#11) = [0x00#8, 0xF0#8, 0x01#8, 0xF8#8] := by
  decide

/-- A region with a read watchpoint and one with a write watchpoint on its first word. -/
def watched (k : WatchKind) (x : Access) : Bus :=
  { Bus.reset with regions := [{ tiny with watchpoints := [⟨k, 0x100#32, 0x103#32, [x]⟩] }] }

theorem witness_WatchpointsLatchWithoutEffect :
    ((watched .read ⟨.read, .word, 0x100#32⟩).grants ⟨.read, .word, 0x100#32⟩).isSome = true ∧
    ((watched .readWrite ⟨.write, .word, 0x100#32⟩).grants ⟨.write, .word, 0x100#32⟩).isSome = true ∧
    ((watched .breakpoint ⟨.read, .word, 0x100#32⟩).grants ⟨.read, .word, 0x100#32⟩) = none := by
  decide

/-- Entries at the two ends of the list, between two, and at a start address that is taken; the transition that adds to the
region's last address, and the one that is refused. -/
theorem witness_WatchpointsLatchWithoutEffect_insertion :
    (let w (a : Word) : Watchpoint := ⟨.read, a, a, []⟩
     let u : Watchpoint := ⟨.write, 0x101#32, 0x103#32, []⟩
     let s (p : Watchpoint) : State :=
       { st [] with bus := (watched .read ⟨.read, .word, 0x100#32⟩), commands := [.addWatchpoint p] }
     (insertWatchpoint (w 1#32) [w 2#32] = some [w 1#32, w 2#32] ∧ insertWatchpoint (w 3#32) [w 2#32] = some [w 2#32, w 3#32] ∧
       insertWatchpoint (w 2#32) [w 1#32, w 3#32] = some [w 1#32, w 2#32, w 3#32] ∧ insertWatchpoint u [w 0x101#32] = none) ∧
     seen (step (s (w 0x103#32))) (fun t => (t.reply, t.bus.regions.map (fun g => g.watchpoints.length))) =
       some (some .added, [2]) ∧
     seen (step (s (w 0x100#32))) (fun t => (t.reply, t.bus)) = some (some .alreadyPresent, (s u).bus) ∧
     seen (step (s (w 0x104#32))) (fun t => (t.reply, t.bus)) = some (some .noRegion, (s u).bus)) ∧
    strictlyOrdered [⟨.read, 1#32, 1#32, []⟩, ⟨.write, 3#32, 3#32, []⟩] ∧ bytesAt 0x100 4 0x103 :=
  ⟨by decide, by simp [strictlyOrdered], by simp [bytesAt]⟩

/-- A removal: of the entry, of one that differs in its end, of one that no region holds. -/
theorem witness_WatchpointsLatchWithoutEffect_removal :
    (let s (hi : Word) : State := { st [] with
       bus := (watched .read ⟨.read, .word, 0x100#32⟩), commands := [.removeWatchpoint .read 0x100#32 hi] }
     seen (step (s 0x103#32)) (fun t => (t.reply, t.bus.regions)) = some (none, [tiny]) ∧
     seen (step (s 0x104#32)) (fun t => (t.reply, t.bus)) = some (none, (s 0#32).bus)) := by
  decide

theorem witness_ArithmeticLaws : (0x100#32 : Word).toNat % 256 = 0 ∧ ShiftType.asr ≠ ShiftType.ror := by decide

/-- A Running machine with the given stop requests, latch and queued bytes. -/
def running (stops : List Bool) (latch : Bool) (rx : List Byte) : State :=
  { codeIn [{ wholeSpace with watchpoints := [⟨.read, 0#32, 3#32, [⟨.read, .word, 0#32⟩]⟩] }] [0x6800#16] with
    loop := .running, stops := stops, comm := ⟨rx, [], []⟩
    bus := { (codeIn [{ wholeSpace with watchpoints := [⟨.read, 0#32, 3#32, [⟨.read, .word, 0#32⟩]⟩] }] [0x6800#16]).bus with
      latch := latch } }

/-- The three reasons, each at the edge of the one before it (spec/95 U1 to U3). -/
theorem witness_RunEndsBeforeAnInstruction :
    seen (step (running [true] true [3#8])) (fun t => (t.result, t.bus.latch)) = some (some .ok, true) ∧
    seen (step (running [false] true [3#8])) (fun t => (t.result, t.bus.latch)) = some (some .watchpoint, false) ∧
    seen (step (running [] false [3#8])) (fun t => (t.result, t.comm.rx)) = some (some .interrupt, [3#8]) := by
  decide

/-- A word load hits the watchpoint, completes, and the next iteration stops (spec/95 E13). -/
theorem witness_WatchpointStopsAfterTheInstruction :
    (running [] false []).engine = .idle ∧ (running [] false []).loop = .running ∧ (running [] false []).predicate = .reference ∧
    seen (running [] false []).stepInstr (fun t => (t.result, t.bus.latch)) = some (some .ok, true) ∧
    after 2 (running [] false []) (fun t => (ended t, t.bus.latch, t.loop)) =
      some ((0x102#32, some .watchpoint), false, .stopped) := by
  decide

theorem witness_PrimaskDecidesNothing :
    seen (exec (.cps 1#1 2#4) (st [])) (·.ctx.primask) = some 1#1 ∧
    (∀ d b20 b19_16 b13, Instr.cps 1#1 2#4 ≠ .mrs d 16#8 b20 b19_16 b13) :=
  ⟨by decide, fun _ _ _ _ => nofun⟩

/-- A whole transition of a Running machine with a byte queued; MRS of PRIMASK, and MRS of CONTROL; a stuck engine. -/
theorem witness_PrimaskDecidesNothing_transition :
    ((running [] false [3#8]).showsPrimask = false ∧ (running [] false []).showsPrimask = false ∧
      seen (step ((running [] false [3#8]).withPrimask 1#1)) (fun t => (t.result, t.ctx.primask)) =
        some (some .interrupt, 1#1) ∧
      seen (step ((running [] false []).withPrimask 1#1)) (·.result) = some (some .ok)) ∧
    ((code [0xF3EF#16, 0x8010#16]).showsPrimask = true ∧ (code [0xF3EF#16, 0x8014#16]).showsPrimask = false) ∧
    (engineAt .wait [] []).withPrimask 1#1 ≠ engineAt .wait [] [] ∧
    (match step (engineAt .wait [] []) with | .fault .receiveBlocked => true | _ => false) = true := by
  decide

/-- The loopback's two sides; the payload fills the buffer. -/
theorem witness_LoopbackReconstructsThePayload :
    (engineAt .sendStart [1#8, 2#8, 0xFF#8, 0x7D#8] []).buffer.data.length ≤ (engineAt .scan [] []).buffer.cap ∧
    0x24#8 ∉ (engineAt .sendStart [1#8, 2#8, 0xFF#8, 0x7D#8] []).buffer.data ∧
    0x23#8 ∉ (engineAt .sendStart [1#8, 2#8, 0xFF#8, 0x7D#8] []).buffer.data ∧
    after 8 (engineAt .sendStart [1#8, 2#8, 0xFF#8, 0x7D#8] []) (fun t => (t.engine, t.comm.tx)) =
      some (.wait, frameOf [1#8, 2#8, 0xFF#8, 0x7D#8]) ∧
    after 10 (engineAt .scan [] (frameOf [1#8, 2#8, 0xFF#8, 0x7D#8])) (fun t => (t.engine, t.buffer.data, t.comm.tx)) =
      some (.idle, [1#8, 2#8, 0xFF#8, 0x7D#8], [0x2B#8]) := by
  decide

/-- An idle byte, a byte that fits, the first that does not. -/
theorem witness_ScanAndCaptureRules :
    (0x2B#8 : Byte) ≠ 0x24#8 ∧ (0x41#8 : Byte) ≠ 0x24#8 ∧ (0x41#8 : Byte) ≠ 0x23#8 ∧
    (engineAt .capture [1#8, 2#8, 3#8] [0x41#8]).buffer.data.length < (engineAt .capture [1#8, 2#8, 3#8] [0x41#8]).buffer.cap ∧
    (engineAt .capture [1#8, 2#8, 3#8, 4#8] [0x41#8]).buffer.cap ≤ (engineAt .capture [1#8, 2#8, 3#8, 4#8] [0x41#8]).buffer.data.length ∧
    (engineAt .capture [] [0x41#8]).comm.arrivals = [] := by
  decide

/-- Digits that are none, digits of another number, digits of the sum (spec/95 K4, K11). -/
theorem witness_ChecksumAndPollRules :
    hexValue 0x7A#8 = none ∧ (hexValue 0x66#8 = some 15#4 ∧ hexValue 0x33#8 = some 3#4 ∧ 16 * 15 + 3 ≠ (0x3F#8 : Byte).toNat) ∧
    (hexValue 0x33#8 = some 3#4 ∧ hexValue 0x46#8 = some 15#4 ∧ 16 * 3 + 15 = (0x3F#8 : Byte).toNat) ∧
    (engineAt .more [] [1#8]).comm.rx ≠ [] ∧ (engineAt .more [] []).comm.rx = [] ∧
    seen (step (engineAt (.reply false) [] [])) (fun t => (t.engine, t.comm.tx)) = some (.scan, [0x2D#8]) := by
  decide

theorem witness_ReceiveBlocksForEver :
    (engineAt .wait [] []).engine.receiving = true ∧ (engineAt .wait [] []).comm.rx = [] ∧
    (engineAt .wait [] []).comm.arrivals = [] ∧ EnginePhase.capture.receiving = true ∧
    (engineAt (.reply true) [] []).engine.receiving = false := by
  decide

/-- An empty batch with `+` behind it: the engine waits, and the next transition receives the `+`. -/
theorem witness_ReceiveBlocksForEver_arrivals :
    (let s : State := { engineAt .wait [] [] with comm := ⟨[], [[], [0x2B#8, 3#8]], []⟩ }
     s.engine.receiving = true ∧ s.comm.rx = [] ∧ s.comm.arrivals = [] :: [[0x2B#8, 3#8]] ∧
     seen (step s) (fun t => (t.engine, t.comm)) = some (.wait, ⟨[], [[0x2B#8, 3#8]], []⟩) ∧
     after 2 s (fun t => (t.engine, t.comm)) = some (.idle, ⟨[3#8], [], []⟩)) := by
  decide

theorem witness_CommandsBeginWithZeroPacketState :
    seen (step { st [] with commands := [.packetGet], packet := ⟨1#8, 2#8, 3#8⟩ }) (fun t => (t.engine, t.packet)) =
      some (.scan, ⟨0#8, 0#8, 0#8⟩) ∧
    seen (step { st [] with commands := [.packetSend], packet := ⟨1#8, 2#8, 3#8⟩ }) (fun t => (t.engine, t.packet)) =
      some (.sendStart, ⟨0#8, 0#8, 0#8⟩) := by
  decide

theorem witness_HostWriteRules :
    (let s (c : Command) : State := { st [(13#4, 0x103#32)] with commands := [c] }
     (s .readAll).engine = .idle ∧ (s .readAll).loop = .stopped ∧
     seen (step (s (.readReg .sp))) (·.reply) = some (some (.word 0x100#32)) ∧
     seen (step (s (.writeReg .xpsr 0xFFFFFFFF#32))) (·.ctx.xpsr) = some 0xFFFFFFC0#32 ∧
     seen (step (s (.writePrimask 0xFFFFFFFE#32))) (·.ctx.primask) = some 0#1 ∧
     seen (step (s (.writeAll (Vector.ofFn (fun i => if i = 13 then 7#32 else BitVec.ofNat 32 (0x100 + i.val))))))
       (fun t => (t.ctx.sp, t.ctx.xpsr, t.reg 12#4)) = some (4#32, 0x100#32, 0x10C#32) ∧
     seen (step (s .readPrimask)) (·.reply) = some (some (.word 0#32)) ∧
     seen (step (s .readAll)) (·.reply) = some (some (.registers (s .readAll).ctx.words))) := by
  decide

/-- The last two bytes of a region, and one byte beyond it. -/
theorem witness_MemoryHexRoundTrip :
    (let s (a : Word) (n : Nat) : State := { mem 0x102#32 [0xAB#8, 0xCD#8, 0xEF#8] (codeIn [tiny] []) with
       commands := [.readMem a n] }
     (((s 0x102#32 2).bus.resolve .byte 0x102#32).isSome = true ∧ ((s 0x102#32 2).bus.resolve .byte 0x103#32).isSome = true) ∧
     seen (step (s 0x102#32 2)) (fun t => (t.reply, t.bus)) = some (some (.memory [0xAB#8, 0xCD#8]), (s 0#32 0).bus) ∧
     (s 0x102#32 3).bus.resolve .byte 0x104#32 = none ∧
     seen (step (s 0x102#32 3)) (fun t => (t.reply, t.bus)) = some (some .busError, (s 0#32 0).bus)) := by
  decide

theorem witness_RegisterDumpRoundTrip :
    Context.reset.primask = (Context.reset.writeReg 0#4 1#32).primask ∧ HostReg.sp ≠ HostReg.pc := by decide

theorem witness_RunStepsUntilNotOk :
    seen (step { code [0x20FF#16] with commands := [.run, .step] }) (fun t => (t.loop, t.commands, t.ctx.pc)) =
      some (.running, [.step], 0x100#32) ∧
    (running [] false []).stops = [] ∧ (running [] false []).comm.rx = [] ∧ (running [] false []).bus.latch = false ∧
    seen (running [] false []).stepInstr (·.result) = some (some .ok) ∧
    seen ({ codeIn [wholeSpace] [0xBE00#16] with loop := .running } : State).stepInstr (·.result) = some (some .bkpt) := by
  decide

theorem witness_SendTransmitsTheFrame :
    (engineAt .sendStart [] []).engine = .sendStart ∧
    after 4 (engineAt .sendStart [] []) (fun t => (t.engine, t.comm.tx)) = some (.wait, [0x24#8, 0x23#8, 0x30#8, 0x30#8]) := by
  decide

theorem witness_AcknowledgementRules :
    (engineAt .wait [] [0x78#8]).engine = .wait ∧ (engineAt .wait [] [0x78#8]).comm.arrivals = [] ∧
    (engineAt .wait [] [0x78#8]).comm.rx = [0x78#8] := by
  decide

theorem witness_GetReturnsThePayload :
    (engineAt .scan [] (frameOf [1#8, 2#8, 3#8, 4#8])).engine = .scan ∧
    (engineAt .scan [] (frameOf [1#8, 2#8, 3#8, 4#8])).comm.rx = frameOf [1#8, 2#8, 3#8, 4#8] ∧
    0x24#8 ∉ ([1#8, 2#8, 3#8, 4#8] : List Byte) ∧ 0x23#8 ∉ ([1#8, 2#8, 3#8, 4#8] : List Byte) ∧
    [1#8, 2#8, 3#8, 4#8].length ≤ (engineAt .scan [] []).buffer.cap := by
  decide

theorem witness_CallerPredicateDecides :
    seen (step { running [false] true [3#8] with
        predicate := .scripted [⟨.interrupt, true, [(.sp, 0x20001003#32)]⟩, ⟨.ok, false, []⟩] })
      (fun t => (t.result, t.bus.latch, t.ctx.sp, t.predicate)) =
      some (some .interrupt, false, 0x20001000#32, .scripted [⟨.ok, false, []⟩]) ∧
    seen (step { running [] false [3#8] with predicate := .scripted [⟨.ok, false, []⟩] }) (fun t => (t.result, t.ctx.pc)) =
      some (some .ok, 0x102#32) := by
  decide

end Sys2Proof.Tests
end

/-! PROOFS of the family 00_scope: how a step ends (R12, R110, R111), and what a trap leaves as it was (R126). -/

section
namespace Sys2Proof.Machine

/-! ## Requests whose answer is known -/

section
variable {s s' : State}

theorem onlyBus_of_memRead {w : Width} {a : Word} {v : Option Word} (e : s.memRead w a = (s', v)) : OnlyBus s s' := by
  simpa [e] using (s.memRead_effect w a).1

theorem onlyBus_of_memWrite {w : Width} {a v : Word} {ok : Bool} (e : s.memWrite w a v = (s', ok)) : OnlyBus s s' := by
  simpa [e] using (s.memWrite_effect w a v).1

theorem onlyBus_of_loadWords {a : Word} {n : Nat} {vs : Option (List Word)} (e : s.loadWords a n = (s', vs)) :
    OnlyBus s s' := by
  simpa [e] using (s.loadWords_effect a n).1

theorem onlyBus_of_storeWords {a : Word} {vs : List Word} {ok : Bool} (e : s.storeWords a vs = (s', ok)) :
    OnlyBus s s' := by
  simpa [e] using (s.storeWords_effect a vs).1

end

/-! ## How an instruction ends -/

/-- The three ways an instruction that begins in `s` ends (R12): it traps at once; a data request fails, what came
before having touched nothing but the bus; or it commits a context and a PC, its requests all performed. -/
inductive Ends (s : State) : State → Prop where
  | trapped (x : StepResult) (hx : x = .undefined ∨ x = .unpredictable ∨ x = .bkpt) : Ends s (s.raise x)
  | faulted {s' : State} (h : OnlyBus s s') : Ends s (s'.raise .hardFault)
  | finished {s' : State} (h : OnlyBus s s') (c : Context) (p : Word) (x : StepResult)
      (hx : x = .ok ∨ x = .unsupported ∨ x = .svc) : Ends s (s'.finish c p x)

section
variable (s : State)

theorem ends_undefined : Ends s (s.raise .undefined) := .trapped _ (.inl rfl)

theorem ends_unpredictable : Ends s (s.raise .unpredictable) := .trapped _ (.inr (.inl rfl))

/-- `finish16`, `finish32`, `setLow`, `nzInto`, `shiftInto`, `addInto`, `addFlags`, `branchTo` and `exchangeTo` are
each this end, by definition. -/
theorem ends_ok (c : Context) (p : Word) : Ends s (s.finish c p .ok) := .finished (.refl s) c p _ (.inl rfl)

theorem ends_unsupported (c : Context) (p : Word) : Ends s (s.finish c p .unsupported) :=
  .finished (.refl s) c p _ (.inr (.inl rfl))

theorem ends_load (w : Width) (a : Word) (d : LowReg) (ext : Word → Word) : Ends s (s.load w a d ext) := by
  unfold State.load
  split
  · next e => exact .finished (onlyBus_of_memRead e) _ _ _ (.inl rfl)
  · next e => exact .faulted (onlyBus_of_memRead e)

theorem ends_store (w : Width) (a v : Word) : Ends s (s.store w a v) := by
  unfold State.store
  split
  · next e => exact .finished (onlyBus_of_memWrite e) _ _ _ (.inl rfl)
  · next e => exact .faulted (onlyBus_of_memWrite e)

theorem ends_barrier (b19_16 : BitVec 4) (b13 : BitVec 1) (b11_8 : BitVec 4) :
    Ends s (s.barrier .ok b19_16 b13 b11_8) := by
  unfold State.barrier
  split
  · exact ends_unpredictable s
  · exact ends_ok s _ _

/-- Every instruction ends, in one of the three ways. -/
theorem exec_ends (i : Instr) : ∃ t, exec i s = .next t ∧ Ends s t := by
  cases i with
  | movsReg | lslsImm | lsrsImm | asrsImm | addsReg | subsReg | addsImm3 | subsImm3 | movsImm8 | cmpImm8 | addsImm8
  | subsImm8 | ands | eors | lslsReg | lsrsReg | asrsReg | adcs | sbcs | rors | tst | rsbs | cmpReg | cmn | orrs | muls
  | bics | mvns | adr | addRdSp | addSp | subSp | sxth | sxtb | uxth | uxtb | rev | rev16 | revsh | nop | hintRes | b
  | bl => exact ⟨_, rfl, ends_ok s _ _⟩
  | ldrLit | ldrsbReg | ldrReg | ldrhReg | ldrbReg | ldrshReg | ldrImm | ldrbImm | ldrhImm | ldrSp =>
    exact ⟨_, rfl, ends_load s _ _ _ _⟩
  | strReg | strhReg | strbReg | strImm | strbImm | strhImm | strSp => exact ⟨_, rfl, ends_store s _ _ _⟩
  | dsb | dmb | isb => exact ⟨_, rfl, ends_barrier s _ _ _⟩
  | yield | wfe | wfi | sev => exact ⟨_, rfl, ends_unsupported s _ _⟩
  | svc => exact ⟨_, rfl, .finished (.refl s) _ _ _ (.inr (.inr rfl))⟩
  | bkpt => exact ⟨_, rfl, .trapped _ (.inr (.inr rfl))⟩
  | udf | udfW => exact ⟨_, rfl, ends_undefined s⟩
  | push | stm =>
    refine ⟨_, rfl, ?_⟩
    dsimp only
    split
    · exact ends_unpredictable s
    · split
      · next e => exact .finished (onlyBus_of_storeWords e) _ _ _ (.inl rfl)
      · next e => exact .faulted (onlyBus_of_storeWords e)
  | pop | ldm =>
    refine ⟨_, rfl, ?_⟩
    dsimp only
    split
    · exact ends_unpredictable s
    · split
      · next e => split <;> exact .finished (onlyBus_of_loadWords e) _ _ _ (.inl rfl)
      · next e => exact .faulted (onlyBus_of_loadWords e)
  | movHi | bcond =>
    refine ⟨_, rfl, ?_⟩
    split <;> exact ends_ok s _ _
  | cmpHi | bx | blx | cps =>
    refine ⟨_, rfl, ?_⟩
    split
    · exact ends_unpredictable s
    · exact ends_ok s _ _
  | addHi =>
    refine ⟨_, rfl, ?_⟩
    dsimp only
    split
    · exact ends_unpredictable s
    · split <;> exact ends_ok s _ _
  | msr | mrs =>
    refine ⟨_, rfl, ?_⟩
    split
    · exact ends_unpredictable s
    · split
      · exact ends_ok s _ _
      · exact ends_unpredictable s

end

/-! ## The fetch -/

section
variable (s : State)

/-- An aligned read is the one request `MemRead` makes, whatever the answer; a misaligned one never reaches the port. -/
theorem memRead_accesses (w : Width) (a : Word) :
    (s.memRead w a).1.bus.port.map (·.access) =
      s.bus.port.map (·.access) ++ if aligned w a then [⟨.read, w, a⟩] else [] := by
  by_cases ha : aligned w a = true
  · cases hg : s.bus.grants ⟨.read, w, a⟩ with
    | none => simp [s.memRead_busError w a ha hg, ha]
    | some g =>
      obtain ⟨l, e⟩ := s.memRead_permitted w a ⟨ha, by simp [hg]⟩
      simp [e, ha]
  · simp [s.memRead_misaligned w a (by simpa using ha), ha]

@[simp] theorem fetchHalf_state (a : Word) : (s.fetchHalf a).1 = (s.memRead .half a).1 := by
  unfold State.fetchHalf
  split <;> (next e => rw [e])

theorem fetchHalf_misaligned (a : Word) (h : aligned .half a = false) : s.fetchHalf a = (s, none) := by
  simp [State.fetchHalf, s.memRead_misaligned .half a h]

/-- The fetch is one read at PC, or behind an aligned one a second read at PC + 2 (R59). -/
theorem fetch_state :
    s.fetch.1 = (s.memRead .half s.ctx.pc).1 ∨
      aligned .half s.ctx.pc = true ∧
        s.fetch.1 = ((s.memRead .half s.ctx.pc).1.memRead .half (s.ctx.pc + 2#32)).1 := by
  by_cases hal : aligned .half s.ctx.pc = true
  · simp only [← fetchHalf_state]
    unfold State.fetch
    split
    · next e => exact .inl (by rw [e])
    · next e =>
      rw [e]
      split
      · split <;> (next e' => exact .inr ⟨hal, by rw [e']⟩)
      · exact .inl rfl
  · have hal : aligned .half s.ctx.pc = false := by simpa using hal
    exact .inl (by simp [State.fetch, fetchHalf_misaligned s _ hal, s.memRead_misaligned .half _ hal])

/-- `t` is what the fetch of a step can make of `s`: only the bus has been touched, no byte is stored, and the requests
are the reads of the halfwords at PC and PC + 2, or the first of them, or none (R59). -/
structure FetchedFrom (s t : State) : Prop where
  onlyBus : OnlyBus s t
  mem : t.bus.mem = s.bus.mem
  accesses : t.bus.port.map (·.access) <+: [⟨.read, .half, s.ctx.pc⟩, ⟨.read, .half, s.ctx.pc + 2#32⟩]

theorem fetchedFrom_clearPort : FetchedFrom s s.clearPort := ⟨⟨rfl, rfl⟩, rfl, by simp⟩

theorem fetchedFrom_fetch : FetchedFrom s s.clearPort.fetch.1 := by
  obtain ⟨hb1, hm1, -⟩ := s.clearPort.memRead_effect .half s.ctx.pc
  have ha1 := memRead_accesses s.clearPort .half s.ctx.pc
  have hb0 := (fetchedFrom_clearPort s).onlyBus
  have hcases := fetch_state s.clearPort
  simp only [State.clearPort_ctx] at hcases
  obtain h | ⟨hal, h⟩ := hcases <;> rw [h]
  · refine ⟨hb0.trans hb1, hm1, ?_⟩
    rw [ha1]
    split <;> simp
  · generalize (s.clearPort.memRead .half s.ctx.pc).1 = s1 at hb1 hm1 ha1
    obtain ⟨hb2, hm2, -⟩ := s1.memRead_effect .half (s.ctx.pc + 2#32)
    refine ⟨(hb0.trans hb1).trans hb2, hm2.trans hm1, ?_⟩
    rw [memRead_accesses, ha1, if_pos hal]
    split <;> simp

/-- The requests of a fetch, one by one. -/
theorem FetchedFrom.port {s t : State} (h : FetchedFrom s t) : t.bus.port.length ≤ 2 ∧
    ∀ e ∈ t.bus.port, e.access.kind = .read ∧ e.access.width = .half ∧
      (e.access.addr = s.ctx.pc ∨ e.access.addr = s.ctx.pc + 2#32) := by
  refine ⟨by simpa using h.accesses.length_le, fun e he => ?_⟩
  have hmem := h.accesses.subset (List.mem_map_of_mem he)
  simp only [List.mem_cons, List.not_mem_nil, or_false] at hmem
  obtain ha | ha := hmem <;> simp [ha]

/-! ## How a step ends -/

/-- Every step ends, in one of the ways of an instruction, from a state that only fetching has touched: the faults before
decoding and an encoding of no row are ends of that kind too (R110). -/
theorem stepInstr_ends : ∃ s1 t, FetchedFrom s s1 ∧ s.stepInstr = .next t ∧ Ends s1 t := by
  have hf := fetchedFrom_fetch s
  unfold State.stepInstr
  split
  · split
    · next s1 e => exact ⟨s1, _, by simpa [e] using hf, rfl, .faulted (.refl s1)⟩
    · next s1 f e =>
      have hf : FetchedFrom s s1 := by simpa [e] using hf
      split
      · exact ⟨s1, _, hf, rfl, ends_undefined s1⟩
      · next i _ =>
        obtain ⟨t, he, ht⟩ := exec_ends s1 i
        exact ⟨s1, t, hf, he, ht⟩
  · exact ⟨s.clearPort, _, fetchedFrom_clearPort s, rfl, .faulted (.refl _)⟩

end

/-- Settles O12: of the three ways a step ends, the one that commits a context answers none of the four results; the
other two raise, and a trap of the instruction's own comes before any data request. -/
theorem trapsLeaveTheContext : Obligations.TrapsLeaveTheContext := by
  intro s t x hstep hres hx
  obtain ⟨s1, t', hf, hstep', hends⟩ := stepInstr_ends s
  obtain rfl : t' = t := by simpa [hstep'] using hstep
  cases hends with
  | trapped y hy => exact ⟨hf.onlyBus.ctx, fun _ => ⟨hf.mem, hf.port⟩⟩
  | faulted hb =>
    obtain rfl : .hardFault = x := by simpa using hres
    exact ⟨hb.ctx.trans hf.onlyBus.ctx, fun hne => absurd rfl hne⟩
  | finished hb c p y hy =>
    obtain rfl : y = x := by simpa using hres
    exfalso
    obtain rfl | rfl | rfl := hy <;> simp at hx

end Sys2Proof.Machine
end

/-! PROOFS of the family 10_state: what an instruction may change, one inversion lemma for all of them
(`exec_effect`). -/

section
namespace Sys2Proof.Machine

/-! ## What an instruction may change -/

/-- Bit `k` of xPSR is one that the instruction writes: a flag of its row of R123, or T (R28). -/
def writesBit (i : Instr) (k : Nat) : Bool :=
  (k == 31 || k == 30) && writesNZ i || k == 29 && writesC i || k == 28 && writesV i || k == 24 && writesT i

/-- The context `c`, committed by the instruction in the context `c₀`, differs from it in PRIMASK and xPSR only where the
instruction writes them, and SP has been written through its mask (R22). -/
structure Commits (i : Instr) (c₀ c : Context) : Prop where
  sp : c₀.sp &&& 3#32 = 0#32 → c.sp &&& 3#32 = 0#32
  bits : ∀ k, k < 32 → writesBit i k = false → c.xpsr.getLsbD k = c₀.xpsr.getLsbD k
  primask : writesPrimask i = false → c.primask = c₀.primask

section
variable {i : Instr} {c₀ c : Context}

theorem Commits.refl (c : Context) : Commits i c c := ⟨id, fun _ _ _ => rfl, fun _ => rfl⟩

theorem Context.sp_writeReg (c : Context) (d : RegNum) (v : Word) :
    (c.writeReg d v).sp = if d = 13#4 then v &&& Config.spWriteMask else c.sp := by
  have h := c.reg_writeReg 13#4 d v
  simpa [Context.reg, eq_comm] using h

theorem Commits.writeReg (h : Commits i c₀ c) (d : RegNum) (v : Word) : Commits i c₀ (c.writeReg d v) where
  sp h0 := by
    rw [Context.sp_writeReg]
    split
    · exact and_spWriteMask_low v
    · exact h.sp h0
  bits := by simpa using h.bits
  primask := by simpa using h.primask

theorem Commits.writeRegs (h : Commits i c₀ c) (ws : List (RegNum × Word)) : Commits i c₀ (c.writeRegs ws) := by
  induction ws generalizing c with
  | nil => exact h
  | cons w ws ih => exact ih (h.writeReg w.1 w.2)

/-- A bit the instruction does not write is none of those it writes. -/
theorem ne_of_writesBit {i : Instr} {j k : Nat} (hj : writesBit i j = true) (hk : writesBit i k = false) : k ≠ j := by
  rintro rfl
  exact absurd (hj.symm.trans hk) (by decide)

theorem Commits.setNZ (h : Commits i c₀ c) (hi : writesNZ i = true) (v : Word) : Commits i c₀ (c.setNZ v) where
  sp := h.sp
  primask := h.primask
  bits k hk hw := by
    have h31 : k ≠ 31 := ne_of_writesBit (by simp [writesBit, hi]) hw
    have h30 : k ≠ 30 := ne_of_writesBit (by simp [writesBit, hi]) hw
    rw [Context.bit_setNZ c v k hk, if_neg h30, if_neg h31, h.bits k hk hw]

theorem Commits.setC (h : Commits i c₀ c) (hi : writesC i = true) (b : Bool) : Commits i c₀ (c.setC b) where
  sp := h.sp
  primask := h.primask
  bits k hk hw := by
    have h29 : k ≠ 29 := ne_of_writesBit (by simp [writesBit, hi]) hw
    rw [Context.bit_setC c b k hk, if_neg h29, h.bits k hk hw]

theorem Commits.setV (h : Commits i c₀ c) (hi : writesV i = true) (b : Bool) : Commits i c₀ (c.setV b) where
  sp := h.sp
  primask := h.primask
  bits k hk hw := by
    have h28 : k ≠ 28 := ne_of_writesBit (by simp [writesBit, hi]) hw
    rw [Context.bit_setV c b k hk, if_neg h28, h.bits k hk hw]

theorem Commits.setT (h : Commits i c₀ c) (hi : writesT i = true) (b : Bool) : Commits i c₀ (c.setT b) where
  sp := h.sp
  primask := h.primask
  bits k hk hw := by
    have h24 : k ≠ 24 := ne_of_writesBit (by simp [writesBit, hi]) hw
    rw [Context.bit_setT c b k hk, if_neg h24, h.bits k hk hw]

theorem Commits.setNZCV (h : Commits i c₀ c) (hn : writesNZ i = true) (hc : writesC i = true) (hv : writesV i = true)
    (v : Word) : Commits i c₀ (c.setNZCV v) where
  sp := h.sp
  primask := h.primask
  bits k hk hw := by
    have h31 : k ≠ 31 := ne_of_writesBit (by simp [writesBit, hn]) hw
    have h30 : k ≠ 30 := ne_of_writesBit (by simp [writesBit, hn]) hw
    have h29 : k ≠ 29 := ne_of_writesBit (by simp [writesBit, hc]) hw
    have h28 : k ≠ 28 := ne_of_writesBit (by simp [writesBit, hv]) hw
    rw [Context.bit_setNZCV c v k hk, if_neg (by omega), h.bits k hk hw]

end

/-! ## The requests of an instruction -/

/-- What the requests of the instruction make of `s`: they touch the bus only, store nothing unless the instruction writes
memory, and keep the canonical form. -/
structure Requests (i : Instr) (s s' : State) : Prop where
  onlyBus : OnlyBus s s'
  mem : writesMemory i = false → s'.bus.mem = s.bus.mem
  canonical : s.bus.mem.wf = true → s'.bus.mem.wf = true

section
variable {i : Instr} {s s' : State}

theorem Requests.refl (s : State) : Requests i s s := ⟨.refl s, fun _ => rfl, id⟩

theorem requests_memRead {w : Width} {a : Word} {v : Option Word} (e : s.memRead w a = (s', v)) : Requests i s s' := by
  obtain ⟨hb, hm, -⟩ := s.memRead_effect w a
  rw [e] at hb hm
  exact ⟨hb, fun _ => hm, fun h => hm ▸ h⟩

theorem requests_loadWords {a : Word} {n : Nat} {vs : Option (List Word)} (e : s.loadWords a n = (s', vs)) :
    Requests i s s' := by
  obtain ⟨hb, hm, -⟩ := s.loadWords_effect a n
  rw [e] at hb hm
  exact ⟨hb, fun _ => hm, fun h => hm ▸ h⟩

theorem requests_memWrite {w : Width} {a v : Word} {ok : Bool} (hi : writesMemory i = true)
    (e : s.memWrite w a v = (s', ok)) : Requests i s s' := by
  obtain ⟨hb, -, hc, -⟩ := s.memWrite_effect w a v
  rw [e] at hb hc
  exact ⟨hb, fun hn => absurd (hi.symm.trans hn) (by decide), hc⟩

theorem requests_storeWords {a : Word} {vs : List Word} {ok : Bool} (hi : writesMemory i = true)
    (e : s.storeWords a vs = (s', ok)) : Requests i s s' := by
  obtain ⟨hb, -, hc, -⟩ := s.storeWords_effect a vs
  rw [e] at hb hc
  exact ⟨hb, fun hn => absurd (hi.symm.trans hn) (by decide), hc⟩

end

/-! ## The effect of an instruction -/

/-- `t` differs from `s` in the context, the bus and the result at most, and not in the regions (R110). -/
structure OnlyExecutor (s t : State) : Prop where
  eq : t = { s with ctx := t.ctx, bus := t.bus, result := t.result }
  regions : t.bus.regions = s.bus.regions

theorem OnlyExecutor.trans {s t u : State} (h : OnlyExecutor s t) (h' : OnlyExecutor t u) : OnlyExecutor s u :=
  ⟨by rw [h'.eq, h.eq], h'.regions.trans h.regions⟩

theorem OnlyBus.onlyExecutor {s t : State} (h : OnlyBus s t) : OnlyExecutor s t := ⟨by rw [h.1], h.2⟩

/-- What the instruction can have made of `s`. -/
structure Effect (i : Instr) (s t : State) : Prop where
  onlyExecutor : OnlyExecutor s t
  commits : Commits i s.ctx t.ctx
  pc_even : s.ctx.pc.getLsbD 0 = false → t.ctx.pc.getLsbD 0 = false
  mem : writesMemory i = false → t.bus.mem = s.bus.mem
  canonical : s.bus.mem.wf = true → t.bus.mem.wf = true

section
variable {i : Instr} {s s' : State} {c : Context}

theorem Requests.raise (h : Requests i s s') (x : StepResult) : Effect i s (s'.raise x) where
  onlyExecutor := h.onlyBus.onlyExecutor.trans ⟨rfl, rfl⟩
  commits := by simpa [h.onlyBus.ctx] using Commits.refl s.ctx
  pc_even := by simp [h.onlyBus.ctx]
  mem := h.mem
  canonical := h.canonical

theorem Requests.finish (h : Requests i s s') (hc : Commits i s.ctx c) {p : Word} (x : StepResult)
    (hp : s.ctx.pc.getLsbD 0 = false → p.getLsbD 0 = false) : Effect i s (s'.finish c p x) where
  onlyExecutor := h.onlyBus.onlyExecutor.trans ⟨rfl, rfl⟩
  commits := ⟨hc.sp, hc.bits, hc.primask⟩
  pc_even := hp
  mem := h.mem
  canonical := h.canonical

theorem even_add {x y : Word} (hy : y.getLsbD 0 = false) (hx : x.getLsbD 0 = false) : (x + y).getLsbD 0 = false := by
  simp only [BitVec.getLsbD, Nat.testBit_zero, BitVec.toNat_add, decide_eq_false_iff_not] at *
  omega

theorem Requests.finish16 (h : Requests i s s') (hc : Commits i s.ctx c) : Effect i s (s'.finish16 c) :=
  h.finish hc _ (by rw [State.pc2, h.onlyBus.ctx]; exact even_add (by decide))

theorem Requests.branchTo (h : Requests i s s') (hc : Commits i s.ctx c) (a : Word) : Effect i s (s'.branchTo c a) :=
  h.finish hc _ (fun _ => getLsbD_clearBit0_zero a)

theorem Requests.exchangeTo (h : Requests i s s') (hi : writesT i = true) (hc : Commits i s.ctx c) (a : Word) :
    Effect i s (s'.exchangeTo c a) :=
  h.finish (hc.setT hi _) _ (fun _ => getLsbD_clearBit0_zero a)

end

section
variable {i : Instr} (s : State)

theorem effect_raise (x : StepResult) : Effect i s (s.raise x) := (Requests.refl s).raise x

theorem effect_finish16 {c : Context} (hc : Commits i s.ctx c) : Effect i s (s.finish16 c) :=
  (Requests.refl s).finish16 hc

theorem effect_finish32 {c : Context} (hc : Commits i s.ctx c) : Effect i s (s.finish32 c) :=
  (Requests.refl s).finish hc _ (even_add (by decide))

theorem effect_past (x : StepResult) : Effect i s (s.finish s.ctx s.pc2 x) :=
  (Requests.refl s).finish (.refl _) _ (even_add (by decide))

theorem effect_branchTo {c : Context} (hc : Commits i s.ctx c) (a : Word) : Effect i s (s.branchTo c a) :=
  (Requests.refl s).branchTo hc a

theorem effect_exchangeTo (hi : writesT i = true) {c : Context} (hc : Commits i s.ctx c) (a : Word) :
    Effect i s (s.exchangeTo c a) :=
  (Requests.refl s).exchangeTo hi hc a

theorem effect_setLow (d : LowReg) (v : Word) : Effect i s (s.setLow d v) :=
  effect_finish16 s ((Commits.refl _).writeReg _ v)

theorem effect_nzInto (hn : writesNZ i = true) (d : LowReg) (v : Word) : Effect i s (s.nzInto d v) :=
  effect_finish16 s (((Commits.refl _).writeReg _ v).setNZ hn v)

theorem effect_shiftInto (hn : writesNZ i = true) (hc : writesC i = true) (d : LowReg) (v : Word) (ty : ShiftType)
    (n : Nat) : Effect i s (s.shiftInto d v ty n) :=
  effect_finish16 s ((((Commits.refl _).writeReg _ _).setNZ hn _).setC hc _)

theorem effect_addInto (hn : writesNZ i = true) (hc : writesC i = true) (hv : writesV i = true) (d : LowReg)
    (x y : Word) (cin : Bool) : Effect i s (s.addInto d x y cin) :=
  effect_finish16 s (((((Commits.refl _).writeReg _ _).setNZ hn _).setC hc _).setV hv _)

theorem effect_addFlags (hn : writesNZ i = true) (hc : writesC i = true) (hv : writesV i = true) (x y : Word)
    (cin : Bool) : Effect i s (s.addFlags x y cin) :=
  effect_finish16 s ((((Commits.refl _).setNZ hn _).setC hc _).setV hv _)

theorem effect_load (w : Width) (a : Word) (d : LowReg) (ext : Word → Word) : Effect i s (s.load w a d ext) := by
  unfold State.load
  split
  · next s' v e =>
    refine (requests_memRead e).finish16 ?_
    rw [(onlyBus_of_memRead e).ctx]
    exact (Commits.refl _).writeReg _ _
  · next e => exact (requests_memRead e).raise _

theorem effect_store (hi : writesMemory i = true) (w : Width) (a v : Word) : Effect i s (s.store w a v) := by
  unfold State.store
  split
  · next s' e =>
    refine (requests_memWrite hi e).finish16 ?_
    rw [(onlyBus_of_memWrite e).ctx]
    exact .refl _
  · next e => exact (requests_memWrite hi e).raise _

theorem effect_barrier (b19_16 : BitVec 4) (b13 : BitVec 1) (b11_8 : BitVec 4) :
    Effect i s (s.barrier .ok b19_16 b13 b11_8) := by
  unfold State.barrier
  split
  · exact effect_raise s _
  · exact effect_finish32 s (.refl _)

end

/-- SYSm 0 to 3 are the views with the flags (R31). -/
theorem specialReg_flags {sysm : BitVec 8} (h : specialReg sysm = some .flags) : sysm.toNat ≤ 3 := by
  revert h; revert sysm; decide

/-- SYSm 16 is PRIMASK (R31). -/
theorem specialReg_primask {sysm : BitVec 8} (h : specialReg sysm = some .primask) : sysm = 16#8 := by
  revert h; revert sysm; decide

/-- What MSR commits: the flags, SP through its mask, or PRIMASK. -/
theorem commits_msr (rn : RegNum) {sysm : BitVec 8} (b20 b13 : BitVec 1) (b11_8 : BitVec 4) {k : SpecialReg}
    (hk : specialReg sysm = some k) (c : Context) (v : Word) :
    Commits (.msr rn sysm b20 b13 b11_8) c (c.writeSpecial v k) := by
  cases k with
  | flags =>
    have h3 : writesNZ (.msr rn sysm b20 b13 b11_8) = true := decide_eq_true (specialReg_flags hk)
    exact (Commits.refl c).setNZCV h3 h3 h3 v
  | zero => exact .refl c
  | msp => exact (Commits.refl c).writeReg 13#4 v
  | primask =>
    refine ⟨id, fun _ _ _ => rfl, fun h => ?_⟩
    simp [writesPrimask, specialReg_primask hk] at h

/-- Every instruction ends, and what it can have changed. -/
theorem exec_effect (i : Instr) (s : State) : ∃ t, exec i s = .next t ∧ Effect i s t := by
  cases i with
  | movsReg | movsImm8 | ands | eors | orrs | muls | bics | mvns => exact ⟨_, rfl, effect_nzInto s rfl _ _⟩
  | lslsImm | lsrsImm | asrsImm | lslsReg | lsrsReg | asrsReg | rors =>
    exact ⟨_, rfl, effect_shiftInto s rfl rfl _ _ _ _⟩
  | addsReg | subsReg | addsImm3 | subsImm3 | addsImm8 | subsImm8 | adcs | sbcs | rsbs =>
    exact ⟨_, rfl, effect_addInto s rfl rfl rfl _ _ _ _⟩
  | cmpImm8 | cmpReg | cmn => exact ⟨_, rfl, effect_addFlags s rfl rfl rfl _ _ _⟩
  | tst => exact ⟨_, rfl, effect_finish16 s ((Commits.refl _).setNZ rfl _)⟩
  | adr | addRdSp | sxth | sxtb | uxth | uxtb | rev | rev16 | revsh => exact ⟨_, rfl, effect_setLow s _ _⟩
  | addSp | subSp => exact ⟨_, rfl, effect_finish16 s ((Commits.refl _).writeReg _ _)⟩
  | nop | hintRes => exact ⟨_, rfl, effect_finish16 s (.refl _)⟩
  | yield | wfe | wfi | sev | svc => exact ⟨_, rfl, effect_past s _⟩
  | bkpt | udf | udfW => exact ⟨_, rfl, effect_raise s _⟩
  | b => exact ⟨_, rfl, effect_branchTo s (.refl _) _⟩
  | bl => exact ⟨_, rfl, effect_branchTo s ((Commits.refl _).writeReg _ _) _⟩
  | ldrLit | ldrsbReg | ldrReg | ldrhReg | ldrbReg | ldrshReg | ldrImm | ldrbImm | ldrhImm | ldrSp =>
    exact ⟨_, rfl, effect_load s _ _ _ _⟩
  | strReg | strhReg | strbReg | strImm | strbImm | strhImm | strSp => exact ⟨_, rfl, effect_store s rfl _ _ _⟩
  | dsb | dmb | isb => exact ⟨_, rfl, effect_barrier s _ _ _⟩
  | movHi =>
    refine ⟨_, rfl, ?_⟩
    split
    · exact effect_branchTo s (.refl _) _
    · exact effect_finish16 s ((Commits.refl _).writeReg _ _)
  | addHi =>
    refine ⟨_, rfl, ?_⟩
    dsimp only
    split
    · exact effect_raise s _
    · split
      · exact effect_branchTo s (.refl _) _
      · exact effect_finish16 s ((Commits.refl _).writeReg _ _)
  | cmpHi =>
    refine ⟨_, rfl, ?_⟩
    split
    · exact effect_raise s _
    · exact effect_addFlags s rfl rfl rfl _ _ _
  | bx =>
    refine ⟨_, rfl, ?_⟩
    split
    · exact effect_raise s _
    · exact effect_exchangeTo s rfl (.refl _) _
  | blx =>
    refine ⟨_, rfl, ?_⟩
    split
    · exact effect_raise s _
    · exact effect_exchangeTo s rfl ((Commits.refl _).writeReg _ _) _
  | bcond =>
    refine ⟨_, rfl, ?_⟩
    split
    · exact effect_branchTo s (.refl _) _
    · exact effect_finish16 s (.refl _)
  | cps =>
    refine ⟨_, rfl, ?_⟩
    split
    · exact effect_raise s _
    · exact effect_finish16 s ⟨id, fun _ _ _ => rfl, nofun⟩
  | msr =>
    refine ⟨_, rfl, ?_⟩
    split
    · exact effect_raise s _
    · split
      · next hk => exact effect_finish32 s (commits_msr _ _ _ _ hk _ _)
      · exact effect_raise s _
  | mrs =>
    refine ⟨_, rfl, ?_⟩
    split
    · exact effect_raise s _
    · split
      · exact effect_finish32 s ((Commits.refl _).writeReg _ _)
      · exact effect_raise s _
  | push | stm =>
    refine ⟨_, rfl, ?_⟩
    dsimp only
    split
    · exact effect_raise s _
    · split
      · next e =>
        refine (requests_storeWords rfl e).finish16 ?_
        rw [(onlyBus_of_storeWords e).ctx]
        exact (Commits.refl _).writeReg _ _
      · next e => exact (requests_storeWords rfl e).raise _
  | pop p list =>
    refine ⟨_, rfl, ?_⟩
    dsimp only
    split
    · exact effect_raise s _
    · split
      · next e =>
        rw [(onlyBus_of_loadWords e).ctx]
        split
        · next hp =>
          have hT : writesT (.pop p list) = true := by simp [writesT, hp]
          exact (requests_loadWords e).exchangeTo hT (((Commits.refl _).writeRegs _).writeReg _ _) _
        · exact (requests_loadWords e).finish16 (((Commits.refl _).writeRegs _).writeReg _ _)
      · next e => exact (requests_loadWords e).raise _
  | ldm =>
    refine ⟨_, rfl, ?_⟩
    dsimp only
    split
    · exact effect_raise s _
    · split
      · next e =>
        rw [(onlyBus_of_loadWords e).ctx]
        split
        · exact (requests_loadWords e).finish16 ((Commits.refl _).writeRegs _)
        · exact (requests_loadWords e).finish16 (((Commits.refl _).writeRegs _).writeReg _ _)
      · next e => exact (requests_loadWords e).raise _

end Sys2Proof.Machine
end

/-! PROOFS of the family 10_state: the executor's step and the packet engine keep the invariant. -/

section
namespace Sys2Proof.Machine

/-! ## The executor's step -/

section
variable {i : Instr} {s t u : State}

theorem Requests.effect (h : Requests i s t) (h' : Effect i t u) : Effect i s u where
  onlyExecutor := h.onlyBus.onlyExecutor.trans h'.onlyExecutor
  commits := h.onlyBus.ctx ▸ h'.commits
  pc_even := h.onlyBus.ctx ▸ h'.pc_even
  mem hi := (h'.mem hi).trans (h.mem hi)
  canonical hw := h'.canonical (h.canonical hw)

theorem FetchedFrom.requests (h : FetchedFrom s t) : Requests i s t := ⟨h.onlyBus, fun _ => h.mem, fun hw => h.mem ▸ hw⟩

/-! What a step does, by what its fetch answers (R110). -/

theorem stepInstr_thumbClear (ht : s.ctx.t = false) : s.stepInstr = .next (s.clearPort.raise .hardFault) := by
  simp [State.stepInstr, ht]

theorem stepInstr_fetchFails (ht : s.ctx.t = true) (hf : s.clearPort.fetch = (t, none)) :
    s.stepInstr = .next (t.raise .hardFault) := by
  simp [State.stepInstr, ht, hf]

theorem stepInstr_undecoded {f : Fetched} (ht : s.ctx.t = true) (hf : s.clearPort.fetch = (t, some f))
    (hd : decodeFetched f = none) : s.stepInstr = .next (t.raise .undefined) := by
  simp [State.stepInstr, ht, hf, hd]

theorem stepInstr_decoded {f : Fetched} (ht : s.ctx.t = true) (hf : s.clearPort.fetch = (t, some f))
    (hd : decodeFetched f = some i) : s.stepInstr = exec i t := by
  simp [State.stepInstr, ht, hf, hd]

theorem effect_of_exec (h : exec i s = .next t) : Effect i s t := by
  obtain ⟨t', e, heff⟩ := exec_effect i s
  obtain rfl : t' = t := by simpa [e] using h
  exact heff

/-- A step has the effect of some instruction: of the one it runs, or, when it runs none, of any. -/
theorem stepInstr_effect (h : s.stepInstr = .next t) : ∃ i, Effect i s t := by
  cases ht : s.ctx.t with
  | false =>
    obtain rfl := Host.Outcome.next.inj ((stepInstr_thumbClear ht).symm.trans h)
    exact ⟨.nop, (fetchedFrom_clearPort s).requests.raise _⟩
  | true =>
    have hreq (i : Instr) := (fetchedFrom_fetch s).requests (i := i)
    cases hf : s.clearPort.fetch with
    | mk s1 x =>
      rw [hf] at hreq
      cases x with
      | none =>
        obtain rfl := Host.Outcome.next.inj ((stepInstr_fetchFails ht hf).symm.trans h)
        exact ⟨.nop, (hreq _).raise _⟩
      | some f =>
        cases hd : decodeFetched f with
        | none =>
          obtain rfl := Host.Outcome.next.inj ((stepInstr_undecoded ht hf hd).symm.trans h)
          exact ⟨.nop, (hreq _).raise _⟩
        | some i => exact ⟨i, (hreq i).effect (effect_of_exec ((stepInstr_decoded ht hf hd).symm.trans h))⟩

end

/-! ## The parts of the invariant -/

section
variable {s t : State}

theorem OnlyExecutor.loop (h : OnlyExecutor s t) : t.loop = s.loop := by rw [h.eq]
theorem OnlyExecutor.predicate (h : OnlyExecutor s t) : t.predicate = s.predicate := by rw [h.eq]
theorem OnlyExecutor.stops (h : OnlyExecutor s t) : t.stops = s.stops := by rw [h.eq]
theorem OnlyExecutor.engine (h : OnlyExecutor s t) : t.engine = s.engine := by rw [h.eq]
theorem OnlyExecutor.packet (h : OnlyExecutor s t) : t.packet = s.packet := by rw [h.eq]
theorem OnlyExecutor.buffer (h : OnlyExecutor s t) : t.buffer = s.buffer := by rw [h.eq]
theorem OnlyExecutor.comm (h : OnlyExecutor s t) : t.comm = s.comm := by rw [h.eq]
theorem OnlyExecutor.commands (h : OnlyExecutor s t) : t.commands = s.commands := by rw [h.eq]
theorem OnlyExecutor.reply (h : OnlyExecutor s t) : t.reply = s.reply := by rw [h.eq]

/-- IPSR is bits 5:0 of xPSR, none of which an instruction writes (R29). -/
theorem Commits.ipsr {i : Instr} {c₀ c : Context} (h : Commits i c₀ c) : c.ipsr = c₀.ipsr := by
  apply BitVec.eq_of_getLsbD_eq
  intro k hk
  have hbit := h.bits k (by omega) (by simp [writesBit]; omega)
  simp [Context.ipsr, hk, hbit]

theorem sumRight_congr (he : t.engine = s.engine) (hp : t.packet = s.packet) (hb : t.buffer = s.buffer) :
    t.sumRight ↔ s.sumRight := by
  simp only [State.sumRight, he, hp, hb]

/-- What the executor does keeps the invariant. -/
theorem State.Inv.of_effect {i : Instr} (h : s.Inv) (e : Effect i s t) : t.Inv where
  memory_canonical := e.canonical h.memory_canonical
  sp_aligned := e.commits.sp h.sp_aligned
  ipsr_zero := e.commits.ipsr.trans h.ipsr_zero
  buffer_fits := by rw [e.onlyExecutor.buffer]; exact h.buffer_fits
  cap_positive := by rw [e.onlyExecutor.buffer]; exact h.cap_positive
  turn_taking := by rw [e.onlyExecutor.loop, e.onlyExecutor.engine]; exact h.turn_taking
  watchpoints_ordered := by rw [e.onlyExecutor.regions]; exact h.watchpoints_ordered
  sum_right := (sumRight_congr e.onlyExecutor.engine e.onlyExecutor.packet e.onlyExecutor.buffer).mpr h.sum_right

theorem State.Inv.of_stepInstr (h : s.Inv) (hs : s.stepInstr = .next t) : t.Inv := by
  obtain ⟨i, e⟩ := stepInstr_effect hs
  exact h.of_effect e

/-! ## The packet engine keeps the invariant -/

/-- The invariant says nothing about the comm channel. -/
theorem State.Inv.withComm (h : s.Inv) (c : Comm) : ({ s with comm := c } : State).Inv := { h with }

/-- `receiveChar` goes on with a byte, or waits; only the channel has changed (R270). -/
theorem receiveChar_next {go : Byte → State → State} (h : s.receiveChar go = .next t) :
    ∃ c, (∃ b, t = go b { s with comm := c }) ∨ t = { s with comm := c } := by
  unfold State.receiveChar at h
  dsimp only at h
  split at h
  · next b rest e => exact ⟨_, .inl ⟨b, by simpa using h.symm⟩⟩
  · split at h
    · cases h
    · exact ⟨_, .inr (by simpa using h.symm)⟩

theorem sumBytes_append (xs ys : List Byte) : sumBytes (xs ++ ys) = sumBytes xs + sumBytes ys := by
  induction xs with
  | nil => simp [sumBytes]
  | cons x xs ih => simp [sumBytes, ih, BitVec.add_assoc]

theorem sumBytes_singleton (b : Byte) : sumBytes [b] = b := by simp [sumBytes]

/-- With the block Stopped, a phase of the engine keeps the invariant when the buffer still fits and the checksum is
right: the context, the bus and the run loop are not the engine's (R291). -/
theorem State.Inv.of_engine (h : s.Inv) (hl : s.loop = .stopped) (hctx : t.ctx = s.ctx) (hbus : t.bus = s.bus)
    (hloop : t.loop = s.loop) (hcap : t.buffer.cap = s.buffer.cap) (hfit : t.buffer.data.length ≤ t.buffer.cap)
    (hsum : t.sumRight) : t.Inv where
  memory_canonical := hbus ▸ h.memory_canonical
  sp_aligned := hctx ▸ h.sp_aligned
  ipsr_zero := hctx ▸ h.ipsr_zero
  buffer_fits := hfit
  cap_positive := hcap ▸ h.cap_positive
  turn_taking hr := by rw [hloop, hl] at hr; cases hr
  watchpoints_ordered := hbus ▸ h.watchpoints_ordered
  sum_right := hsum

theorem inv_startCapture (h : s.Inv) (hl : s.loop = .stopped) : s.startCapture.Inv :=
  h.of_engine hl rfl rfl rfl rfl (Nat.zero_le _) rfl

theorem inv_scanByte (h : s.Inv) (hl : s.loop = .stopped) (he : s.engine = .scan) (b : Byte) : (s.scanByte b).Inv := by
  unfold State.scanByte
  split
  · exact inv_startCapture h hl
  · exact h.of_engine hl rfl rfl rfl rfl h.buffer_fits (by simp [State.sumRight, he])

theorem inv_captureByte (h : s.Inv) (hl : s.loop = .stopped) (he : s.engine = .capture) (b : Byte) :
    (s.captureByte b).Inv := by
  have hsum : s.packet.sum = sumBytes s.buffer.data := by simpa [State.sumRight, he] using h.sum_right
  have hlast : ({ s with packet := { s.packet with last := b } } : State).Inv :=
    h.of_engine hl rfl rfl rfl rfl h.buffer_fits (by simpa [State.sumRight, he] using hsum)
  unfold State.captureByte
  dsimp only
  split
  · exact inv_startCapture hlast hl
  · split
    · exact h.of_engine hl rfl rfl rfl rfl h.buffer_fits hsum
    · split
      · exact h.of_engine hl rfl rfl rfl rfl h.buffer_fits hsum
      · next hroom =>
        have hlt : s.buffer.data.length < s.buffer.cap := by simpa [Buffer.full] using hroom
        refine h.of_engine hl rfl rfl rfl rfl (by simpa using hlt) ?_
        simp [State.sumRight, he, hsum, sumBytes_append, sumBytes_singleton]

theorem inv_check1Byte (h : s.Inv) (hl : s.loop = .stopped) (he : s.engine = .check1) (b : Byte) :
    (s.check1Byte b).Inv :=
  h.of_engine hl rfl rfl rfl rfl h.buffer_fits (by simpa [State.sumRight, State.check1Byte, he] using h.sum_right)

theorem inv_check2Byte (h : s.Inv) (hl : s.loop = .stopped) {d1 : Byte} (he : s.engine = .check2 d1) (d2 : Byte) :
    (s.check2Byte d1 d2).Inv := by
  have hsum : s.packet.sum = sumBytes s.buffer.data := by simpa [State.sumRight, he] using h.sum_right
  unfold State.check2Byte
  dsimp only
  split
  · next x y _ _ =>
    refine h.of_engine hl rfl rfl rfl rfl h.buffer_fits ?_
    cases hv : x ++ y == s.packet.sum with
    | false => simp [State.sumRight]
    | true => simp [State.sumRight, hsum, eq_of_beq hv]
  · exact h.of_engine hl rfl rfl rfl rfl h.buffer_fits trivial

theorem inv_sendReply (h : s.Inv) (hl : s.loop = .stopped) {v : Bool} (he : s.engine = .reply v) :
    (s.sendReply v).Inv := by
  refine h.of_engine hl (by simp) (by simp) (by simp) (by simp) (by simpa using h.buffer_fits) ?_
  cases v with
  | false => trivial
  | true => simpa [State.sumRight, he] using h.sum_right

theorem inv_peekMore (h : s.Inv) (hl : s.loop = .stopped) : s.peekMore.Inv := by
  unfold State.peekMore
  dsimp only
  split <;> exact h.of_engine hl rfl rfl rfl rfl h.buffer_fits trivial

theorem inv_sendDollar (h : s.Inv) (hl : s.loop = .stopped) : s.sendDollar.Inv :=
  h.of_engine hl rfl rfl rfl rfl h.buffer_fits ⟨Nat.zero_le _, rfl⟩

theorem inv_sendPayloadByte (h : s.Inv) (hl : s.loop = .stopped) {i : Nat} (he : s.engine = .sendPayload i) :
    (s.sendPayloadByte i).Inv := by
  obtain ⟨hi, hsum⟩ : i ≤ s.buffer.data.length ∧ s.packet.sum = sumBytes (s.buffer.data.take i) := by
    simpa [State.sumRight, he] using h.sum_right
  unfold State.sendPayloadByte
  split
  · next b hb =>
    obtain ⟨hlt, rfl⟩ := List.getElem?_eq_some_iff.mp hb
    refine h.of_engine hl rfl rfl rfl rfl h.buffer_fits ⟨hlt, ?_⟩
    show s.packet.sum + s.buffer.data[i] = sumBytes (s.buffer.data.take (i + 1))
    rw [hsum, ← List.take_append_getElem hlt, sumBytes_append, sumBytes_singleton]
  · next hnone =>
    have hlen : s.buffer.data.length ≤ i := List.getElem?_eq_none_iff.mp hnone
    refine h.of_engine hl rfl rfl rfl rfl h.buffer_fits ?_
    simpa [State.sumRight, List.take_of_length_le hlen] using hsum

theorem inv_sendHighDigit (h : s.Inv) (hl : s.loop = .stopped) (he : s.engine = .sendHigh) : s.sendHighDigit.Inv :=
  h.of_engine hl rfl rfl rfl rfl h.buffer_fits (by simpa [State.sumRight, State.sendHighDigit, he] using h.sum_right)

theorem inv_sendLowDigit (h : s.Inv) (hl : s.loop = .stopped) : s.sendLowDigit.Inv :=
  h.of_engine hl rfl rfl rfl rfl h.buffer_fits trivial

theorem inv_waitByte (h : s.Inv) (hl : s.loop = .stopped) (he : s.engine = .wait) (b : Byte) : (s.waitByte b).Inv := by
  unfold State.waitByte
  dsimp only
  split
  · exact h.of_engine hl rfl rfl rfl rfl h.buffer_fits trivial
  · split
    · exact h.of_engine hl rfl rfl rfl rfl h.buffer_fits (by simp [State.sumRight, he])
    · exact h.of_engine hl rfl rfl rfl rfl h.buffer_fits trivial

/-- A received byte keeps the invariant when the phase that takes it does. -/
theorem inv_receiveChar (h : s.Inv) {go : Byte → State → State}
    (hgo : ∀ b c, ({ s with comm := c } : State).Inv → (go b { s with comm := c }).Inv)
    (hs : s.receiveChar go = .next t) : t.Inv := by
  obtain ⟨c, ⟨b, rfl⟩ | rfl⟩ := receiveChar_next hs
  · exact hgo b c (h.withComm c)
  · exact h.withComm c

theorem State.Inv.of_engineStep (h : s.Inv) (hne : s.engine ≠ .idle) (hs : s.engineStep = .next t) : t.Inv := by
  have hl : s.loop = .stopped := by
    cases hl : s.loop with
    | stopped => rfl
    | running => exact absurd (h.turn_taking hl) hne
  unfold State.engineStep at hs
  split at hs
  · next he => exact absurd he hne
  · next he => exact inv_receiveChar h (fun b c hc => inv_scanByte hc hl he b) hs
  · next he => exact inv_receiveChar h (fun b c hc => inv_captureByte hc hl he b) hs
  · next he => exact inv_receiveChar h (fun b c hc => inv_check1Byte hc hl he b) hs
  · next he => exact inv_receiveChar h (fun b c hc => inv_check2Byte hc hl he b) hs
  · next he => obtain rfl := Host.Outcome.next.inj hs; exact inv_sendReply h hl he
  · obtain rfl := Host.Outcome.next.inj hs; exact inv_peekMore h hl
  · obtain rfl := Host.Outcome.next.inj hs; exact inv_sendDollar h hl
  · next he => obtain rfl := Host.Outcome.next.inj hs; exact inv_sendPayloadByte h hl he
  · next he => obtain rfl := Host.Outcome.next.inj hs; exact inv_sendHighDigit h hl he
  · obtain rfl := Host.Outcome.next.inj hs; exact inv_sendLowDigit h hl
  · next he => exact inv_receiveChar h (fun b c hc => inv_waitByte hc hl he b) hs

end

end Sys2Proof.Machine
end

/-! PROOFS of the family 10_state: host commands and the run loop keep the invariant; which instruction writes
which bit. -/

section
namespace Sys2Proof.Machine

/-! ## Host commands keep the invariant -/

/-- What the invariant says of the context: SP a multiple of 4 (R22), IPSR zero (R29). -/
structure Context.Wf (c : Context) : Prop where
  sp : c.sp &&& 3#32 = 0#32
  ipsr : c.ipsr = 0#6

section
variable {s t : State} {c : Context}

/-- A write of xPSR clears IPSR (R38). -/
theorem extract_and_ipsrMask (v : Word) : (v &&& 0xFFFFFFC0#32).extractLsb' 0 6 = 0#6 := by
  have hmask : ∀ k : Fin 6, (0xFFFFFFC0#32).getLsbD k.val = false := by decide
  apply BitVec.eq_of_getLsbD_eq
  intro k hk
  simp [hmask ⟨k, hk⟩]

theorem Context.Wf.hostWrite (h : c.Wf) (k : HostReg) (v : Word) : (c.hostWrite k v).Wf := by
  cases k with
  | r | lr | pc => exact ⟨h.sp, h.ipsr⟩
  | sp => exact ⟨and_spWriteMask_low v, h.ipsr⟩
  | xpsr => exact ⟨h.sp, extract_and_ipsrMask v⟩

theorem Context.Wf.hostWrites (h : c.Wf) (ws : List (HostReg × Word)) : (c.hostWrites ws).Wf := by
  induction ws generalizing c with
  | nil => exact h
  | cons w ws ih => exact ih (h.hostWrite w.1 w.2)

theorem Context.wf_hostWriteAll (c : Context) (w : Vector Word 17) : (c.hostWriteAll w).Wf :=
  ⟨and_spWriteMask_low _, extract_and_ipsrMask _⟩

theorem State.Inv.ctx (h : s.Inv) : s.ctx.Wf := ⟨h.sp_aligned, h.ipsr_zero⟩

/-- The invariant says nothing else about the context. -/
theorem State.Inv.withCtx (h : s.Inv) (hc : c.Wf) : ({ s with ctx := c } : State).Inv :=
  { h with sp_aligned := hc.sp, ipsr_zero := hc.ipsr }

/-- Of the platform, the invariant speaks of the watchpoints only (R65). -/
theorem State.Inv.withRegions (h : s.Inv) {gs : List Region} (hg : ∀ g ∈ gs, strictlyOrdered g.watchpoints) :
    ({ s with bus := { s.bus with regions := gs } } : State).Inv :=
  { h with watchpoints_ordered := hg }

@[simp] theorem Bus.hostStore_regions (b : Bus) (a : Word) (vs : List Byte) :
    (b.hostStore a vs).regions = b.regions := by
  induction vs generalizing b a with
  | nil => rfl
  | cons v vs ih =>
    rw [Bus.hostStore, ih]
    split <;> rfl

theorem State.Inv.hostStore (h : s.Inv) (a : Word) (vs : List Byte) :
    ({ s with bus := s.bus.hostStore a vs } : State).Inv :=
  { h with
    memory_canonical := Bus.wf_hostStore _ a vs h.memory_canonical
    watchpoints_ordered := by simpa using h.watchpoints_ordered }

/-- The sorted slot keeps the strict order (R65). -/
theorem strictlyOrdered_insertWatchpoint (p : Watchpoint) {ps qs : List Watchpoint} (hps : strictlyOrdered ps)
    (h : insertWatchpoint p ps = some qs) : strictlyOrdered qs := by
  induction ps generalizing qs with
  | nil =>
    obtain rfl : [p] = qs := by simpa [insertWatchpoint] using h
    exact List.pairwise_singleton _ p
  | cons r rs ih =>
    obtain ⟨hr, hrs⟩ := List.pairwise_cons.mp hps
    simp only [insertWatchpoint] at h
    split at h
    · next hlt =>
      obtain rfl : p :: r :: rs = qs := by simpa using h
      refine List.pairwise_cons.mpr ⟨fun q hq => ?_, hps⟩
      obtain rfl | hq := List.mem_cons.mp hq
      · exact hlt
      · exact hlt.trans (hr q hq)
    · split at h
      · next hgt =>
        obtain ⟨us, hus, rfl⟩ := Option.map_eq_some_iff.mp h
        refine List.pairwise_cons.mpr ⟨fun q hq => ?_, ih hrs hus⟩
        obtain rfl | hq := (mem_insertWatchpoint p rs us hus q).mp hq
        · exact hgt
        · exact hr q hq
      · cases h

theorem strictlyOrdered_addWatchpoint (p : Watchpoint) {gs : List Region}
    (h : ∀ g ∈ gs, strictlyOrdered g.watchpoints) : ∀ g ∈ (addWatchpoint p gs).1, strictlyOrdered g.watchpoints := by
  induction gs with
  | nil => exact h
  | cons g gs ih =>
    obtain ⟨hg, hgs⟩ := List.forall_mem_cons.mp h
    simp only [addWatchpoint]
    split
    · split
      · next hps => exact List.forall_mem_cons.mpr ⟨strictlyOrdered_insertWatchpoint p hg hps, hgs⟩
      · exact h
    · exact List.forall_mem_cons.mpr ⟨hg, ih hgs⟩

theorem strictlyOrdered_removeWatchpoint {g : Region} (h : strictlyOrdered g.watchpoints) (k : WatchKind)
    (lo hi : Word) : strictlyOrdered (g.removeWatchpoint k lo hi).watchpoints := h.filter _

theorem State.Inv.of_execCommand (h : s.Inv) (hidle : s.engine = .idle) (hl : s.loop = .stopped) {cmd : Command}
    (hs : s.execCommand cmd = .next t) : t.Inv := by
  cases cmd with
  | step => exact h.of_stepInstr hs
  | run =>
    obtain rfl := Host.Outcome.next.inj hs
    exact { h with turn_taking := fun _ => hidle }
  | packetGet | packetSend =>
    obtain rfl := Host.Outcome.next.inj hs
    exact h.of_engine hl rfl rfl rfl rfl h.buffer_fits trivial
  | readReg | readPrimask | readAll | readMem =>
    obtain rfl := Host.Outcome.next.inj hs
    exact { h with }
  | writeReg k v =>
    obtain rfl := Host.Outcome.next.inj hs
    exact h.withCtx (h.ctx.hostWrite k v)
  | writePrimask v =>
    obtain rfl := Host.Outcome.next.inj hs
    exact h.withCtx ⟨h.ctx.sp, h.ctx.ipsr⟩
  | writeAll w =>
    obtain rfl := Host.Outcome.next.inj hs
    exact h.withCtx (s.ctx.wf_hostWriteAll w)
  | writeMem a bytes =>
    obtain rfl := Host.Outcome.next.inj hs
    exact h.hostStore a bytes
  | loadBuffer bytes =>
    obtain rfl := Host.Outcome.next.inj hs
    exact h.of_engine hl rfl rfl rfl rfl (List.length_take_le _ _) (by simp [State.sumRight, hidle])
  | declareRegion base size readOnly =>
    obtain rfl := Host.Outcome.next.inj hs
    refine h.withRegions (List.forall_mem_append.mpr ⟨h.watchpoints_ordered, ?_⟩)
    exact List.forall_mem_singleton.mpr List.Pairwise.nil
  | addWatchpoint p =>
    obtain rfl := Host.Outcome.next.inj hs
    exact { h.withRegions (strictlyOrdered_addWatchpoint p h.watchpoints_ordered) with }
  | removeWatchpoint k lo hi =>
    obtain rfl := Host.Outcome.next.inj hs
    refine h.withRegions (List.forall_mem_map.mpr fun g hg => ?_)
    exact strictlyOrdered_removeWatchpoint (h.watchpoints_ordered g hg) k lo hi

/-! ## The run loop keeps the invariant -/

theorem State.Inv.takeStop (h : s.Inv) : s.takeStop.1.Inv := by
  unfold State.takeStop
  split
  · exact h
  · exact { h with }

/-- The predicate consumes the latch, polls, or writes registers as the host does (R262, R263). -/
theorem State.Inv.preempt (h : s.Inv) : s.preempt.1.Inv := by
  unfold State.preempt
  split
  · unfold State.referencePreempt
    split
    · exact { h with }
    · exact { h with }
  · exact h
  · next p ps _ => exact { h.withCtx (h.ctx.hostWrites p.writes) with }

theorem State.Inv.stopped (h : s.Inv) (r : Option StepResult) :
    ({ s with loop := .stopped, result := r } : State).Inv :=
  { h with turn_taking := nofun }

theorem State.Inv.afterStep (h : s.Inv) : s.afterStep.Inv := by
  unfold State.afterStep
  split
  · exact h
  · exact h.stopped s.result

theorem State.Inv.of_runIteration (h : s.Inv) (hs : s.runIteration = .next t) : t.Inv := by
  unfold State.runIteration at hs
  dsimp only at hs
  split at hs
  · obtain rfl := Host.Outcome.next.inj hs
    exact h.takeStop.stopped _
  · split at hs
    · obtain rfl := Host.Outcome.next.inj hs
      exact h.takeStop.preempt.stopped _
    · split at hs
      · next he =>
        obtain rfl := Host.Outcome.next.inj hs
        exact (h.takeStop.preempt.of_stepInstr he).afterStep
      · cases hs
      · cases hs

end

/-- Settles O7: by who acts in the transition, the packet engine, the run loop, the executor or the host. -/
theorem transitionsKeepInvariant : Obligations.TransitionsKeepInvariant := by
  intro s t h hs
  unfold step State.advance at hs
  split at hs
  · next hidle =>
    split at hs
    · exact h.of_runIteration hs
    · next hl =>
      split at hs
      · exact h.of_stepInstr hs
      · next c cs _ =>
        have htaken : ({ s with commands := cs } : State).Inv := { h with }
        exact htaken.of_execCommand hidle hl hs
  · next hne => exact h.of_engineStep hne hs

/-- Settles O6, field by field of the invariant. -/
theorem resetMeetsInvariant : Obligations.ResetMeetsInvariant where
  memory_canonical := rfl
  sp_aligned := by decide
  ipsr_zero := by decide
  buffer_fits := Nat.zero_le _
  cap_positive := by decide
  turn_taking := nofun
  watchpoints_ordered := nofun
  sum_right := trivial

/-- Settles O5, by evaluation: the 32 bits of xPSR one by one. -/
theorem resetLeavesStatedValues : Obligations.ResetLeavesStatedValues := by
  have hxpsr : ∀ k : Fin 32, k.val ≠ 24 → State.reset.ctx.xpsr.getLsbD k.val = false := by decide
  exact ⟨by decide, by decide, by decide, by decide, by decide, by decide, by decide,
    fun k hk => hxpsr ⟨k, hk⟩, by decide, rfl⟩

/-! ## What no other instruction touches -/

/-- Settles O14: the flags are four of the bits of which `exec_effect` says who writes them. -/
theorem flagsChangeOnlyWhereListed : Obligations.FlagsChangeOnlyWhereListed := by
  intro i s t h
  have hbits := (effect_of_exec h).commits.bits
  exact ⟨fun hi => ⟨hbits 31 (by decide) (by simp [writesBit, hi]), hbits 30 (by decide) (by simp [writesBit, hi])⟩,
    fun hi => hbits 29 (by decide) (by simp [writesBit, hi]), fun hi => hbits 28 (by decide) (by simp [writesBit, hi])⟩

/-- Settles O15: T is bit 24 of xPSR, and the bits below 28 but for T are written by nobody. -/
theorem statusPrimaskAndMemoryWrittenByListedOnly : Obligations.StatusPrimaskAndMemoryWrittenByListedOnly := by
  refine ⟨fun i s t h => ?_, fun i s t h => ?_⟩
  · have hbits := (effect_of_exec h).commits.bits
    refine ⟨fun hi => hbits 24 (by decide) (by simp [writesBit, hi]), fun k hk h24 => hbits k (by omega) ?_⟩
    simp [writesBit, h24, show k ≠ 31 ∧ k ≠ 30 ∧ k ≠ 29 ∧ k ≠ 28 by omega]
  · exact ⟨(effect_of_exec h).commits.primask, (effect_of_exec h).mem⟩

/-- Settles O16: what commits a PC adds 2 or 4 to the old one, or clears bit 0 of a target. -/
theorem executorKeepsPcEven : Obligations.ExecutorKeepsPcEven := by
  intro s t h
  obtain ⟨i, e⟩ := stepInstr_effect h
  exact e.pc_even

/-- Settles O17, from what an instruction may change. -/
theorem instructionsStayInsideTheExecutor : Obligations.InstructionsStayInsideTheExecutor := by
  intro i s t h
  have e := effect_of_exec h
  have ho := e.onlyExecutor
  exact ⟨e.commits.sp, ho.regions, ho.loop, ho.predicate, ho.stops, ho.engine, ho.packet, ho.buffer, ho.comm,
    ho.commands, ho.reply⟩

end Sys2Proof.Machine
end

/-! PROOFS of the family 10_state: the faults before decoding, and results of instructions that write SP, PC or a
special register. -/

section
namespace Sys2Proof.Machine

/-! ## A step that never decodes -/

section
variable {s s1 : State}

/-- A ready machine takes the command and steps (R260). -/
theorem step_of_ready (h : s.ready) : step s = s.taken.stepInstr := by
  obtain ⟨hidle, hstopped, hcmd⟩ := h
  cases hc : s.commands with
  | nil =>
    have htaken : s.taken = s := by rw [State.taken, hc, List.tail_nil, ← hc]
    simp [step, State.advance, hidle, hstopped, hc, htaken]
  | cons c cs =>
    obtain rfl : c = .step := by simpa [hc] using hcmd
    simp [step, State.advance, hidle, hstopped, hc, State.execCommand, State.taken]

/-- A command in front is taken by a Stopped block with no packet command active (R335). -/
theorem step_of_command {c : Command} {later : List Command} (hidle : s.engine = .idle) (hstopped : s.loop = .stopped)
    (hc : s.commands = c :: later) : step s = State.execCommand { s with commands := later } c := by
  simp [step, State.advance, hidle, hstopped, hc]

theorem aligned_half (a : Word) : aligned .half a = !a.getLsbD 0 := by
  simp only [aligned, Width.bytes, BitVec.getLsbD, Nat.testBit_zero]
  rcases Nat.mod_two_eq_zero_or_one a.toNat with h | h <;> simp [h]

theorem fetch_of_none (e : s.fetchHalf s.ctx.pc = (s1, none)) : s.fetch = (s1, none) := by
  simp [State.fetch, e]

theorem fetch_of_narrow {h : Half} (e : s.fetchHalf s.ctx.pc = (s1, some h)) (hw : isWide h = false) :
    s.fetch = (s1, some (.narrow h)) := by
  simp [State.fetch, e, hw]

theorem fetch_of_wide {h : Half} (e : s.fetchHalf s.ctx.pc = (s1, some h)) (hw : isWide h = true) :
    s.fetch = ((s1.fetchHalf (s.ctx.pc + 2#32)).1, (s1.fetchHalf (s.ctx.pc + 2#32)).2.map (.wide h)) := by
  simp only [State.fetch, e, hw, if_true]
  split <;> (next e' => simp [e'])

theorem fetch_secondFails {s2 : State} {h : Half} (h1 : s.fetchHalf s.ctx.pc = (s1, some h)) (hw : isWide h = true)
    (h2 : s1.fetchHalf (s.ctx.pc + 2#32) = (s2, none)) : s.fetch = (s2, none) := by
  rw [fetch_of_wide h1 hw, h2]
  rfl

theorem fetchHalf_busError (a : Word) (ha : aligned .half a = true) (hg : s.bus.grants ⟨.read, .half, a⟩ = none) :
    s.fetchHalf a =
      ({ s with bus := { s.bus with port := s.bus.port ++ [⟨⟨.read, .half, a⟩, 0#32, .busError⟩] } }, none) := by
  simp [State.fetchHalf, s.memRead_busError .half a ha hg]

/-- The halfword a permitted fetch read answers is the one that stands at its address. -/
theorem fetchHalf_permitted (a : Word) (h : s.permits .read .half a) :
    ∃ l, s.fetchHalf a = ({ s with bus := { s.bus with
      latch := l, port := s.bus.port ++ [fetchEvent a (s.bus.mem.halfAt a.toNat)] } },
        some (s.bus.mem.halfAt a.toNat)) := by
  obtain ⟨l, e⟩ := s.memRead_permitted .half a h
  refine ⟨l, ?_⟩
  have hback : ((s.bus.mem.halfAt a.toNat).setWidth 32).setWidth 16 = s.bus.mem.halfAt a.toNat := by simp
  simp only [State.fetchHalf, e]
  exact congrArg (fun x => (_, some x)) hback

end

/-- Settles O9: each fault comes before the fetch, or from a fetch that answers `none`. -/
theorem stepFaultsBeforeDecoding : Obligations.StepFaultsBeforeDecoding := by
  refine ⟨fun s hr ht => ?_, fun s hr ht hodd => ?_, fun s hr ht heven hg => ?_, fun s g hr ht heven hg hw hg' => ?_⟩
  · exact (step_of_ready hr).trans (stepInstr_thumbClear (s := s.taken) ht)
  · have hmis : aligned .half s.ctx.pc = false := by rw [aligned_half, hodd, Bool.not_true]
    have hfetch := fetch_of_none (fetchHalf_misaligned s.taken.clearPort _ hmis)
    exact (step_of_ready hr).trans (stepInstr_fetchFails (s := s.taken) ht hfetch)
  · have hal : aligned .half s.ctx.pc = true := by rw [aligned_half, heven, Bool.not_false]
    have hfetch := fetch_of_none (fetchHalf_busError (s := s.taken.clearPort) _ hal hg)
    exact (step_of_ready hr).trans (stepInstr_fetchFails (s := s.taken) ht hfetch)
  · have hal : aligned .half s.ctx.pc = true := by rw [aligned_half, heven, Bool.not_false]
    have hal' : aligned .half (s.ctx.pc + 2#32) = true := by
      rw [aligned_half, even_add rfl heven, Bool.not_false]
    obtain ⟨l, hfirst⟩ := fetchHalf_permitted (s := s.taken.clearPort) s.ctx.pc ⟨hal, Option.isSome_of_eq_some hg⟩
    have hfetch := fetch_secondFails hfirst hw (fetchHalf_busError _ hal' hg')
    exact ⟨_, (step_of_ready hr).trans (stepInstr_fetchFails (s := s.taken) ht hfetch), rfl, rfl, rfl, rfl⟩

/-! ## Words as numbers -/

/-- A word under a mask of its high bits is the word without its low bits. -/
theorem and_shiftLeft_allOnes (x : Word) (n : Nat) (hn : n < 32) :
    x &&& (BitVec.allOnes 32 <<< n) = BitVec.ofNat 32 (x.toNat / 2 ^ n * 2 ^ n) := by
  have hshift : x &&& (BitVec.allOnes 32 <<< n) = (x >>> n) <<< n := by
    apply BitVec.eq_of_getLsbD_eq
    intro k hk
    simp only [BitVec.getLsbD_and, BitVec.getLsbD_shiftLeft, BitVec.getLsbD_ushiftRight, BitVec.getLsbD_allOnes]
    by_cases h : k < n
    · simp [h]
    · simp [h, hk, show n + (k - n) = k by omega, show k - n < 32 by omega]
  rw [hshift]
  apply BitVec.eq_of_toNat_eq
  simp [Nat.shiftLeft_eq, Nat.shiftRight_eq_div_pow]

/-- A PC write stores the even address below its target (R113). -/
theorem clearBit0_eq_evenOf (x : Word) : clearBit0 x = evenOf x := by
  have h : clearBit0 x = BitVec.ofNat 32 (x.toNat / 2 ^ 1 * 2 ^ 1) := and_shiftLeft_allOnes x 1 (by decide)
  rw [h, evenOf]
  apply BitVec.eq_of_toNat_eq
  simp only [BitVec.toNat_sub, BitVec.toNat_ofNat]
  omega

theorem align4_eq (x : Word) : align4 x = BitVec.ofNat 32 (x.toNat / 4 * 4) :=
  and_shiftLeft_allOnes x 2 (by decide)

theorem zext4_eq {w : Nat} (imm : BitVec w) : zext4 imm = BitVec.ofNat 32 (4 * imm.toNat) := by
  apply BitVec.eq_of_toNat_eq
  simp [zext4, BitVec.toNat_append, Nat.shiftLeft_eq, Nat.mul_comm]

theorem addWithCarry_result_add (x y : Word) : (addWithCarry x y false).result = x + y := by
  apply BitVec.eq_of_toNat_eq
  simp [addWithCarry]

theorem addWithCarry_result_sub (x y : Word) : (addWithCarry x (~~~y) true).result = x - y := by
  apply BitVec.eq_of_toNat_eq
  simp only [addWithCarry, BitVec.toNat_ofNat, BitVec.toNat_sub, BitVec.toNat_not, Bool.toNat_true]
  omega

/-! ## ADD and MOV on any registers -/

section
variable (s : State)

theorem exec_addHi {d m : RegNum} (h : d ≠ 15#4) :
    exec (.addHi d m) s = .next (s.finish16 (s.ctx.writeReg d (s.reg d + s.reg m))) := by
  have hleg : addHiUnpredictable d m = false := by simp [addHiUnpredictable, h]
  show execAddHi d m s = _
  simp [execAddHi, hleg, h, addWithCarry_result_add]

theorem exec_addHi_pc {m : RegNum} (h : m ≠ 15#4) :
    exec (.addHi 15#4 m) s = .next (s.branchTo s.ctx (s.reg 15#4 + s.reg m)) := by
  have hleg : addHiUnpredictable 15#4 m = false := by simp [addHiUnpredictable, h]
  show execAddHi 15#4 m s = _
  simp [execAddHi, hleg, addWithCarry_result_add]

theorem exec_movHi {d m : RegNum} (h : d ≠ 15#4) :
    exec (.movHi d m) s = .next (s.finish16 (s.ctx.writeReg d (s.reg m))) := by
  show execMovHi d m s = _
  simp [execMovHi, h]

end

/-- Settles O22: with destination 15 a branch, otherwise one register write. -/
theorem highRegisterAddAndMove : Obligations.HighRegisterAddAndMove := by
  refine ⟨fun s d m hd => ⟨?_, ?_⟩, fun s m hm => ?_, fun s m => ?_, fun s => ?_⟩
  · exact writes_finish s _ d _ _ _ hd rfl (exec_addHi s hd)
  · exact writes_finish s _ d _ _ _ hd rfl (exec_movHi s hd)
  · exact branches_branchTo s _ _ _ (clearBit0_eq_evenOf _) (exec_addHi_pc s hm)
  · exact branches_branchTo s _ _ _ (clearBit0_eq_evenOf _) rfl
  · exact raises_raise s _ _ rfl

/-! ## Address arithmetic -/

/-- Settles O24: each is one register write; the immediates and the PC base are turned into numbers. -/
theorem addressArithmetic : Obligations.AddressArithmetic := by
  refine ⟨fun s d imm8 => ⟨?_, ?_⟩, fun s imm7 => ⟨?_, ?_⟩⟩
  · have hbase : s.literalBase + zext4 imm8 = BitVec.ofNat 32 (s.ctx.pc.toNat / 4 * 4 + 4 + 4 * imm8.toNat) := by
      rw [State.literalBase, align4_eq, zext4_eq, BitVec.ofNat_add, BitVec.ofNat_add]
    exact hbase ▸ writes_setLow s _ d _ rfl
  · exact zext4_eq imm8 ▸ writes_setLow s _ d _ rfl
  · exact zext4_eq imm7 ▸ writes_finish s _ 13#4 _ _ _ (by decide) rfl rfl
  · refine writes_finish s _ 13#4 (s.ctx.sp - BitVec.ofNat 32 (4 * imm7.toNat)) _ _ (by decide) rfl ?_
    rw [← zext4_eq, ← addWithCarry_result_sub]
    rfl

/-! ## MSR and MRS -/

section
variable {s : State} {sysm : BitVec 8} {k : SpecialReg}

/-- A legal MSR (R251). -/
theorem exec_msr {n : RegNum} (h13 : n ≠ 13#4) (h15 : n ≠ 15#4) (hk : specialReg sysm = some k) :
    exec (.msr n sysm 0#1 0#1 0b1000#4) s = .next (s.finish32 (s.ctx.writeSpecial (s.reg n) k)) := by
  show execMsr n sysm 0#1 0#1 0b1000#4 s = _
  simp [execMsr, msrUnpredictable, h13, h15, hk]

/-- A legal MRS (R252). -/
theorem exec_mrs {d : RegNum} (h13 : d ≠ 13#4) (h15 : d ≠ 15#4) (hk : specialReg sysm = some k) :
    exec (.mrs d sysm 0#1 0b1111#4 0#1) s = .next (s.finish32 (s.ctx.writeReg d (s.ctx.readSpecial k))) := by
  show execMrs d sysm 0#1 0b1111#4 0#1 s = _
  simp [execMrs, mrsUnpredictable, h13, h15, hk]

theorem specialReg_of_le (h : sysm.toNat ≤ 3) : specialReg sysm = some .flags := by
  revert h; revert sysm; decide

theorem specialReg_of_zero (h : sysm = 5#8 ∨ sysm = 6#8 ∨ sysm = 7#8 ∨ sysm = 9#8 ∨ sysm = 20#8) :
    specialReg sysm = some .zero := by
  revert h; revert sysm; decide

/-- The APSR as a number: the four flags above zeros (R31). -/
theorem Context.apsr_eq (c : Context) : c.apsr = BitVec.ofNat 32
    (2 ^ 31 * c.n.toNat + 2 ^ 30 * c.z.toNat + 2 ^ 29 * c.c.toNat + 2 ^ 28 * c.v.toNat) := by
  have h : ∀ n z c v : Bool, BitVec.ofBool n ++ BitVec.ofBool z ++ BitVec.ofBool c ++ BitVec.ofBool v ++ 0#28 =
      BitVec.ofNat 32 (2 ^ 31 * n.toNat + 2 ^ 30 * z.toNat + 2 ^ 29 * c.toNat + 2 ^ 28 * v.toNat) := by decide
  exact h c.n c.z c.c c.v

theorem extractLsb'_zero_one (v : Word) : v.extractLsb' 0 1 = BitVec.ofBool (v.getLsbD 0) := by
  apply BitVec.eq_of_getLsbD_eq
  intro k hk
  obtain rfl : k = 0 := by omega
  simp

/-- An MRS of a register that reads `v`. -/
theorem writes_mrs {d : RegNum} (h13 : d ≠ 13#4) (h15 : d ≠ 15#4) (hk : specialReg sysm = some k) {v : Word}
    (hv : s.ctx.readSpecial k = v) : Writes (.mrs d sysm 0#1 0b1111#4 0#1) s 4#32 d v :=
  writes_finish s _ d v v 4#32 h15 (by simp [h13]) (hv ▸ exec_mrs h13 h15 hk)

end

/-- Settles O29, by the special register that SYSm names. -/
theorem specialRegisterMoves : Obligations.SpecialRegisterMoves := by
  refine ⟨fun s n sysm h13 h15 => ⟨fun h => ?_, fun h => ?_, fun h => ?_, fun h => ?_⟩,
    fun s d sysm h13 h15 => ⟨fun h => ?_, fun h => ?_, fun h => ?_, fun h => ?_⟩⟩
  · have hbit := fun k hk hle => (s.ctx.bit_setNZCV (s.reg n) k hk).trans (if_pos hle)
    refine ⟨_, exec_msr h13 h15 (specialReg_of_le h), ⟨rfl, rfl⟩, hbit 31 (by decide) (by decide),
      hbit 30 (by decide) (by decide), hbit 29 (by decide) (by decide), hbit 28 (by decide) (by decide), ?_, rfl⟩
    refine frame_finish s _ _ _ _ _ (fun i hi _ => Context.reg_congr _ _ i hi rfl rfl rfl) (fun k hk hn => ?_) rfl
    simp only [List.mem_cons, List.not_mem_nil, or_false, not_or] at hn
    exact (s.ctx.bit_setNZCV _ k hk).trans (if_neg (by omega))
  · subst h
    exact writes_finish s _ 13#4 _ _ _ (by decide) rfl (exec_msr (k := .msp) h13 h15 rfl)
  · subst h
    have hframe := frame_finish s s.ctx s.pc4 .ok [] [] (fun _ _ _ => rfl) (fun _ _ _ => rfl) rfl
    exact ⟨_, exec_msr h13 h15 rfl, ⟨rfl, rfl⟩, extractLsb'_zero_one _, { hframe with }, rfl⟩
  · exact endsPast_finish s _ _ _ (exec_msr h13 h15 (specialReg_of_zero h))
  · exact writes_mrs h13 h15 (specialReg_of_le h) s.ctx.apsr_eq
  · subst h
    exact writes_mrs h13 h15 rfl rfl
  · subst h
    exact writes_mrs (k := .primask) h13 h15 rfl (BitVec.ofNat_toNat _ _).symm
  · exact writes_mrs h13 h15 (specialReg_of_zero h) rfl

end Sys2Proof.Machine
end

/-! PROOFS of the family 10_state: the host's view of the context, register by register and as the register dump. -/

section
namespace Sys2Proof.Machine

/-! ## Host writes -/

section
variable (c : Context)

theorem Context.hostRead_hostWrite_ne {j k : HostReg} (h : j ≠ k) (v : Word) :
    (c.hostWrite k v).hostRead j = c.hostRead j := by
  cases k with
  | r i =>
    cases j with
    | r l =>
      have hne : i.val ≠ l.val := fun e => h (congrArg HostReg.r (Fin.ext e.symm))
      exact Vector.getElem_set_ne i.isLt l.isLt hne
    | sp | lr | pc | xpsr => rfl
  | sp => cases j with | sp => exact absurd rfl h | _ => rfl
  | lr => cases j with | lr => exact absurd rfl h | _ => rfl
  | pc => cases j with | pc => exact absurd rfl h | _ => rfl
  | xpsr => cases j with | xpsr => exact absurd rfl h | _ => rfl

theorem Context.hostWrite_primask (k : HostReg) (v : Word) : (c.hostWrite k v).primask = c.primask := by
  cases k <;> rfl

theorem Context.hostRead_hostWriteAll_r (w : Vector Word 17) (i : Fin 13) :
    (c.hostWriteAll w).hostRead (.r i) = w[i.val] := by
  fin_cases i <;> rfl

end

/-- Settles O58, register by register. -/
theorem hostWriteRules : Obligations.HostWriteRules := by
  refine ⟨fun c k v => ⟨?_, fun j hj => c.hostRead_hostWrite_ne hj v, c.hostWrite_primask k v,
    extractLsb'_zero_one v, fun j => ?_⟩, fun c w k => ⟨?_, rfl⟩, fun s later k v w hidle hstopped => ?_⟩
  · cases k with
    | r i => exact Vector.getElem_set_self _
    | sp | lr | pc | xpsr => rfl
  · cases j <;> rfl
  · cases k with
    | r i => exact c.hostRead_hostWriteAll_r w i
    | sp | lr | pc | xpsr => rfl
  · have hstep := fun c hc => step_of_command (c := c) (later := later) hidle hstopped hc
    refine ⟨hstep _, hstep _, hstep _, hstep _, fun hc => ?_, hstep _⟩
    rw [hstep _ hc, BitVec.ofNat_toNat]
    rfl

/-! ## Digits, bytes and words -/

/-- A place in blocks of equal length: block `i`, offset `j`. -/
theorem getElem?_flatMap_block {α β : Type} (f : α → List β) (n : Nat) (hf : ∀ x, (f x).length = n) (xs : List α)
    (i j : Nat) (hj : j < n) : (xs.flatMap f)[n * i + j]? = xs[i]?.bind (fun x => (f x)[j]?) := by
  induction xs generalizing i with
  | nil => simp
  | cons x xs ih =>
    rw [List.flatMap_cons]
    cases i with
    | zero => simp [List.getElem?_append_left, hf, hj]
    | succ i =>
      rw [List.getElem?_append_right (by rw [hf, Nat.mul_succ]; omega), hf, List.getElem?_cons_succ, ← ih i]
      congr 1
      rw [Nat.mul_succ]
      omega

theorem length_flatMap_block {α β : Type} (f : α → List β) (n : Nat) (hf : ∀ x, (f x).length = n) (xs : List α) :
    (xs.flatMap f).length = n * xs.length := by
  simp [List.length_flatMap, hf, Nat.mul_comm]

theorem length_hexOfBytes (bs : List Byte) : (hexOfBytes bs).length = 2 * bs.length :=
  length_flatMap_block _ 2 (fun _ => rfl) bs

theorem length_bytesOfWords (ws : List Word) : (ws.flatMap bytesOfWord).length = 4 * ws.length :=
  length_flatMap_block _ 4 (fun _ => rfl) ws

/-- A digit the engine emits is read as its value (R274). -/
theorem hexValue_hexDigit (v : BitVec 4) : hexValue (hexDigit v) = some v := by
  revert v; decide

theorem nibbles_append (b : Byte) : b.extractLsb' 4 4 ++ b.extractLsb' 0 4 = b := by
  revert b; decide

theorem bytesOfHex_hexOfBytes (bs : List Byte) : bytesOfHex (hexOfBytes bs) = some bs := by
  induction bs with
  | nil => rfl
  | cons b bs ih =>
    show bytesOfHex (hexDigit (b.extractLsb' 4 4) :: hexDigit (b.extractLsb' 0 4) :: hexOfBytes bs) = _
    simp only [bytesOfHex, hexValue_hexDigit, ih, nibbles_append]

theorem bytes_append (w : Word) :
    w.extractLsb' 24 8 ++ w.extractLsb' 16 8 ++ w.extractLsb' 8 8 ++ w.extractLsb' 0 8 = w := by
  rw [BitVec.extractLsb'_append_extractLsb'_eq_extractLsb' (show 24 = 16 + 8 from rfl),
    BitVec.extractLsb'_append_extractLsb'_eq_extractLsb' (show 16 = 8 + 8 from rfl),
    BitVec.extractLsb'_append_extractLsb'_eq_extractLsb' (show 8 = 0 + 8 from rfl)]
  exact BitVec.extractLsb'_eq_self

theorem extract_nibble (w : Word) (m i : Nat) (hi : i + 4 ≤ 8) :
    (w.extractLsb' m 8).extractLsb' i 4 = w.extractLsb' (m + i) 4 := by
  apply BitVec.eq_of_getLsbD_eq
  intro k hk
  simp [hk, show i + k < 8 by omega, Nat.add_assoc]

theorem wordsOfBytes_bytesOfWords (ws : List Word) : wordsOfBytes (ws.flatMap bytesOfWord) = ws := by
  induction ws with
  | nil => rfl
  | cons w ws ih =>
    rw [List.flatMap_cons]
    show (_ :: wordsOfBytes (ws.flatMap bytesOfWord)) = _
    rw [ih, bytes_append]

/-! ## The register dump -/

section
variable (c : Context)

theorem Context.length_dump : c.dump.length = 136 := by
  rw [Context.dump, length_hexOfBytes, length_bytesOfWords, Vector.length_toList]

/-- Byte `j` of word `k` of the dump is its two digits, high digit first (R295). -/
theorem Context.getElem?_dump (k : Fin 17) {j e : Nat} (hj : j < 4) (he : e < 2) :
    c.dump[8 * k.val + 2 * j + e]? = (hexOfByte (c.words[k].extractLsb' (8 * j) 8))[e]? := by
  have hbyte : (bytesOfWord c.words[k])[j]? = some (c.words[k].extractLsb' (8 * j) 8) := by
    interval_cases j <;> rfl
  have hword : c.words.toList[k.val]? = some c.words[k] := by simp
  rw [show 8 * k.val + 2 * j + e = 2 * (4 * k.val + j) + e by omega]
  unfold Context.dump hexOfBytes
  rw [getElem?_flatMap_block hexOfByte 2 (fun _ => rfl) _ _ _ he,
    getElem?_flatMap_block bytesOfWord 4 (fun _ => rfl) _ _ _ hj, hword, Option.bind_some, hbyte, Option.bind_some]

/-- R0 to R12, one by one. -/
theorem Context.r_eq : c.r = #v[c.r[0], c.r[1], c.r[2], c.r[3], c.r[4], c.r[5], c.r[6], c.r[7], c.r[8], c.r[9], c.r[10],
    c.r[11], c.r[12]] := by
  apply Vector.ext
  intro i hi
  interval_cases i <;> rfl

theorem Context.toList_words : c.words.toList = c.r.toList ++ [c.sp, c.lr, c.pc, c.xpsr] := by
  conv_rhs => rw [c.r_eq]
  rfl

theorem parseDump_dump : parseDump c.dump = some c.words := by
  have hbytes : bytesOfHex c.dump = some (c.words.toList.flatMap bytesOfWord) := bytesOfHex_hexOfBytes _
  have hwords : wordsOfBytes (c.words.toList.flatMap bytesOfWord) = c.words.toList := wordsOfBytes_bytesOfWords _
  have hlen : (c.words.toList.flatMap bytesOfWord).length = 68 := by rw [length_bytesOfWords, Vector.length_toList]
  simp only [parseDump, hbytes]
  rw [dif_pos ⟨by rw [hwords, Vector.length_toList], hlen⟩]
  simp [hwords, Vector.toArray_toList]

/-- The words written back: SP through its mask, IPSR cleared (R38). -/
theorem hostWriteAll_words {d : Context} (h : d.primask = c.primask) : d.hostWriteAll c.words =
    { c with sp := c.sp &&& 0xFFFFFFFC#32, xpsr := c.xpsr &&& 0xFFFFFFC0#32 } := by
  have hr : (d.hostWriteAll c.words).r = c.r := c.r_eq.symm
  exact Context.mk.injEq .. |>.mpr ⟨hr, rfl, rfl, rfl, rfl, h⟩

end

/-- Settles O59: the dump is made of blocks of equal length, and each layer of it is read back. -/
theorem registerDumpRoundTrip : Obligations.RegisterDumpRoundTrip := by
  intro c
  refine ⟨c.length_dump, c.toList_words, fun k j hj => ⟨?_, ?_⟩, c.words, parseDump_dump c,
    fun d hd => hostWriteAll_words c hd⟩
  · rw [← extract_nibble _ _ 4 (by decide)]
    exact c.getElem?_dump k hj (e := 0) (by decide)
  · rw [← Nat.add_zero (8 * j), ← extract_nibble _ _ 0 (by decide), Nat.add_zero]
    exact c.getElem?_dump k hj (e := 1) (by decide)

end Sys2Proof.Machine
end

/-! PROOFS of the family 10_state: register lists and their places in a transfer (R93, R229), PUSH and POP. -/

section
namespace Sys2Proof.Machine

/-! ## Register lists -/

section
variable (set : BitVec 16)

/-- Each member of a filtered range stands at the place counted by the members before it. -/
theorem map_place_filter_range (p : Nat → Bool) (n : Nat) :
    ((List.range n).filter p).map (fun i => ((List.range i).filter p).length) =
      List.range ((List.range n).filter p).length := by
  induction n with
  | zero => rfl
  | succ n ih =>
    rw [List.range_succ, List.filter_append, List.map_append, ih]
    cases hp : p n <;> simp [hp, List.range_succ]

/-- Both lists of a set's registers are the same (R93). -/
theorem registersIn_eq_listed : registersIn set = listed set := by
  have hall : allRegs = (List.range 16).map (BitVec.ofNat 4) := by decide
  rw [registersIn, hall, List.filter_map, listed]
  refine congrArg _ (List.filter_congr fun k hk => ?_)
  have hk : k < 2 ^ 4 := by simpa using hk
  simp only [Function.comp_apply, BitVec.toNat_ofNat, Nat.mod_eq_of_lt hk]

theorem mem_registersIn (i : RegNum) : i ∈ registersIn set ↔ set.getLsbD i.toNat = true := by
  have hall : ∀ i : RegNum, i ∈ allRegs := by decide
  simp [registersIn, hall i]

theorem length_registersIn : (registersIn set).length = place set 16 := by
  simp [registersIn_eq_listed, listed, place]

theorem place_le (n : Nat) : place set n ≤ n :=
  (List.length_filter_le _ _).trans_eq List.length_range

/-- The registers of a set take the places 0, 1, 2 and so on of the transfer, in their order (R229). -/
theorem map_place_registersIn : (registersIn set).map (fun i => place set i.toNat) = List.range (place set 16) := by
  have hplace := map_place_filter_range (fun k => set.getLsbD k) 16
  rw [registersIn_eq_listed, listed, List.map_map, place, ← hplace]
  refine List.map_congr_left fun k hk => ?_
  have hk : k < 2 ^ 4 := by simpa using (List.mem_filter.mp hk).1
  simp only [Function.comp_apply, BitVec.toNat_ofNat, Nat.mod_eq_of_lt hk, place]

/-- Place `k` of the transfer holds what the registers of the set hold there. -/
theorem map_range_place {α : Type} (f : Nat → α) :
    (List.range (place set 16)).map f = (registersIn set).map (fun i => f (place set i.toNat)) := by
  rw [← map_place_registersIn, List.map_map]
  rfl

/-- The register stands in the list at its place. -/
theorem getElem?_registersIn_place {i : RegNum} (h : set.getLsbD i.toNat = true) :
    (registersIn set)[place set i.toNat]? = some i := by
  obtain ⟨k, hk, rfl⟩ := List.getElem_of_mem ((mem_registersIn set i).mpr h)
  have hmap := congrArg (·[k]?) (map_place_registersIn set)
  have hk' : k < place set 16 := length_registersIn set ▸ hk
  have hplace : place set (registersIn set)[k].toNat = k := by simpa [hk, hk'] using hmap
  rw [hplace]
  exact List.getElem?_eq_getElem hk

end

/-! ## Registers written from a list -/

section
variable (c : Context)

@[simp] theorem Context.writeRegs_xpsr (ws : List (RegNum × Word)) : (c.writeRegs ws).xpsr = c.xpsr := by
  induction ws generalizing c with
  | nil => rfl
  | cons w ws ih => exact (ih _).trans (c.writeReg_xpsr w.1 w.2)

@[simp] theorem Context.writeRegs_primask (ws : List (RegNum × Word)) : (c.writeRegs ws).primask = c.primask := by
  induction ws generalizing c with
  | nil => rfl
  | cons w ws ih => exact (ih _).trans (c.writeReg_primask w.1 w.2)

theorem Context.reg_writeRegs_of_notMem (ws : List (RegNum × Word)) {d : RegNum} (h : d ∉ ws.map Prod.fst) :
    (c.writeRegs ws).reg d = c.reg d := by
  induction ws generalizing c with
  | nil => rfl
  | cons w ws ih =>
    obtain ⟨hw, hws⟩ : d ≠ w.1 ∧ d ∉ ws.map Prod.fst := by simpa using h
    exact (ih _ hws).trans (c.reg_writeReg_ne d w.1 w.2 hw)

/-- A listed register other than SP and PC reads what the list gives it. -/
theorem Context.reg_writeRegs_map (regs : List RegNum) (f : RegNum → Word) {d : RegNum} (hd : d ∈ regs)
    (h13 : d ≠ 13#4) (h15 : d ≠ 15#4) : (c.writeRegs (regs.map fun i => (i, f i))).reg d = f d := by
  induction regs generalizing c with
  | nil => cases hd
  | cons i regs ih =>
    rw [List.map_cons, Context.writeRegs]
    by_cases hmem : d ∈ regs
    · exact ih _ hmem
    · obtain rfl : d = i := (List.mem_cons.mp hd).resolve_right hmem
      rw [Context.reg_writeRegs_of_notMem _ _ (by simpa using hmem)]
      exact c.reg_writeReg_same d _ h13 h15

end

/-! ## Multiple transfers of a register list -/

/-- The registers of the set have been stored from `start` on, each at its place, one request each (R229). -/
structure StoredListed (s s' : State) (set : BitVec 16) (start : Word) : Prop where
  onlyBus : OnlyBus s s'
  words : ∀ i : RegNum, set.getLsbD i.toNat = true →
    s'.bus.mem.wordAt (nthWord start (place set i.toNat)).toNat = s.reg i
  others : ∀ x, ¬ (∃ k, k < place set 16 ∧ bytesAt (nthWord start k).toNat 4 x) →
    s'.bus.mem.readByte x = s.bus.mem.readByte x
  accesses : s'.bus.port.map (·.access) = s.bus.port.map (·.access) ++
    (List.range (place set 16)).map (fun k => ⟨.write, .word, nthWord start k⟩)

theorem storeWords_listed (s : State) (set : BitVec 16) (start : Word) (hw : s.bus.mem.wf = true)
    (hp : ∀ k, k < place set 16 → s.permits .write .word (nthWord start k)) :
    ∃ s', s.storeWords start ((registersIn set).map s.reg) = (s', true) ∧ StoredListed s s' set start := by
  have hlen : ((registersIn set).map s.reg).length = place set 16 := by rw [List.length_map, length_registersIn]
  obtain ⟨hok, hwords⟩ := s.storeWords_permitted start _ (hlen ▸ place_le set 16) hw (hlen ▸ hp)
  obtain ⟨honly, hothers, -, -⟩ := s.storeWords_effect start ((registersIn set).map s.reg)
  refine ⟨_, Prod.ext rfl hok, honly, fun i hi => ?_, fun x hx => hothers x fun k hk hb => hx ⟨k, hlen ▸ hk, hb⟩, ?_⟩
  · obtain ⟨hk, hget⟩ := List.getElem?_eq_some_iff.mp (getElem?_registersIn_place set hi)
    rw [hwords _ (by simpa using hk), List.getElem_map, hget]
  · rw [s.storeWords_accesses start _ (hlen ▸ hp), hlen]

/-- The words at the places of the set have been loaded, one request each (R229). -/
structure LoadedListed (s s' : State) (set : BitVec 16) (start : Word) : Prop where
  onlyBus : OnlyBus s s'
  mem : s'.bus.mem = s.bus.mem
  accesses : s'.bus.port.map (·.access) = s.bus.port.map (·.access) ++
    (List.range (place set 16)).map (fun k => ⟨.read, .word, nthWord start k⟩)

theorem loadWords_listed (s : State) (set : BitVec 16) (start : Word)
    (hp : ∀ k, k < place set 16 → s.permits .read .word (nthWord start k)) :
    ∃ s', s.loadWords start (registersIn set).length =
        (s', some ((List.range (place set 16)).map fun k => s.bus.mem.wordAt (nthWord start k).toNat)) ∧
      LoadedListed s s' set start := by
  obtain ⟨honly, hmem, -⟩ := s.loadWords_effect start (place set 16)
  rw [length_registersIn]
  exact ⟨_, Prod.ext rfl (s.loadWords_permitted start _ hp), honly, hmem, s.loadWords_accesses start _ hp⟩

/-- The registers of the set paired with the words of their places. -/
theorem zip_registersIn (set : BitVec 16) (word : Nat → Word) :
    (registersIn set).zip ((List.range (place set 16)).map word) =
      (registersIn set).map (fun i => (i, word (place set i.toNat))) := by
  rw [map_range_place, List.map_prod_left_eq_zip]

/-- The frame of `finish` behind requests that have touched the bus only. -/
theorem frame_finish_behind {s s' : State} (h : OnlyBus s s') {c : Context} (p : Word) (x : StepResult)
    {regs : List RegNum} {bits : List Nat} {stored : Nat → Prop}
    (hm : ∀ a, ¬ stored a → s'.bus.mem.readByte a = s.bus.mem.readByte a)
    (hr : ∀ i : RegNum, i ≠ 15#4 → i ∉ regs → c.reg i = s.ctx.reg i)
    (hb : ∀ k, k < 32 → k ∉ bits → c.xpsr.getLsbD k = s.ctx.xpsr.getLsbD k)
    (hp : c.primask = s.ctx.primask) : Frame s (s'.finish c p x) regs bits stored := by
  rw [← h.ctx] at hr hb hp
  exact ((frame_onlyBus s h stored hm).trans (frame_finish s' c p x regs bits hr hb hp)).weaken (by simp) (by simp)
    (by simp [nowhere])

/-! ## PUSH -/

theorem registersIn_ne_nil {set : BitVec 16} (h : place set 16 ≠ 0) : registersIn set ≠ [] :=
  List.ne_nil_of_length_pos (by rw [length_registersIn]; omega)

theorem listBytes_registersIn (set : BitVec 16) :
    listBytes (registersIn set) = BitVec.ofNat 32 (4 * place set 16) := by
  rw [listBytes, length_registersIn]

theorem exec_push {s s' : State} {m : BitVec 1} {list : BitVec 8} {start : Word}
    (hne : place (pushSet m list) 16 ≠ 0)
    (hstart : start = s.ctx.sp - BitVec.ofNat 32 (4 * place (pushSet m list) 16))
    (hs : s.storeWords start ((registersIn (pushSet m list)).map s.reg) = (s', true)) :
    exec (.push m list) s = .next (s'.finish16 (s'.ctx.writeReg 13#4 start)) := by
  show execPush m list s = _
  simp only [execPush, registersIn_ne_nil hne, if_false, listBytes_registersIn, ← hstart, hs]

/-- Settles O35: the listed registers stored at their places, then SP written. -/
theorem pushStoresAndLowersSp : Obligations.PushStoresAndLowersSp := by
  rintro s m list count start rfl hstart hne hw hp
  obtain ⟨s', hs, hst⟩ := storeWords_listed s (pushSet m list) start hw hp
  have hctx := hst.onlyBus.ctx
  refine ⟨_, exec_push hne hstart hs, ⟨?_, rfl⟩, rfl, hst.words, ?_, hst.accesses⟩
  · show s'.ctx.pc + 2#32 = s.ctx.pc + 2#32
    rw [hctx]
  · refine frame_finish_behind hst.onlyBus _ _ hst.others (fun i _ hi => ?_) (fun k _ _ => ?_) ?_
    · rw [hctx]
      exact reg_writeReg_kept _ _ _ _ hi
    · rw [hctx, Context.writeReg_xpsr]
    · rw [hctx, Context.writeReg_primask]

/-! ## POP -/

/-- What POP commits: the listed registers, then SP. -/
def poppedContext (s : State) (set : BitVec 16) : Context :=
  (s.ctx.writeRegs ((registersIn set).map fun i =>
    (i, s.bus.mem.wordAt (nthWord s.ctx.sp (place set i.toNat)).toNat))).writeReg 13#4
    (s.ctx.sp + BitVec.ofNat 32 (4 * place set 16))

section
variable (s : State) (set : BitVec 16)

theorem poppedContext_sp :
    (poppedContext s set).sp = (s.ctx.sp + BitVec.ofNat 32 (4 * place set 16)) &&& 0xFFFFFFFC#32 := by
  rw [poppedContext, Context.sp_writeReg, if_pos rfl]
  rfl

theorem poppedContext_xpsr : (poppedContext s set).xpsr = s.ctx.xpsr := by simp [poppedContext]

theorem poppedContext_primask : (poppedContext s set).primask = s.ctx.primask := by simp [poppedContext]

theorem toNat_low (d : LowReg) : (low d).toNat = d.toNat := by
  revert d; decide

theorem poppedContext_reg_low {d : LowReg} (hd : set.getLsbD d.toNat = true) :
    (poppedContext s set).reg (low d) = s.bus.mem.wordAt (nthWord s.ctx.sp (place set d.toNat)).toNat := by
  have hnum := toNat_low d
  obtain ⟨h13, -, h15⟩ := low_ne d
  rw [poppedContext, Context.reg_writeReg_ne _ _ _ _ h13,
    Context.reg_writeRegs_map _ _ _ ((mem_registersIn _ _).mpr (hnum ▸ hd)) h13 h15, hnum]

theorem poppedContext_reg_kept {i : RegNum} (hi : i ∉ 13#4 :: listed set) :
    (poppedContext s set).reg i = s.ctx.reg i := by
  obtain ⟨h13, hlist⟩ : i ≠ 13#4 ∧ i ∉ listed set := by simpa using hi
  rw [poppedContext, Context.reg_writeReg_ne _ _ _ _ h13,
    Context.reg_writeRegs_of_notMem _ _ (by simpa [registersIn_eq_listed] using hlist)]

end

theorem exec_pop {s s' : State} {p : BitVec 1} {list : BitVec 8} (hne : place (popSet p list) 16 ≠ 0)
    (hctx : s'.ctx = s.ctx)
    (hs : s.loadWords s.ctx.sp (registersIn (popSet p list)).length =
      (s', some ((List.range (place (popSet p list) 16)).map fun k => s.bus.mem.wordAt (nthWord s.ctx.sp k).toNat))) :
    exec (.pop p list) s = .next (if p = 1#1 then
      s'.exchangeTo (poppedContext s (popSet p list))
        (s.bus.mem.wordAt (nthWord s.ctx.sp (place (popSet p list) 16 - 1)).toNat)
      else s'.finish16 (poppedContext s (popSet p list))) := by
  show execPop p list s = _
  have hlast : ((List.range (place (popSet p list) 16)).map fun k =>
      s.bus.mem.wordAt (nthWord s.ctx.sp k).toNat).getLastD 0#32 =
      s.bus.mem.wordAt (nthWord s.ctx.sp (place (popSet p list) 16 - 1)).toNat := by
    obtain ⟨n, hn⟩ := Nat.exists_eq_succ_of_ne_zero hne
    simp [hn, List.range_succ]
  simp only [execPop, registersIn_ne_nil hne, if_false, hs, listBytes_registersIn, hctx, hlast]
  rw [zip_registersIn _ fun k => s.bus.mem.wordAt (nthWord s.ctx.sp k).toNat]
  rfl

/-- What POP leaves, T and PC apart: the context `c` is the popped one, perhaps with another T. -/
theorem popped_finish {s s' : State} {set : BitVec 16} (hld : LoadedListed s s' set s.ctx.sp) {c : Context}
    (hregs : c.r = (poppedContext s set).r ∧ c.sp = (poppedContext s set).sp ∧ c.lr = (poppedContext s set).lr)
    (hbits : ∀ k, k < 32 → k ∉ [24] → c.xpsr.getLsbD k = s.ctx.xpsr.getLsbD k) (hprim : c.primask = s.ctx.primask)
    (pc : Word) :
    (s'.finish c pc .ok).ctx.sp = (s.ctx.sp + BitVec.ofNat 32 (4 * place set 16)) &&& 0xFFFFFFFC#32 ∧
    (∀ d : LowReg, set.getLsbD d.toNat = true → (s'.finish c pc .ok).ctx.reg (low d) =
      s.bus.mem.wordAt (nthWord s.ctx.sp (place set d.toNat)).toNat) ∧
    Frame s (s'.finish c pc .ok) (13#4 :: listed set) [24] nowhere := by
  obtain ⟨hr, hsp, hlr⟩ := hregs
  refine ⟨hsp.trans (poppedContext_sp s set), fun d hd => ?_, ?_⟩
  · exact Context.reg_eq_of (low_ne d).2.2 (poppedContext_reg_low s set hd) (by exact ⟨hr, hsp, hlr⟩)
  · refine frame_finish_behind hld.onlyBus _ _ (fun a _ => by rw [hld.mem]) (fun i hi hn => ?_) hbits hprim
    exact Context.reg_eq_of hi (poppedContext_reg_kept s set hn) ⟨hr, hsp, hlr⟩

theorem getLsbD_popSet_low (p : BitVec 1) (list : BitVec 8) (d : LowReg) :
    (popSet p list).getLsbD d.toNat = list.getLsbD d.toNat := by
  rw [popSet, BitVec.getLsbD_append, if_pos d.isLt]

/-- Settles O36, by whether PC is in the list. -/
theorem popLoadsAndRaisesSp : Obligations.PopLoadsAndRaisesSp := by
  rintro s p list count rfl hne hp
  obtain ⟨s', hs, hld⟩ := loadWords_listed s (popSet p list) s.ctx.sp hp
  have hctx := hld.onlyBus.ctx
  have hexec := exec_pop hne hctx hs
  simp only [← getLsbD_popSet_low p list]
  by_cases hp1 : p = 1#1
  · rw [if_pos hp1] at hexec
    have hbits (b : Bool) (k : Nat) (hk : k < 32) (hn : k ∉ [24]) :
        ((poppedContext s (popSet p list)).setT b).xpsr.getLsbD k = s.ctx.xpsr.getLsbD k := by
      rw [Context.bit_setT _ _ k hk, if_neg (by simpa using hn), poppedContext_xpsr]
    obtain ⟨hsp, hlow, hframe⟩ :=
      popped_finish hld (c := (poppedContext s _).setT _) ⟨rfl, rfl, rfl⟩ (hbits _) (poppedContext_primask s _) _
    refine ⟨_, hexec, rfl, hsp, hlow, fun h0 => absurd (h0.symm.trans hp1) (by decide),
      fun _ => ⟨clearBit0_eq_evenOf _, ?_⟩, hframe, hld.accesses⟩
    exact (Context.bit_setT _ _ 24 (by decide)).trans (if_pos rfl)
  · rw [if_neg hp1] at hexec
    obtain ⟨hsp, hlow, hframe⟩ := popped_finish hld (c := poppedContext s (popSet p list)) ⟨rfl, rfl, rfl⟩
      (fun k _ _ => by rw [poppedContext_xpsr]) (poppedContext_primask s _) s'.pc2
    refine ⟨_, hexec, rfl, hsp, hlow, fun _ => ⟨?_, ?_⟩, fun h1 => absurd h1 hp1, hframe, hld.accesses⟩
    · show s'.ctx.pc + 2#32 = s.ctx.pc + 2#32
      rw [hctx]
    · exact congrArg (·.getLsbD 24) (poppedContext_xpsr s _)

end Sys2Proof.Machine
end

/-! PROOFS of the family 10_state: a step is a function of the context, the content of memory and the regions
(R37, R127), and of PRIMASK only where MRS shows it (R32). -/

section
namespace Sys2Proof.Machine

/-! ## The same machine in other surroundings -/

/-- The context of `s` with PRIMASK `q`, its bus with the latch `l`, and everything else as in `o`. -/
def State.seenIn (s o : State) (q : BitVec 1) (l : Bool) : State :=
  { o with ctx := { s.ctx with primask := q }, bus := { s.bus with latch := l } }

/-- Requests that answer the same in all surroundings: they leave PRIMASK and the latch out of account, and can only set
the latch. -/
def Blind {α : Type} (f : State → State × α) : Prop :=
  ∀ s, ∃ hit, (f s).1.bus.latch = (s.bus.latch || hit) ∧
    ∀ o q l, f (s.seenIn o q l) = ((f s).1.seenIn o q (l || hit), (f s).2)

@[simp] theorem State.seenIn_sp (s o : State) (q : BitVec 1) (l : Bool) : (s.seenIn o q l).ctx.sp = s.ctx.sp := rfl

@[simp] theorem State.seenIn_reg (s o : State) (q : BitVec 1) (l : Bool) : (s.seenIn o q l).reg = s.reg := rfl

@[simp] theorem State.seenIn_lowReg (s o : State) (q : BitVec 1) (l : Bool) : (s.seenIn o q l).lowReg = s.lowReg := rfl

theorem memRead_granted (s : State) (w : Width) (a : Word) {g : Region} (ha : aligned w a = true)
    (hg : s.bus.grants ⟨.read, w, a⟩ = some g) : s.memRead w a =
      ({ s with bus := { s.bus with
          latch := s.bus.latch || g.latches ⟨.read, w, a⟩
          port := s.bus.port ++ [⟨⟨.read, w, a⟩, s.bus.mem.read w a.toNat, .ok⟩] } },
        some (s.bus.mem.read w a.toNat)) := by
  simp [State.memRead, ha, Bus.read, hg, Bus.record]

theorem memWrite_granted (s : State) (w : Width) (a v : Word) {g : Region} (ha : aligned w a = true)
    (hg : s.bus.grants ⟨.write, w, a⟩ = some g) : s.memWrite w a v =
      ({ s with bus := { s.bus with
          mem := s.bus.mem.write w a.toNat v
          latch := s.bus.latch || g.latches ⟨.write, w, a⟩
          port := s.bus.port ++ [⟨⟨.write, w, a⟩, w.clip v, .ok⟩] } }, true) := by
  simp [State.memWrite, ha, Bus.write, hg, Bus.record]

theorem blind_memRead (w : Width) (a : Word) : Blind (·.memRead w a) := by
  intro s
  by_cases ha : aligned w a = true
  · cases hg : s.bus.grants ⟨.read, w, a⟩ with
    | none =>
      refine ⟨false, by simp [s.memRead_busError w a ha hg], fun o q l => ?_⟩
      have he := (s.seenIn o q l).memRead_busError w a ha hg
      simp only [he, s.memRead_busError w a ha hg, Bool.or_false]
      rfl
    | some g =>
      refine ⟨g.latches ⟨.read, w, a⟩, by simp [memRead_granted s w a ha hg], fun o q l => ?_⟩
      have he := memRead_granted (s.seenIn o q l) w a ha hg
      simp only [he, memRead_granted s w a ha hg]
      rfl
  · have ha : aligned w a = false := by simpa using ha
    exact ⟨false, by simp [s.memRead_misaligned w a ha], by simp [State.memRead_misaligned _ w a ha]⟩

theorem blind_memWrite (w : Width) (a v : Word) : Blind (·.memWrite w a v) := by
  intro s
  by_cases ha : aligned w a = true
  · cases hg : s.bus.grants ⟨.write, w, a⟩ with
    | none =>
      refine ⟨false, by simp [s.memWrite_busError w a v ha hg], fun o q l => ?_⟩
      have he := (s.seenIn o q l).memWrite_busError w a v ha hg
      simp only [he, s.memWrite_busError w a v ha hg, Bool.or_false]
      rfl
    | some g =>
      refine ⟨g.latches ⟨.write, w, a⟩, by simp [memWrite_granted s w a v ha hg], fun o q l => ?_⟩
      have he := memWrite_granted (s.seenIn o q l) w a v ha hg
      simp only [he, memWrite_granted s w a v ha hg]
      rfl
  · have ha : aligned w a = false := by simpa using ha
    exact ⟨false, by simp [s.memWrite_misaligned w a v ha], by simp [State.memWrite_misaligned _ w a v ha]⟩

/-! The equations of a multiple transfer, by what its first request answers. -/

section
variable {s s1 : State} {a v : Word} {vs : List Word} {n : Nat}

theorem storeWords_cons (e : s.memWrite .word a v = (s1, true)) :
    s.storeWords a (v :: vs) = s1.storeWords (a + 4#32) vs := by
  simp [State.storeWords, e]

theorem storeWords_cons_refused (e : s.memWrite .word a v = (s1, false)) : s.storeWords a (v :: vs) = (s1, false) := by
  simp [State.storeWords, e]

theorem loadWords_succ (e : s.memRead .word a = (s1, some v)) : s.loadWords a (n + 1) =
    ((s1.loadWords (a + 4#32) n).1, (s1.loadWords (a + 4#32) n).2.map (v :: ·)) := by
  simp only [State.loadWords, e]
  split <;> (next e' => simp [e'])

theorem loadWords_succ_refused (e : s.memRead .word a = (s1, none)) : s.loadWords a (n + 1) = (s1, none) := by
  simp [State.loadWords, e]

theorem fetchHalf_eq (s : State) (a : Word) :
    s.fetchHalf a = ((s.memRead .half a).1, (s.memRead .half a).2.map (·.setWidth 16)) := by
  unfold State.fetchHalf
  split <;> (next e => simp [e])

end

theorem blind_storeWords (a : Word) (vs : List Word) : Blind (·.storeWords a vs) := by
  induction vs generalizing a with
  | nil => exact fun s => ⟨false, (Bool.or_false _).symm, fun o q l => by rw [Bool.or_false]; rfl⟩
  | cons v vs ih =>
    intro s
    obtain ⟨hit, hl, hs⟩ := blind_memWrite .word a v s
    cases e : s.memWrite .word a v with
    | mk s1 ok =>
      simp only [e] at hl hs ⊢
      cases ok with
      | false =>
        rw [storeWords_cons_refused e]
        exact ⟨hit, hl, fun o q l => storeWords_cons_refused (hs o q l)⟩
      | true =>
        obtain ⟨hit', hl', hs'⟩ := ih (a + 4#32) s1
        rw [storeWords_cons e]
        refine ⟨hit || hit', by rw [hl', hl, Bool.or_assoc], fun o q l => ?_⟩
        exact (storeWords_cons (hs o q l)).trans ((hs' o q _).trans (by rw [Bool.or_assoc]))

theorem blind_loadWords (a : Word) (n : Nat) : Blind (·.loadWords a n) := by
  induction n generalizing a with
  | zero => exact fun s => ⟨false, (Bool.or_false _).symm, fun o q l => by rw [Bool.or_false]; rfl⟩
  | succ n ih =>
    intro s
    obtain ⟨hit, hl, hs⟩ := blind_memRead .word a s
    cases e : s.memRead .word a with
    | mk s1 x =>
      simp only [e] at hl hs ⊢
      cases x with
      | none =>
        rw [loadWords_succ_refused e]
        exact ⟨hit, hl, fun o q l => loadWords_succ_refused (hs o q l)⟩
      | some v =>
        obtain ⟨hit', hl', hs'⟩ := ih (a + 4#32) s1
        dsimp only at hl' hs'
        rw [loadWords_succ e]
        refine ⟨hit || hit', by rw [hl', hl, Bool.or_assoc], fun o q l => ?_⟩
        rw [loadWords_succ (hs o q l), hs', Bool.or_assoc]

theorem blind_fetchHalf (a : Word) : Blind (·.fetchHalf a) := by
  intro s
  obtain ⟨hit, hl, hs⟩ := blind_memRead .half a s
  dsimp only at hl hs
  simp only [fetchHalf_eq]
  exact ⟨hit, hl, fun o q l => by rw [hs]⟩

theorem blind_fetch : Blind State.fetch := by
  intro s
  obtain ⟨hit, hl, hs⟩ := blind_fetchHalf s.ctx.pc s
  cases e : s.fetchHalf s.ctx.pc with
  | mk s1 x =>
    simp only [e] at hl hs
    cases x with
    | none =>
      rw [fetch_of_none e]
      exact ⟨hit, hl, fun o q l => fetch_of_none (hs o q l)⟩
    | some h =>
      cases hw : isWide h with
      | false =>
        rw [fetch_of_narrow e hw]
        exact ⟨hit, hl, fun o q l => fetch_of_narrow (hs o q l) hw⟩
      | true =>
        obtain ⟨hit', hl', hs'⟩ := blind_fetchHalf (s.ctx.pc + 2#32) s1
        dsimp only at hl' hs'
        rw [fetch_of_wide e hw]
        refine ⟨hit || hit', by rw [hl', hl, Bool.or_assoc], fun o q l => ?_⟩
        have hpc : (s.seenIn o q l).ctx.pc = s.ctx.pc := rfl
        rw [fetch_of_wide (hs o q l) hw, hpc, hs', Bool.or_assoc]

/-! ## An instruction in other surroundings -/

/-- PRIMASK `q` in the place of that of `c`, which is still that of `c₀`. -/
structure Beside (c₀ : Context) (q : BitVec 1) (c c' : Context) : Prop where
  eq : c' = { c with primask := q }
  primask : c.primask = c₀.primask

section
variable {c₀ c c' : Context} {q : BitVec 1}

theorem Beside.refl : Beside c q c { c with primask := q } := ⟨rfl, rfl⟩

theorem Beside.writeReg (h : Beside c₀ q c c') (d : RegNum) (v : Word) :
    Beside c₀ q (c.writeReg d v) (c'.writeReg d v) where
  eq := by
    rw [h.eq]
    unfold Context.writeReg
    split; rfl; split; rfl; split <;> rfl
  primask := by rw [Context.writeReg_primask, h.primask]

theorem Beside.writeRegs (h : Beside c₀ q c c') (ws : List (RegNum × Word)) :
    Beside c₀ q (c.writeRegs ws) (c'.writeRegs ws) := by
  induction ws generalizing c c' with
  | nil => exact h
  | cons w ws ih => exact ih (h.writeReg w.1 w.2)

theorem Beside.setNZ (h : Beside c₀ q c c') (v : Word) : Beside c₀ q (c.setNZ v) (c'.setNZ v) :=
  ⟨by rw [h.eq]; rfl, h.primask⟩

theorem Beside.setC (h : Beside c₀ q c c') (b : Bool) : Beside c₀ q (c.setC b) (c'.setC b) :=
  ⟨by rw [h.eq]; rfl, h.primask⟩

theorem Beside.setV (h : Beside c₀ q c c') (b : Bool) : Beside c₀ q (c.setV b) (c'.setV b) :=
  ⟨by rw [h.eq]; rfl, h.primask⟩

theorem Beside.setT (h : Beside c₀ q c c') (b : Bool) : Beside c₀ q (c.setT b) (c'.setT b) :=
  ⟨by rw [h.eq]; rfl, h.primask⟩

theorem Beside.setNZCV (h : Beside c₀ q c c') (v : Word) : Beside c₀ q (c.setNZCV v) (c'.setNZCV v) :=
  ⟨by rw [h.eq]; rfl, h.primask⟩

end

/-- `t` and `t'` are what the same step makes of `s` and of `s.seenIn o q l`: they differ in the surroundings and in
PRIMASK only, in PRIMASK only if `s` and `q` do, and the latch is set by the one when it is set by the other. -/
def EndAlike (s o : State) (q : BitVec 1) (l : Bool) (t t' : State) : Prop :=
  ∃ q' hit, t' = t.seenIn { o with result := t.result } q' (l || hit) ∧ t.bus.latch = (s.bus.latch || hit) ∧
    (q = s.ctx.primask → q' = t.ctx.primask)

section
variable {s : State} {o : State} {q : BitVec 1} {l : Bool}

theorem endAlike_raise (x : StepResult) : EndAlike s o q l (s.raise x) ((s.seenIn o q l).raise x) :=
  ⟨q, false, by rw [Bool.or_false]; rfl, by simp, id⟩

/-- The commit of a context whose PRIMASK may be another. -/
theorem endAlike_commit {c c' : Context} {q' : BitVec 1} (hc : c' = { c with primask := q' })
    (hq : q = s.ctx.primask → q' = c.primask) (p : Word) (x : StepResult) :
    EndAlike s o q l (s.finish c p x) ((s.seenIn o q l).finish c' p x) :=
  ⟨q', false, by rw [hc, Bool.or_false]; rfl, by simp, hq⟩

theorem endAlike_finish {c c' : Context} (hc : Beside s.ctx q c c') (p : Word) (x : StepResult) :
    EndAlike s o q l (s.finish c p x) ((s.seenIn o q l).finish c' p x) :=
  endAlike_commit hc.eq (fun h => h.trans hc.primask.symm) p x

/-- Requests whose answer is known, made in other surroundings: what ends alike behind them ends alike. -/
theorem Blind.behind {α : Type} {f : State → State × α} (hf : Blind f) {s1 : State} {x : α} (e : f s = (s1, x))
    (hb : OnlyBus s s1) : ∃ hit, f (s.seenIn o q l) = (s1.seenIn o q (l || hit), x) ∧
      ∀ {t t' : State}, EndAlike s1 o q (l || hit) t t' → EndAlike s o q l t t' := by
  obtain ⟨hit, hl, hs⟩ := hf s
  simp only [e] at hl hs
  refine ⟨hit, hs o q l, fun ⟨q', hit', ht', hlatch, hq⟩ => ⟨q', hit || hit', ?_, ?_, ?_⟩⟩
  · rw [ht', Bool.or_assoc]
  · rw [hlatch, hl, Bool.or_assoc]
  · rwa [hb.ctx] at hq

theorem endAlike_setLow (d : LowReg) (v : Word) : EndAlike s o q l (s.setLow d v) ((s.seenIn o q l).setLow d v) :=
  endAlike_finish (Beside.refl.writeReg _ v) _ _

theorem endAlike_nzInto (d : LowReg) (v : Word) : EndAlike s o q l (s.nzInto d v) ((s.seenIn o q l).nzInto d v) :=
  endAlike_finish ((Beside.refl.writeReg _ v).setNZ v) _ _

theorem endAlike_shiftInto (d : LowReg) (v : Word) (ty : ShiftType) (n : Nat) :
    EndAlike s o q l (s.shiftInto d v ty n) ((s.seenIn o q l).shiftInto d v ty n) :=
  endAlike_finish (((Beside.refl.writeReg _ _).setNZ _).setC _) _ _

theorem endAlike_addInto (d : LowReg) (x y : Word) (cin : Bool) :
    EndAlike s o q l (s.addInto d x y cin) ((s.seenIn o q l).addInto d x y cin) :=
  endAlike_finish ((((Beside.refl.writeReg _ _).setNZ _).setC _).setV _) _ _

theorem endAlike_addFlags (x y : Word) (cin : Bool) :
    EndAlike s o q l (s.addFlags x y cin) ((s.seenIn o q l).addFlags x y cin) :=
  endAlike_finish (((Beside.refl.setNZ _).setC _).setV _) _ _

theorem endAlike_load (w : Width) (a : Word) (d : LowReg) (ext : Word → Word) :
    EndAlike s o q l (s.load w a d ext) ((s.seenIn o q l).load w a d ext) := by
  unfold State.load
  split
  · next e =>
    obtain ⟨hit, hs, hbehind⟩ := (blind_memRead w a).behind e (onlyBus_of_memRead e)
    rw [hs]
    exact hbehind (endAlike_setLow _ _)
  · next e =>
    obtain ⟨hit, hs, hbehind⟩ := (blind_memRead w a).behind e (onlyBus_of_memRead e)
    rw [hs]
    exact hbehind (endAlike_raise _)

theorem endAlike_store (w : Width) (a v : Word) :
    EndAlike s o q l (s.store w a v) ((s.seenIn o q l).store w a v) := by
  unfold State.store
  split
  · next e =>
    obtain ⟨hit, hs, hbehind⟩ := (blind_memWrite w a v).behind e (onlyBus_of_memWrite e)
    rw [hs]
    exact hbehind (endAlike_finish .refl _ _)
  · next e =>
    obtain ⟨hit, hs, hbehind⟩ := (blind_memWrite w a v).behind e (onlyBus_of_memWrite e)
    rw [hs]
    exact hbehind (endAlike_raise _)

theorem endAlike_barrier (b19_16 : BitVec 4) (b13 : BitVec 1) (b11_8 : BitVec 4) :
    EndAlike s o q l (s.barrier .ok b19_16 b13 b11_8) ((s.seenIn o q l).barrier .ok b19_16 b13 b11_8) := by
  unfold State.barrier
  split
  · exact endAlike_raise _
  · exact endAlike_finish .refl _ _

/-- An instruction does the same in all surroundings, whatever PRIMASK is; MRS of PRIMASK needs the same PRIMASK. -/
theorem exec_alike (i : Instr)
    (hp : q = s.ctx.primask ∨ ∀ d b20 b19_16 b13, i ≠ .mrs d 16#8 b20 b19_16 b13) :
    ∃ t t', exec i s = .next t ∧ exec i (s.seenIn o q l) = .next t' ∧ EndAlike s o q l t t' := by
  cases i with
  | movsReg | movsImm8 | ands | eors | orrs | muls | bics | mvns => exact ⟨_, _, rfl, rfl, endAlike_nzInto _ _⟩
  | lslsImm | lsrsImm | asrsImm | lslsReg | lsrsReg | asrsReg | rors =>
    exact ⟨_, _, rfl, rfl, endAlike_shiftInto _ _ _ _⟩
  | addsReg | subsReg | addsImm3 | subsImm3 | addsImm8 | subsImm8 | adcs | sbcs | rsbs =>
    exact ⟨_, _, rfl, rfl, endAlike_addInto _ _ _ _⟩
  | cmpImm8 | cmpReg | cmn => exact ⟨_, _, rfl, rfl, endAlike_addFlags _ _ _⟩
  | tst => exact ⟨_, _, rfl, rfl, endAlike_finish (Beside.refl.setNZ _) _ _⟩
  | adr | addRdSp | sxth | sxtb | uxth | uxtb | rev | rev16 | revsh => exact ⟨_, _, rfl, rfl, endAlike_setLow _ _⟩
  | addSp | subSp | bl => exact ⟨_, _, rfl, rfl, endAlike_finish (Beside.refl.writeReg _ _) _ _⟩
  | nop | hintRes | yield | wfe | wfi | sev | svc | b => exact ⟨_, _, rfl, rfl, endAlike_finish .refl _ _⟩
  | bkpt | udf | udfW => exact ⟨_, _, rfl, rfl, endAlike_raise _⟩
  | ldrLit | ldrsbReg | ldrReg | ldrhReg | ldrbReg | ldrshReg | ldrImm | ldrbImm | ldrhImm | ldrSp =>
    exact ⟨_, _, rfl, rfl, endAlike_load _ _ _ _⟩
  | strReg | strhReg | strbReg | strImm | strbImm | strhImm | strSp => exact ⟨_, _, rfl, rfl, endAlike_store _ _ _⟩
  | dsb | dmb | isb => exact ⟨_, _, rfl, rfl, endAlike_barrier _ _ _⟩
  | movHi =>
    refine ⟨_, _, rfl, rfl, ?_⟩
    split
    · exact endAlike_finish .refl _ _
    · exact endAlike_finish (Beside.refl.writeReg _ _) _ _
  | addHi =>
    refine ⟨_, _, rfl, rfl, ?_⟩
    dsimp only
    split
    · exact endAlike_raise _
    · split
      · exact endAlike_finish .refl _ _
      · exact endAlike_finish (Beside.refl.writeReg _ _) _ _
  | cmpHi =>
    refine ⟨_, _, rfl, rfl, ?_⟩
    split
    · exact endAlike_raise _
    · exact endAlike_addFlags _ _ _
  | bx =>
    refine ⟨_, _, rfl, rfl, ?_⟩
    split
    · exact endAlike_raise _
    · exact endAlike_finish (Beside.refl.setT _) _ _
  | blx =>
    refine ⟨_, _, rfl, rfl, ?_⟩
    split
    · exact endAlike_raise _
    · exact endAlike_finish ((Beside.refl.writeReg _ _).setT _) _ _
  | bcond cond =>
    have hpass : (s.seenIn o q l).ctx.passes cond = s.ctx.passes cond := rfl
    refine ⟨_, _, rfl, rfl, ?_⟩
    rw [hpass]
    split <;> exact endAlike_finish .refl _ _
  | cps im =>
    refine ⟨_, _, rfl, rfl, ?_⟩
    split
    · exact endAlike_raise _
    · exact endAlike_commit (q' := im) rfl (fun _ => rfl) _ _
  | msr rn =>
    refine ⟨_, _, rfl, rfl, ?_⟩
    split
    · exact endAlike_raise _
    · split
      · next k _ =>
        cases k with
        | flags => exact endAlike_finish (Beside.refl.setNZCV _) _ _
        | zero => exact endAlike_finish .refl _ _
        | msp => exact endAlike_finish (Beside.refl.writeReg 13#4 _) _ _
        | primask => exact endAlike_commit (q' := (s.reg rn).extractLsb' 0 1) rfl (fun _ => rfl) _ _
      · exact endAlike_raise _
  | mrs rd sysm b20 b19_16 b13 =>
    refine ⟨_, _, rfl, rfl, ?_⟩
    split
    · exact endAlike_raise _
    · split
      · next k hk =>
        have hread : (s.seenIn o q l).ctx.readSpecial k = s.ctx.readSpecial k := by
          cases k with
          | flags | zero | msp => rfl
          | primask =>
            obtain rfl | hne := hp
            · rfl
            · exact absurd (by rw [specialReg_primask hk]) (hne rd b20 b19_16 b13)
        rw [hread]
        exact endAlike_finish (Beside.refl.writeReg _ _) _ _
      · exact endAlike_raise _
  | push | stm =>
    refine ⟨_, _, rfl, rfl, ?_⟩
    dsimp only
    split
    · exact endAlike_raise _
    · split
      · next e =>
        obtain ⟨hit, hs, hbehind⟩ := (blind_storeWords _ _).behind e (onlyBus_of_storeWords e)
        simp only [State.seenIn_sp, State.seenIn_reg, State.seenIn_lowReg]
        rw [hs]
        exact hbehind (endAlike_finish (Beside.refl.writeReg _ _) _ _)
      · next e =>
        obtain ⟨hit, hs, hbehind⟩ := (blind_storeWords _ _).behind e (onlyBus_of_storeWords e)
        simp only [State.seenIn_sp, State.seenIn_reg, State.seenIn_lowReg]
        rw [hs]
        exact hbehind (endAlike_raise _)
  | pop =>
    refine ⟨_, _, rfl, rfl, ?_⟩
    dsimp only
    split
    · exact endAlike_raise _
    · split
      · next e =>
        obtain ⟨hit, hs, hbehind⟩ := (blind_loadWords _ _).behind e (onlyBus_of_loadWords e)
        rw [State.seenIn_sp, hs]
        split
        · exact hbehind (endAlike_finish (((Beside.refl.writeRegs _).writeReg _ _).setT _) _ _)
        · exact hbehind (endAlike_finish ((Beside.refl.writeRegs _).writeReg _ _) _ _)
      · next e =>
        obtain ⟨hit, hs, hbehind⟩ := (blind_loadWords _ _).behind e (onlyBus_of_loadWords e)
        rw [State.seenIn_sp, hs]
        exact hbehind (endAlike_raise _)
  | ldm =>
    refine ⟨_, _, rfl, rfl, ?_⟩
    dsimp only
    split
    · exact endAlike_raise _
    · split
      · next e =>
        obtain ⟨hit, hs, hbehind⟩ := (blind_loadWords _ _).behind e (onlyBus_of_loadWords e)
        rw [State.seenIn_lowReg, hs]
        split
        · exact hbehind (endAlike_finish (Beside.refl.writeRegs _) _ _)
        · exact hbehind (endAlike_finish ((Beside.refl.writeRegs _).writeReg _ _) _ _)
      · next e =>
        obtain ⟨hit, hs, hbehind⟩ := (blind_loadWords _ _).behind e (onlyBus_of_loadWords e)
        rw [State.seenIn_lowReg, hs]
        exact hbehind (endAlike_raise _)

end

end Sys2Proof.Machine
end

/-! PROOFS of the family 10_state: the whole step in other surroundings (R127), and every transition with another
PRIMASK (R32). -/

section
namespace Sys2Proof.Machine

/-! ## The executor's step in other surroundings -/

section
variable {s o : State} {q : BitVec 1} {l : Bool}

theorem instrAt_eq (s : State) : s.instrAt = if s.ctx.t then s.clearPort.fetch.2.bind decodeFetched else none := by
  unfold State.instrAt
  split
  · split <;> (next e => simp [e])
  · rfl

/-- Which instruction a step comes to is the same in all surroundings. -/
theorem instrAt_seenIn (s o : State) (q : BitVec 1) (l : Bool) : (s.seenIn o q l).instrAt = s.instrAt := by
  obtain ⟨hit, -, hs⟩ := blind_fetch s.clearPort
  have hfetch : (s.seenIn o q l).clearPort.fetch = _ := hs o q l
  rw [instrAt_eq, instrAt_eq, hfetch]
  rfl

/-- A step does the same in all surroundings, whatever PRIMASK is; MRS of PRIMASK needs the same PRIMASK. -/
theorem stepInstr_alike
    (hp : q = s.ctx.primask ∨ ∀ d b20 b19_16 b13, s.instrAt ≠ some (.mrs d 16#8 b20 b19_16 b13)) :
    ∃ t t', s.stepInstr = .next t ∧ (s.seenIn o q l).stepInstr = .next t' ∧ EndAlike s o q l t t' := by
  cases ht : s.ctx.t with
  | false =>
    have halike : EndAlike s.clearPort o q l (s.clearPort.raise .hardFault) _ := endAlike_raise _
    exact ⟨_, _, stepInstr_thumbClear ht, stepInstr_thumbClear (s := s.seenIn o q l) ht, halike⟩
  | true =>
    have honly : OnlyBus s.clearPort s.clearPort.fetch.1 := (fetchedFrom_fetch s).onlyBus
    cases hf : s.clearPort.fetch with
    | mk s1 x =>
      rw [hf] at honly
      obtain ⟨hit, hs, hbehind⟩ := blind_fetch.behind (o := o) (q := q) (l := l) hf honly
      cases x with
      | none =>
        exact ⟨_, _, stepInstr_fetchFails ht hf, stepInstr_fetchFails (s := s.seenIn o q l) ht hs,
          hbehind (endAlike_raise _)⟩
      | some f =>
        cases hd : decodeFetched f with
        | none =>
          exact ⟨_, _, stepInstr_undecoded ht hf hd, stepInstr_undecoded (s := s.seenIn o q l) ht hs hd,
            hbehind (endAlike_raise _)⟩
        | some i =>
          have hi : s.instrAt = some i := by simp [instrAt_eq, ht, hf, hd]
          have hp1 : q = s1.ctx.primask ∨ ∀ d b20 b19_16 b13, i ≠ .mrs d 16#8 b20 b19_16 b13 := by
            rw [honly.ctx]
            simpa [hi] using hp
          obtain ⟨t, t', he, he', halike⟩ := exec_alike (o := o) (l := l || hit) i hp1
          exact ⟨t, t', (stepInstr_decoded ht hf hd).trans he,
            (stepInstr_decoded (s := s.seenIn o q l) ht hs hd).trans he', hbehind halike⟩

/-- States that agree in the context, memory and regions are, their requests apart, the same in other surroundings. -/
theorem clearPort_eq_seenIn {s s' : State} (hctx : s'.ctx = s.ctx) (hmem : s'.bus.mem = s.bus.mem)
    (hregions : s'.bus.regions = s.bus.regions) :
    s'.clearPort = s.clearPort.seenIn s' s.ctx.primask s'.bus.latch := by
  obtain ⟨ctx', ⟨regions', mem', latch', port'⟩⟩ := s'
  subst hctx hmem hregions
  rfl

end

/-- Settles O11: a step begins by clearing the record of the port, and then does the same in all surroundings. -/
theorem everyStepEndsWithAStepResult : Obligations.EveryStepEndsWithAStepResult := by
  refine ⟨fun s s' t hctx hmem hregions hs => ?_, fun s => ?_⟩
  · obtain ⟨u, t', hu, ht', q', hit, heq, hlatch, hq⟩ :=
      stepInstr_alike (s := s.clearPort) (o := s') (l := s'.bus.latch) (.inl (rfl : s.ctx.primask = _))
    obtain rfl : u = t := Host.Outcome.next.inj (hu.symm.trans hs)
    rw [← clearPort_eq_seenIn hctx hmem hregions] at ht'
    subst heq
    exact ⟨_, hit, ht', rfl, by rw [hq rfl]; rfl, rfl, rfl, hlatch, rfl⟩
  · obtain ⟨s1, t, -, hs, hends⟩ := stepInstr_ends s
    cases hends with
    | trapped x hx =>
      refine ⟨_, x, hs, rfl, ?_⟩
      obtain rfl | rfl | rfl := hx <;> decide
    | faulted _ => exact ⟨_, _, hs, rfl, by decide⟩
    | finished _ c p x hx =>
      refine ⟨_, x, hs, rfl, ?_⟩
      obtain rfl | rfl | rfl := hx <;> decide

/-! ## Another PRIMASK -/

/-- An outcome with the next state changed. -/
def mapNext (f : State → State) : Host.Outcome State Fault Refusal → Host.Outcome State Fault Refusal
  | .next t => .next (f t)
  | .fault e => .fault e
  | .refused r => .refused r

section
variable (s : State) (p : BitVec 1)

theorem EndAlike.withPrimask {s t t' : State} {p : BitVec 1} (h : EndAlike s s p s.bus.latch t t')
    (ho : OnlyExecutor s t) : ∃ q, t' = t.withPrimask q := by
  obtain ⟨q', hit, rfl, hlatch, -⟩ := h
  refine ⟨q', ?_⟩
  rw [← hlatch]
  conv_rhs => rw [ho.eq]
  rfl

theorem exec_withPrimask (i : Instr) (hi : ∀ d b20 b19_16 b13, i ≠ .mrs d 16#8 b20 b19_16 b13) :
    ∃ t q, exec i s = .next t ∧ exec i (s.withPrimask p) = .next (t.withPrimask q) := by
  obtain ⟨t, t', he, he', halike⟩ := exec_alike (s := s) (o := s) (q := p) (l := s.bus.latch) i (.inr hi)
  obtain ⟨q, rfl⟩ := halike.withPrimask (effect_of_exec he).onlyExecutor
  exact ⟨t, q, he, he'⟩

theorem stepInstr_withPrimask (hs : ∀ d b20 b19_16 b13, s.instrAt ≠ some (.mrs d 16#8 b20 b19_16 b13)) :
    ∃ t q, s.stepInstr = .next t ∧ (s.withPrimask p).stepInstr = .next (t.withPrimask q) := by
  obtain ⟨t, t', he, he', halike⟩ := stepInstr_alike (s := s) (o := s) (q := p) (l := s.bus.latch) (.inr hs)
  obtain ⟨i, heff⟩ := stepInstr_effect he
  obtain ⟨q, rfl⟩ := halike.withPrimask heff.onlyExecutor
  exact ⟨t, q, he, he'⟩

/-! ### The packet engine -/

theorem receiveChar_withPrimask {go : Byte → State → State}
    (hgo : ∀ b s, go b (s.withPrimask p) = (go b s).withPrimask p) :
    (s.withPrimask p).receiveChar go = mapNext (·.withPrimask p) (s.receiveChar go) := by
  have hcomm : (s.withPrimask p).comm = s.comm := rfl
  unfold State.receiveChar
  rw [hcomm]
  dsimp only
  split
  · next b rest _ => exact congrArg Host.Outcome.next (hgo b { s with comm := { s.comm.deliver with rx := rest } })
  · split <;> rfl

theorem scanByte_withPrimask (b : Byte) (s : State) :
    (s.withPrimask p).scanByte b = (s.scanByte b).withPrimask p := by
  unfold State.scanByte
  split <;> rfl

theorem captureByte_withPrimask (b : Byte) (s : State) :
    (s.withPrimask p).captureByte b = (s.captureByte b).withPrimask p := by
  have hbuffer : (s.withPrimask p).buffer = s.buffer := rfl
  unfold State.captureByte
  simp only [hbuffer]
  split
  · rfl
  · split
    · rfl
    · split <;> rfl

theorem check2Byte_withPrimask (d1 d2 : Byte) (s : State) :
    (s.withPrimask p).check2Byte d1 d2 = (s.check2Byte d1 d2).withPrimask p := by
  unfold State.check2Byte
  dsimp only
  split <;> rfl

theorem waitByte_withPrimask (b : Byte) (s : State) :
    (s.withPrimask p).waitByte b = (s.waitByte b).withPrimask p := by
  unfold State.waitByte
  dsimp only
  split
  · rfl
  · split <;> rfl

theorem sendReply_withPrimask (v : Bool) : (s.withPrimask p).sendReply v = (s.sendReply v).withPrimask p := by
  cases v <;> rfl

theorem peekMore_withPrimask : (s.withPrimask p).peekMore = s.peekMore.withPrimask p := by
  have hcomm : (s.withPrimask p).comm = s.comm := rfl
  unfold State.peekMore
  simp only [hcomm]
  split <;> rfl

theorem sendPayloadByte_withPrimask (i : Nat) :
    (s.withPrimask p).sendPayloadByte i = (s.sendPayloadByte i).withPrimask p := by
  have hbuffer : (s.withPrimask p).buffer = s.buffer := rfl
  unfold State.sendPayloadByte
  rw [hbuffer]
  split <;> rfl

theorem engineStep_withPrimask : (s.withPrimask p).engineStep = mapNext (·.withPrimask p) s.engineStep := by
  have hengine : (s.withPrimask p).engine = s.engine := rfl
  unfold State.engineStep
  rw [hengine]
  split
  · rfl
  · exact receiveChar_withPrimask s p (scanByte_withPrimask p)
  · exact receiveChar_withPrimask s p (captureByte_withPrimask p)
  · exact receiveChar_withPrimask s p (fun _ _ => rfl)
  · exact receiveChar_withPrimask s p (check2Byte_withPrimask p _)
  · exact congrArg Host.Outcome.next (sendReply_withPrimask s p _)
  · exact congrArg Host.Outcome.next (peekMore_withPrimask s p)
  · rfl
  · exact congrArg Host.Outcome.next (sendPayloadByte_withPrimask s p _)
  · rfl
  · rfl
  · exact receiveChar_withPrimask s p (waitByte_withPrimask p)

/-! ### The run loop and the host -/

theorem takeStop_withPrimask : (s.withPrimask p).takeStop = (s.takeStop.1.withPrimask p, s.takeStop.2) := by
  have hstops : (s.withPrimask p).stops = s.stops := rfl
  unfold State.takeStop
  rw [hstops]
  split <;> rfl

theorem hostWrite_withPrimask (c : Context) (k : HostReg) (v : Word) :
    ({ c with primask := p } : Context).hostWrite k v = { c.hostWrite k v with primask := p } := by
  cases k <;> rfl

theorem hostWrites_withPrimask (c : Context) (ws : List (HostReg × Word)) :
    ({ c with primask := p } : Context).hostWrites ws = { c.hostWrites ws with primask := p } := by
  induction ws generalizing c with
  | nil => rfl
  | cons w ws ih => simp only [Context.hostWrites, hostWrite_withPrimask, ih]

theorem preempt_withPrimask : (s.withPrimask p).preempt = (s.preempt.1.withPrimask p, s.preempt.2) := by
  have hpred : (s.withPrimask p).predicate = s.predicate := rfl
  unfold State.preempt
  rw [hpred]
  split
  · have hlatch : (s.withPrimask p).bus.latch = s.bus.latch := rfl
    unfold State.referencePreempt
    rw [hlatch]
    split <;> rfl
  · rfl
  · next c cs _ =>
    have hctx := hostWrites_withPrimask p s.ctx c.writes
    simp only [State.withPrimask, hctx]

theorem afterStep_withPrimask (t : State) (q : BitVec 1) : (t.withPrimask q).afterStep = t.afterStep.withPrimask q := by
  have hresult : (t.withPrimask q).result = t.result := rfl
  unfold State.afterStep
  rw [hresult]
  split <;> rfl

end

section
variable {s s1 s2 t : State} {x : StepResult} {answer : Preempt} (p : BitVec 1)

theorem runIteration_stop (h1 : s.takeStop = (s1, true)) : s.runIteration = .next (s1.stopWith .ok) := by
  simp [State.runIteration, h1]

theorem runIteration_preempted (h1 : s.takeStop = (s1, false)) (h2 : s1.preempt = (s2, answer))
    (hx : answer.result = some x) : s.runIteration = .next (s2.stopWith x) := by
  simp [State.runIteration, h1, h2, hx]

theorem runIteration_step (h1 : s.takeStop = (s1, false)) (h2 : s1.preempt = (s2, .ok))
    (h3 : s2.stepInstr = .next t) : s.runIteration = .next t.afterStep := by
  simp [State.runIteration, h1, h2, Preempt.result, h3]

/-- An iteration of the run loop that does not run MRS of PRIMASK. -/
theorem runIteration_withPrimask (hidle : s.engine = .idle) (hrun : s.loop = .running)
    (h : ∀ d b20 b19_16 b13, s.runsInstr ≠ some (.mrs d 16#8 b20 b19_16 b13)) :
    ∃ t q, s.runIteration = .next t ∧ (s.withPrimask p).runIteration = .next (t.withPrimask q) := by
  have hstop := takeStop_withPrimask s p
  cases h1 : s.takeStop with
  | mk s1 stop =>
    rw [h1] at hstop
    cases stop with
    | true => exact ⟨_, p, runIteration_stop h1, runIteration_stop hstop⟩
    | false =>
      have hpre := preempt_withPrimask s1 p
      cases h2 : s1.preempt with
      | mk s2 answer =>
        rw [h2] at hpre
        cases answer with
        | interrupt | watchpoint =>
          exact ⟨_, p, runIteration_preempted h1 h2 rfl, runIteration_preempted hstop hpre rfl⟩
        | ok =>
          have hruns : s.runsInstr = s2.instrAt := by simp [State.runsInstr, hidle, hrun, h1, h2]
          obtain ⟨t, q, ht, ht'⟩ := stepInstr_withPrimask s2 p (hruns ▸ h)
          refine ⟨_, q, runIteration_step h1 h2 ht, ?_⟩
          rw [runIteration_step hstop hpre ht', afterStep_withPrimask]

/-- A host command other than `step` and the read of PRIMASK. -/
theorem execCommand_withPrimask (s : State) {c : Command} (hstep : c ≠ .step) (hread : c ≠ .readPrimask) :
    ∃ t q, s.execCommand c = .next t ∧ (s.withPrimask p).execCommand c = .next (t.withPrimask q) := by
  cases c with
  | step => exact absurd rfl hstep
  | readPrimask => exact absurd rfl hread
  | writePrimask v => exact ⟨_, v.extractLsb' 0 1, rfl, rfl⟩
  | readReg k => cases k <;> exact ⟨_, p, rfl, rfl⟩
  | writeReg k v => cases k <;> exact ⟨_, p, rfl, rfl⟩
  | run | packetGet | packetSend | readAll | writeAll | readMem | writeMem | loadBuffer | declareRegion | addWatchpoint
  | removeWatchpoint => exact ⟨_, p, rfl, rfl⟩

end

section
variable {s : State}

/-- A transition that does not show PRIMASK runs no MRS of PRIMASK. -/
theorem runsInstr_of_not_shows (h : s.showsPrimask = false) (d : RegNum) (b20 : BitVec 1) (b19_16 : BitVec 4)
    (b13 : BitVec 1) : s.runsInstr ≠ some (.mrs d 16#8 b20 b19_16 b13) := by
  intro e
  simp [State.showsPrimask, e] at h

theorem command_of_not_shows {c : Command} {cs : List Command} (h : s.showsPrimask = false) (hidle : s.engine = .idle)
    (hstopped : s.loop = .stopped) (hc : s.commands = c :: cs) : c ≠ .readPrimask := by
  rintro rfl
  simp [State.showsPrimask, hidle, hstopped, hc] at h

theorem instrAt_taken (s : State) : s.taken.instrAt = s.instrAt := instrAt_seenIn s s.taken s.ctx.primask s.bus.latch

theorem runsInstr_of_ready (h : s.ready) : s.runsInstr = s.instrAt := by
  obtain ⟨hidle, hstopped, hcmd⟩ := h
  cases hc : s.commands with
  | nil => simp [State.runsInstr, hidle, hstopped, hc]
  | cons c cs =>
    obtain rfl : c = .step := by simpa [hc] using hcmd
    simp [State.runsInstr, hidle, hstopped, hc]

/-- A transition outside the packet engine always ends, and PRIMASK decides nothing in it (R32). -/
theorem step_withPrimask_of_idle (p : BitVec 1) (hidle : s.engine = .idle) (h : s.showsPrimask = false) :
    ∃ t q, step s = .next t ∧ step (s.withPrimask p) = .next (t.withPrimask q) := by
  have hruns := runsInstr_of_not_shows h
  cases hl : s.loop with
  | running =>
    have hstep (s : State) (hidle : s.engine = .idle) (hl : s.loop = .running) : step s = s.runIteration := by
      simp [step, State.advance, hidle, hl]
    rw [hstep s hidle hl, hstep (s.withPrimask p) hidle hl]
    exact runIteration_withPrimask p hidle hl hruns
  | stopped =>
    by_cases hready : s.ready
    · rw [step_of_ready hready, step_of_ready (s := s.withPrimask p) hready]
      exact stepInstr_withPrimask s.taken p (by rwa [instrAt_taken, ← runsInstr_of_ready hready])
    · cases hc : s.commands with
      | nil => exact absurd ⟨hidle, hl, .inl hc⟩ hready
      | cons c cs =>
        have hstep : c ≠ .step := fun e => hready ⟨hidle, hl, .inr (by rw [hc, e]; rfl)⟩
        rw [step_of_command hidle hl hc, step_of_command (s := s.withPrimask p) hidle hl hc]
        exact execCommand_withPrimask p _ hstep (command_of_not_shows h hidle hl hc)

theorem stepInstr_ne_fault (s : State) (f : Fault) : s.stepInstr ≠ .fault f := by
  obtain ⟨-, t, -, ht, -⟩ := stepInstr_ends s
  rw [ht]
  nofun

/-- Only the packet engine can be stuck. -/
theorem engine_of_fault {f : Fault} (h : step s = .fault f) : s.engine ≠ .idle := by
  intro hidle
  unfold step State.advance at h
  rw [if_pos hidle] at h
  split at h
  · unfold State.runIteration at h
    dsimp only at h
    split at h
    · cases h
    · split at h
      · cases h
      · split at h
        · cases h
        · next e => exact stepInstr_ne_fault _ _ e
        · cases h
  · split at h
    · exact stepInstr_ne_fault _ _ h
    · next c cs _ =>
      cases c with
      | step => exact stepInstr_ne_fault _ _ h
      | _ => cases h

theorem step_of_engine (h : s.engine ≠ .idle) : step s = s.engineStep := by
  simp [step, State.advance, h]

theorem step_withPrimask_of_engine (p : BitVec 1) (h : s.engine ≠ .idle) :
    step (s.withPrimask p) = mapNext (·.withPrimask p) (step s) := by
  rw [step_of_engine h, step_of_engine (s := s.withPrimask p) h, engineStep_withPrimask]

end

/-- Settles O48: an instruction does not see PRIMASK among its surroundings, and no other part of a transition reads
it. -/
theorem primaskDecidesNothing : Obligations.PrimaskDecidesNothing := by
  refine ⟨fun i s t p he hi => ?_, fun s t p hs hshow => ?_, fun s p f hs => ?_⟩
  · obtain ⟨u, q, hu, hq⟩ := exec_withPrimask s p i hi
    obtain rfl : u = t := Host.Outcome.next.inj (hu.symm.trans he)
    exact ⟨q, hq⟩
  · by_cases hidle : s.engine = .idle
    · obtain ⟨u, q, hu, hq⟩ := step_withPrimask_of_idle p hidle hshow
      obtain rfl : u = t := Host.Outcome.next.inj (hu.symm.trans hs)
      exact ⟨q, hq⟩
    · exact ⟨p, by rw [step_withPrimask_of_engine p hidle, hs]; rfl⟩
  · rw [step_withPrimask_of_engine p (engine_of_fault hs), hs]
    rfl

end Sys2Proof.Machine
end

/-! PROOFS of the family 20_memory: the fetch before an instruction (R59, R110), and the loads and stores of one register
(R189 to R206). -/

section
namespace Sys2Proof.Machine

/-! ## The fetch before an instruction -/

section
variable {s : State} {g g' : Region}

/-- The halfword a granted fetch read answers, and what it leaves on the bus. -/
theorem fetchHalf_granted (a : Word) (ha : aligned .half a = true) (hg : s.bus.grants ⟨.read, .half, a⟩ = some g) :
    s.fetchHalf a = ({ s with bus := { s.bus with
      latch := s.bus.latch || g.latches ⟨.read, .half, a⟩
      port := s.bus.port ++ [fetchEvent a (s.bus.mem.halfAt a.toNat)] } }, some (s.bus.mem.halfAt a.toNat)) := by
  have hback : ((s.bus.mem.halfAt a.toNat).setWidth 32).setWidth 16 = s.bus.mem.halfAt a.toNat := by simp
  rw [fetchHalf_eq, memRead_granted s .half a ha hg]
  exact congrArg (fun x => (_, some x)) hback

theorem fetch_narrow_granted (ha : aligned .half s.ctx.pc = true)
    (hg : s.bus.grants ⟨.read, .half, s.ctx.pc⟩ = some g)
    (hw : isWide (s.bus.mem.halfAt s.ctx.pc.toNat) = false) :
    s.clearPort.fetch = (s.afterFetch g (s.bus.mem.halfAt s.ctx.pc.toNat),
      some (.narrow (s.bus.mem.halfAt s.ctx.pc.toNat))) :=
  fetch_of_narrow (fetchHalf_granted (s := s.clearPort) s.ctx.pc ha hg) hw

theorem fetch_wide_granted (ha : aligned .half s.ctx.pc = true)
    (hg : s.bus.grants ⟨.read, .half, s.ctx.pc⟩ = some g)
    (hg' : s.bus.grants ⟨.read, .half, s.ctx.pc + 2#32⟩ = some g')
    (hw : isWide (s.bus.mem.halfAt s.ctx.pc.toNat) = true) :
    s.clearPort.fetch = (s.afterFetch2 g g' (s.bus.mem.halfAt s.ctx.pc.toNat)
        (s.bus.mem.halfAt (s.ctx.pc + 2#32).toNat),
      some (.wide (s.bus.mem.halfAt s.ctx.pc.toNat) (s.bus.mem.halfAt (s.ctx.pc + 2#32).toNat))) := by
  have heven : s.ctx.pc.getLsbD 0 = false := by simpa [aligned_half] using ha
  have ha' : aligned .half (s.ctx.pc + 2#32) = true := by rw [aligned_half, even_add rfl heven, Bool.not_false]
  have hfirst : s.clearPort.fetchHalf s.ctx.pc = (s.afterFetch g (s.bus.mem.halfAt s.ctx.pc.toNat),
      some (s.bus.mem.halfAt s.ctx.pc.toNat)) := fetchHalf_granted (s := s.clearPort) _ ha hg
  rw [fetch_of_wide hfirst hw, State.clearPort_ctx, fetchHalf_granted (s := s.afterFetch g _) _ ha' hg']
  rfl

end

/-- Settles O8: the fetch of a ready machine is known exactly, and the step goes on with what it decodes to. -/
theorem stepRunsTheDecodedInstruction : Obligations.StepRunsTheDecodedInstruction := by
  refine ⟨fun s later hidle hstopped hc => step_of_command hidle hstopped hc,
    fun s g i hr ht ha hg hw hd => ?_, fun s g g' i hr ht ha hg hg' hw hd => ?_⟩
  · exact (step_of_ready hr).trans
      (stepInstr_decoded (s := s.taken) ht (fetch_narrow_granted (s := s.taken) ha hg hw) hd)
  · exact (step_of_ready hr).trans
      (stepInstr_decoded (s := s.taken) ht (fetch_wide_granted (s := s.taken) ha hg hg' hw) hd)

/-! ## Offsets and extensions as numbers -/

theorem zext_eq {w : Nat} (imm : BitVec w) : zext imm = BitVec.ofNat 32 imm.toNat :=
  (BitVec.ofNat_toNat 32 imm).symm

theorem zext2_eq {w : Nat} (imm : BitVec w) : zext2 imm = BitVec.ofNat 32 (2 * imm.toNat) := by
  apply BitVec.eq_of_toNat_eq
  simp [zext2, BitVec.toNat_append, Nat.shiftLeft_eq, Nat.mul_comm]

/-- The address of LDR (literal) as a number (R112, R190). -/
theorem literalBase_add_zext4 (s : State) {w : Nat} (imm : BitVec w) :
    s.literalBase + zext4 imm = BitVec.ofNat 32 (s.ctx.pc.toNat / 4 * 4 + 4 + 4 * imm.toNat) := by
  rw [State.literalBase, align4_eq, zext4_eq, BitVec.ofNat_add, BitVec.ofNat_add]

section
variable (m : Memory) (a : Nat)

theorem read_half_eq : m.read .half a = BitVec.ofNat 32 (m.halfAt a).toNat := (BitVec.ofNat_toNat 32 _).symm

theorem read_byte_eq : m.read .byte a = BitVec.ofNat 32 (m.byteAt a).toNat := (BitVec.ofNat_toNat 32 _).symm

theorem sextHalf_read : sextHalf (m.read .half a) = BitVec.ofInt 32 (m.halfAt a).toInt := by
  have hback : (m.read .half a).setWidth 16 = m.halfAt a := by simp [Memory.read, Memory.halfAt]
  rw [sextHalf, hback]
  rfl

theorem sextByte_read : sextByte (m.read .byte a) = BitVec.ofInt 32 (m.byteAt a).toInt := by
  have hback : (m.read .byte a).setWidth 8 = m.byteAt a := by simp [Memory.read, Memory.byteAt]
  rw [sextByte, hback]
  rfl

end

/-! ## Loads and stores that are permitted -/

/-- Settles O31: the four addresses, and one permitted load. -/
theorem wordLoadResults : Obligations.WordLoadResults := by
  intro s d n m imm5 imm8 a hp
  have hload (i : Instr) (he : exec i s = .next (s.load .word a d id)) :
      Loads i s .word a d (s.bus.mem.wordAt a.toNat) := loads_load s i .word a d id _ hp rfl he
  refine ⟨fun ha => hload _ ?_, fun ha => hload _ ?_, fun ha => hload _ ?_, fun ha => hload _ ?_⟩
  · rw [ha, ← literalBase_add_zext4]; rfl
  · rw [ha]; rfl
  · rw [ha, ← zext4_eq]; rfl
  · rw [ha, ← zext4_eq]; rfl

/-- Settles O32: the addresses, and the two extensions of each width. -/
theorem narrowLoadResults : Obligations.NarrowLoadResults := by
  refine ⟨fun s d n m imm5 a hp => ?_, fun s d n m imm5 a hp => ?_⟩
  · have hload := fun i ext v hv he => loads_load s i .half a d ext v hp hv he
    refine ⟨fun ha => ⟨hload _ id _ (read_half_eq _ _) ?_, hload _ sextHalf _ (sextHalf_read _ _) ?_⟩,
      fun ha => hload _ id _ (read_half_eq _ _) ?_⟩
    · rw [ha]; rfl
    · rw [ha]; rfl
    · rw [ha, ← zext2_eq]; rfl
  · have hload := fun i ext v hv he => loads_load s i .byte a d ext v hp hv he
    refine ⟨fun ha => ⟨hload _ id _ (read_byte_eq _ _) ?_, hload _ sextByte _ (sextByte_read _ _) ?_⟩,
      fun ha => hload _ id _ (read_byte_eq _ _) ?_⟩
    · rw [ha]; rfl
    · rw [ha]; rfl
    · rw [ha, ← zext_eq]; rfl

theorem bound_of_permits {s : State} {k : AccessKind} {w : Width} {a : Word} (h : s.permits k w a) :
    a.toNat + w.bytes ≤ 2 ^ 32 := by
  obtain ⟨g, hg⟩ := Option.isSome_iff_exists.mp h.2
  exact s.bus.grants_bound _ g hg

theorem extractLsb'_zero_eq_ofNat (v : Word) (n : Nat) : v.extractLsb' 0 n = BitVec.ofNat n v.toNat := by
  apply BitVec.eq_of_toNat_eq
  simp

/-- Settles O33: the addresses, and what a write of each width leaves at its address. -/
theorem storeResults : Obligations.StoreResults := by
  refine ⟨fun s t n m imm5 imm8 a hw hp => ?_, fun s t n m imm5 a hw hp => ?_, fun s t n m imm5 a hw hp => ?_⟩
  · have hstored : (s.bus.mem.write .word a.toNat (s.lowReg t)).wordAt a.toNat = s.lowReg t :=
      Memory.wordAt_write _ _ _ (bound_of_permits hp) hw
    have hstore := fun i he => stores_store s i .word a (s.lowReg t) (fun mem => mem.wordAt a.toNat = s.lowReg t) hp
      hstored he
    refine ⟨fun ha => hstore _ ?_, fun ha => hstore _ ?_, fun ha => hstore _ ?_⟩
    · rw [ha]; rfl
    · rw [ha, ← zext4_eq]; rfl
    · rw [ha, ← zext4_eq]; rfl
  · have hstored : (s.bus.mem.write .half a.toNat (s.lowReg t)).halfAt a.toNat = BitVec.ofNat 16 (s.lowReg t).toNat :=
      (Memory.halfAt_write _ _ _ (bound_of_permits hp) hw).trans (extractLsb'_zero_eq_ofNat _ _)
    have hstore := fun i he => stores_store s i .half a (s.lowReg t)
      (fun mem => mem.halfAt a.toNat = BitVec.ofNat 16 (s.lowReg t).toNat) hp hstored he
    refine ⟨fun ha => hstore _ ?_, fun ha => hstore _ ?_⟩
    · rw [ha]; rfl
    · rw [ha, ← zext2_eq]; rfl
  · have hstored : (s.bus.mem.write .byte a.toNat (s.lowReg t)).byteAt a.toNat = BitVec.ofNat 8 (s.lowReg t).toNat :=
      (Memory.byteAt_write _ _ _ hw).trans (extractLsb'_zero_eq_ofNat _ _)
    have hstore := fun i he => stores_store s i .byte a (s.lowReg t)
      (fun mem => mem.byteAt a.toNat = BitVec.ofNat 8 (s.lowReg t).toNat) hp hstored he
    refine ⟨fun ha => hstore _ ?_, fun ha => hstore _ ?_⟩
    · rw [ha]; rfl
    · rw [ha, ← zext_eq]; rfl

/-! ## Loads and stores that fail -/

/-- The instruction makes one request, the access `x`, as a load or as a store. -/
inductive RequestsOnce (i : Instr) (s : State) : Access → Prop where
  | load (w : Width) (a : Word) (d : LowReg) (ext : Word → Word) (he : exec i s = .next (s.load w a d ext)) :
      RequestsOnce i s ⟨.read, w, a⟩
  | store (w : Width) (a v : Word) (he : exec i s = .next (s.store w a v)) : RequestsOnce i s ⟨.write, w, a⟩

/-- Each of the seventeen loads and stores makes the one request of its rule (R189 to R206). -/
theorem requestsOnce_of_dataAccess {i : Instr} {s : State} {x : Access} (h : dataAccess s i = some x) :
    RequestsOnce i s x := by
  cases i with
  | ldrLit rt imm8 =>
    obtain rfl := Option.some.inj h
    rw [← literalBase_add_zext4]
    exact .load _ _ _ _ rfl
  | ldrReg | ldrhReg | ldrbReg | ldrshReg | ldrsbReg =>
    obtain rfl := Option.some.inj h
    exact .load _ _ _ _ rfl
  | ldrImm | ldrSp =>
    obtain rfl := Option.some.inj h
    rw [← zext4_eq]
    exact .load _ _ _ _ rfl
  | ldrbImm =>
    obtain rfl := Option.some.inj h
    rw [← zext_eq]
    exact .load _ _ _ _ rfl
  | ldrhImm =>
    obtain rfl := Option.some.inj h
    rw [← zext2_eq]
    exact .load _ _ _ _ rfl
  | strReg | strhReg | strbReg =>
    obtain rfl := Option.some.inj h
    exact .store _ _ _ rfl
  | strImm | strSp =>
    obtain rfl := Option.some.inj h
    rw [← zext4_eq]
    exact .store _ _ _ rfl
  | strbImm =>
    obtain rfl := Option.some.inj h
    rw [← zext_eq]
    exact .store _ _ _ rfl
  | strhImm =>
    obtain rfl := Option.some.inj h
    rw [← zext2_eq]
    exact .store _ _ _ rfl
  | _ => cases h

section
variable {s : State} {w : Width} {a : Word}

theorem load_misaligned (h : aligned w a = false) (d : LowReg) (ext : Word → Word) :
    s.load w a d ext = s.raise .hardFault := by
  simp [State.load, s.memRead_misaligned w a h]

theorem store_misaligned (h : aligned w a = false) (v : Word) : s.store w a v = s.raise .hardFault := by
  simp [State.store, s.memWrite_misaligned w a v h]

/-- The frame of `raise` behind requests that have touched the bus only. -/
theorem frame_raise_behind {s' : State} (h : OnlyBus s s') (x : StepResult) {stored : Nat → Prop}
    (hm : ∀ a, ¬ stored a → s'.bus.mem.readByte a = s.bus.mem.readByte a) : Frame s (s'.raise x) [] [] stored :=
  ((frame_onlyBus s h stored hm).trans (frame_raise s' x)).weaken (by simp) (by simp) (by simp [nowhere])

/-- The end of an instruction whose one request was answered `BusError`. -/
theorem faultsOnPort_raise {i : Instr} {k : AccessKind} (data : Word)
    (he : exec i s = .next (State.raise { s with bus := s.bus.record ⟨k, w, a⟩ data .busError } .hardFault)) :
    FaultsOnPort i s k w a :=
  ⟨_, he, rfl, rfl, frame_raise_behind (s' := { s with bus := s.bus.record ⟨k, w, a⟩ data .busError }) ⟨rfl, rfl⟩ _
    (fun _ _ => rfl), rfl, rfl, by simp⟩

theorem load_busError (ha : aligned w a = true) (hg : s.bus.grants ⟨.read, w, a⟩ = none) (d : LowReg)
    (ext : Word → Word) : s.load w a d ext =
      State.raise { s with bus := s.bus.record ⟨.read, w, a⟩ 0#32 .busError } .hardFault := by
  simp only [State.load, s.memRead_busError w a ha hg]
  rfl

theorem store_busError (ha : aligned w a = true) (hg : s.bus.grants ⟨.write, w, a⟩ = none) (v : Word) :
    s.store w a v = State.raise { s with bus := s.bus.record ⟨.write, w, a⟩ (w.clip v) .busError } .hardFault := by
  simp only [State.store, s.memWrite_busError w a v ha hg]
  rfl

end

/-- Settles O34: the one request of the instruction, as a load or as a store, misaligned or refused. -/
theorem loadAndStoreFaults : Obligations.LoadAndStoreFaults := by
  intro i s x hx
  cases requestsOnce_of_dataAccess hx with
  | load w a d ext he =>
    refine ⟨fun hmis => raises_raise s i _ ?_, fun hal hg => faultsOnPort_raise 0#32 ?_⟩
    · rw [he, load_misaligned (by simpa [aligned] using hmis)]
    · rw [he, load_busError (by simpa [aligned] using hal) hg]
  | store w a v he =>
    refine ⟨fun hmis => raises_raise s i _ ?_, fun hal hg => faultsOnPort_raise (w.clip v) ?_⟩
    · rw [he, store_misaligned (by simpa [aligned] using hmis)]
    · rw [he, store_busError (by simpa [aligned] using hal) hg]

end Sys2Proof.Machine
end

/-! PROOFS of the family 20_memory: the backend's contract (R56), the byte order (R53), watchpoints (R65), and the host's
reads of memory (R72, R296). -/

section
namespace Sys2Proof.Machine

/-! ## Which region an access is resolved to -/

/-- A list filtered to one entry: it stands at one place, and no entry at another place passes. -/
theorem filter_eq_singleton_iff {α : Type} (p : α → Bool) (l : List α) (x : α) :
    l.filter p = [x] ↔ ∃ k : Nat, l[k]? = some x ∧ p x = true ∧
      ∀ (j : Nat) (y : α), l[j]? = some y → j ≠ k → p y = false := by
  rw [List.filter_eq_cons_iff]
  constructor
  · rintro ⟨l₁, l₂, rfl, h₁, hx, h₂⟩
    refine ⟨l₁.length, by simp, hx, fun j y hj hne => ?_⟩
    obtain hlt | hgt := Nat.lt_or_gt_of_ne hne
    · rw [List.getElem?_append_left hlt] at hj
      simpa using h₁ y (List.mem_of_getElem? hj)
    · obtain ⟨i, rfl⟩ := Nat.exists_eq_add_of_lt hgt
      rw [List.getElem?_append_right (by omega), show l₁.length + i + 1 - l₁.length = i + 1 by omega,
        List.getElem?_cons_succ] at hj
      simpa using List.filter_eq_nil_iff.mp h₂ y (List.mem_of_getElem? hj)
  · rintro ⟨k, hk, hx, hothers⟩
    obtain ⟨hlt, rfl⟩ := List.getElem?_eq_some_iff.mp hk
    refine ⟨l.take k, l.drop (k + 1), by rw [List.getElem_cons_drop, List.take_append_drop], fun y hy => ?_, hx, ?_⟩
    · obtain ⟨j, hj, rfl⟩ := List.mem_take_iff_getElem.mp hy
      simpa using hothers j _ (List.getElem?_eq_getElem _) (by omega)
    · refine List.filter_eq_nil_iff.mpr fun y hy => ?_
      obtain ⟨j, hj⟩ := List.mem_iff_getElem?.mp hy
      rw [List.getElem?_drop] at hj
      simpa using hothers _ y hj (by omega)

section
variable (g : Region) (a n : Nat)

theorem Width.bytes_pos (w : Width) : 0 < w.bytes := by cases w <;> decide

theorem touches_iff (hn : 0 < n) : g.touches a n = true ↔ ∃ x, bytesAt a n x ∧ bytesAt g.base.toNat g.size x := by
  simp only [Region.touches, Bool.and_eq_true, decide_eq_true_eq, bytesAt]
  constructor
  · rintro ⟨⟨hsize, ha⟩, hb⟩
    exact ⟨max a g.base.toNat, by omega, by omega⟩
  · rintro ⟨x, hx, hx'⟩
    omega

theorem contains_iff (hn : 0 < n) :
    g.contains a n = true ↔ ∀ x, bytesAt a n x → bytesAt g.base.toNat g.size x := by
  simp only [Region.contains, Bool.and_eq_true, decide_eq_true_eq, bytesAt]
  constructor
  · intro h x hx
    omega
  · intro h
    have hfirst := h a (by omega)
    have hlast := h (a + n - 1) (by omega)
    omega

theorem touches_of_contains (hn : 0 < n) (h : g.contains a n = true) : g.touches a n = true :=
  (touches_iff g a n hn).mpr ⟨a, ⟨le_rfl, by omega⟩, (contains_iff g a n hn).mp h a ⟨le_rfl, by omega⟩⟩

end

/-- R56 (a) in words: all bytes lie in one declared region, none in another. -/
theorem resolve_eq_some_iff (b : Bus) (w : Width) (a : Word) (g : Region) : b.resolve w a = some g ↔
    ∃ k, b.regions[k]? = some g ∧ a.toNat + w.bytes ≤ 2 ^ 32 ∧
      (∀ x, bytesAt a.toNat w.bytes x → bytesAt g.base.toNat g.size x) ∧
      (∀ (j : Nat) (h : Region), b.regions[j]? = some h → j ≠ k →
        ∀ x, bytesAt a.toNat w.bytes x → ¬ bytesAt h.base.toNat h.size x) := by
  have hpos := w.bytes_pos
  have hresolve : b.resolve w a = some g ↔ b.regions.filter (·.touches a.toNat w.bytes) = [g] ∧
      g.contains a.toNat w.bytes = true ∧ a.toNat + w.bytes ≤ 2 ^ 32 := by
    unfold Bus.resolve
    split
    · next g' hf =>
      rw [hf]
      aesop
    · next hf =>
      simpa using fun h => absurd h (hf g)
  have huntouched (h : Region) : h.touches a.toNat w.bytes = false ↔
      ∀ x, bytesAt a.toNat w.bytes x → ¬ bytesAt h.base.toNat h.size x := by
    rw [← Bool.not_eq_true, touches_iff h _ _ hpos]
    simp
  rw [hresolve, filter_eq_singleton_iff, ← contains_iff g _ _ hpos]
  simp only [huntouched]
  constructor
  · rintro ⟨⟨k, hk, -, hothers⟩, hc, hb⟩
    exact ⟨k, hk, hb, hc, hothers⟩
  · rintro ⟨k, hk, hb, hc, hothers⟩
    exact ⟨⟨k, hk, touches_of_contains g _ _ hpos hc, hothers⟩, hc, hb⟩

/-! ## Breakpoints and the latch -/

section
variable (g : Region) (x : Access)

theorem breaks_iff : g.breaks x = true ↔ ∃ p ∈ g.watchpoints, p.kind = .breakpoint ∧ x ∈ p.matched := by
  simp only [Region.breaks, List.any_eq_true, Watchpoint.hits, Bool.and_eq_true, beq_iff_eq, List.contains_iff_mem]
  refine exists_congr fun p => and_congr_right fun _ => and_congr_right fun hk => ?_
  simp [hk, WatchKind.watches]

theorem latches_iff : g.latches x = true ↔ ∃ p ∈ g.watchpoints,
    (p.kind ≠ .breakpoint ∧ p.kind.watches x.kind = true) ∧ x ∈ p.matched := by
  simp [Region.latches, Watchpoint.hits, and_assoc]

end

theorem watches_read_iff (k : WatchKind) : k ≠ .breakpoint ∧ k.watches .read = true ↔ k = .read ∨ k = .readWrite := by
  cases k <;> decide

theorem watches_write_iff (k : WatchKind) :
    k ≠ .breakpoint ∧ k.watches .write = true ↔ k = .write ∨ k = .readWrite := by
  cases k <;> decide

/-! ## One request on the port -/

section
variable {b : Bus} {w : Width} {a : Word} {g : Region}

theorem busRead_granted (h : b.grants ⟨.read, w, a⟩ = some g) : b.read w a =
    (({ b with latch := b.latch || g.latches ⟨.read, w, a⟩ } : Bus).record ⟨.read, w, a⟩ (b.mem.read w a.toNat) .ok,
      some (b.mem.read w a.toNat)) := by
  simp [Bus.read, h]

theorem busRead_refused (h : b.grants ⟨.read, w, a⟩ = none) :
    b.read w a = (b.record ⟨.read, w, a⟩ 0#32 .busError, none) := by
  simp [Bus.read, h]

theorem busWrite_granted (v : Word) (h : b.grants ⟨.write, w, a⟩ = some g) : b.write w a v =
    (({ b with mem := b.mem.write w a.toNat v, latch := b.latch || g.latches ⟨.write, w, a⟩ } : Bus).record
      ⟨.write, w, a⟩ (w.clip v) .ok, true) := by
  simp [Bus.write, h]

theorem busWrite_refused (v : Word) (h : b.grants ⟨.write, w, a⟩ = none) :
    b.write w a v = (b.record ⟨.write, w, a⟩ (w.clip v) .busError, false) := by
  simp [Bus.write, h]

end

/-- What is granted: the resolved region, unless it is read-only or a breakpoint matches (R56). -/
theorem grants_eq_some_iff (b : Bus) (x : Access) (g : Region) : b.grants x = some g ↔
    b.resolve x.width x.addr = some g ∧ ¬ (x.kind = .write ∧ g.readOnly = true) ∧ ¬ g.breaks x = true := by
  unfold Bus.grants
  split
  · next g' hr => rw [hr]; aesop
  · next hr => simp [hr]

/-- Settles O40: `resolve` and `grants` in words, then the answer of each request. -/
theorem busErrorContract : Obligations.BusErrorContract := by
  refine ⟨fun b x g => ?_, fun b w a v => ⟨?_, ?_, ?_⟩⟩
  · rw [grants_eq_some_iff, resolve_eq_some_iff, breaks_iff]
    constructor
    · rintro ⟨⟨k, hk, hb, hin, hothers⟩, hro, hbreak⟩
      exact ⟨k, hk, hb, hin, hothers, hro, hbreak⟩
    · rintro ⟨k, hk, hb, hin, hothers, hro, hbreak⟩
      exact ⟨⟨k, hk, hb, hin, hothers⟩, hro, hbreak⟩
  · cases h : b.grants ⟨.read, w, a⟩ with
    | none => simp [busRead_refused h]
    | some g => simp [busRead_granted h]
  · cases h : b.grants ⟨.write, w, a⟩ with
    | none => simp [busWrite_refused v h]
    | some g => simp [busWrite_granted v h]
  · cases h : b.grants ⟨.read, w, a⟩ with
    | none => simp [busRead_refused h]
    | some g => simp [busRead_granted h]

/-! ## Byte order -/

theorem toNat_append_byte {n : Nat} (x : BitVec n) (y : Byte) : (x ++ y).toNat = y.toNat + 256 * x.toNat := by
  rw [BitVec.toNat_append, ← Nat.shiftLeft_add_eq_or_of_lt y.isLt, Nat.shiftLeft_eq]
  omega

section
variable (m : Memory) (a : Nat)

theorem toNat_read_byte : (m.read .byte a).toNat = (m.readByte a).toNat :=
  BitVec.toNat_setWidth_of_le (by decide)

theorem toNat_read_half : (m.read .half a).toNat = (m.readByte a).toNat + 256 * (m.readByte (a + 1)).toNat := by
  rw [← toNat_append_byte]
  exact BitVec.toNat_setWidth_of_le (by decide)

theorem toNat_read_word :
    (m.read .word a).toNat = (m.read .half a).toNat + 65536 * (m.read .half (a + 2)).toNat := by
  rw [toNat_read_half, toNat_read_half, show a + 2 + 1 = a + 3 from rfl]
  simp only [Memory.read, toNat_append_byte]
  omega

theorem toNat_read_half_lt : (m.read .half a).toNat < 65536 := by
  have h0 := (m.readByte a).isLt
  have h1 := (m.readByte (a + 1)).isLt
  rw [toNat_read_half]
  omega

/-- The bytes of a halfword are its digits to the base 256. -/
theorem toNat_read_byte_of_half {j : Nat} (hj : j < 2) :
    (m.read .byte (a + j)).toNat = (m.read .half a).toNat / 256 ^ j % 256 := by
  have h0 := (m.readByte a).isLt
  have h1 := (m.readByte (a + 1)).isLt
  rw [toNat_read_byte, toNat_read_half]
  interval_cases j <;> norm_num <;> omega

/-- The bytes of a word are its digits to the base 256. -/
theorem toNat_read_byte_of_word {j : Nat} (hj : j < 4) :
    (m.read .byte (a + j)).toNat = (m.read .word a).toNat / 256 ^ j % 256 := by
  have hlow := toNat_read_half_lt m a
  have hhigh := toNat_read_half_lt m (a + 2)
  by_cases h2 : j < 2
  · rw [toNat_read_byte_of_half m a h2, toNat_read_word]
    interval_cases j <;> norm_num <;> omega
  · obtain ⟨i, rfl⟩ := Nat.exists_eq_add_of_le (Nat.le_of_not_lt h2)
    have hi : i < 2 := by omega
    rw [← Nat.add_assoc, toNat_read_byte_of_half m (a + 2) hi, toNat_read_word]
    interval_cases i <;> norm_num <;> omega

end

section
variable {m : Memory} {a : Nat} (v : Word)

theorem toNat_read_half_write (ha : a + 2 ≤ 2 ^ 32) (hm : m.wf = true) :
    ((m.write .half a v).read .half a).toNat = v.toNat % 65536 := by
  rw [read_half_eq, Memory.halfAt_write m a v ha hm, extractLsb'_zero_eq_ofNat]
  simp only [BitVec.toNat_ofNat]
  omega

theorem toNat_read_byte_write (hm : m.wf = true) : ((m.write .byte a v).read .byte a).toNat = v.toNat % 256 := by
  rw [read_byte_eq, Memory.byteAt_write m a v hm, extractLsb'_zero_eq_ofNat]
  simp only [BitVec.toNat_ofNat]
  omega

/-- A byte beside the access keeps its value. -/
theorem readByte_write_beside (w : Width) {x : Nat} (hx : x < a ∨ a + w.bytes ≤ x) :
    (m.write w a v).readByte x = m.readByte x :=
  Memory.readByte_write_outside m w a x v (by simp only [bytesAt]; omega)

end

theorem memRead_answer {s s' : State} {w : Width} {a v : Word} (h : s.memRead w a = (s', some v)) :
    v = s.bus.mem.read w a.toNat := by
  by_cases ha : aligned w a = true
  · cases hg : s.bus.grants ⟨.read, w, a⟩ with
    | none => simp [s.memRead_busError w a ha hg] at h
    | some g =>
      rw [memRead_granted s w a ha hg] at h
      exact (Option.some.inj (Prod.ext_iff.mp h).2).symm
  · simp [s.memRead_misaligned w a (by simpa using ha)] at h

/-- The halfword a fetch read answers is the one in memory. -/
theorem fetchHalf_answer {s s' : State} {a : Word} {h : Half} (e : s.fetchHalf a = (s', some h)) :
    h = s.bus.mem.halfAt a.toNat := by
  rw [fetchHalf_eq] at e
  obtain ⟨v, hv, rfl⟩ := Option.map_eq_some_iff.mp (Prod.ext_iff.mp e).2
  rw [memRead_answer (s' := (s.memRead .half a).1) (Prod.ext rfl hv)]
  simp [Memory.read, Memory.halfAt]

/-- Byte `j` of halfword `k` of an instruction. -/
theorem getElem?_encodeBytes {i : Instr} {k : Nat} {h : Half} (hk : (encode i)[k]? = some h) {j : Nat} (hj : j < 2) :
    (encodeBytes i)[2 * k + j]? = (bytesOfHalf h)[j]? := by
  rw [encodeBytes, getElem?_flatMap_block bytesOfHalf 2 (fun _ => rfl) _ _ _ hj, hk, Option.bind_some]

/-- Settles O41: each width is read as digits to the base 256, the lowest address least significant; what a write left is
then the digits of the value written. -/
theorem littleEndianMixedWidths : Obligations.LittleEndianMixedWidths := by
  refine ⟨fun m a => ⟨toNat_read_byte m a, toNat_read_half m a, toNat_read_word m a⟩,
    fun m a v hm => ⟨fun ha => ?_, fun ha => ?_, fun ha => ?_⟩, fun s s' a h he => ?_, fun i k h hk => ?_,
    fun v j hj => ?_⟩
  · have hword : (m.write .word a v).read .word a = v := Memory.wordAt_write m a v ha hm
    have hhalves := toNat_read_word (m.write .word a v) a
    have hlow := toNat_read_half_lt (m.write .word a v) a
    rw [hword] at hhalves
    refine ⟨hword, by omega, by omega, fun j hj => ?_, fun x hx => readByte_write_beside v .word hx⟩
    rw [toNat_read_byte_of_word _ a hj, hword]
  · have hhalf := toNat_read_half_write v ha hm
    refine ⟨hhalf, fun j hj => ?_, fun x hx => readByte_write_beside v .half hx⟩
    rw [toNat_read_byte_of_half _ a hj, hhalf]
    interval_cases j <;> norm_num
    omega
  · refine ⟨toNat_read_byte_write v hm, fun x hx => readByte_write_beside v .byte ?_⟩
    simp only [Width.bytes]
    omega
  · rw [fetchHalf_answer he]
    exact toNat_append_byte _ _
  · have hlow : (h.extractLsb' 0 8).toNat = h.toNat % 256 := by simp
    have hhigh : (h.extractLsb' 8 8).toNat = h.toNat / 256 := by
      simp only [BitVec.extractLsb'_toNat, Nat.shiftRight_eq_div_pow]
      omega
    exact ⟨by rw [← hlow, ← Nat.add_zero (2 * k), getElem?_encodeBytes hk (by decide)]; rfl,
      by rw [← hhigh, getElem?_encodeBytes hk (by decide)]; rfl⟩
  · interval_cases j <;> simp [bytesOfWord, Nat.shiftRight_eq_div_pow]

/-! ## Watchpoints -/

theorem insertWatchpoint_taken {p : Watchpoint} {ps : List Watchpoint} (hps : strictlyOrdered ps)
    (h : ∃ q ∈ ps, q.startAddress = p.startAddress) : insertWatchpoint p ps = none := by
  induction ps with
  | nil => simp at h
  | cons r rs ih =>
    obtain ⟨hr, hrs⟩ := List.pairwise_cons.mp hps
    obtain ⟨q, hq, he⟩ := h
    obtain rfl | hq := List.mem_cons.mp hq
    · simp [insertWatchpoint, he]
    · have hlt : r.startAddress.toNat < p.startAddress.toNat := he ▸ hr q hq
      rw [insertWatchpoint, if_neg (by omega), if_pos hlt, ih hrs ⟨q, hq, he⟩, Option.map_none]

/-- The host's removal keeps the entries that differ in kind, start or end. -/
theorem removeWatchpoint_eq (g : Region) (k : WatchKind) (lo hi : Word) : g.removeWatchpoint k lo hi =
    { g with watchpoints := g.watchpoints.filter fun p => p.kind ≠ k ∨ p.startAddress ≠ lo ∨ p.endAddress ≠ hi } := by
  have hsame : (fun p : Watchpoint => !p.same k lo hi) =
      fun p => decide (p.kind ≠ k ∨ p.startAddress ≠ lo ∨ p.endAddress ≠ hi) := by
    funext p
    rw [Bool.eq_iff_iff]
    simp [Watchpoint.same, or_assoc]
  rw [Region.removeWatchpoint, hsame]

section
variable {p : Watchpoint} {g : Region} {qs : List Watchpoint}

theorem addWatchpoint_added (hc : g.contains p.startAddress.toNat 1 = true)
    (hq : insertWatchpoint p g.watchpoints = some qs) :
    addWatchpoint p [g] = ([{ g with watchpoints := qs }], .added) := by
  simp [addWatchpoint, hc, hq]

theorem addWatchpoint_refused (hc : g.contains p.startAddress.toNat 1 = true)
    (hq : insertWatchpoint p g.watchpoints = none) : addWatchpoint p [g] = ([g], .alreadyPresent) := by
  simp [addWatchpoint, hc, hq]

end

/-- Settles O42: what a granted request leaves, the sorted slot, and the host's two commands. -/
theorem watchpointsLatchWithoutEffect : Obligations.WatchpointsLatchWithoutEffect := by
  refine ⟨fun b w a v g => ⟨fun hg => ?_, fun hg => ?_⟩, fun p ps hps => ⟨⟨?_, ?_⟩, fun qs hqs => ⟨?_, ?_⟩⟩,
    fun s g p later hidle hstopped hc hr hin => ?_, fun s k lo hi later hidle hstopped hc => ?_⟩
  · rw [busRead_granted hg]
    refine ⟨rfl, rfl, ?_⟩
    rw [Bus.record_latch, Bool.or_eq_true, latches_iff]
    simp only [watches_read_iff]
  · rw [busWrite_granted v hg]
    refine ⟨rfl, rfl, ?_⟩
    rw [Bus.record_latch, Bool.or_eq_true, latches_iff]
    simp only [watches_write_iff]
  · exact insertWatchpoint_refused p ps
  · exact insertWatchpoint_taken hps
  · exact strictlyOrdered_insertWatchpoint p hps hqs
  · exact mem_insertWatchpoint p ps qs hqs
  · have hcontains : g.contains p.startAddress.toNat 1 = true :=
      (contains_iff g _ 1 (by decide)).mpr fun x hx => by
        obtain rfl : x = p.startAddress.toNat := by simp only [bytesAt] at hx; omega
        exact hin
    refine ⟨fun qs hqs => ?_, fun hqs => ?_⟩
    · rw [step_of_command hidle hstopped hc]
      simp only [State.execCommand, hr, addWatchpoint_added hcontains hqs]
    · have hbus : ({ s.bus with regions := [g] } : Bus) = s.bus := by rw [← hr]
      rw [step_of_command hidle hstopped hc]
      simp only [State.execCommand, hr, addWatchpoint_refused hcontains hqs, hbus]
  · rw [step_of_command hidle hstopped hc]
    simp only [State.execCommand, removeWatchpoint_eq]

/-! ## The host's reads of memory -/

theorem length_hostLoad (b : Bus) (addr : Word) (n : Nat) : (b.hostLoad addr n).length = n := by
  simp [Bus.hostLoad_eq]

/-- Digit `e` of byte `k` of the payload (R296). -/
theorem getElem?_memoryHex (b : Bus) (addr : Word) {n k e : Nat} (hk : k < n) (he : e < 2) :
    (b.memoryHex addr n)[2 * k + e]? = (hexOfByte (b.mem.readByte (addr + BitVec.ofNat 32 k).toNat))[e]? := by
  rw [Bus.memoryHex, hexOfBytes, getElem?_flatMap_block hexOfByte 2 (fun _ => rfl) _ _ _ he, Bus.hostLoad_eq]
  simp [hk]

/-- Settles O60: the digits are blocks of two, one for each byte of the host's read; the read itself is one command. -/
theorem memoryHexRoundTrip : Obligations.MemoryHexRoundTrip := by
  refine ⟨fun b addr n => ⟨?_, ?_, fun k hk => ⟨?_, ?_⟩⟩, fun s later addr n hidle hstopped hc => ⟨fun h => ?_, ?_⟩⟩
  · rw [Bus.memoryHex, length_hexOfBytes, length_hostLoad]
  · rw [Bus.memoryHex, bytesOfHex_hexOfBytes, Bus.hostLoad_eq]
  · exact getElem?_memoryHex b addr hk (e := 0) (by decide)
  · exact getElem?_memoryHex b addr hk (e := 1) (by decide)
  · have hread := (s.bus.hostReadable_iff addr n).mpr h
    rw [step_of_command hidle hstopped hc]
    simp only [State.execCommand, Bus.hostRead, hread, if_true, Bus.hostLoad_eq]
  · rintro ⟨k, hk, hnone⟩
    have hread : ¬ s.bus.hostReadable addr n = true := fun h => by
      simpa [hnone] using (s.bus.hostReadable_iff addr n).mp h k hk
    rw [step_of_command hidle hstopped hc]
    simp only [State.execCommand, Bus.hostRead, if_neg hread]

end Sys2Proof.Machine
end

/-! PROOFS of the family 20_memory: STM and LDM (R232, R233), and the multiple transfers that fault (R57, R229). -/

section
namespace Sys2Proof.Machine

/-! ## STM -/

theorem getLsbD_lowSet (list : BitVec 8) (d : LowReg) : (lowSet list).getLsbD d.toNat = list.getLsbD d.toNat := by
  have hd : d.toNat < 16 := by omega
  simp [lowSet, hd]

/-- STM with some register listed, and the base listed only as the lowest one, is legal (R232). -/
theorem stm_legal {n : LowReg} {list : BitVec 8} (hne : place (lowSet list) 16 ≠ 0)
    (hbase : list.getLsbD n.toNat = true → place (lowSet list) n.toNat = 0) : stmUnpredictable n list = false := by
  have hlist : list ≠ 0#8 := by
    rintro rfl
    exact hne (by decide)
  have hhead : list.getLsbD n.toNat = true → (registersIn (lowSet list)).head? = some (low n) := fun h => by
    have hfirst := getElem?_registersIn_place (lowSet list) (i := low n) (by rw [toNat_low, getLsbD_lowSet, h])
    rwa [toNat_low, hbase h, ← List.head?_eq_getElem?] at hfirst
  simpa [stmUnpredictable, hlist] using hhead

section
variable {s s' : State} {n : LowReg} {list : BitVec 8}

theorem exec_stm (hleg : stmUnpredictable n list = false)
    (hs : s.storeWords (s.lowReg n) ((registersIn (lowSet list)).map s.reg) = (s', true)) :
    exec (.stm n list) s = .next (s'.setLow n (s.lowReg n + BitVec.ofNat 32 (4 * place (lowSet list) 16))) := by
  show execStm n list s = _
  simp [execStm, hleg, listBytes_registersIn, hs]

theorem exec_stm_refused (hleg : stmUnpredictable n list = false)
    (hs : s.storeWords (s.lowReg n) ((registersIn (lowSet list)).map s.reg) = (s', false)) :
    exec (.stm n list) s = .next (s'.raise .hardFault) := by
  show execStm n list s = _
  simp [execStm, hleg, hs]

end

/-- Settles O37: the listed registers stored at their places, then the base written. -/
theorem storeMultipleWritesBack : Obligations.StoreMultipleWritesBack := by
  rintro s n list count rfl hne hbase hw hp
  obtain ⟨s', hs, hst⟩ := storeWords_listed s (lowSet list) (s.lowReg n) hw hp
  have hctx := hst.onlyBus.ctx
  refine ⟨_, exec_stm (stm_legal hne hbase) hs, ⟨?_, rfl⟩, ?_, fun d hd => ?_, ?_, hst.accesses⟩
  · show s'.ctx.pc + 2#32 = s.ctx.pc + 2#32
    rw [hctx]
  · exact Context.reg_eq_of (low_ne n).2.2 (Context.reg_writeReg_low s'.ctx n _) (by exact ⟨rfl, rfl, rfl⟩)
  · have hword := hst.words (low d) (by rw [toNat_low, getLsbD_lowSet, hd])
    rwa [toNat_low] at hword
  · refine frame_finish_behind hst.onlyBus _ _ hst.others (fun i _ hi => ?_) (fun k _ _ => ?_) ?_
    · rw [hctx]
      exact reg_writeReg_kept _ _ _ _ hi
    · rw [hctx, Context.writeReg_xpsr]
    · rw [hctx, Context.writeReg_primask]

/-! ## LDM -/

/-- The listed registers with the words of their places from the base on. -/
def loadedRegs (s : State) (n : LowReg) (list : BitVec 8) : Context :=
  s.ctx.writeRegs ((registersIn (lowSet list)).map fun i =>
    (i, s.bus.mem.wordAt (nthWord (s.lowReg n) (place (lowSet list) i.toNat)).toNat))

/-- What LDM commits: the listed registers, then the base, when it is not among them (R233). -/
def loadedContext (s : State) (n : LowReg) (list : BitVec 8) : Context :=
  if list.getLsbD n.toNat then loadedRegs s n list
  else (loadedRegs s n list).writeReg (low n) (s.lowReg n + BitVec.ofNat 32 (4 * place (lowSet list) 16))

section
variable (s : State) (n : LowReg) (list : BitVec 8)

theorem loadedContext_xpsr : (loadedContext s n list).xpsr = s.ctx.xpsr := by
  unfold loadedContext
  split <;> simp [loadedRegs]

theorem loadedContext_primask : (loadedContext s n list).primask = s.ctx.primask := by
  unfold loadedContext
  split <;> simp [loadedRegs]

variable {n list}

theorem loadedContext_base (h : list.getLsbD n.toNat = false) :
    (loadedContext s n list).reg (low n) = s.lowReg n + BitVec.ofNat 32 (4 * place (lowSet list) 16) := by
  rw [loadedContext, h, if_neg Bool.false_ne_true, Context.reg_writeReg_low]

theorem loadedRegs_low {d : LowReg} (hd : list.getLsbD d.toNat = true) : (loadedRegs s n list).reg (low d) =
    s.bus.mem.wordAt (nthWord (s.lowReg n) (place (lowSet list) d.toNat)).toNat := by
  obtain ⟨h13, -, h15⟩ := low_ne d
  have hmem : low d ∈ registersIn (lowSet list) := by rw [mem_registersIn, toNat_low, getLsbD_lowSet, hd]
  rw [loadedRegs, Context.reg_writeRegs_map _ _ _ hmem h13 h15, toNat_low]

theorem loadedContext_low {d : LowReg} (hd : list.getLsbD d.toNat = true) : (loadedContext s n list).reg (low d) =
    s.bus.mem.wordAt (nthWord (s.lowReg n) (place (lowSet list) d.toNat)).toNat := by
  unfold loadedContext
  split
  · exact loadedRegs_low s hd
  · next hn =>
    have hne : low d ≠ low n := fun e => hn ((low_inj d n).mp e ▸ hd)
    rw [Context.reg_writeReg_ne _ _ _ _ hne, loadedRegs_low s hd]

theorem loadedContext_kept {i : RegNum} (hi : i ∉ low n :: listed (lowSet list)) :
    (loadedContext s n list).reg i = s.ctx.reg i := by
  obtain ⟨hbase, hlist⟩ : i ≠ low n ∧ i ∉ listed (lowSet list) := by simpa using hi
  have hregs : (loadedRegs s n list).reg i = s.ctx.reg i :=
    Context.reg_writeRegs_of_notMem _ _ (by simpa [registersIn_eq_listed] using hlist)
  unfold loadedContext
  split
  · exact hregs
  · rw [Context.reg_writeReg_ne _ _ _ _ hbase, hregs]

end

section
variable {s s' : State} {n : LowReg} {list : BitVec 8}

theorem exec_ldm (hne : place (lowSet list) 16 ≠ 0) (hctx : s'.ctx = s.ctx)
    (hs : s.loadWords (s.lowReg n) (registersIn (lowSet list)).length = (s',
      some ((List.range (place (lowSet list) 16)).map fun k => s.bus.mem.wordAt (nthWord (s.lowReg n) k).toNat))) :
    exec (.ldm n list) s = .next (s'.finish16 (loadedContext s n list)) := by
  show execLdm n list s = _
  simp only [execLdm, registersIn_ne_nil hne, if_false, hs, listBytes_registersIn, hctx, loadedContext]
  rw [zip_registersIn _ fun k => s.bus.mem.wordAt (nthWord (s.lowReg n) k).toNat]
  split <;> rfl

theorem exec_ldm_refused (hne : place (lowSet list) 16 ≠ 0)
    (hs : s.loadWords (s.lowReg n) (registersIn (lowSet list)).length = (s', none)) :
    exec (.ldm n list) s = .next (s'.raise .hardFault) := by
  show execLdm n list s = _
  simp only [execLdm, registersIn_ne_nil hne, if_false, hs]

end

/-- Settles O38, from what LDM commits. -/
theorem loadMultipleWritesBack : Obligations.LoadMultipleWritesBack := by
  rintro s n list count rfl hne hp
  obtain ⟨s', hs, hld⟩ := loadWords_listed s (lowSet list) (s.lowReg n) hp
  have hctx := hld.onlyBus.ctx
  have hreg {i : RegNum} {v : Word} (hi : i ≠ 15#4) (h : (loadedContext s n list).reg i = v) :
      (s'.finish16 (loadedContext s n list)).ctx.reg i = v := Context.reg_eq_of hi h (by exact ⟨rfl, rfl, rfl⟩)
  refine ⟨_, exec_ldm hne hctx hs, ⟨?_, rfl⟩, fun hn => hreg (low_ne n).2.2 (loadedContext_base s hn),
    fun d hd => hreg (low_ne d).2.2 (loadedContext_low s hd), ?_, hld.accesses⟩
  · show s'.ctx.pc + 2#32 = s.ctx.pc + 2#32
    rw [hctx]
  · exact frame_finish_behind hld.onlyBus _ _ (fun a _ => by rw [hld.mem]) (fun i _ hn => loadedContext_kept s hn)
      (fun k _ _ => by rw [loadedContext_xpsr]) (loadedContext_primask s n list)

/-! ## Transfers that fault -/

/-- A write that is not permitted stores nothing. -/
theorem memWrite_refused (s : State) (w : Width) (a v : Word) (hn : ¬ s.permits .write w a) :
    ∃ s1, s.memWrite w a v = (s1, false) ∧ s1.bus.mem = s.bus.mem := by
  by_cases ha : aligned w a = true
  · have hg : s.bus.grants ⟨.write, w, a⟩ = none := by simpa [State.permits, ha] using hn
    exact ⟨_, s.memWrite_busError w a v ha hg, rfl⟩
  · exact ⟨s, s.memWrite_misaligned w a v (by simpa using ha), rfl⟩

/-- A transfer whose store number `k` is the first not permitted leaves the memory that its first `k` stores make. -/
theorem storeWords_refused_mem (s : State) (a : Word) (vs : List Word) (k : Nat) (hk : k < vs.length)
    (h : ∀ j, j < k → s.permits .write .word (nthWord a j)) (hn : ¬ s.permits .write .word (nthWord a k)) :
    (s.storeWords a vs).1.bus.mem = (s.storeWords a (vs.take k)).1.bus.mem := by
  induction vs generalizing s a k with
  | nil => simp at hk
  | cons v vs ih =>
    cases k with
    | zero =>
      obtain ⟨s1, e, hm⟩ := memWrite_refused s .word a v (by rwa [nthWord_zero] at hn)
      rw [storeWords_cons_refused e, hm]
      rfl
    | succ k =>
      obtain ⟨l, e⟩ := s.memWrite_permitted .word a v (by simpa using h 0 (by omega))
      rw [List.take_succ_cons, storeWords_cons e, storeWords_cons e]
      refine ih _ _ k (by simpa using hk) (fun j hj => ?_) fun hp => hn ?_
      · rw [nthWord_succ]
        exact (State.permits_congr s _ _ _ _ rfl).mpr (h (j + 1) (by omega))
      · rw [← nthWord_succ]
        exact (State.permits_congr s _ _ _ _ rfl).mp hp

/-- A transfer of which some word may not be read answers nothing. -/
theorem loadWords_none {s : State} {a : Word} {n k : Nat} (hk : k < n) (hn : ¬ s.permits .read .word (nthWord a k)) :
    (s.loadWords a n).2 = none := by
  classical
  have hex : ∃ k, ¬ s.permits .read .word (nthWord a k) := ⟨k, hn⟩
  have hfirst : Nat.find hex < n := (Nat.find_min' hex hn).trans_lt hk
  exact (s.loadWords_refused a n _ hfirst (fun j hj => not_not.mp (Nat.find_min hex hj)) (Nat.find_spec hex)).1

/-- Of the registers of the set those at a place below `k` have been stored from `start` on, and word `k` has been
refused (R57, R229). -/
structure StoredBelow (s s' : State) (set : BitVec 16) (start : Word) (k : Nat) : Prop where
  onlyBus : OnlyBus s s'
  words : ∀ i : RegNum, set.getLsbD i.toNat = true → place set i.toNat < k →
    s'.bus.mem.wordAt (nthWord start (place set i.toNat)).toNat = s.reg i
  others : ∀ x, ¬ (∃ j, j < k ∧ bytesAt (nthWord start j).toNat 4 x) → s'.bus.mem.readByte x = s.bus.mem.readByte x
  requests : s'.bus.port.map (fun e => (e.access, e.response)) =
    s.bus.port.map (fun e => (e.access, e.response)) ++ requestsRefusedAt .write start k

theorem storeWords_listed_refused (s : State) (set : BitVec 16) (start : Word) {k : Nat} (hk : k < place set 16)
    (hw : s.bus.mem.wf = true) (hp : ∀ j, j < k → s.permits .write .word (nthWord start j))
    (hn : ¬ s.permits .write .word (nthWord start k)) :
    ∃ s', s.storeWords start ((registersIn set).map s.reg) = (s', false) ∧ StoredBelow s s' set start k := by
  have hlen : ((registersIn set).map s.reg).length = place set 16 := by rw [List.length_map, length_registersIn]
  have htake : (((registersIn set).map s.reg).take k).length = k := by
    rw [List.length_take, hlen, Nat.min_eq_left hk.le]
  have hk16 : k ≤ 16 := hk.le.trans (place_le set 16)
  obtain ⟨hfail, hreq⟩ := s.storeWords_refused start _ k (hlen.symm ▸ hk) hp hn
  have hmem := storeWords_refused_mem s start _ k (hlen.symm ▸ hk) hp hn
  obtain ⟨-, hwords⟩ := s.storeWords_permitted start (((registersIn set).map s.reg).take k) (htake.symm ▸ hk16) hw
    (htake.symm ▸ hp)
  obtain ⟨-, hothers, -, -⟩ := s.storeWords_effect start (((registersIn set).map s.reg).take k)
  refine ⟨_, Prod.ext rfl hfail, (s.storeWords_effect _ _).1, fun i hi hik => ?_, fun x hx => ?_, hreq⟩
  · obtain ⟨hlt, hget⟩ := List.getElem?_eq_some_iff.mp (getElem?_registersIn_place set hi)
    rw [hmem, hwords _ (htake.symm ▸ hik), List.getElem_take, List.getElem_map, hget]
  · rw [hmem]
    exact hothers x fun j hj hb => hx ⟨j, htake ▸ hj, hb⟩

/-- Some word of the set's transfer has been refused: nothing has been stored, and when word `k` is the first refused one,
the requests are those up to it (R57, R229). -/
structure LoadRefused (s s' : State) (start : Word) (k : Nat) : Prop where
  onlyBus : OnlyBus s s'
  mem : s'.bus.mem = s.bus.mem
  requests : (∀ j, j < k → s.permits .read .word (nthWord start j)) →
    s'.bus.port.map (fun e => (e.access, e.response)) =
      s.bus.port.map (fun e => (e.access, e.response)) ++ requestsRefusedAt .read start k

theorem loadWords_listed_refused (s : State) (set : BitVec 16) (start : Word) {k : Nat} (hk : k < place set 16)
    (hn : ¬ s.permits .read .word (nthWord start k)) :
    ∃ s', s.loadWords start (registersIn set).length = (s', none) ∧ LoadRefused s s' start k := by
  rw [length_registersIn]
  obtain ⟨honly, hmem, -⟩ := s.loadWords_effect start (place set 16)
  exact ⟨_, Prod.ext rfl (loadWords_none hk hn), honly, hmem, fun hp => (s.loadWords_refused start _ k hk hp hn).2⟩

section
variable {s s' : State}

theorem exec_push_refused {m : BitVec 1} {list : BitVec 8} {start : Word} (hne : place (pushSet m list) 16 ≠ 0)
    (hstart : start = s.ctx.sp - BitVec.ofNat 32 (4 * place (pushSet m list) 16))
    (hs : s.storeWords start ((registersIn (pushSet m list)).map s.reg) = (s', false)) :
    exec (.push m list) s = .next (s'.raise .hardFault) := by
  show execPush m list s = _
  simp only [execPush, registersIn_ne_nil hne, if_false, listBytes_registersIn, ← hstart, hs]

theorem exec_pop_refused {p : BitVec 1} {list : BitVec 8} (hne : place (popSet p list) 16 ≠ 0)
    (hs : s.loadWords s.ctx.sp (registersIn (popSet p list)).length = (s', none)) :
    exec (.pop p list) s = .next (s'.raise .hardFault) := by
  show execPop p list s = _
  simp only [execPop, registersIn_ne_nil hne, if_false, hs]

end

/-- Settles O39: the transfer stops at word `k`, and what it did until then is all that is left of it. -/
theorem multipleTransferFaults : Obligations.MultipleTransferFaults := by
  refine ⟨fun s m list start k hstart hk hw hp hn => ?_, fun s n list k hbase hk hw hp hn => ?_,
    fun s p list k hk hn => ?_, fun s n list k hk hn => ?_⟩
  · obtain ⟨s', hs, hst⟩ := storeWords_listed_refused s (pushSet m list) start hk hw hp hn
    exact ⟨_, exec_push_refused (Nat.ne_zero_of_lt hk) hstart hs, rfl, hst.onlyBus.ctx, hst.words,
      frame_raise_behind hst.onlyBus _ hst.others, hst.requests⟩
  · obtain ⟨s', hs, hst⟩ := storeWords_listed_refused s (lowSet list) (s.lowReg n) hk hw hp hn
    refine ⟨_, exec_stm_refused (stm_legal (Nat.ne_zero_of_lt hk) hbase) hs, rfl, hst.onlyBus.ctx,
      fun d hd hlt => ?_, frame_raise_behind hst.onlyBus _ hst.others, hst.requests⟩
    have hword := hst.words (low d) (by rw [toNat_low, getLsbD_lowSet, hd]) (by rwa [toNat_low])
    rwa [toNat_low] at hword
  · obtain ⟨s', hs, hld⟩ := loadWords_listed_refused s (popSet p list) s.ctx.sp hk hn
    exact ⟨_, exec_pop_refused (Nat.ne_zero_of_lt hk) hs, rfl, hld.onlyBus.ctx, hld.mem,
      frame_raise_behind hld.onlyBus _ (fun a _ => by rw [hld.mem]), hld.requests⟩
  · obtain ⟨s', hs, hld⟩ := loadWords_listed_refused s (lowSet list) (s.lowReg n) hk hn
    exact ⟨_, exec_ldm_refused (Nat.ne_zero_of_lt hk) hs, rfl, hld.onlyBus.ctx, hld.mem,
      frame_raise_behind hld.onlyBus _ (fun a _ => by rw [hld.mem]), hld.requests⟩

end Sys2Proof.Machine
end

/-! PROOFS of the family 20_memory: how many requests a step makes (R61, R339), and the watchpoint that stops a run
(R266). -/

section
namespace Sys2Proof.Machine

/-! ## How many requests an instruction makes -/

/-- The record of the port in `t` is that in `s` and behind it at most `n` requests. -/
def Issues (s t : State) (n : Nat) : Prop := ∃ data, t.bus.port = s.bus.port ++ data ∧ data.length ≤ n

section
variable {s t u : State} {m n : Nat}

theorem issues_of_port (h : t.bus.port = s.bus.port) : Issues s t n := ⟨[], by simpa using h, Nat.zero_le n⟩

theorem Issues.trans (h : Issues s t m) (h' : Issues t u n) : Issues s u (m + n) := by
  obtain ⟨d, hd, hm⟩ := h
  obtain ⟨d', hd', hn⟩ := h'
  exact ⟨d ++ d', by rw [hd', hd, List.append_assoc], by rw [List.length_append]; omega⟩

theorem Issues.mono (h : Issues s t m) (hmn : m ≤ n) : Issues s t n := by
  obtain ⟨d, hd, hm⟩ := h
  exact ⟨d, hd, hm.trans hmn⟩

theorem Issues.raise (h : Issues s t n) (x : StepResult) : Issues s (t.raise x) n := h

theorem Issues.finish (h : Issues s t n) (c : Context) (p : Word) (x : StepResult) : Issues s (t.finish c p x) n := h

theorem issues_memRead {w : Width} {a : Word} {v : Option Word} (e : s.memRead w a = (t, v)) : Issues s t 1 := by
  obtain rfl : (s.memRead w a).1 = t := congrArg Prod.fst e
  by_cases ha : aligned w a = true
  · cases hg : s.bus.grants ⟨.read, w, a⟩ with
    | none => exact ⟨_, by rw [s.memRead_busError w a ha hg], le_rfl⟩
    | some g => exact ⟨_, by rw [memRead_granted s w a ha hg], le_rfl⟩
  · exact issues_of_port (by rw [s.memRead_misaligned w a (by simpa using ha)])

theorem issues_memWrite {w : Width} {a v : Word} {ok : Bool} (e : s.memWrite w a v = (t, ok)) : Issues s t 1 := by
  obtain rfl : (s.memWrite w a v).1 = t := congrArg Prod.fst e
  by_cases ha : aligned w a = true
  · cases hg : s.bus.grants ⟨.write, w, a⟩ with
    | none => exact ⟨_, by rw [s.memWrite_busError w a v ha hg], le_rfl⟩
    | some g => exact ⟨_, by rw [memWrite_granted s w a v ha hg], le_rfl⟩
  · exact issues_of_port (by rw [s.memWrite_misaligned w a v (by simpa using ha)])

/-- A multiple transfer makes at most one request a word. -/
theorem issues_storeWords {a : Word} {vs : List Word} {ok : Bool} (e : s.storeWords a vs = (t, ok)) :
    Issues s t vs.length := by
  induction vs generalizing s a with
  | nil =>
    obtain rfl : s = t := congrArg Prod.fst e
    exact issues_of_port rfl
  | cons v vs ih =>
    cases e1 : s.memWrite .word a v with
    | mk s1 ok1 =>
      have hfirst := issues_memWrite e1
      rw [List.length_cons, Nat.add_comm]
      cases ok1 with
      | true => exact hfirst.trans (ih ((storeWords_cons e1).symm.trans e))
      | false =>
        obtain rfl : s1 = t := congrArg Prod.fst ((storeWords_cons_refused e1).symm.trans e)
        exact hfirst.mono (by omega)

theorem issues_loadWords {a : Word} {vs : Option (List Word)} (e : s.loadWords a n = (t, vs)) : Issues s t n := by
  induction n generalizing s a vs with
  | zero =>
    obtain rfl : s = t := congrArg Prod.fst e
    exact issues_of_port rfl
  | succ n ih =>
    cases e1 : s.memRead .word a with
    | mk s1 x =>
      have hfirst := issues_memRead e1
      rw [Nat.add_comm]
      cases x with
      | some v =>
        obtain rfl : (s1.loadWords (a + 4#32) n).1 = t := congrArg Prod.fst ((loadWords_succ e1).symm.trans e)
        exact hfirst.trans (ih rfl)
      | none =>
        obtain rfl : s1 = t := congrArg Prod.fst ((loadWords_succ_refused e1).symm.trans e)
        exact hfirst.mono (by omega)

end

/-- A set lists at most the registers of its upper half and R0 to R7. -/
theorem length_registersIn_append_le (high low : BitVec 8) :
    (registersIn (high ++ low)).length ≤ (registersIn (high ++ 0xFF#8)).length := by
  have hones : ∀ k : Fin 8, (0xFF#8).getLsbD k.val = true := by decide
  refine (List.monotone_filter_right allRegs fun i h => ?_).length_le
  rw [BitVec.getLsbD_append] at h ⊢
  split
  · next hi => exact hones ⟨i.toNat, hi⟩
  · next hi => rwa [if_neg hi] at h

theorem length_registersIn_pushSet (m : BitVec 1) (list : BitVec 8) : (registersIn (pushSet m list)).length ≤ 9 := by
  have hhigh : ∀ m : BitVec 1, (registersIn ((0#1 ++ m ++ 0#6) ++ 0xFF#8)).length ≤ 9 := by decide
  exact (length_registersIn_append_le _ list).trans (hhigh m)

theorem length_registersIn_popSet (p : BitVec 1) (list : BitVec 8) : (registersIn (popSet p list)).length ≤ 9 := by
  have hhigh : ∀ p : BitVec 1, (registersIn ((p ++ 0#7) ++ 0xFF#8)).length ≤ 9 := by decide
  exact (length_registersIn_append_le _ list).trans (hhigh p)

theorem length_registersIn_lowSet (list : BitVec 8) : (registersIn (lowSet list)).length ≤ 9 := by
  have hset : lowSet list = 0#8 ++ list := by rw [lowSet, BitVec.setWidth_eq_append (by decide)]; rfl
  rw [hset]
  exact (length_registersIn_append_le _ list).trans (by decide)

section
variable (s : State)

theorem issues_load (w : Width) (a : Word) (d : LowReg) (ext : Word → Word) : Issues s (s.load w a d ext) 1 := by
  unfold State.load
  split
  · next e => exact (issues_memRead e).finish _ _ _
  · next e => exact (issues_memRead e).raise _

theorem issues_store (w : Width) (a v : Word) : Issues s (s.store w a v) 1 := by
  unfold State.store
  split
  · next e => exact (issues_memWrite e).finish _ _ _
  · next e => exact (issues_memWrite e).raise _

theorem issues_barrier (r : StepResult) (b19_16 : BitVec 4) (b13 : BitVec 1) (b11_8 : BitVec 4) :
    Issues s (s.barrier r b19_16 b13 b11_8) 9 := by
  unfold State.barrier
  split
  · exact issues_of_port rfl
  · split <;> exact issues_of_port rfl

/-- Every instruction makes at most nine requests: PUSH and POP one for each of nine registers (R61). -/
theorem exec_issues (i : Instr) : ∃ t, exec i s = .next t ∧ Issues s t 9 := by
  cases i with
  | movsReg | lslsImm | lsrsImm | asrsImm | addsReg | subsReg | addsImm3 | subsImm3 | movsImm8 | cmpImm8 | addsImm8
  | subsImm8 | ands | eors | lslsReg | lsrsReg | asrsReg | adcs | sbcs | rors | tst | rsbs | cmpReg | cmn | orrs | muls
  | bics | mvns | adr | addRdSp | addSp | subSp | sxth | sxtb | uxth | uxtb | rev | rev16 | revsh | nop | hintRes | b
  | bl | yield | wfe | wfi | sev | svc | bkpt | udf | udfW => exact ⟨_, rfl, issues_of_port rfl⟩
  | ldrLit | ldrsbReg | ldrReg | ldrhReg | ldrbReg | ldrshReg | ldrImm | ldrbImm | ldrhImm | ldrSp =>
    exact ⟨_, rfl, (issues_load s _ _ _ _).mono (by decide)⟩
  | strReg | strhReg | strbReg | strImm | strbImm | strhImm | strSp =>
    exact ⟨_, rfl, (issues_store s _ _ _).mono (by decide)⟩
  | dsb | dmb | isb => exact ⟨_, rfl, issues_barrier s _ _ _ _⟩
  | movHi | bcond | cmpHi | bx | blx | cps =>
    refine ⟨_, rfl, ?_⟩
    split <;> exact issues_of_port rfl
  | msr | mrs =>
    refine ⟨_, rfl, ?_⟩
    split
    · exact issues_of_port rfl
    · split <;> exact issues_of_port rfl
  | addHi =>
    refine ⟨_, rfl, ?_⟩
    dsimp only
    split
    · exact issues_of_port rfl
    · split <;> exact issues_of_port rfl
  | push m list =>
    have hlen : ((registersIn (pushSet m list)).map s.reg).length ≤ 9 := by
      rw [List.length_map]
      exact length_registersIn_pushSet m list
    refine ⟨_, rfl, ?_⟩
    dsimp only
    split
    · exact issues_of_port rfl
    · split
      · next e => exact ((issues_storeWords e).mono hlen).finish _ _ _
      · next e => exact ((issues_storeWords e).mono hlen).raise _
  | stm rn list =>
    have hlen : ((registersIn (lowSet list)).map s.reg).length ≤ 9 := by
      rw [List.length_map]
      exact length_registersIn_lowSet list
    refine ⟨_, rfl, ?_⟩
    dsimp only
    split
    · exact issues_of_port rfl
    · split
      · next e => exact ((issues_storeWords e).mono hlen).finish _ _ _
      · next e => exact ((issues_storeWords e).mono hlen).raise _
  | pop p list =>
    have hlen := length_registersIn_popSet p list
    refine ⟨_, rfl, ?_⟩
    dsimp only
    split
    · exact issues_of_port rfl
    · split
      · next e => split <;> exact ((issues_loadWords e).mono hlen).finish _ _ _
      · next e => exact ((issues_loadWords e).mono hlen).raise _
  | ldm rn list =>
    have hlen := length_registersIn_lowSet list
    refine ⟨_, rfl, ?_⟩
    dsimp only
    split
    · exact issues_of_port rfl
    · split
      · next e => split <;> exact ((issues_loadWords e).mono hlen).finish _ _ _
      · next e => exact ((issues_loadWords e).mono hlen).raise _

end

section
variable {s t : State}

/-- Request `k` of a fetch is the one of the two reads that R59 puts there. -/
theorem FetchedFrom.access (h : FetchedFrom s t) {k : Nat} {e : PortEvent} (he : t.bus.port[k]? = some e) :
    [(⟨.read, .half, s.ctx.pc⟩ : Access), ⟨.read, .half, s.ctx.pc + 2#32⟩][k]? = some e.access := by
  obtain ⟨rest, hrest⟩ := h.accesses
  have hk : k < (t.bus.port.map (·.access)).length := by
    simpa using (List.getElem?_eq_some_iff.mp he).1
  rw [← hrest, List.getElem?_append_left hk, List.getElem?_map, he, Option.map_some]

/-- Behind its fetch, a step makes at most nine requests. -/
theorem stepInstr_issues (ht : s.ctx.t = true) (hs : s.stepInstr = .next t) : Issues s.clearPort.fetch.1 t 9 := by
  cases hf : s.clearPort.fetch with
  | mk s1 x =>
    cases x with
    | none =>
      obtain rfl := Host.Outcome.next.inj ((stepInstr_fetchFails ht hf).symm.trans hs)
      exact issues_of_port rfl
    | some f =>
      cases hd : decodeFetched f with
      | none =>
        obtain rfl := Host.Outcome.next.inj ((stepInstr_undecoded ht hf hd).symm.trans hs)
        exact issues_of_port rfl
      | some i =>
        obtain ⟨t', he, hissues⟩ := exec_issues s1 i
        obtain rfl := Host.Outcome.next.inj (he.symm.trans ((stepInstr_decoded ht hf hd).symm.trans hs))
        exact hissues

end

/-- Settles O13: with T set the requests are those of the fetch, and behind them those of the instruction. -/
theorem stepIssuesAtMostElevenRequests : Obligations.StepIssuesAtMostElevenRequests := by
  intro s t hs
  cases ht : s.ctx.t with
  | false =>
    obtain rfl := Host.Outcome.next.inj ((stepInstr_thumbClear ht).symm.trans hs)
    exact ⟨[], [], rfl, by decide, by decide, nofun, nofun, nofun, fun _ => rfl⟩
  | true =>
    obtain ⟨data, hport, hlen⟩ := stepInstr_issues ht hs
    have hf := fetchedFrom_fetch s
    exact ⟨_, data, hport, hf.port.1, hlen, fun e he => (Option.some.inj (hf.access he)).symm,
      fun e he => (Option.some.inj (hf.access he)).symm, fun _ => rfl, nofun⟩

/-! ## A watchpoint stops the run -/

section
variable {s t u : State}

theorem step_of_running (hidle : s.engine = .idle) (hrun : s.loop = .running) : step s = s.runIteration := by
  simp [step, State.advance, hidle, hrun]

theorem takeStop_of_empty (h : s.stops = []) : s.takeStop = (s, false) := by
  simp [State.takeStop, h]

theorem preempt_of_reference (hp : s.predicate = .reference) : s.preempt = s.referencePreempt := by
  simp [State.preempt, hp]

/-- The reference predicate with the latch clear and no byte queued or arriving (R263). -/
theorem preempt_quiet (hp : s.predicate = .reference) (hl : s.bus.latch = false) (ha : s.comm.arrivals = [])
    (hrx : s.comm.rx = []) : s.preempt = (s, .ok) := by
  have hdeliver : s.comm.deliver = s.comm := by simp [Comm.deliver, ha]
  rw [preempt_of_reference hp]
  simp [State.referencePreempt, hl, hdeliver, Comm.hasReceiveData, hrx]

/-- The reference predicate with the latch set, which it clears (R263). -/
theorem preempt_latched (hp : s.predicate = .reference) (hl : s.bus.latch = true) :
    s.preempt = ({ s with bus := { s.bus with latch := false } }, .watchpoint) := by
  rw [preempt_of_reference hp]
  simp [State.referencePreempt, hl]

theorem run_two (h : step s = .next t) (h' : step t = .next u) : Host.Core.run Sys2Proof.core 2 s = .next u := by
  have hfirst : Sys2Proof.core.step s = .next t := h
  have hsecond : Sys2Proof.core.step t = .next u := h'
  simp only [Host.Core.run, hfirst, hsecond]

end

/-- Settles O47: the first iteration runs the instruction, which leaves everything but context, bus and result; the second
finds the latch set. -/
theorem watchpointStopsAfterTheInstruction : Obligations.WatchpointStopsAfterTheInstruction := by
  intro s t hidle hrun hstops hpred hclear harrivals hrx hs hok hhit
  obtain ⟨i, heff⟩ := stepInstr_effect hs
  have honly := heff.onlyExecutor
  have hfirst : step s = .next t := by
    rw [step_of_running hidle hrun,
      runIteration_step (takeStop_of_empty hstops) (preempt_quiet hpred hclear harrivals hrx) hs, State.afterStep,
      if_pos hok]
  have hsecond : step t = .next (State.stopWith { t with bus := { t.bus with latch := false } } .watchpoint) := by
    rw [step_of_running (honly.engine.trans hidle) (honly.loop.trans hrun)]
    exact runIteration_preempted (takeStop_of_empty (honly.stops.trans hstops))
      (preempt_latched (honly.predicate.trans hpred) hhit) rfl
  exact run_two hfirst hsecond

end Sys2Proof.Machine
end

/-! PROOFS of the family 30_encoding: decoder and encoder undo each other (R80 to R91), and the decoder selects the
first row of the opcode table (R97). -/

section
namespace Sys2Proof

/-! ## Decoding undoes encoding -/

/-- The statement of Laws/PerInstr.lean, for every instruction. -/
theorem encoding_statement (i : Instr) : Laws.Encoding.Statement i := by
  cases i with
  | movsReg => apply Laws.Encoding.movsReg
  | lslsImm => apply Laws.Encoding.lslsImm
  | lsrsImm => apply Laws.Encoding.lsrsImm
  | asrsImm => apply Laws.Encoding.asrsImm
  | addsReg => apply Laws.Encoding.addsReg
  | subsReg => apply Laws.Encoding.subsReg
  | addsImm3 => apply Laws.Encoding.addsImm3
  | subsImm3 => apply Laws.Encoding.subsImm3
  | movsImm8 => apply Laws.Encoding.movsImm8
  | cmpImm8 => apply Laws.Encoding.cmpImm8
  | addsImm8 => apply Laws.Encoding.addsImm8
  | subsImm8 => apply Laws.Encoding.subsImm8
  | ands => apply Laws.Encoding.ands
  | eors => apply Laws.Encoding.eors
  | lslsReg => apply Laws.Encoding.lslsReg
  | lsrsReg => apply Laws.Encoding.lsrsReg
  | asrsReg => apply Laws.Encoding.asrsReg
  | adcs => apply Laws.Encoding.adcs
  | sbcs => apply Laws.Encoding.sbcs
  | rors => apply Laws.Encoding.rors
  | tst => apply Laws.Encoding.tst
  | rsbs => apply Laws.Encoding.rsbs
  | cmpReg => apply Laws.Encoding.cmpReg
  | cmn => apply Laws.Encoding.cmn
  | orrs => apply Laws.Encoding.orrs
  | muls => apply Laws.Encoding.muls
  | bics => apply Laws.Encoding.bics
  | mvns => apply Laws.Encoding.mvns
  | addHi => apply Laws.Encoding.addHi
  | cmpHi => apply Laws.Encoding.cmpHi
  | movHi => apply Laws.Encoding.movHi
  | bx => apply Laws.Encoding.bx
  | blx => apply Laws.Encoding.blx
  | ldrLit => apply Laws.Encoding.ldrLit
  | strReg => apply Laws.Encoding.strReg
  | strhReg => apply Laws.Encoding.strhReg
  | strbReg => apply Laws.Encoding.strbReg
  | ldrsbReg => apply Laws.Encoding.ldrsbReg
  | ldrReg => apply Laws.Encoding.ldrReg
  | ldrhReg => apply Laws.Encoding.ldrhReg
  | ldrbReg => apply Laws.Encoding.ldrbReg
  | ldrshReg => apply Laws.Encoding.ldrshReg
  | strImm => apply Laws.Encoding.strImm
  | ldrImm => apply Laws.Encoding.ldrImm
  | strbImm => apply Laws.Encoding.strbImm
  | ldrbImm => apply Laws.Encoding.ldrbImm
  | strhImm => apply Laws.Encoding.strhImm
  | ldrhImm => apply Laws.Encoding.ldrhImm
  | strSp => apply Laws.Encoding.strSp
  | ldrSp => apply Laws.Encoding.ldrSp
  | adr => apply Laws.Encoding.adr
  | addRdSp => apply Laws.Encoding.addRdSp
  | addSp => apply Laws.Encoding.addSp
  | subSp => apply Laws.Encoding.subSp
  | sxth => apply Laws.Encoding.sxth
  | sxtb => apply Laws.Encoding.sxtb
  | uxth => apply Laws.Encoding.uxth
  | uxtb => apply Laws.Encoding.uxtb
  | push => apply Laws.Encoding.push
  | cps => apply Laws.Encoding.cps
  | rev => apply Laws.Encoding.rev
  | rev16 => apply Laws.Encoding.rev16
  | revsh => apply Laws.Encoding.revsh
  | pop => apply Laws.Encoding.pop
  | bkpt => apply Laws.Encoding.bkpt
  | nop => apply Laws.Encoding.nop
  | yield => apply Laws.Encoding.yield
  | wfe => apply Laws.Encoding.wfe
  | wfi => apply Laws.Encoding.wfi
  | sev => apply Laws.Encoding.sev
  | hintRes => apply Laws.Encoding.hintRes
  | stm => apply Laws.Encoding.stm
  | ldm => apply Laws.Encoding.ldm
  | udf => apply Laws.Encoding.udf
  | svc => apply Laws.Encoding.svc
  | bcond => apply Laws.Encoding.bcond
  | b => apply Laws.Encoding.b
  | bl => apply Laws.Encoding.bl
  | msr => apply Laws.Encoding.msr
  | mrs => apply Laws.Encoding.mrs
  | dsb => apply Laws.Encoding.dsb
  | dmb => apply Laws.Encoding.dmb
  | isb => apply Laws.Encoding.isb
  | udfW => apply Laws.Encoding.udfW

section
variable {i : Instr} {h h' : Half} (rest : List Byte)

/-- The bytes of a narrow halfword decode as the halfword does (R53, R80). -/
theorem decodeBytes_narrow (hw : isWide h = false) (hd : decode16 h = some i) :
    decodeBytes (bytesOfHalf h ++ rest) = .ok (i, rest) := by
  simp [bytesOfHalf, decodeBytes, halfOfBytes_bytesOfHalf, hw, hd]

/-- The bytes of a wide pair decode as the pair does (R53, R81). -/
theorem decodeBytes_wide (hw : isWide h = true) (hd : decode32 h h' = some i) :
    decodeBytes (bytesOfHalf h ++ bytesOfHalf h' ++ rest) = .ok (i, rest) := by
  simp [bytesOfHalf, decodeBytes, halfOfBytes_bytesOfHalf, hw, hd]

end

/-- Settles O2: an instruction's bytes are those of the halfwords that decode to it. -/
theorem decodingUndoesEncoding : Obligations.DecodingUndoesEncoding := by
  intro i rest hwf
  obtain ⟨h, he, hw, hd⟩ | ⟨h, h', he, hw, hd⟩ := encoding_statement i hwf
  · have hbytes : encodeBytes i = bytesOfHalf h := by simp [encodeBytes, he]
    rw [hbytes]
    exact decodeBytes_narrow rest hw hd
  · have hbytes : encodeBytes i = bytesOfHalf h ++ bytesOfHalf h' := by simp [encodeBytes, he]
    rw [hbytes]
    exact decodeBytes_wide rest hw hd

/-! ## The row that known bits of a word select -/

/-- The row a word selects, as far as some of its bits decide it: those set in `mask`, which the word has as in `value`.
A row that these bits exclude is passed over; the first other one must be matched by them alone. -/
def selectsKnown (width mask value : Nat) : Nat → List OpcodeRow → Option (Option Nat)
  | _, [] => some none
  | k, r :: rs =>
    if r.width ≠ width ∨ value &&& r.mask ≠ r.pattern &&& mask then selectsKnown width mask value (k + 1) rs
    else if mask &&& r.mask = r.mask ∧ value &&& r.mask = r.pattern then some (some k)
    else none

/-- What known bits of a word decide about its row is so. -/
theorem firstRowFrom_of_selectsKnown {width mask value word : Nat} (hword : word &&& mask = value)
    {rows : List OpcodeRow} {k : Nat} {row : Option Nat} (hs : selectsKnown width mask value k rows = some row) :
    firstRowFrom width word k rows = row := by
  induction rows generalizing k with
  | nil => exact Option.some.inj hs
  | cons r rs ih =>
    simp only [selectsKnown] at hs
    split at hs
    · next hskip =>
      have hno : ¬ (r.width = width ∧ word &&& r.mask = r.pattern) := by
        rintro ⟨hwidth, hmatch⟩
        refine hskip.elim (· hwidth) (· ?_)
        rw [← hword, ← hmatch, Nat.land_assoc, Nat.land_assoc, Nat.land_comm mask]
      rw [firstRowFrom, if_neg hno]
      exact ih hs
    · next hkeep =>
      split at hs
      · next hmatch =>
        obtain ⟨hmask, hvalue⟩ := hmatch
        have hwidth : r.width = width := not_not.mp fun hne => hkeep (.inl hne)
        have hyes : word &&& r.mask = r.pattern := by rw [← hmask, ← Nat.land_assoc, hword, hvalue]
        rw [firstRowFrom, if_pos ⟨hwidth, hyes⟩]
        simpa using hs
      · cases hs

theorem firstRow_of_known {n : Nat} {x mask value : BitVec n} (hx : x &&& mask = value) {row : Option Nat}
    (hs : selectsKnown n mask.toNat value.toNat 0 opcodeTable = some row) : firstRow n x.toNat = row :=
  firstRowFrom_of_selectsKnown (by rw [← hx, BitVec.toNat_and]) hs

/-- Known bits of a concatenation. -/
theorem known_append {m n : Nat} {x a v : BitVec m} {y b u : BitVec n} (hx : x &&& a = v) (hy : y &&& b = u) :
    (x ++ y) &&& (a ++ b) = v ++ u := by
  rw [BitVec.and_append, hx, hy]

/-- The bits of one field of a word are known. -/
theorem known_field {n lo len : Nat} {x : BitVec n} {v : BitVec len} (hx : x.extractLsb' lo len = v) :
    x &&& ((BitVec.allOnes len).setWidth n <<< lo) = v.setWidth n <<< lo := by
  subst hx
  apply BitVec.eq_of_getLsbD_eq
  intro k hk
  simp only [BitVec.getLsbD_and, BitVec.getLsbD_shiftLeft, BitVec.getLsbD_setWidth, BitVec.getLsbD_allOnes,
    BitVec.getLsbD_extractLsb', hk, decide_true, Bool.true_and]
  by_cases hlo : k < lo
  · simp [hlo]
  · simp [hlo, show k - lo < n by omega, show lo + (k - lo) = k by omega, Bool.and_comm]

/-- The bits of one field, whatever they are. -/
theorem known_same {n : Nat} (x : BitVec n) (lo len : Nat) :
    x &&& ((BitVec.allOnes len).setWidth n <<< lo) = (x.extractLsb' lo len).setWidth n <<< lo := known_field rfl

/-- The bits of two fields. -/
theorem known_or {n : Nat} {x a b v u : BitVec n} (hv : x &&& a = v) (hu : x &&& b = u) :
    x &&& (a ||| b) = v ||| u := by
  rw [BitVec.and_or_distrib_left, hv, hu]

/-- The word of a 32-bit instruction has its first halfword in the high bits (R97). -/
theorem firstRow_pair {h h' mask mask' value value' : Half} (hk : h &&& mask = value) (hk' : h' &&& mask' = value')
    {row : Option Nat} (hs : selectsKnown 32 (mask ++ mask').toNat (value ++ value').toNat 0 opcodeTable = some row) :
    firstRow 32 (h.toNat * 65536 + h'.toNat) = row := by
  have hword : h.toNat * 65536 + h'.toNat = (h ++ h').toNat := by
    rw [BitVec.toNat_append, ← Nat.shiftLeft_add_eq_or_of_lt h'.isLt, Nat.shiftLeft_eq]
  rw [hword]
  exact firstRow_of_known (known_append hk hk') hs

/-! ## Fields of a halfword -/

section
variable {w : Nat} {x : BitVec w} {h : Half}

/-- Two fields side by side, as one. -/
theorem extract_join {m n lo : Nat} {a : BitVec m} {b : BitVec n} (ha : x.extractLsb' (lo + n) m = a)
    (hb : x.extractLsb' lo n = b) : x.extractLsb' lo (m + n) = a ++ b := by
  subst ha hb
  apply BitVec.eq_of_getLsbD_eq
  intro k hk
  simp only [BitVec.getLsbD_append, BitVec.getLsbD_extractLsb', hk, decide_true, Bool.true_and]
  by_cases hn : k < n
  · simp [hn]
  · simp [hn, show k - n < m by omega, show lo + n + (k - n) = lo + k by omega]

/-- A field of a field. -/
theorem extract_extract (x : BitVec w) (a m b k : Nat) (hk : b + k ≤ m) :
    (x.extractLsb' a m).extractLsb' b k = x.extractLsb' (a + b) k := by
  apply BitVec.eq_of_getLsbD_eq
  intro j hj
  simp only [BitVec.getLsbD_extractLsb', hj, decide_true, Bool.true_and, Nat.add_assoc]
  simp [show b + j < m by omega]

/-- A halfword from the field that is all of it. -/
theorem toHalf_eq (hw : w = 16) (hx : h.extractLsb' 0 w = x) : toHalf x = h := by
  subst hw hx
  simp [toHalf, BitVec.extractLsb'_eq_self]

/-! A halfword of each format of R82, put together again from its fields. -/

theorem encodeI5_fields {op imm5 : BitVec 5} (hop : h.extractLsb' 11 5 = op) (himm : h.extractLsb' 6 5 = imm5) :
    encodeI5 op imm5 (h.extractLsb' 3 3) (h.extractLsb' 0 3) = h :=
  toHalf_eq rfl (extract_join (extract_join (extract_join hop himm) rfl) rfl)

theorem encodeR3_fields {op : BitVec 7} (hop : h.extractLsb' 9 7 = op) :
    encodeR3 op (h.extractLsb' 6 3) (h.extractLsb' 3 3) (h.extractLsb' 0 3) = h :=
  toHalf_eq rfl (extract_join (extract_join (extract_join hop rfl) rfl) rfl)

theorem encodeI8_fields {op : BitVec 5} (hop : h.extractLsb' 11 5 = op) :
    encodeI8 op (h.extractLsb' 8 3) (h.extractLsb' 0 8) = h :=
  toHalf_eq rfl (extract_join (extract_join hop rfl) rfl)

theorem encodeDp_fields {opc : BitVec 4} (hgroup : h.extractLsb' 10 6 = 0b010000#6) (hopc : h.extractLsb' 6 4 = opc) :
    encodeDp opc (h.extractLsb' 0 3) (h.extractLsb' 3 3) = h :=
  toHalf_eq rfl (extract_join (extract_join (extract_join hgroup hopc) rfl) rfl)

/-- The 4-bit register is split over bit 7 and bits 2:0 (R82, F-HI). -/
theorem encodeHi_fields {op : BitVec 2} (hgroup : h.extractLsb' 10 6 = 0b010001#6) (hop : h.extractLsb' 8 2 = op) :
    encodeHi op (h.extractLsb' 7 1 ++ h.extractLsb' 0 3) (h.extractLsb' 3 4) = h := by
  have hhigh : (h.extractLsb' 7 1 ++ h.extractLsb' 0 3).extractLsb' 3 1 = h.extractLsb' 7 1 := by
    rw [extract_append_high _ _ _ _ (by omega)]
    exact BitVec.extractLsb'_eq_self
  have hlow : (h.extractLsb' 7 1 ++ h.extractLsb' 0 3).extractLsb' 0 3 = h.extractLsb' 0 3 := by
    rw [extract_append_low _ _ _ _ (by omega)]
    exact BitVec.extractLsb'_eq_self
  rw [encodeHi, hhigh, hlow]
  exact toHalf_eq rfl (extract_join (extract_join (extract_join (extract_join hgroup hop) rfl) rfl) rfl)

theorem encodeLsr_fields {opB : BitVec 3} (hgroup : h.extractLsb' 12 4 = 0b0101#4) (hop : h.extractLsb' 9 3 = opB) :
    encodeLsr opB (h.extractLsb' 0 3) (h.extractLsb' 3 3) (h.extractLsb' 6 3) = h :=
  toHalf_eq rfl (extract_join (extract_join (extract_join (extract_join hgroup hop) rfl) rfl) rfl)

theorem encodeRR_fields {op : BitVec 10} (hop : h.extractLsb' 6 10 = op) :
    encodeRR op (h.extractLsb' 0 3) (h.extractLsb' 3 3) = h :=
  toHalf_eq rfl (extract_join (extract_join hop rfl) rfl)

theorem encodeX8_fields {op : BitVec 8} (hop : h.extractLsb' 8 8 = op) : encodeX8 op (h.extractLsb' 0 8) = h :=
  toHalf_eq rfl (extract_join hop rfl)

end

/-! ## What the decoder answers -/

/-- The row of the opcode table that the halfwords of an instruction select, `none` for no row (R97). -/
def SelectsRow : List Half → Option Nat → Prop
  | [h], row => firstRow 16 h.toNat = row
  | [h, h'], row => firstRow 32 (h.toNat * 65536 + h'.toNat) = row
  | _, _ => False

/-- What a decoder has to answer for the halfwords `hs`: a well-formed instruction that they encode, or nothing when
they select no row. -/
def Answers (hs : List Half) : Option Instr → Prop
  | some i => encode i = hs ∧ i.wellFormed = true
  | none => SelectsRow hs none

/-- A decoder's choice by a bit field. -/
theorem answers_ite {hs : List Half} {p : Prop} [Decidable p] {o o' : Option Instr} (h : p → Answers hs o)
    (h' : ¬ p → Answers hs o') : Answers hs (if p then o else o') := by
  split
  · next hp => exact h hp
  · next hp => exact h' hp

section
variable {h h' : Half}

/-- A 16-bit instruction, by the halfword that it is encoded to. -/
theorem answers_narrow {i : Instr} {x : Half} (he : encode i = [x]) (hw : i.wellFormed = true) (hx : x = h) :
    Answers [h] (some i) := ⟨hx ▸ he, hw⟩

/-- A halfword whose known bits exclude every row. -/
theorem answers_nothing {mask value : Half} (hk : h &&& mask = value)
    (hs : selectsKnown 16 mask.toNat value.toNat 0 opcodeTable = some none) : Answers [h] none :=
  firstRow_of_known hk hs

theorem answers_shiftAddSubMovCmp (hgroup : h.extractLsb' 14 2 = 0b00#2) :
    Answers [h] (decodeShiftAddSubMovCmp h) := by
  have hop {c : BitVec 3} (hc : h.extractLsb' 11 3 = c) : h.extractLsb' 11 5 = 0b00#2 ++ c := extract_join hgroup hc
  unfold decodeShiftAddSubMovCmp
  dsimp only
  split_ifs with h0 himm h1 h2 h3 hs0 hs1 hs2 h4 h5 h6
  · exact answers_narrow rfl rfl (encodeI5_fields (hop h0) himm)
  · have hwf : (Instr.lslsImm (h.extractLsb' 0 3) (h.extractLsb' 3 3) (h.extractLsb' 6 5)).wellFormed = true :=
      bne_iff_ne.mpr himm
    exact answers_narrow rfl hwf (encodeI5_fields (hop h0) rfl)
  · exact answers_narrow rfl rfl (encodeI5_fields (hop h1) rfl)
  · exact answers_narrow rfl rfl (encodeI5_fields (hop h2) rfl)
  · exact answers_narrow rfl rfl (encodeR3_fields (extract_join (hop h3) hs0))
  · exact answers_narrow rfl rfl (encodeR3_fields (extract_join (hop h3) hs1))
  · exact answers_narrow rfl rfl (encodeR3_fields (extract_join (hop h3) hs2))
  · have hs3 : h.extractLsb' 9 2 = 0b11#2 := by bv_omega
    exact answers_narrow rfl rfl (encodeR3_fields (extract_join (hop h3) hs3))
  · exact answers_narrow rfl rfl (encodeI8_fields (hop h4))
  · exact answers_narrow rfl rfl (encodeI8_fields (hop h5))
  · exact answers_narrow rfl rfl (encodeI8_fields (hop h6))
  · have h7 : h.extractLsb' 11 3 = 0b111#3 := by bv_omega
    exact answers_narrow rfl rfl (encodeI8_fields (hop h7))

theorem answers_dataProcessing (hgroup : h.extractLsb' 10 6 = 0b010000#6) :
    Answers [h] (decodeDataProcessing h) := by
  have leaf {i : Instr} {opc : BitVec 4} (he : encode i = [encodeDp opc (h.extractLsb' 0 3) (h.extractLsb' 3 3)])
      (hw : i.wellFormed = true) (hopc : h.extractLsb' 6 4 = opc) : Answers [h] (some i) :=
    answers_narrow he hw (encodeDp_fields hgroup hopc)
  unfold decodeDataProcessing
  refine answers_ite (leaf rfl rfl) fun n0 => answers_ite (leaf rfl rfl) fun n1 =>
    answers_ite (leaf rfl rfl) fun n2 => answers_ite (leaf rfl rfl) fun n3 =>
    answers_ite (leaf rfl rfl) fun n4 => answers_ite (leaf rfl rfl) fun n5 =>
    answers_ite (leaf rfl rfl) fun n6 => answers_ite (leaf rfl rfl) fun n7 =>
    answers_ite (leaf rfl rfl) fun n8 => answers_ite (leaf rfl rfl) fun n9 =>
    answers_ite (leaf rfl rfl) fun n10 => answers_ite (leaf rfl rfl) fun n11 =>
    answers_ite (leaf rfl rfl) fun n12 => answers_ite (leaf rfl rfl) fun n13 =>
    answers_ite (leaf rfl rfl) fun n14 => leaf rfl rfl ?_
  bv_omega

theorem answers_special (hgroup : h.extractLsb' 10 6 = 0b010001#6) : Answers [h] (decodeSpecial h) := by
  unfold decodeSpecial
  dsimp only
  split_ifs with h0 h1 h2 hl
  · exact answers_narrow rfl rfl (encodeHi_fields hgroup h0)
  · exact answers_narrow rfl rfl (encodeHi_fields hgroup h1)
  · exact answers_narrow rfl rfl (encodeHi_fields hgroup h2)
  all_goals have h3 : h.extractLsb' 8 2 = 0b11#2 := by bv_omega
  · exact answers_narrow rfl rfl
      (toHalf_eq rfl (extract_join (extract_join (extract_join (extract_join hgroup h3) hl :) rfl) rfl))
  · have hl : h.extractLsb' 7 1 = 1#1 := by bv_omega
    exact answers_narrow rfl rfl
      (toHalf_eq rfl (extract_join (extract_join (extract_join (extract_join hgroup h3) hl :) rfl) rfl))

theorem answers_loadStoreReg (hgroup : h.extractLsb' 12 4 = 0b0101#4) : Answers [h] (decodeLoadStoreReg h) := by
  have leaf {i : Instr} {opB : BitVec 3}
      (he : encode i = [encodeLsr opB (h.extractLsb' 0 3) (h.extractLsb' 3 3) (h.extractLsb' 6 3)])
      (hw : i.wellFormed = true) (hop : h.extractLsb' 9 3 = opB) : Answers [h] (some i) :=
    answers_narrow he hw (encodeLsr_fields hgroup hop)
  unfold decodeLoadStoreReg
  refine answers_ite (leaf rfl rfl) fun n0 => answers_ite (leaf rfl rfl) fun n1 =>
    answers_ite (leaf rfl rfl) fun n2 => answers_ite (leaf rfl rfl) fun n3 =>
    answers_ite (leaf rfl rfl) fun n4 => answers_ite (leaf rfl rfl) fun n5 =>
    answers_ite (leaf rfl rfl) fun n6 => leaf rfl rfl ?_
  bv_omega

theorem answers_hint (hgroup : h.extractLsb' 8 8 = 0xBF#8) : Answers [h] (decodeHint h) := by
  have whole {opA opB : BitVec 4} (hA : h.extractLsb' 4 4 = opA) (hB : h.extractLsb' 0 4 = opB) :
      toHalf (0xBF#8 ++ opA ++ opB) = h := toHalf_eq rfl (extract_join (extract_join hgroup hA) hB)
  unfold decodeHint
  dsimp only
  split_ifs with hB h0 h1 h2 h3 h4
  · exact answers_narrow rfl rfl (whole h0 hB)
  · exact answers_narrow rfl rfl (whole h1 hB)
  · exact answers_narrow rfl rfl (whole h2 hB)
  · exact answers_narrow rfl rfl (whole h3 hB)
  · exact answers_narrow rfl rfl (whole h4 hB)
  · have hwf : (Instr.hintRes (h.extractLsb' 4 4)).wellFormed = true := by
      simp only [Instr.wellFormed, hintIsReserved, decide_eq_true_eq]
      bv_omega
    exact answers_narrow rfl hwf (whole rfl hB)
  · have hgap : ∀ opB : BitVec 4, opB ≠ 0#4 →
        selectsKnown 16 0xFF0F (0xBF00#16 ||| opB.setWidth 16 <<< 0).toNat 0 opcodeTable = some none := by decide
    exact answers_nothing (known_or (known_field hgroup) (known_same h 0 4)) (hgap _ hB)

theorem answers_misc (hgroup : h.extractLsb' 12 4 = 0b1011#4) : Answers [h] (decodeMisc h) := by
  have hop {c : BitVec 4} (hc : h.extractLsb' 8 4 = c) : h.extractLsb' 8 8 = 0b1011#4 ++ c := extract_join hgroup hc
  unfold decodeMisc
  refine answers_ite (fun h0 => answers_ite (fun hb0 => ?_) fun nb0 => ?_) fun n0 => ?_
  · exact answers_narrow rfl rfl (toHalf_eq rfl (extract_join (extract_join (hop h0) hb0) rfl))
  · have hb1 : h.extractLsb' 7 1 = 1#1 := by bv_omega
    exact answers_narrow rfl rfl (toHalf_eq rfl (extract_join (extract_join (hop h0) hb1) rfl))
  refine answers_ite (fun h2 => ?_) fun n2 => ?_
  · refine answers_ite (fun hs0 => ?_) fun ns0 => answers_ite (fun hs1 => ?_) fun ns1 =>
      answers_ite (fun hs2 => ?_) fun ns2 => ?_
    · exact answers_narrow rfl rfl (encodeRR_fields (extract_join (hop h2) hs0))
    · exact answers_narrow rfl rfl (encodeRR_fields (extract_join (hop h2) hs1))
    · exact answers_narrow rfl rfl (encodeRR_fields (extract_join (hop h2) hs2))
    · have hs3 : h.extractLsb' 6 2 = 0b11#2 := by bv_omega
      exact answers_narrow rfl rfl (encodeRR_fields (extract_join (hop h2) hs3))
  refine answers_ite (fun h4 => ?_) fun n4 => answers_ite (fun h5 => ?_) fun n5 => ?_
  · exact answers_narrow rfl rfl (toHalf_eq rfl (extract_join (hop h4 :) rfl))
  · exact answers_narrow rfl rfl (toHalf_eq rfl (extract_join (hop h5 :) rfl))
  refine answers_ite (fun h6 => answers_ite (fun hc => ?_) fun nc => ?_) fun n6 => ?_
  · exact answers_narrow rfl rfl (toHalf_eq rfl (extract_join (extract_join (extract_join (hop h6) hc) rfl) rfl))
  · have hgap : ∀ c : BitVec 3, c ≠ 0b011#3 →
        selectsKnown 16 0xFFE0 (0xB600#16 ||| c.setWidth 16 <<< 5).toNat 0 opcodeTable = some none := by decide
    exact answers_nothing (known_or (known_field (hop h6)) (known_same h 5 3)) (hgap _ nc)
  refine answers_ite (fun hA => ?_) fun nA => ?_
  · refine answers_ite (fun ha0 => ?_) fun na0 => answers_ite (fun ha1 => ?_) fun na1 =>
      answers_ite (fun ha3 => ?_) fun na3 => ?_
    · exact answers_narrow rfl rfl (encodeRR_fields (extract_join (hop hA) ha0))
    · exact answers_narrow rfl rfl (encodeRR_fields (extract_join (hop hA) ha1))
    · exact answers_narrow rfl rfl (encodeRR_fields (extract_join (hop hA) ha3))
    · have ha2 : h.extractLsb' 6 2 = 0b10#2 := by bv_omega
      exact answers_nothing (known_or (known_field (hop hA)) (known_field ha2)) rfl
  refine answers_ite (fun hC => ?_) fun nC => answers_ite (fun hD => ?_) fun nD => ?_
  · exact answers_narrow rfl rfl (toHalf_eq rfl (extract_join (hop hC :) rfl))
  · exact answers_narrow rfl rfl (toHalf_eq rfl (extract_join (hop hD :) rfl))
  refine answers_ite (fun hE => ?_) fun nE => answers_ite (fun hF => ?_) fun nF => ?_
  · exact answers_narrow rfl rfl (encodeX8_fields (hop hE))
  · exact answers_hint (hop hF)
  · have hgap : ∀ op : BitVec 4, op ≠ 0#4 → op ≠ 2#4 → op ≠ 4#4 → op ≠ 5#4 → op ≠ 6#4 → op ≠ 10#4 → op ≠ 12#4 →
        op ≠ 13#4 → op ≠ 14#4 → op ≠ 15#4 →
        selectsKnown 16 0xFF00 (0xB000#16 ||| op.setWidth 16 <<< 8).toNat 0 opcodeTable = some none := by decide
    exact answers_nothing (known_or (known_field hgroup) (known_same h 8 4)) (hgap _ n0 n2 n4 n5 n6 nA nC nD nE nF)

theorem bits_of_ofBits {c : BitVec 4} {k : Cond} (hk : Cond.ofBits c = some k) : k.bits = c := by
  revert hk
  revert c k
  decide

theorem ofBits_ne_none {c : BitVec 4} (hE : c ≠ 0b1110#4) (hF : c ≠ 0b1111#4) : Cond.ofBits c ≠ none := by
  revert hE hF
  revert c
  decide

theorem answers_condBranch (hgroup : h.extractLsb' 12 4 = 0b1101#4) : Answers [h] (decodeCondBranch h) := by
  unfold decodeCondBranch
  refine answers_ite (fun hE => ?_) fun nE => answers_ite (fun hF => ?_) fun nF => ?_
  · exact answers_narrow rfl rfl (encodeX8_fields (extract_join hgroup hE))
  · exact answers_narrow rfl rfl (encodeX8_fields (extract_join hgroup hF))
  · cases hc : Cond.ofBits (h.extractLsb' 8 4) with
    | none => exact absurd hc (ofBits_ne_none nE nF)
    | some k =>
      have hbits := (bits_of_ofBits hc).symm
      exact answers_narrow rfl rfl (toHalf_eq rfl (extract_join (extract_join hgroup hbits) rfl))

theorem answers_decode16 (h : Half) : Answers [h] (decode16 h) := by
  have i5 {i : Instr} {op : BitVec 5}
      (he : encode i = [encodeI5 op (h.extractLsb' 6 5) (h.extractLsb' 3 3) (h.extractLsb' 0 3)])
      (hw : i.wellFormed = true) (hop : h.extractLsb' 11 5 = op) : Answers [h] (some i) :=
    answers_narrow he hw (encodeI5_fields hop rfl)
  have i8 {i : Instr} {op : BitVec 5} (he : encode i = [encodeI8 op (h.extractLsb' 8 3) (h.extractLsb' 0 8)])
      (hw : i.wellFormed = true) (hop : h.extractLsb' 11 5 = op) : Answers [h] (some i) :=
    answers_narrow he hw (encodeI8_fields hop)
  unfold decode16
  refine answers_ite answers_shiftAddSubMovCmp fun n1 => ?_
  refine answers_ite (fun htop => answers_ite (fun hl => ?_) fun hl => ?_) fun n2 => ?_
  · exact answers_dataProcessing (extract_join htop hl)
  · have hl : h.extractLsb' 10 1 = 1#1 := by bv_omega
    exact answers_special (extract_join htop hl)
  refine answers_ite (i8 rfl rfl) fun n3 => answers_ite answers_loadStoreReg fun n4 => ?_
  refine answers_ite (i5 rfl rfl) fun n5 => answers_ite (i5 rfl rfl) fun n6 => ?_
  refine answers_ite (i5 rfl rfl) fun n7 => answers_ite (i5 rfl rfl) fun n8 => ?_
  refine answers_ite (i5 rfl rfl) fun n9 => answers_ite (i5 rfl rfl) fun n10 => ?_
  refine answers_ite (i8 rfl rfl) fun n11 => answers_ite (i8 rfl rfl) fun n12 => ?_
  refine answers_ite (i8 rfl rfl) fun n13 => answers_ite (i8 rfl rfl) fun n14 => ?_
  refine answers_ite answers_misc fun n15 => ?_
  refine answers_ite (i8 rfl rfl) fun n16 => answers_ite (i8 rfl rfl) fun n17 => ?_
  refine answers_ite answers_condBranch fun n18 => answers_ite (fun hop => ?_) fun n19 => ?_
  · exact answers_narrow rfl rfl (toHalf_eq rfl (extract_join hop rfl))
  · have hgap : ∀ top : BitVec 5, 0b11101#5 ≤ top →
        selectsKnown 16 0xF800 (top.setWidth 16 <<< 11).toNat 0 opcodeTable = some none := by decide
    have htop : 0b11101#5 ≤ h.extractLsb' 11 5 := by
      simp only [← BitVec.toNat_inj, BitVec.le_def, BitVec.extractLsb'_toNat, Nat.shiftRight_eq_div_pow,
        BitVec.toNat_ofNat] at *
      omega
    exact answers_nothing (known_same h 11 5) (hgap _ htop)

/-- A 32-bit instruction, by the halfwords that it is encoded to. -/
theorem answers_wide {i : Instr} {x x' : Half} (he : encode i = [x, x']) (hw : i.wellFormed = true) (hx : x = h)
    (hx' : x' = h') : Answers [h, h'] (some i) := ⟨hx ▸ hx' ▸ he, hw⟩

/-- Halfwords whose known bits exclude every row. -/
theorem answers_nothing_wide {mask mask' value value' : Half} (hk : h &&& mask = value) (hk' : h' &&& mask' = value')
    (hs : selectsKnown 32 (mask ++ mask').toNat (value ++ value').toNat 0 opcodeTable = some none) :
    Answers [h, h'] none :=
  firstRow_pair hk hk' hs

/-- The second halfword of the instructions with `10x0` on top: MSR, MRS and the barriers (R83). -/
theorem toHalf_secondHalf (htop : h'.extractLsb' 14 2 = 0b10#2) (h12 : h'.extractLsb' 12 1 = 0#1) :
    toHalf (0b10#2 ++ h'.extractLsb' 13 1 ++ 0#1 ++ h'.extractLsb' 8 4 ++ h'.extractLsb' 0 8) = h' :=
  toHalf_eq rfl (extract_join (extract_join (extract_join (extract_join htop rfl) h12) rfl) rfl)

theorem answers_barrier {i : Instr} {op : BitVec 4} (hfirst : h.extractLsb' 4 12 = 0b111100111011#12)
    (htop : h'.extractLsb' 14 2 = 0b10#2) (h12 : h'.extractLsb' 12 1 = 0#1) (hop : h'.extractLsb' 4 4 = op)
    (he : encode i =
      encodeBarrier op (h'.extractLsb' 0 4) (h.extractLsb' 0 4) (h'.extractLsb' 13 1) (h'.extractLsb' 8 4))
    (hw : i.wellFormed = true) : Answers [h, h'] (some i) :=
  answers_wide he hw (toHalf_eq rfl (extract_join hfirst rfl))
    (toHalf_eq rfl (extract_join (extract_join (extract_join (extract_join (extract_join htop rfl) h12) rfl) hop) rfl))

/-- Of the words `11110 sel ...`, `10x0 ...` no row holds a value of `sel` that is not one of MSR, MRS, the barriers or
UDF.W (R83, R257). -/
theorem selectsKnown_system : ∀ sel : BitVec 7, sel.extractLsb' 1 6 ≠ 0b011100#6 → sel.extractLsb' 1 6 ≠ 0b011111#6 →
    sel ≠ 0b0111011#7 → sel ≠ 0b1111111#7 → selectsKnown 32 (0xFFF0#16 ++ 0xD000#16).toNat
      ((0xF000#16 ||| sel.setWidth 16 <<< 4) ++ 0x8000#16).toNat 0 opcodeTable = some none := by
  decide

theorem answers_nothing_system (htop : h.extractLsb' 11 5 = 0b11110#5) (htop' : h'.extractLsb' 14 2 = 0b10#2)
    (h12 : h'.extractLsb' 12 1 = 0#1) (hmsr : h.extractLsb' 5 6 ≠ 0b011100#6) (hmrs : h.extractLsb' 5 6 ≠ 0b011111#6)
    (hbar : h.extractLsb' 4 7 ≠ 0b0111011#7) (hudf : ¬ (h.extractLsb' 4 7 = 0b1111111#7 ∧ h'.extractLsb' 13 1 = 1#1)) :
    Answers [h, h'] none := by
  have hsel : (h.extractLsb' 4 7).extractLsb' 1 6 = h.extractLsb' 5 6 := extract_extract h 4 7 1 6 (by decide)
  rw [← hsel] at hmsr hmrs
  by_cases hall : h.extractLsb' 4 7 = 0b1111111#7
  · have hb13 : h'.extractLsb' 13 1 = 0#1 := by bv_omega
    exact answers_nothing_wide (known_or (known_field htop) (known_field hall))
      (known_or (known_or (known_field htop') (known_field h12)) (known_field hb13)) rfl
  · exact answers_nothing_wide (known_or (known_field htop) (known_same h 4 7))
      (known_or (known_field htop') (known_field h12)) (selectsKnown_system _ hmsr hmrs hbar hall)

theorem answers_decode32 (h h' : Half) : Answers [h, h'] (decode32 h h') := by
  unfold decode32
  dsimp only
  split_ifs with htop hbl hbl12 hsys hmsr hmrs hbar hdsb hdmb hisb hudf
  · exact answers_wide rfl rfl (toHalf_eq rfl (extract_join (extract_join htop rfl) rfl))
      (toHalf_eq rfl (extract_join (extract_join (extract_join (extract_join hbl rfl) hbl12) rfl) rfl))
  · have hbl12 : h'.extractLsb' 12 1 = 0#1 := by bv_omega
    exact answers_nothing_wide (known_field htop) (known_or (known_field hbl) (known_field hbl12)) rfl
  · exact answers_wide rfl rfl (toHalf_eq rfl (extract_join (extract_join (extract_join htop hmsr :) rfl) rfl))
      (toHalf_secondHalf hsys.1 hsys.2)
  · exact answers_wide rfl rfl (toHalf_eq rfl (extract_join (extract_join (extract_join htop hmrs :) rfl) rfl))
      (toHalf_secondHalf hsys.1 hsys.2)
  · exact answers_barrier (extract_join htop hbar) hsys.1 hsys.2 hdsb rfl rfl
  · exact answers_barrier (extract_join htop hbar) hsys.1 hsys.2 hdmb rfl rfl
  · exact answers_barrier (extract_join htop hbar) hsys.1 hsys.2 hisb rfl rfl
  · have hgap : ∀ op : BitVec 4, op ≠ 0b0100#4 → op ≠ 0b0101#4 → op ≠ 0b0110#4 →
        selectsKnown 32 (0xFFF0#16 ++ 0xD0F0#16).toNat (0xF3B0#16 ++ (0x8000#16 ||| op.setWidth 16 <<< 4)).toNat 0
          opcodeTable = some none := by decide
    have hfirst : h.extractLsb' 4 12 = 0xF3B#12 := extract_join htop hbar
    exact answers_nothing_wide (known_field hfirst)
      (known_or (known_or (known_field hsys.1) (known_field hsys.2)) (known_same h' 4 4)) (hgap _ hdsb hdmb hisb)
  · exact answers_wide rfl rfl (toHalf_eq rfl (extract_join (extract_join htop hudf.1 :) rfl))
      (toHalf_eq rfl (extract_join (extract_join (extract_join hsys.1 hudf.2) hsys.2 :) rfl))
  · exact answers_nothing_system htop hsys.1 hsys.2 hmsr hmrs hbar hudf
  · have hgap : ∀ (t : BitVec 2) (b : BitVec 1), t ≠ 0b11#2 → ¬ (t = 0b10#2 ∧ b = 0#1) →
        selectsKnown 32 (0xF800#16 ++ 0xD000#16).toNat
          (0xF000#16 ++ (t.setWidth 16 <<< 14 ||| b.setWidth 16 <<< 12)).toNat 0 opcodeTable = some none := by decide
    exact answers_nothing_wide (known_field htop) (known_or (known_same h' 14 2) (known_same h' 12 1))
      (hgap _ _ hbl hsys)
  · have hgap : ∀ top : BitVec 5, top ≠ 0b11110#5 →
        selectsKnown 32 (0xF800#16 ++ 0#16).toNat (top.setWidth 16 <<< 11 ++ 0#16).toNat 0 opcodeTable =
          some none := by decide
    exact answers_nothing_wide (known_same h 11 5) BitVec.and_zero (hgap _ htop)

end

/-- Settles O3, along the branches of the decoder: each leaf knows the bits its instruction does not hold. -/
theorem encodingUndoesDecoding : Obligations.EncodingUndoesDecoding := by
  refine ⟨fun h i hd => ?_, fun h h' i hd => ?_⟩
  · have h16 := answers_decode16 h
    rwa [hd] at h16
  · have h32 := answers_decode32 h h'
    rwa [hd] at h32

/-! ## The row of an instruction -/

section
variable {row : Option Nat}

/-- Known bits of the fields of a halfword. -/
theorem known_toHalf {x mask value : Half} (hx : x &&& mask = value) : toHalf x &&& mask = value := by
  rw [toHalf, BitVec.setWidth_eq, hx]

theorem firstRow_toHalf {x mask value : Half} (hx : x &&& mask = value)
    (hs : selectsKnown 16 mask.toNat value.toNat 0 opcodeTable = some row) : firstRow 16 (toHalf x).toNat = row :=
  firstRow_of_known (known_toHalf hx) hs

/-! The row of a halfword of each format of R82, from the bits the format fixes. -/

theorem firstRow_encodeI5 {op : BitVec 5} (imm5 : BitVec 5) (r3 r0 : LowReg)
    (hs : selectsKnown 16 0xF800 (op ++ 0#5 ++ 0#3 ++ 0#3).toNat 0 opcodeTable = some row) :
    firstRow 16 (encodeI5 op imm5 r3 r0).toNat = row :=
  firstRow_toHalf (known_append (known_append (known_append BitVec.and_allOnes BitVec.and_zero) BitVec.and_zero)
    BitVec.and_zero) hs

/-- The rows of MOVS (register) and LSLS (immediate) are told apart by `imm5` (R141). -/
theorem firstRow_encodeI5_imm5 {op imm5 : BitVec 5} (r3 r0 : LowReg)
    (hs : selectsKnown 16 0xFFC0 (op ++ imm5 ++ 0#3 ++ 0#3).toNat 0 opcodeTable = some row) :
    firstRow 16 (encodeI5 op imm5 r3 r0).toNat = row :=
  firstRow_toHalf (known_append (known_append (known_append BitVec.and_allOnes BitVec.and_allOnes) BitVec.and_zero)
    BitVec.and_zero) hs

theorem firstRow_encodeR3 {op : BitVec 7} (r6 r3 r0 : BitVec 3)
    (hs : selectsKnown 16 0xFE00 (op ++ 0#3 ++ 0#3 ++ 0#3).toNat 0 opcodeTable = some row) :
    firstRow 16 (encodeR3 op r6 r3 r0).toNat = row :=
  firstRow_toHalf (known_append (known_append (known_append BitVec.and_allOnes BitVec.and_zero) BitVec.and_zero)
    BitVec.and_zero) hs

theorem firstRow_encodeI8 {op : BitVec 5} (r : LowReg) (imm8 : BitVec 8)
    (hs : selectsKnown 16 0xF800 (op ++ 0#3 ++ 0#8).toNat 0 opcodeTable = some row) :
    firstRow 16 (encodeI8 op r imm8).toNat = row :=
  firstRow_toHalf (known_append (known_append BitVec.and_allOnes BitVec.and_zero) BitVec.and_zero) hs

theorem firstRow_encodeDp {opc : BitVec 4} (d m : LowReg)
    (hs : selectsKnown 16 0xFFC0 (0b010000#6 ++ opc ++ 0#3 ++ 0#3).toNat 0 opcodeTable = some row) :
    firstRow 16 (encodeDp opc d m).toNat = row :=
  firstRow_toHalf (known_append (known_append (known_append BitVec.and_allOnes BitVec.and_allOnes) BitVec.and_zero)
    BitVec.and_zero) hs

theorem firstRow_encodeHi {opc : BitVec 2} (d m : RegNum)
    (hs : selectsKnown 16 0xFF00 (0b010001#6 ++ opc ++ 0#1 ++ 0#4 ++ 0#3).toNat 0 opcodeTable = some row) :
    firstRow 16 (encodeHi opc d m).toNat = row :=
  firstRow_toHalf (known_append (known_append (known_append (known_append BitVec.and_allOnes BitVec.and_allOnes)
    BitVec.and_zero) BitVec.and_zero) BitVec.and_zero) hs

theorem firstRow_encodeLsr {opB : BitVec 3} (t n m : LowReg)
    (hs : selectsKnown 16 0xFE00 (0b0101#4 ++ opB ++ 0#3 ++ 0#3 ++ 0#3).toNat 0 opcodeTable = some row) :
    firstRow 16 (encodeLsr opB t n m).toNat = row :=
  firstRow_toHalf (known_append (known_append (known_append (known_append BitVec.and_allOnes BitVec.and_allOnes)
    BitVec.and_zero) BitVec.and_zero) BitVec.and_zero) hs

theorem firstRow_encodeRR {op : BitVec 10} (d m : LowReg)
    (hs : selectsKnown 16 0xFFC0 (op ++ 0#3 ++ 0#3).toNat 0 opcodeTable = some row) :
    firstRow 16 (encodeRR op d m).toNat = row :=
  firstRow_toHalf (known_append (known_append BitVec.and_allOnes BitVec.and_zero) BitVec.and_zero) hs

/-- The second halfword of MSR and MRS: bits 15, 14 and 12 are fixed. -/
theorem known_secondHalf (b13 : BitVec 1) (b11_8 : BitVec 4) (sysm : BitVec 8) :
    toHalf (0b10#2 ++ b13 ++ 0#1 ++ b11_8 ++ sysm) &&& 0xD000#16 = 0x8000#16 :=
  known_toHalf (known_append (known_append (known_append (known_append BitVec.and_allOnes BitVec.and_zero)
    BitVec.and_allOnes) BitVec.and_zero) BitVec.and_zero)

theorem selectsRow_encodeBarrier {op : BitVec 4} (option b19_16 : BitVec 4) (b13 : BitVec 1) (b11_8 : BitVec 4)
    (hs : selectsKnown 32 (0xFFF0#16 ++ 0xD0F0#16).toNat
      (0xF3B0#16 ++ (0b10#2 ++ 0#1 ++ 0#1 ++ 0#4 ++ op ++ 0#4)).toNat 0 opcodeTable = some row) : SelectsRow (encodeBarrier op option b19_16 b13 b11_8) row :=
  firstRow_pair (known_toHalf (known_append BitVec.and_allOnes BitVec.and_zero))
    (known_toHalf (known_append (known_append (known_append (known_append (known_append BitVec.and_allOnes
      BitVec.and_zero) BitVec.and_allOnes) BitVec.and_zero) BitVec.and_allOnes) BitVec.and_zero)) hs

end

/-- A well-formed instruction's encoding selects the instruction's own row (R97). -/
theorem selectsRow_encode (i : Instr) (hwf : i.wellFormed = true) : SelectsRow (encode i) (some i.row) := by
  cases i with
  | movsReg => exact firstRow_encodeI5_imm5 _ _ rfl
  | lslsImm rd rm imm5 =>
    have hrow : ∀ imm5 : BitVec 5, shiftIsLsls imm5 = true →
        selectsKnown 16 0xFFC0 (0#5 ++ imm5 ++ 0#3 ++ 0#3).toNat 0 opcodeTable = some (some 1) := by decide
    exact firstRow_encodeI5_imm5 _ _ (hrow imm5 hwf)
  | lsrsImm | asrsImm | strImm | ldrImm | strbImm | ldrbImm | strhImm | ldrhImm => exact firstRow_encodeI5 _ _ _ rfl
  | addsReg | subsReg | addsImm3 | subsImm3 => exact firstRow_encodeR3 _ _ _ rfl
  | movsImm8 | cmpImm8 | addsImm8 | subsImm8 | ldrLit | strSp | ldrSp | adr | addRdSp | stm | ldm =>
    exact firstRow_encodeI8 _ _ rfl
  | ands | eors | lslsReg | lsrsReg | asrsReg | adcs | sbcs | rors | tst | rsbs | cmpReg | cmn | orrs | muls | bics
  | mvns => exact firstRow_encodeDp _ _ rfl
  | addHi | cmpHi | movHi => exact firstRow_encodeHi _ _ rfl
  | strReg | strhReg | strbReg | ldrsbReg | ldrReg | ldrhReg | ldrbReg | ldrshReg => exact firstRow_encodeLsr _ _ _ rfl
  | sxth | sxtb | uxth | uxtb | rev | rev16 | revsh => exact firstRow_encodeRR _ _ rfl
  | bx | blx | push | pop | cps =>
    exact firstRow_toHalf (known_append (known_append BitVec.and_allOnes BitVec.and_zero) BitVec.and_zero) rfl
  | addSp | subSp | bkpt | udf | svc | b =>
    exact firstRow_toHalf (known_append BitVec.and_allOnes BitVec.and_zero) rfl
  | nop | yield | wfe | wfi | sev => exact firstRow_of_known BitVec.and_allOnes rfl
  | hintRes opA =>
    have hrow : ∀ opA : BitVec 4, hintIsReserved opA = true →
        selectsKnown 16 0xFFFF (0xBF#8 ++ opA ++ 0#4).toNat 0 opcodeTable = some (some 70) := by decide
    exact firstRow_toHalf BitVec.and_allOnes (hrow opA hwf)
  | bcond cond imm8 =>
    have hrow : selectsKnown 16 0xFF00 (0b1101#4 ++ cond.bits ++ 0#8).toNat 0 opcodeTable = some (some 75) := by
      cases cond <;> rfl
    exact firstRow_toHalf (known_append (known_append BitVec.and_allOnes BitVec.and_allOnes) BitVec.and_zero) hrow
  | bl =>
    exact firstRow_pair (known_toHalf (known_append (known_append BitVec.and_allOnes BitVec.and_zero) BitVec.and_zero))
      (known_toHalf (known_append (known_append (known_append (known_append BitVec.and_allOnes BitVec.and_zero)
        BitVec.and_allOnes) BitVec.and_zero) BitVec.and_zero)) rfl
  | msr | mrs =>
    exact firstRow_pair (known_toHalf (known_append (known_append BitVec.and_allOnes BitVec.and_zero) BitVec.and_zero))
      (known_secondHalf _ _ _) rfl
  | dsb | dmb | isb => exact selectsRow_encodeBarrier _ _ _ _ rfl
  | udfW =>
    exact firstRow_pair (known_toHalf (known_append BitVec.and_allOnes BitVec.and_zero))
      (known_toHalf (known_append BitVec.and_allOnes BitVec.and_zero)) rfl

/-- What a decoder answers rightly is an instruction of the row that the halfwords select. -/
theorem selectsRow_of_answers {hs : List Half} {o : Option Instr} (h : Answers hs o) :
    SelectsRow hs (o.map Instr.row) := by
  cases o with
  | none => exact h
  | some i =>
    obtain ⟨he, hwf⟩ := h
    exact he ▸ selectsRow_encode i hwf

/-- Settles O4: an instruction decoded is one that the word encodes, and so of the row the word selects; where nothing
is decoded, the bits the decoder has tested exclude every row. -/
theorem decoderSelectsFirstTableRow : Obligations.DecoderSelectsFirstTableRow :=
  ⟨fun h _ => Eq.symm (selectsRow_of_answers (answers_decode16 h)),
    fun h h' _ => Eq.symm (selectsRow_of_answers (answers_decode32 h h'))⟩

end Sys2Proof
end

/-! PROOFS of the family 30_encoding: encodings that select no row, branches, and the operand combinations of R95. -/

section
namespace Sys2Proof.Machine

/-- Settles O1, by evaluation of the decoder on the five words. -/
theorem writtenWordsDecode : Obligations.WrittenWordsDecode := ⟨rfl, rfl, rfl, rfl, rfl⟩

/-! ## Encodings that select no row -/

theorem decode16_eq_none {h : Half} (hw : isWide h = false) (hrow : firstRow 16 h.toNat = none) :
    decode16 h = none := by
  simpa [hrow] using decoderSelectsFirstTableRow.1 h hw

theorem decode32_eq_none {h h' : Half} (hw : isWide h = true) (hrow : firstRow 32 (h.toNat * 65536 + h'.toNat) = none) :
    decode32 h h' = none := by
  simpa [hrow] using decoderSelectsFirstTableRow.2 h h' hw

/-- Settles O10: what selects no row does not decode (O4), and the step ends behind the fetch. -/
theorem unselectedEncodingsAreUndefined : Obligations.UnselectedEncodingsAreUndefined := by
  refine ⟨fun s g hr ht ha hg hw hrow => ?_, fun s g g' hr ht ha hg hg' hw hrow => ?_⟩
  · exact (step_of_ready hr).trans (stepInstr_undecoded (s := s.taken) ht (fetch_narrow_granted (s := s.taken) ha hg hw)
      (decode16_eq_none hw hrow))
  · exact (step_of_ready hr).trans (stepInstr_undecoded (s := s.taken) ht
      (fetch_wide_granted (s := s.taken) ha hg hg' hw) (decode32_eq_none hw hrow))

/-! ## Branches -/

section
variable {s : State}

/-- The end of an instruction that exchanges: PC and T from the target, the registers from `c`. -/
theorem exchangeTo_effect {c : Context} (regs : List RegNum)
    (hr : ∀ i : RegNum, i ≠ 15#4 → i ∉ regs → c.reg i = s.ctx.reg i) (hx : c.xpsr = s.ctx.xpsr)
    (hp : c.primask = s.ctx.primask) (a : Word) :
    (s.exchangeTo c a).ctx.pc = evenOf a ∧ (s.exchangeTo c a).ctx.t = a.getLsbD 0 ∧
      Frame s (s.exchangeTo c a) regs [24] nowhere := by
  refine ⟨clearBit0_eq_evenOf a, c.bit_setT _ 24 (by decide), ?_⟩
  refine frame_finish s _ _ _ _ _ (fun i hi hn => ?_) (fun k hk hn => ?_) hp
  · exact Context.reg_eq_of hi (hr i hi hn) (by exact ⟨rfl, rfl, rfl⟩)
  · rw [c.bit_setT _ k hk, if_neg (by simpa using hn), hx]

theorem exec_bx {m : RegNum} (h : m ≠ 15#4) : exec (.bx m 0#3) s = .next (s.exchangeTo s.ctx (s.reg m)) := by
  show execBx m 0#3 s = _
  simp [execBx, bxUnpredictable, h]

theorem exec_blx {m : RegNum} (h : m ≠ 15#4) :
    exec (.blx m 0#3) s = .next (s.exchangeTo (s.ctx.writeReg 14#4 (s.pc2 ||| 1#32)) (s.reg m)) := by
  show execBlx m 0#3 s = _
  simp [execBlx, bxUnpredictable, h]

theorem bx_unpredictable {m : RegNum} {sbz : BitVec 3} (h : m = 15#4 ∨ sbz ≠ 0#3) : bxUnpredictable m sbz = true := by
  simpa [bxUnpredictable] using h

end

/-- Settles O23: both end by the same exchange; the context that BLX commits holds LR already, its target is the old one. -/
theorem exchangeBranches : Obligations.ExchangeBranches := by
  refine ⟨fun s m hm => ⟨?_, ?_⟩, fun s m sbz hbad => ⟨?_, ?_⟩⟩
  · obtain ⟨hpc, ht, hframe⟩ := exchangeTo_effect (s := s) (c := s.ctx) [] (fun _ _ _ => rfl) rfl rfl (s.reg m)
    exact ⟨_, exec_bx hm, rfl, hpc, ht, hframe, rfl⟩
  · obtain ⟨hpc, ht, hframe⟩ := exchangeTo_effect (s := s) (c := s.ctx.writeReg 14#4 (s.pc2 ||| 1#32)) [14#4]
      (fun i _ hn => reg_writeReg_kept _ _ _ _ hn) (by simp) (by simp) (s.reg m)
    exact ⟨_, exec_blx hm, rfl, hpc, ht, rfl, hframe, rfl⟩
  · exact raises_raise s _ _ (congrArg Host.Outcome.next (if_pos (bx_unpredictable hbad)))
  · exact raises_raise s _ _ (congrArg Host.Outcome.next (if_pos (bx_unpredictable hbad)))

/-- R121's general rule and its table of conditions agree. -/
theorem condHolds_bits (c : Context) (k : Cond) : condHolds c k.bits = c.passes k := by
  cases k <;> simp [condHolds, Cond.bits, Context.passes, bne, Bool.and_comm, Bool.or_comm]

/-- A signed number with more bits put behind it. -/
theorem toInt_append_of_pos {m n : Nat} (hm : 0 < m) (x : BitVec m) (y : BitVec n) :
    (x ++ y).toInt = 2 ^ n * x.toInt + y.toNat := by
  rw [BitVec.toInt_append, if_neg (by simp; omega)]

/-- The offset of B is twice its signed immediate (R92). -/
theorem branchOffset_eq {w : Nat} (hw : 0 < w) (imm : BitVec w) :
    branchOffset imm = BitVec.ofInt 32 (2 * imm.toInt) := by
  have h : (imm ++ 0#1).toInt = 2 * imm.toInt := by simp [toInt_append_of_pos hw]
  rw [branchOffset, BitVec.signExtend, h]

/-- Settles O27: the two readings of a condition agree, and so do the two of the offset. -/
theorem conditionalAndPlainBranches : Obligations.ConditionalAndPlainBranches := by
  refine ⟨fun s k imm8 => ⟨fun hk => ?_, fun hk => ?_⟩, fun s imm11 => ?_⟩
  · rw [condHolds_bits] at hk
    refine branches_branchTo s _ _ _ ?_ (congrArg Host.Outcome.next (if_pos hk))
    rw [clearBit0_eq_evenOf, branchOffset_eq (by decide), State.branchBase]
  · rw [condHolds_bits] at hk
    exact endsPast_finish s _ _ _ (congrArg Host.Outcome.next (if_neg (by simp [hk])))
  · refine branches_branchTo s _ _ _ ?_ rfl
    rw [clearBit0_eq_evenOf, branchOffset_eq (by decide), State.branchBase]

/-- The offset of BL as a number, its second and third bit decoded from `J1`, `J2` and `S` (R92). -/
theorem blOffset_eq (sgn : BitVec 1) (imm10 : BitVec 10) (j1 j2 : BitVec 1) (imm11 : BitVec 11) :
    blOffset sgn imm10 j1 j2 imm11 = BitVec.ofInt 32
      (2 * ((2 ^ 11 * imm10.toNat + imm11.toNat : Int) + 2 ^ 21 * (if j2 = sgn then 1 else 0) +
        2 ^ 22 * (if j1 = sgn then 1 else 0) - 2 ^ 23 * sgn.toNat)) := by
  have hxnor : ∀ j s : BitVec 1, ((~~~(j ^^^ s)).toNat : Int) = if j = s then 1 else 0 := by decide
  have hsign : ∀ s : BitVec 1, s.toInt = -s.toNat := by decide
  rw [blOffset, BitVec.signExtend]
  congr 1
  iterate 5 rw [toInt_append_of_pos (by decide)]
  rw [hxnor, hxnor, hsign, BitVec.toNat_zero]
  ring

/-- Settles O28: a branch that has written LR before, and the two readings of the offset agree. -/
theorem branchWithLink : Obligations.BranchWithLink := by
  intro s sgn imm10 j1 j2 imm11
  refine ⟨_, rfl, rfl, ?_, rfl, ?_, rfl⟩
  · rw [← blOffset_eq]
    exact clearBit0_eq_evenOf _
  · exact frame_finish s _ _ _ _ _ (fun i _ hn => reg_writeReg_kept _ _ _ _ hn) (fun k _ _ => by simp) (by simp)

/-! ## The operand combinations of R95 -/

theorem specialReg_isNone {sysm : BitVec 8} (h : sysm.toNat ∉ [0, 1, 2, 3, 5, 6, 7, 8, 9, 16, 20]) :
    (specialReg sysm).isNone = true := by
  revert h
  revert sysm
  decide

theorem msr_unpredictable {n : RegNum} {sysm : BitVec 8} {b20 b13 : BitVec 1} {b11_8 : BitVec 4}
    (h : n = 13#4 ∨ n = 15#4 ∨ sysm.toNat ∉ [0, 1, 2, 3, 5, 6, 7, 8, 9, 16, 20] ∨ b20 ≠ 0#1 ∨ b13 ≠ 0#1 ∨
      b11_8 ≠ 0b1000#4) : msrUnpredictable n sysm b20 b13 b11_8 = true := by
  have h' := h.imp_right (Or.imp_right (Or.imp_left specialReg_isNone))
  simpa only [msrUnpredictable, Bool.or_eq_true, beq_iff_eq, bne_iff_ne, or_assoc] using h'

theorem mrs_unpredictable {d : RegNum} {sysm : BitVec 8} {b20 b13 : BitVec 1} {b19_16 : BitVec 4}
    (h : d = 13#4 ∨ d = 15#4 ∨ sysm.toNat ∉ [0, 1, 2, 3, 5, 6, 7, 8, 9, 16, 20] ∨ b20 ≠ 0#1 ∨ b13 ≠ 0#1 ∨
      b19_16 ≠ 0b1111#4) : mrsUnpredictable d sysm b20 b19_16 b13 = true := by
  have h' := h.imp_right (Or.imp_right (Or.imp_left specialReg_isNone))
  rw [or_comm (a := b13 ≠ 0#1)] at h'
  simpa only [mrsUnpredictable, Bool.or_eq_true, beq_iff_eq, bne_iff_ne, or_assoc] using h'

theorem barrier_unpredictable {b19_16 b11_8 : BitVec 4} {b13 : BitVec 1}
    (h : b19_16 ≠ 0b1111#4 ∨ b13 ≠ 0#1 ∨ b11_8 ≠ 0b1111#4) (s : State) (r : StepResult) :
    s.barrier r b19_16 b13 b11_8 = s.raise .unpredictable := by
  have hbad : barrierUnpredictable b19_16 b13 b11_8 = true := by
    simpa only [barrierUnpredictable, Bool.or_eq_true, bne_iff_ne, or_assoc] using h
  rw [State.barrier, if_pos hbad]

/-- A base in the list below which another register is listed is not the first to be stored (R232). -/
theorem stm_unpredictable {n : LowReg} {list : BitVec 8} (hlisted : list.getLsbD n.toNat = true)
    (hplace : place (lowSet list) n.toNat ≠ 0) : stmUnpredictable n list = true := by
  have hhead : (registersIn (lowSet list)).head? ≠ some (low n) := fun h => by
    have hplaces := congrArg List.head? (map_place_registersIn (lowSet list))
    rw [List.head?_map, h, List.head?_range, Option.map_some, toNat_low] at hplaces
    split at hplaces
    · cases hplaces
    · exact hplace (Option.some.inj hplaces)
  simp [stmUnpredictable, hlisted, hhead]

/-- Settles O30, each combination by the check that its instruction begins with. -/
theorem illegalFormsAreUnpredictable : Obligations.IllegalFormsAreUnpredictable := by
  refine ⟨fun s n sysm b20 b13 b11_8 h => ?_, fun s d sysm b20 b13 b19_16 h => ?_,
    fun s option b19_16 b11_8 b13 h => ⟨?_, ?_, ?_⟩, fun s n => ⟨?_, ?_, ?_, ?_⟩, fun s n list hlisted hplace => ?_⟩
  · exact raises_raise s _ _ (congrArg Host.Outcome.next (if_pos (msr_unpredictable h)))
  · exact raises_raise s _ _ (congrArg Host.Outcome.next (if_pos (mrs_unpredictable h)))
  · exact raises_raise s _ _ (congrArg Host.Outcome.next (barrier_unpredictable h s _))
  · exact raises_raise s _ _ (congrArg Host.Outcome.next (barrier_unpredictable h s _))
  · exact raises_raise s _ _ (congrArg Host.Outcome.next (barrier_unpredictable h s _))
  · exact raises_raise s _ _ rfl
  · exact raises_raise s _ _ rfl
  · exact raises_raise s _ _ rfl
  · exact raises_raise s _ _ rfl
  · exact raises_raise s _ _ (congrArg Host.Outcome.next (if_pos (stm_unpredictable hlisted hplace)))

end Sys2Proof.Machine
end

/-! PROOFS of the family 40_common_operations: `Shift_C` and `AddWithCarry` as operations on words, what the instructions
built on them do, and how CPS, the hints, the barriers and the traps end a step. -/

section
namespace Sys2Proof.Machine

/-! ## Shifts as operations on words (R115, R116) -/

section
variable (x : Word) (n : Nat)

/-- The carry of LSL is the last bit shifted out, bit 32 of the whole product. -/
theorem lslC_eq : lslC x n = (x <<< n, if n ≤ 32 then x.getLsbD (32 - n) else false) := by
  refine Prod.ext ?_ ?_
  · apply BitVec.eq_of_toNat_eq
    simp [lslC, Nat.shiftLeft_eq]
  · have hbit : (lslC x n).2 = (x.toNat * 2 ^ n).testBit 32 := Nat.testBit_eq_decide_div_mod_eq.symm
    rw [hbit, Nat.testBit_mul_two_pow]
    split
    · next hle => simp [hle, BitVec.testBit_toNat]
    · next hgt => simp [hgt]

/-- The carry of LSR is the last bit shifted out. -/
theorem lsrC_eq : lsrC x n = (x >>> n, if n ≤ 32 then x.getLsbD (n - 1) else false) := by
  refine Prod.ext ?_ ?_
  · apply BitVec.eq_of_toNat_eq
    rw [BitVec.toNat_ushiftRight, Nat.shiftRight_eq_div_pow]
    exact Nat.mod_eq_of_lt ((Nat.div_le_self _ _).trans_lt x.isLt)
  · have hbit : (lsrC x n).2 = x.toNat.testBit (n - 1) := Nat.testBit_eq_decide_div_mod_eq.symm
    rw [hbit, BitVec.testBit_toNat]
    split
    · rfl
    · exact BitVec.getLsbD_of_ge x _ (by omega)

/-- Floor division of the signed value is the arithmetic shift. -/
theorem ofInt_toInt_div : BitVec.ofInt 32 (x.toInt / 2 ^ n) = x.sshiftRight n := by
  rw [BitVec.sshiftRight_eq, Int.shiftRight_eq_div_pow]
  norm_cast

/-- Whether a number is odd stands in bit 0 of its word. -/
theorem getLsbD_zero_ofInt (k : Int) : (BitVec.ofInt 32 k).getLsbD 0 = (k % 2 == 1) := by
  rw [← BitVec.testBit_toNat, Nat.testBit_zero, BitVec.toNat_ofInt, Bool.eq_iff_iff]
  simp only [decide_eq_true_eq, beq_iff_eq]
  omega

/-- The carry of ASR is the last bit shifted out; beyond 32 it is the sign. -/
theorem asrC_eq : asrC x n = (x.sshiftRight n, if n ≤ 32 then x.getLsbD (n - 1) else x.msb) := by
  refine Prod.ext (ofInt_toInt_div x n) ?_
  have hbit : (asrC x n).2 = (x.sshiftRight (n - 1)).getLsbD 0 := by
    rw [← ofInt_toInt_div, getLsbD_zero_ofInt]
    rfl
  rw [hbit, BitVec.getLsbD_sshiftRight]
  simp [show n - 1 < 32 ↔ n ≤ 32 by omega]

/-- The two parts that ROR joins have no bit in common, so that their sum is their union. -/
theorem rorC_eq : rorC x n = (x.rotateRight n, (x.rotateRight n).msb) := by
  have hdisjoint : x >>> (n % 32) &&& x <<< (32 - n % 32) = 0#32 := by
    apply BitVec.eq_of_getLsbD_eq
    intro k hk
    simp only [BitVec.getLsbD_and, BitVec.getLsbD_ushiftRight, BitVec.getLsbD_shiftLeft, BitVec.getLsbD_zero]
    by_cases h : k < 32 - n % 32
    · simp [h]
    · simp [BitVec.getLsbD_of_ge x (n % 32 + k) (by omega)]
  have hresult : (rorC x n).1 = x.rotateRight n := by
    rw [BitVec.rotateRight_def, ← BitVec.add_eq_or_of_and_eq_zero _ _ hdisjoint]
    apply BitVec.eq_of_toNat_eq
    simp [rorC, Nat.shiftLeft_eq, Nat.shiftRight_eq_div_pow]
  exact Prod.ext hresult (congrArg BitVec.msb hresult)

end

section
variable (x : Word) (n : Nat) (carry : Bool)

theorem shiftC_lsl : shiftC x .lsl n carry =
    (x <<< n, if n = 0 then carry else if n ≤ 32 then x.getLsbD (32 - n) else false) := by
  by_cases h : n = 0
  · simp [shiftC, h]
  · simp [shiftC, h, lslC_eq]

theorem shiftC_lsr : shiftC x .lsr n carry =
    (x >>> n, if n = 0 then carry else if n ≤ 32 then x.getLsbD (n - 1) else false) := by
  by_cases h : n = 0
  · simp [shiftC, h]
  · simp [shiftC, h, lsrC_eq]

theorem shiftC_asr : shiftC x .asr n carry =
    (x.sshiftRight n, if n = 0 then carry else if n ≤ 32 then x.getLsbD (n - 1) else x.msb) := by
  by_cases h : n = 0
  · simp [shiftC, h]
  · simp [shiftC, h, asrC_eq]

theorem shiftC_ror : shiftC x .ror n carry =
    (x.rotateRight n, if n = 0 then carry else (x.rotateRight n).msb) := by
  by_cases h : n = 0
  · simp [shiftC, h, BitVec.rotateRight_def]
  · simp [shiftC, h, rorC_eq]

end

/-- An immediate amount lies between 1 and 32 for LSR and ASR (R117). -/
theorem immShiftAmount_bounds (imm5 : BitVec 5) :
    (if imm5 = 0#5 then 32 else imm5.toNat) ≠ 0 ∧ (if imm5 = 0#5 then 32 else imm5.toNat) ≤ 32 := by
  revert imm5
  decide

theorem regShiftAmount_eq (x : Word) : regShiftAmount x = x.toNat % 256 := by
  simp [regShiftAmount]

/-- Settles O21: each instruction ends in `shiftInto`, its amount the immediate's or the register's. -/
theorem shiftResults : Obligations.ShiftResults := by
  refine ⟨fun s d m imm5 => ?_, fun s d m imm5 => ?_, fun s d m imm5 => ?_, fun s d m n hn => ?_⟩
  · refine writesNZC_shiftInto s _ d _ .lsl imm5.toNat _ _ ?_ rfl
    have hzero : imm5.toNat = 0 ↔ imm5 = 0#5 := BitVec.toNat_inj (y := 0#5)
    rw [shiftC_lsl, if_pos (show imm5.toNat ≤ 32 by omega)]
    simp only [hzero]
  · obtain ⟨hne, hle⟩ := immShiftAmount_bounds imm5
    refine writesNZC_shiftInto s _ d _ .lsr (if imm5 = 0#5 then 32 else imm5.toNat) _ _ ?_ rfl
    rw [shiftC_lsr, if_neg hne, if_pos hle]
  · obtain ⟨hne, hle⟩ := immShiftAmount_bounds imm5
    refine writesNZC_shiftInto s _ d _ .asr (if imm5 = 0#5 then 32 else imm5.toNat) _ _ ?_ rfl
    rw [shiftC_asr, if_neg hne, if_pos hle]
  · rw [← regShiftAmount_eq] at hn
    subst hn
    exact ⟨writesNZC_shiftInto s _ d _ .lsl _ _ _ (shiftC_lsl _ _ _) rfl,
      writesNZC_shiftInto s _ d _ .lsr _ _ _ (shiftC_lsr _ _ _) rfl,
      writesNZC_shiftInto s _ d _ .asr _ _ _ (shiftC_asr _ _ _) rfl,
      writesNZC_shiftInto s _ d _ .ror _ _ _ (shiftC_ror _ _ _) rfl⟩

/-! ## `AddWithCarry` (R119, R120, R125) -/

section
variable (x y : Word) (carryIn : Bool)

theorem addWithCarry_comm : addWithCarry x y carryIn = addWithCarry y x carryIn := by
  simp only [addWithCarry, Nat.add_comm x.toNat, Int.add_comm x.toInt]

theorem addWithCarry_result : (addWithCarry x y carryIn).result = x + y + BitVec.ofNat 32 carryIn.toNat := by
  simp [addWithCarry, BitVec.ofNat_add]

theorem addWithCarry_carry : (addWithCarry x y carryIn).carry = true ↔
    2 ^ 32 ≤ (x.toNat + y.toNat + carryIn.toNat : Int) := by
  simp only [addWithCarry, decide_eq_true_eq]
  omega

theorem addWithCarry_overflow : (addWithCarry x y carryIn).overflow = true ↔
    x.toInt + y.toInt + carryIn.toNat < -(2 ^ 31) ∨ 2 ^ 31 - 1 < x.toInt + y.toInt + carryIn.toNat := by
  simp only [addWithCarry, Bool.or_eq_true, decide_eq_true_eq, gt_iff_lt]
  exact Or.comm

/-- A sum with the complement is the difference, less one more when no carry comes in (R120). -/
theorem addWithCarry_not_result :
    (addWithCarry x (~~~y) carryIn).result = x - y - BitVec.ofNat 32 (!carryIn).toNat := by
  apply BitVec.eq_of_toNat_eq
  cases carryIn <;>
    simp only [addWithCarry, BitVec.toNat_ofNat, BitVec.toNat_sub, BitVec.toNat_not, Bool.toNat_true,
      Bool.toNat_false, Bool.not_true, Bool.not_false] <;> omega

/-- The carry of a sum with the complement says that there was no borrow. -/
theorem addWithCarry_not_carry :
    (addWithCarry x (~~~y) carryIn).carry = true ↔ y.toNat + (!carryIn).toNat ≤ x.toNat := by
  rw [addWithCarry_carry, BitVec.toNat_not]
  cases carryIn <;> simp only [Bool.toNat_true, Bool.toNat_false, Bool.not_true, Bool.not_false] <;> omega

/-- The signed sum with the complement is the exact signed difference. -/
theorem toInt_add_not : x.toInt + (~~~y).toInt + carryIn.toNat = x.toInt - y.toInt - (!carryIn).toNat := by
  have hnot : (~~~y).toInt = -y.toInt - 1 := by
    simp only [BitVec.toInt_eq_toNat_cond, BitVec.toNat_not]
    split <;> split <;> omega
  cases carryIn <;> simp only [Bool.toNat_true, Bool.toNat_false, Bool.not_true, Bool.not_false] <;> omega

theorem addWithCarry_not_overflow : (addWithCarry x (~~~y) carryIn).overflow = true ↔
    x.toInt - y.toInt - (!carryIn).toNat < -(2 ^ 31) ∨ 2 ^ 31 - 1 < x.toInt - y.toInt - (!carryIn).toNat := by
  rw [addWithCarry_overflow, toInt_add_not]

end

/-- Settles O43: the amount is 0; the sums commute; the bits that two places shift out of two words do not show. -/
theorem arithmeticLaws : Obligations.ArithmeticLaws := by
  refine ⟨fun v r ty carry h => ?_, addWithCarry_comm, by decide, by decide, fun ty hty => ?_⟩
  · rw [regShiftAmount_eq, h]
    rfl
  · cases ty with
    | lsl => exact ⟨0#32, 0x80000000#32, 2, by decide, by decide⟩
    | lsr => exact ⟨0#32, 1#32, 2, by decide, by decide⟩
    | asr => exact ⟨0#32, 1#32, 2, by decide, by decide⟩
    | ror => exact absurd rfl hty

/-! ## Sums -/

section
variable {i : Instr} {s : State} {d : LowReg} {x y : Word} {carryIn : Bool}

/-- A context whose flags are those `AddWithCarry` returns has the flags of the exact sums. -/
theorem flagsOfSum_addWithCarry {c : Context} (hn : c.n = (addWithCarry x y carryIn).result.msb)
    (hz : c.z = ((addWithCarry x y carryIn).result == 0#32)) (hc : c.c = (addWithCarry x y carryIn).carry)
    (hv : c.v = (addWithCarry x y carryIn).overflow) :
    FlagsOfSum c (x + y + BitVec.ofNat 32 carryIn.toNat) (x.toNat + y.toNat + carryIn.toNat)
      (x.toInt + y.toInt + carryIn.toNat) := by
  rw [addWithCarry_result] at hn hz
  exact ⟨hn, by rw [hz, beq_iff_eq], by rw [hc, addWithCarry_carry], by rw [hv, addWithCarry_overflow]⟩

theorem writesSum_addInto (he : exec i s = .next (s.addInto d x y carryIn)) :
    WritesSum i s d (x + y + BitVec.ofNat 32 carryIn.toNat) (x.toNat + y.toNat + carryIn.toNat)
      (x.toInt + y.toInt + carryIn.toNat) := by
  obtain ⟨hret, hreg, hn, hz, hc, hv, hframe, hbus⟩ := addInto_effect s d x y carryIn
  exact ⟨_, he, hret, hreg.trans (addWithCarry_result x y carryIn), flagsOfSum_addWithCarry hn hz hc hv, hframe, hbus⟩

theorem writesSum_addInto_noCarry (he : exec i s = .next (s.addInto d x y false)) :
    WritesSum i s d (x + y) (x.toNat + y.toNat) (x.toInt + y.toInt) := by
  simpa using writesSum_addInto he

/-- An immediate narrower than a word counts as the number it is, unsigned and signed. -/
theorem writesSum_addInto_zext {w : Nat} (hw : w < 32) {imm : BitVec w}
    (he : exec i s = .next (s.addInto d x (zext imm) false)) :
    WritesSum i s d (x + BitVec.ofNat 32 imm.toNat) (x.toNat + imm.toNat) (x.toInt + imm.toNat) := by
  have hnat : (zext imm).toNat = imm.toNat := BitVec.toNat_setWidth_of_le (by omega)
  have hint : (zext imm).toInt = imm.toNat := by
    have hlt : imm.toNat < 2 ^ 31 := imm.isLt.trans_le (Nat.pow_le_pow_right (by decide) (by omega))
    rw [BitVec.toInt_eq_toNat_of_lt (by omega), hnat]
  have h := writesSum_addInto_noCarry he
  rwa [hnat, hint, zext_eq] at h

theorem setsFlagsOfSum_addFlags (he : exec i s = .next (s.addFlags x y false)) :
    SetsFlagsOfSum i s (x + y) (x.toNat + y.toNat) (x.toInt + y.toInt) := by
  obtain ⟨hret, hn, hz, hc, hv, hframe, hbus⟩ := addFlags_effect s x y false
  exact ⟨_, he, hret, by simpa using flagsOfSum_addWithCarry hn hz hc hv, hframe, hbus⟩

end

/-- Settles O19: each instruction ends in `addInto` or `addFlags`, ADCS with the old C as the carry in. -/
theorem additionResults : Obligations.AdditionResults := by
  refine ⟨fun s d n m => ?_, fun s d n imm3 => ?_, fun s d imm8 => ?_, fun s d m => ?_, fun s n m => ?_⟩
  · exact writesSum_addInto_noCarry rfl
  · exact writesSum_addInto_zext (by decide) rfl
  · exact writesSum_addInto_zext (by decide) rfl
  · exact writesSum_addInto rfl
  · exact setsFlagsOfSum_addFlags rfl

/-! ## Differences -/

section
variable {i : Instr} {s : State} {d : LowReg} {x y : Word}

/-- A context whose flags are those of `x + NOT(y) + 1` has the flags of the difference. -/
theorem flagsOfDifference_addWithCarry {c : Context} (hn : c.n = (addWithCarry x (~~~y) true).result.msb)
    (hz : c.z = ((addWithCarry x (~~~y) true).result == 0#32)) (hc : c.c = (addWithCarry x (~~~y) true).carry)
    (hv : c.v = (addWithCarry x (~~~y) true).overflow) : FlagsOfDifference c (x - y) x y := by
  rw [addWithCarry_result_sub] at hn hz
  exact ⟨hn, by rw [hz, beq_iff_eq], by simp [hc, addWithCarry_not_carry], by simp [hv, addWithCarry_not_overflow]⟩

theorem writesDifference_addInto (he : exec i s = .next (s.addInto d x (~~~y) true)) : WritesDifference i s d x y := by
  obtain ⟨hret, hreg, hn, hz, hc, hv, hframe, hbus⟩ := addInto_effect s d x (~~~y) true
  exact ⟨_, he, hret, hreg.trans (addWithCarry_result_sub x y), flagsOfDifference_addWithCarry hn hz hc hv, hframe, hbus⟩

theorem compares_addFlags (he : exec i s = .next (s.addFlags x (~~~y) true)) : Compares i s x y := by
  obtain ⟨hret, hn, hz, hc, hv, hframe, hbus⟩ := addFlags_effect s x (~~~y) true
  exact ⟨_, he, hret, flagsOfDifference_addWithCarry hn hz hc hv, hframe, hbus⟩

/-- RSBS adds its operands in the other order. -/
theorem exec_rsbs {n : LowReg} : exec (.rsbs d n) s = .next (s.addInto d 0#32 (~~~(s.lowReg n)) true) := by
  show execRsbs d n s = _
  rw [execRsbs, State.addInto, addWithCarry_comm]
  rfl

theorem cmpHiUnpredictable_iff {n m : RegNum} :
    cmpHiUnpredictable n m = true ↔ n = 15#4 ∨ m = 15#4 ∨ (n.toNat < 8 ∧ m.toNat < 8) := by
  simp only [cmpHiUnpredictable, Bool.or_eq_true, Bool.and_eq_true, decide_eq_true_eq, beq_iff_eq]
  tauto

/-- A legal CMP on any registers (R181). -/
theorem exec_cmpHi {n m : RegNum} (hn : n ≠ 15#4) (hm : m ≠ 15#4) (hhigh : 8 ≤ n.toNat ∨ 8 ≤ m.toNat) :
    exec (.cmpHi n m) s = .next (s.addFlags (s.reg n) (~~~(s.reg m)) true) := by
  have hleg : ¬ cmpHiUnpredictable n m = true := by
    rw [cmpHiUnpredictable_iff]
    rintro (h | h | ⟨hn', hm'⟩)
    · exact hn h
    · exact hm h
    · omega
  exact congrArg Host.Outcome.next (if_neg hleg)

end

/-- Settles O20: each instruction adds a complement, SBCS with the old C as the carry in. -/
theorem differenceResults : Obligations.DifferenceResults := by
  refine ⟨fun s d n m => ?_, fun s d n imm3 => ?_, fun s d imm8 => ?_, fun s d n => ?_, fun s d m => ?_,
    fun s n imm8 => ?_, fun s n m => ?_, fun s n m hn hm hhigh => ?_, fun s n m hbad => ?_⟩
  · exact writesDifference_addInto rfl
  · exact zext_eq imm3 ▸ writesDifference_addInto rfl
  · exact zext_eq imm8 ▸ writesDifference_addInto rfl
  · exact writesDifference_addInto exec_rsbs
  · obtain ⟨hret, hreg, hn, hz, hc, hv, hframe, hbus⟩ := addInto_effect s d (s.lowReg d) (~~~(s.lowReg m)) s.ctx.c
    exact ⟨_, rfl, hret, hreg.trans (addWithCarry_not_result _ _ _), by rw [hn, hreg], by rw [hz, hreg, beq_iff_eq],
      by rw [hc, addWithCarry_not_carry], by rw [hv, addWithCarry_not_overflow], hframe, hbus⟩
  · exact zext_eq imm8 ▸ compares_addFlags rfl
  · exact compares_addFlags rfl
  · exact compares_addFlags (exec_cmpHi hn hm hhigh)
  · exact raises_raise s _ _ (congrArg Host.Outcome.next (if_pos (cmpHiUnpredictable_iff.mpr hbad)))

/-! ## Bitwise instructions, moves and the product -/

/-- The end of an instruction that only sets N and Z (R168). -/
theorem finish16_setNZ_effect (s : State) (v : Word) :
    (s.finish16 (s.ctx.setNZ v)).ctx.n = v.msb ∧ ((s.finish16 (s.ctx.setNZ v)).ctx.z = true ↔ v = 0#32) ∧
      Frame s (s.finish16 (s.ctx.setNZ v)) [] [31, 30] nowhere := by
  have hz : (s.finish16 (s.ctx.setNZ v)).ctx.z = (v == 0#32) := s.ctx.bit_setNZ v 30 (by decide)
  refine ⟨s.ctx.bit_setNZ v 31 (by decide), by rw [hz, beq_iff_eq], ?_⟩
  refine frame_finish s _ _ _ _ _ (fun i hi _ => Context.reg_congr _ _ i hi rfl rfl rfl) (fun k hk hn => ?_) rfl
  simp only [List.mem_cons, List.not_mem_nil, or_false, not_or] at hn
  rw [s.ctx.bit_setNZ v k hk, if_neg hn.2, if_neg hn.1]

/-- Settles O18: all but TST end in `nzInto`; an immediate and the product are turned from numbers into words. -/
theorem logicalMoveAndProductResults : Obligations.LogicalMoveAndProductResults := by
  refine ⟨fun s d m => ⟨?_, ?_, ?_, ?_, ?_⟩, fun s d m => ?_, fun s d imm8 => ?_, fun s n m => ?_, fun s d n => ?_⟩
  · exact writesNZ_nzInto s _ d _ rfl
  · exact writesNZ_nzInto s _ d _ rfl
  · exact writesNZ_nzInto s _ d _ rfl
  · exact writesNZ_nzInto s _ d _ rfl
  · exact writesNZ_nzInto s _ d _ rfl
  · exact writesNZ_nzInto s _ d _ rfl
  · exact zext_eq imm8 ▸ writesNZ_nzInto s _ d _ rfl
  · obtain ⟨hn, hz, hframe⟩ := finish16_setNZ_effect s (s.lowReg n &&& s.lowReg m)
    exact ⟨_, rfl, ⟨rfl, rfl⟩, hn, hz, hframe, rfl⟩
  · have hproduct : BitVec.ofNat 32 ((s.lowReg n).toNat * (s.lowReg d).toNat) = s.lowReg n * s.lowReg d := by
      rw [BitVec.ofNat_mul, BitVec.ofNat_toNat, BitVec.ofNat_toNat, BitVec.setWidth_eq, BitVec.setWidth_eq]
    exact hproduct ▸ writesNZ_nzInto s _ d _ rfl

/-! ## CPS, hints, barriers and traps -/

/-- Settles O26: CPS commits a context that differs in PRIMASK; the others commit the old one or nothing. -/
theorem systemInstructionResults : Obligations.SystemInstructionResults := by
  refine ⟨fun s im => ?_, fun s im low4 hbad => ?_, fun s imm8 => ⟨?_, ?_, ?_⟩, fun s imm4 imm12 => ?_,
    fun s => ⟨?_, ?_, ?_, ?_, ?_⟩, fun s opA => ?_, fun s option => ⟨?_, ?_, ?_⟩⟩
  · have hframe := frame_finish s s.ctx s.pc2 .ok [] [] (fun _ _ _ => rfl) (fun _ _ _ => rfl) rfl
    exact ⟨_, rfl, ⟨rfl, rfl⟩, rfl, { hframe with }, rfl⟩
  · exact raises_raise s _ _ (congrArg Host.Outcome.next (if_pos (bne_iff_ne.mpr hbad)))
  · exact raises_raise s _ _ rfl
  · exact raises_raise s _ _ rfl
  · exact endsPast_finish s _ _ _ rfl
  · exact raises_raise s _ _ rfl
  · exact endsPast_finish s _ _ _ rfl
  · exact endsPast_finish s _ _ _ rfl
  · exact endsPast_finish s _ _ _ rfl
  · exact endsPast_finish s _ _ _ rfl
  · exact endsPast_finish s _ _ _ rfl
  · exact endsPast_finish s _ _ _ rfl
  · exact endsPast_finish s _ _ _ rfl
  · exact endsPast_finish s _ _ _ rfl
  · exact endsPast_finish s _ _ _ rfl

end Sys2Proof.Machine
end

/-! PROOFS of the family 45_misc16: extensions as numbers, and which byte of the source stands in which byte of a
reversed result. -/

section
namespace Sys2Proof.Machine

/-! ## Extensions of the low part of a word as numbers (R9) -/

section
variable (v : Word)

theorem sextHalf_eq_ofInt : sextHalf v = BitVec.ofInt 32 (BitVec.ofNat 16 v.toNat).toInt := by
  rw [BitVec.ofNat_toNat]
  rfl

theorem sextByte_eq_ofInt : sextByte v = BitVec.ofInt 32 (BitVec.ofNat 8 v.toNat).toInt := by
  rw [BitVec.ofNat_toNat]
  rfl

theorem zext_extractLsb'_zero (n : Nat) : zext (v.extractLsb' 0 n) = BitVec.ofNat 32 (v.toNat % 2 ^ n) := by
  rw [zext_eq, extractLsb'_zero_eq_ofNat, BitVec.toNat_ofNat]

end

/-! ## Bytes of a concatenation of bytes -/

section
variable {n : Nat} (x : BitVec n) (b : Byte)

/-- The last byte of a concatenation is its byte 0. -/
theorem byte_zero_append : (x ++ b).extractLsb' 0 8 = b := by
  rw [extract_append_low x b 0 8 (by decide), BitVec.extractLsb'_eq_self]

/-- The bytes before the last one stand one byte higher. -/
theorem byte_succ_append (k : Nat) : (x ++ b).extractLsb' (k + 8) 8 = x.extractLsb' k 8 :=
  extract_append_high x b (k + 8) 8 (Nat.le_add_left 8 k)

end

/-- The bytes of a halfword made of two. -/
theorem bytes_append_two (b₁ b₀ : Byte) :
    (b₁ ++ b₀).extractLsb' 0 8 = b₀ ∧ (b₁ ++ b₀).extractLsb' 8 8 = b₁ :=
  ⟨byte_zero_append _ _, (byte_succ_append _ _ 0).trans BitVec.extractLsb'_eq_self⟩

/-- The bytes of a word made of four. -/
theorem bytes_append_four (b₃ b₂ b₁ b₀ : Byte) :
    (b₃ ++ b₂ ++ b₁ ++ b₀).extractLsb' 0 8 = b₀ ∧ (b₃ ++ b₂ ++ b₁ ++ b₀).extractLsb' 8 8 = b₁ ∧
      (b₃ ++ b₂ ++ b₁ ++ b₀).extractLsb' 16 8 = b₂ ∧ (b₃ ++ b₂ ++ b₁ ++ b₀).extractLsb' 24 8 = b₃ := by
  obtain ⟨h₂, h₃⟩ := bytes_append_two b₃ b₂
  refine ⟨byte_zero_append _ _, (byte_succ_append _ _ 0).trans (byte_zero_append _ _), ?_, ?_⟩
  · exact (byte_succ_append _ _ 8).trans ((byte_succ_append _ _ 0).trans h₂)
  · exact (byte_succ_append _ _ 16).trans ((byte_succ_append _ _ 8).trans h₃)

/-! ## Sign extension, field by field -/

section
variable {n w : Nat} (x : BitVec n)

/-- Sign extension keeps the fields of its operand. -/
theorem extract_signExtend (i k : Nat) (hn : i + k ≤ n) (hw : n ≤ w) :
    (x.signExtend w).extractLsb' i k = x.extractLsb' i k := by
  apply BitVec.eq_of_getLsbD_eq
  intro j hj
  have hlow : i + j < n := by omega
  have hin : i + j < w := by omega
  simp only [BitVec.getLsbD_extractLsb', BitVec.getLsbD_signExtend, hin, if_pos hlow, decide_true, Bool.true_and]

/-- Above its operand, sign extension repeats the sign. -/
theorem getLsbD_signExtend_of_ge {k : Nat} (hn : n ≤ k) (hw : k < w) : (x.signExtend w).getLsbD k = x.msb := by
  rw [BitVec.getLsbD_signExtend, decide_eq_true hw, if_neg (Nat.not_lt.mpr hn), Bool.true_and]

end

/-! ## Byte reversal -/

section
variable (v : Word)

/-- REV (R218): the four bytes in the other order. -/
theorem byte_reversed {j : Nat} (hj : j < 4) :
    (v.extractLsb' 0 8 ++ v.extractLsb' 8 8 ++ v.extractLsb' 16 8 ++ v.extractLsb' 24 8).extractLsb' (8 * j) 8 =
      v.extractLsb' (8 * (3 - j)) 8 := by
  obtain ⟨h₀, h₁, h₂, h₃⟩ :=
    bytes_append_four (v.extractLsb' 0 8) (v.extractLsb' 8 8) (v.extractLsb' 16 8) (v.extractLsb' 24 8)
  match j, hj with
  | 0, _ => exact h₀
  | 1, _ => exact h₁
  | 2, _ => exact h₂
  | 3, _ => exact h₃

/-- REV16 (R219): the bytes of halfword `j` are exchanged. -/
theorem bytes_exchanged {j : Nat} (hj : j < 2) :
    (v.extractLsb' 16 8 ++ v.extractLsb' 24 8 ++ v.extractLsb' 0 8 ++ v.extractLsb' 8 8).extractLsb' (16 * j) 8 =
        v.extractLsb' (16 * j + 8) 8 ∧
      (v.extractLsb' 16 8 ++ v.extractLsb' 24 8 ++ v.extractLsb' 0 8 ++ v.extractLsb' 8 8).extractLsb' (16 * j + 8) 8 =
        v.extractLsb' (16 * j) 8 := by
  obtain ⟨h₀, h₁, h₂, h₃⟩ :=
    bytes_append_four (v.extractLsb' 16 8) (v.extractLsb' 24 8) (v.extractLsb' 0 8) (v.extractLsb' 8 8)
  match j, hj with
  | 0, _ => exact ⟨h₀, h₁⟩
  | 1, _ => exact ⟨h₂, h₃⟩

/-- REVSH (R220): the sign of the reversed halfword is bit 7 of the source. -/
theorem msb_reversedHalf : (v.extractLsb' 0 8 ++ v.extractLsb' 8 8).msb = v.getLsbD 7 := by
  rw [BitVec.msb_append, if_neg (by decide), BitVec.msb_eq_getLsbD_last, BitVec.getLsbD_extractLsb']
  rfl

end

/-- Settles O25: each instruction is one register write. The extensions are turned into numbers; REVSH keeps the two
bytes it exchanges and repeats their sign. -/
theorem extendAndReverseResults : Obligations.ExtendAndReverseResults := by
  refine ⟨fun s d m => ⟨?_, ?_, ?_, ?_⟩, fun s d m => ⟨?_, ?_, ?_⟩⟩
  · exact sextHalf_eq_ofInt _ ▸ writes_setLow s _ d _ rfl
  · exact sextByte_eq_ofInt _ ▸ writes_setLow s _ d _ rfl
  · exact zext_extractLsb'_zero _ 16 ▸ writes_setLow s _ d _ rfl
  · exact zext_extractLsb'_zero _ 8 ▸ writes_setLow s _ d _ rfl
  · exact ⟨_, writes_setLow s _ d _ rfl, fun _ hj => byte_reversed _ hj⟩
  · exact ⟨_, writes_setLow s _ d _ rfl, fun _ hj => bytes_exchanged _ hj⟩
  · obtain ⟨hlow, hhigh⟩ := bytes_append_two ((s.lowReg m).extractLsb' 0 8) ((s.lowReg m).extractLsb' 8 8)
    refine ⟨_, writes_setLow s _ d _ rfl, ?_, ?_, fun k hk hk' => ?_⟩
    · exact (extract_signExtend _ 0 8 (by decide) (by decide)).trans hlow
    · exact (extract_signExtend _ 8 8 (by decide) (by decide)).trans hhigh
    · rw [getLsbD_signExtend_of_ge _ hk hk', msb_reversedHalf]

end Sys2Proof.Machine
end

/-! PROOFS of the family 50_run_loop: what one transition of a Running block is (R261), by what the stop request (R264)
and the predicate (R262, R263) answer. -/

section
namespace Sys2Proof.Machine

/-! ## The stop request (R264) -/

section
variable {s s1 s2 t : State}

theorem takeStop_of_cons {stop : Bool} {later : List Bool} (h : s.stops = stop :: later) :
    s.takeStop = ({ s with stops := later }, stop) := by
  simp [State.takeStop, h]

/-- A stop request that reads 0: the list is used up (assumption 14), or says so. -/
theorem takeStop_of_zero {later : List Bool} (h : s.stops = [] ∧ later = [] ∨ s.stops = false :: later) :
    s.takeStop = ({ s with stops := later }, false) := by
  obtain ⟨hnil, rfl⟩ | hcons := h
  · rw [takeStop_of_empty hnil, ← hnil]
  · exact takeStop_of_cons hcons

/-! ## The predicate (R262, R263) -/

/-- The reference predicate with the latch clear and a byte queued, which the poll leaves queued (R263). -/
theorem preempt_queued (hp : s.predicate = .reference) (hl : s.bus.latch = false) (ha : s.comm.arrivals = [])
    (hrx : s.comm.rx ≠ []) : s.preempt = (s, .interrupt) := by
  have hdeliver : s.comm.deliver = s.comm := by simp [Comm.deliver, ha]
  rw [preempt_of_reference hp]
  simp [State.referencePreempt, hl, hdeliver, Comm.hasReceiveData, hrx]

/-- A caller's predicate: its effect on the latch and on registers, and its answer (R262, assumption 9). -/
theorem preempt_of_scripted {p : PredicateCall} {ps : List PredicateCall} (h : s.predicate = .scripted (p :: ps)) :
    s.preempt = ({ s with
      predicate := .scripted ps, ctx := s.ctx.hostWrites p.writes
      bus := { s.bus with latch := if p.clearsLatch then false else s.bus.latch } }, p.answer) := by
  have hlatch : (s.bus.latch && !p.clearsLatch) = if p.clearsLatch then false else s.bus.latch := by
    cases p.clearsLatch <;> simp
  simp only [State.preempt, h, hlatch]

/-! ## One transition of a Running block (R261) -/

theorem step_of_stopRequest (hidle : s.engine = .idle) (hrun : s.loop = .running) (h : s.takeStop = (s1, true)) :
    step s = .next (s1.stopWith .ok) :=
  (step_of_running hidle hrun).trans (runIteration_stop h)

theorem step_of_preempted {answer : Preempt} {x : StepResult} (hidle : s.engine = .idle) (hrun : s.loop = .running)
    (h : s.takeStop = (s1, false)) (hpre : s1.preempt = (s2, answer)) (hx : answer.result = some x) :
    step s = .next (s2.stopWith x) :=
  (step_of_running hidle hrun).trans (runIteration_preempted h hpre hx)

theorem step_of_preemptOk (hidle : s.engine = .idle) (hrun : s.loop = .running) (h : s.takeStop = (s1, false))
    (hpre : s1.preempt = (s2, .ok)) (hs : s2.stepInstr = .next t) : step s = .next t.afterStep :=
  (step_of_running hidle hrun).trans (runIteration_step h hpre hs)

end

/-- Settles O44: the stop request ends the iteration at once; the reference predicate looks at the latch, then polls. -/
theorem runEndsBeforeAnInstruction : Obligations.RunEndsBeforeAnInstruction := by
  refine ⟨fun s later hidle hrun hstops => ?_, fun s later hidle hrun hpred hstops => ⟨fun hlatch => ?_, ?_⟩⟩
  · exact step_of_stopRequest hidle hrun (takeStop_of_cons hstops)
  · exact step_of_preempted hidle hrun (takeStop_of_zero hstops) (preempt_latched hpred hlatch) rfl
  · intro hclear harrivals hqueued
    exact step_of_preempted hidle hrun (takeStop_of_zero hstops) (preempt_queued hpred hclear harrivals hqueued) rfl

/-- Settles O45: the one call of the predicate leaves `s1`, and its answer decides whether the step of `s1` follows. -/
theorem callerPredicateDecides : Obligations.CallerPredicateDecides := by
  rintro s s1 later p ps hidle hrun hpred hstops rfl
  have hstop := takeStop_of_zero hstops
  have hpre := preempt_of_scripted (s := { s with stops := later }) hpred
  refine ⟨fun ha => ?_, fun ha => ?_, fun ha t hs => ?_⟩ <;> rw [ha] at hpre
  · exact step_of_preempted hidle hrun hstop hpre rfl
  · exact step_of_preempted hidle hrun hstop hpre rfl
  · rw [step_of_preemptOk hidle hrun hstop hpre hs, State.afterStep]

/-- Settles O46: `run` is one command taken; a quiet iteration is the step, and its result decides the loop. -/
theorem runStepsUntilNotOk : Obligations.RunStepsUntilNotOk := by
  refine ⟨fun s later hidle hstopped hcmd => ?_, ?_⟩
  · rw [step_of_command hidle hstopped hcmd, State.execCommand]
  · intro s t hidle hrun hstops hpred hclear harrivals hrx hs
    have hstep : step s = .next t.afterStep :=
      step_of_preemptOk hidle hrun (takeStop_of_empty hstops) (preempt_quiet hpred hclear harrivals hrx) hs
    exact ⟨fun hok => by rw [hstep, State.afterStep, if_pos hok],
      fun hnot => by rw [hstep, State.afterStep, if_neg hnot]⟩

end Sys2Proof.Machine
end

/-! PROOFS of the family 55_packet_engine: hex digits (R274), and what one byte transfer or one poll does in each phase
of the packet engine (R270, R277 to R281, R286, R287). -/

section
namespace Sys2Proof.Machine

/-! ## Hex digits (R274) -/

/-- The value of a digit counted from byte `n`, its distance from `n`. -/
theorem digitValue_iff {b : Byte} {n : Nat} (v : BitVec 4) (hlo : n ≤ b.toNat) (hhi : b.toNat < n + 16) :
    (b - BitVec.ofNat 8 n).setWidth 4 = v ↔ v.toNat = b.toNat - n := by
  have hn : (BitVec.ofNat 8 n).toNat = n := Nat.mod_eq_of_lt (by omega)
  have hsub : (b - BitVec.ofNat 8 n).toNat = b.toNat - n := by
    rw [BitVec.toNat_sub_of_le (by rwa [BitVec.le_def, hn]), hn]
  rw [← BitVec.toNat_inj, BitVec.toNat_setWidth, hsub]
  omega

/-- Settles O49: an emitted digit is in one of two ranges; a received byte is in one of three, or is no digit. -/
theorem hexDigitsAreTheSixteen : Obligations.HexDigitsAreTheSixteen := by
  refine ⟨fun v => ?_, fun b v => ?_⟩
  · unfold hexDigit
    split <;> bv_omega
  · unfold hexValue
    split
    · rw [Option.some_inj, digitValue_iff v (by omega) (by omega)]
      omega
    · split
      · rw [Option.some_inj, digitValue_iff v (by omega) (by omega)]
        omega
      · split
        · rw [Option.some_inj, digitValue_iff v (by omega) (by omega)]
          omega
        · refine iff_of_false nofun ?_
          omega

/-- Two digits as one number, high digit first. -/
theorem toNat_append_nibble (x y : BitVec 4) : (x ++ y).toNat = 16 * x.toNat + y.toNat := by
  rw [BitVec.toNat_append, ← Nat.shiftLeft_add_eq_or_of_lt y.isLt, Nat.shiftLeft_eq, Nat.mul_comm]

/-! ## Receiving (R270) -/

section
variable {s : State} {go : Byte → State → State} {b : Byte} {rest : List Byte}

theorem deliver_of_nil {c : Comm} (h : c.arrivals = []) : c.deliver = c := by
  simp [Comm.deliver, h]

theorem receiveChar_queued (ha : s.comm.arrivals = []) (hrx : s.comm.rx = b :: rest) :
    s.receiveChar go = .next (go b { s with comm := { s.comm with rx := rest } }) := by
  simp [State.receiveChar, deliver_of_nil ha, hrx]

theorem receiveChar_blocked (ha : s.comm.arrivals = []) (hrx : s.comm.rx = []) :
    s.receiveChar go = .fault .receiveBlocked := by
  simp [State.receiveChar, deliver_of_nil ha, hrx, ha]

/-- An empty batch leaves the call waiting (assumption 13). -/
theorem receiveChar_waits {later : List (List Byte)} (ha : s.comm.arrivals = [] :: later) (hrx : s.comm.rx = []) :
    s.receiveChar go = .next { s with comm := { s.comm with arrivals := later } } := by
  simp [State.receiveChar, Comm.deliver, ha, hrx]

/-- The first byte of a batch that arrives is received like one already queued (assumption 13). -/
theorem receiveChar_arrives {bs : List Byte} {later : List (List Byte)} (ha : s.comm.arrivals = (b :: bs) :: later)
    (hrx : s.comm.rx = []) :
    s.receiveChar go =
      ({ s with comm := { s.comm with rx := b :: bs, arrivals := [] :: later } } : State).receiveChar go := by
  simp [State.receiveChar, Comm.deliver, ha, hrx]

end

/-! ## One transition of each phase -/

/-- What a phase that waits for a byte does with it; the other phases take none (`step_of_receiving`). -/
def EnginePhase.takes : EnginePhase → Byte → State → State
  | .scan => State.scanByte
  | .capture => State.captureByte
  | .check1 => State.check1Byte
  | .check2 d1 => State.check2Byte d1
  | .wait => State.waitByte
  | _ => fun _ s => s

section
variable {s : State} {p : EnginePhase} {b : Byte} {rest : List Byte}

theorem step_of_receiving (h : s.engine.receiving = true) : step s = s.receiveChar s.engine.takes := by
  have hne : s.engine ≠ .idle := by
    intro hidle
    rw [hidle] at h
    cases h
  rw [step_of_engine hne, State.engineStep]
  cases he : s.engine with
  | scan | capture | check1 | check2 _ | wait => rfl
  | idle | reply _ | more | sendStart | sendPayload _ | sendHigh | sendLow => rw [he] at h; cases h

/-- A phase that waits takes the oldest queued byte. -/
theorem step_takes (hp : p.receiving = true) (he : s.engine = p) (ha : s.comm.arrivals = [])
    (hrx : s.comm.rx = b :: rest) : step s = .next (p.takes b { s with comm := { s.comm with rx := rest } }) := by
  subst he
  rw [step_of_receiving hp, receiveChar_queued ha hrx]

theorem step_reply {valid : Bool} (he : s.engine = .reply valid) : step s = .next (s.sendReply valid) := by
  rw [step_of_engine (by simp [he]), State.engineStep, he]

theorem step_more (he : s.engine = .more) : step s = .next s.peekMore := by
  rw [step_of_engine (by simp [he]), State.engineStep, he]

theorem step_sendStart (he : s.engine = .sendStart) : step s = .next s.sendDollar := by
  rw [step_of_engine (by simp [he]), State.engineStep, he]

theorem step_sendPayload {i : Nat} (he : s.engine = .sendPayload i) : step s = .next (s.sendPayloadByte i) := by
  rw [step_of_engine (by simp [he]), State.engineStep, he]

theorem step_sendHigh (he : s.engine = .sendHigh) : step s = .next s.sendHighDigit := by
  rw [step_of_engine (by simp [he]), State.engineStep, he]

theorem step_sendLow (he : s.engine = .sendLow) : step s = .next s.sendLowDigit := by
  rw [step_of_engine (by simp [he]), State.engineStep, he]

end

/-! ## What a phase does with its byte -/

section
variable {s : State} {b : Byte}

theorem scanByte_dollar : s.scanByte dollarByte = s.startCapture :=
  if_pos rfl

theorem scanByte_discards (h : b ≠ dollarByte) : s.scanByte b = { s with packet := { s.packet with last := b } } :=
  if_neg h

theorem captureByte_dollar : s.captureByte dollarByte = s.startCapture := by
  simp [State.captureByte, State.startCapture]

theorem captureByte_hash :
    s.captureByte hashByte = { s with packet := { s.packet with last := hashByte }, engine := .check1 } := by
  simp [State.captureByte, hashByte, dollarByte]

theorem captureByte_appends (hd : b ≠ dollarByte) (hh : b ≠ hashByte)
    (hroom : s.buffer.data.length < s.buffer.cap) :
    s.captureByte b = { s with
      packet := { s.packet with last := b, sum := s.packet.sum + b }, buffer := s.buffer.append b } := by
  have hfull : s.buffer.full = false := by simpa [Buffer.full] using hroom
  simp [State.captureByte, hd, hh, hfull]

theorem captureByte_overruns (hd : b ≠ dollarByte) (hh : b ≠ hashByte)
    (hfit : s.buffer.cap ≤ s.buffer.data.length) :
    s.captureByte b = { s with
      packet := { s.packet with last := b }, buffer := { s.buffer with overrun := true }, engine := .check1 } := by
  have hfull : s.buffer.full = true := by simpa [Buffer.full] using hfit
  simp [State.captureByte, hd, hh, hfull]

theorem check2Byte_notHex {d1 d2 : Byte} (h : hexValue d1 = none ∨ hexValue d2 = none) :
    s.check2Byte d1 d2 = { s with
      packet := { s.packet with last := 0#8 }, buffer := { s.buffer with hexerr := true }
      engine := .reply false } := by
  unfold State.check2Byte
  split
  · next hx hy => simp [hx, hy] at h
  · rfl

theorem check2Byte_hex {d1 d2 : Byte} {x y : BitVec 4} (hx : hexValue d1 = some x) (hy : hexValue d2 = some y) :
    s.check2Byte d1 d2 = { s with
      packet := { s.packet with last := 0#8, expected := x ++ y }, engine := .reply (x ++ y == s.packet.sum) } := by
  simp [State.check2Byte, hx, hy]

theorem peekMore_queued (ha : s.comm.arrivals = []) (hrx : s.comm.rx ≠ []) :
    s.peekMore = { s with engine := .scan } := by
  simp [State.peekMore, deliver_of_nil ha, Comm.hasReceiveData, hrx]

theorem peekMore_quiet (ha : s.comm.arrivals = []) (hrx : s.comm.rx = []) :
    s.peekMore = { s with engine := .idle, buffer := s.buffer.rewind } := by
  simp [State.peekMore, deliver_of_nil ha, Comm.hasReceiveData, hrx]

theorem waitByte_eq :
    s.waitByte b = { s with
      packet := { s.packet with last := b }
      engine := if b = ackByte ∨ b = dollarByte then .idle else if b = ctrlCByte then s.engine else .sendStart } := by
  unfold State.waitByte
  dsimp only
  split
  · rfl
  · split <;> rfl

end

/-- Settles O51: a waiting engine takes the byte, and `waitByte` compares it with `+`, `$` and Ctrl-C. -/
theorem acknowledgementRules : Obligations.AcknowledgementRules := by
  intro s b rest he ha hrx
  rw [step_takes (p := .wait) rfl he ha hrx, EnginePhase.takes, waitByte_eq]
  simp only [he]
  rfl

/-- Settles O54: one case of `scanByte` or `captureByte` for each clause. -/
theorem scanAndCaptureRules : Obligations.ScanAndCaptureRules := by
  intro s b rest ha hrx
  have hscan := fun he : s.engine = .scan => step_takes (p := .scan) rfl he ha hrx
  have hcapture := fun he : s.engine = .capture => step_takes (p := .capture) rfl he ha hrx
  refine ⟨fun he hb => ?_, fun he hb => ?_, fun he hb => ?_, fun he hd hh hroom => ?_, fun he hd hh hfit => ?_⟩
  · exact (hscan he).trans (congrArg _ (scanByte_discards hb))
  · subst hb
    obtain he | he := he
    · exact (hscan he).trans (congrArg _ scanByte_dollar)
    · exact (hcapture he).trans (congrArg _ captureByte_dollar)
  · subst hb
    exact (hcapture he).trans (congrArg _ captureByte_hash)
  · exact (hcapture he).trans (congrArg _ (captureByte_appends hd hh hroom))
  · exact (hcapture he).trans (congrArg _ (captureByte_overruns hd hh hfit))

/-- Settles O55: the two digits side by side are the number compared with the sum. -/
theorem checksumAndPollRules : Obligations.ChecksumAndPollRules := by
  refine ⟨fun s d1 rest he ha hrx => step_takes rfl he ha hrx, fun s d1 d2 rest he ha hrx => ?_,
    fun s => ⟨step_reply, step_reply⟩, fun s he ha => ⟨fun hrx => ?_, fun hrx => ?_⟩⟩
  · have hstep := step_takes (p := .check2 d1) rfl he ha hrx
    refine ⟨fun hbad => hstep.trans (congrArg _ (check2Byte_notHex hbad)), fun x y hx hy => ?_⟩
    rw [hstep, EnginePhase.takes, check2Byte_hex hx hy, ← toNat_append_nibble, BitVec.ofNat_toNat, BitVec.setWidth_eq]
    refine ⟨fun hne => ?_, fun heq => ?_⟩
    · rw [beq_eq_false_iff_ne.mpr fun h => hne (congrArg BitVec.toNat h)]
    · rw [BitVec.eq_of_toNat_eq heq, beq_self_eq_true]
  · rw [step_more he, peekMore_queued ha hrx]
  · rw [step_more he, peekMore_quiet ha hrx]
    rfl

/-- Settles O56: in a phase that waits, the transition is a `receiveChar`. -/
theorem receiveBlocksForEver : Obligations.ReceiveBlocksForEver := by
  refine ⟨fun s h hrx ha => ?_, fun s later h hrx ha => ?_, fun s b bs later h hrx ha => ?_⟩
  · rw [step_of_receiving h, receiveChar_blocked ha hrx]
  · rw [step_of_receiving h, receiveChar_waits ha hrx]
  · rw [step_of_receiving h, receiveChar_arrives ha hrx]
    exact (step_of_receiving (s := { s with comm := { s.comm with rx := b :: bs, arrivals := [] :: later } }) h).symm

/-- Settles O57: each command is taken by a Stopped block and begins a packet. -/
theorem commandsBeginWithZeroPacketState : Obligations.CommandsBeginWithZeroPacketState :=
  fun _ _ hidle hstopped => ⟨step_of_command hidle hstopped, step_of_command hidle hstopped⟩

end Sys2Proof.Machine
end

/-! PROOFS of the family 55_packet_engine: whole packets, transition by transition (R276, R285), and the loopback law
(R290). -/

section
namespace Sys2Proof.Machine

/-! ## Runs without a fault -/

/-- `k` transitions lead from `s` to `t`. -/
def Runs (k : Nat) (s t : State) : Prop := Host.Core.run Sys2Proof.core k s = .next t

section
variable {s t u : State} {j k : Nat}

theorem Runs.refl (s : State) : Runs 0 s s := rfl

theorem run_of_step (h : step s = .next t) :
    Host.Core.run Sys2Proof.core (k + 1) s = Host.Core.run Sys2Proof.core k t := by
  have hcore : Sys2Proof.core.step s = .next t := h
  simp only [Host.Core.run, hcore]

/-- A run that does not stop begins with a transition that does not stop. -/
theorem Runs.exists_step (h : Runs (k + 1) s u) : ∃ t, step s = .next t ∧ Runs k t u := by
  cases hstep : Sys2Proof.core.step s with
  | next t => exact ⟨t, hstep, (run_of_step hstep).symm.trans h⟩
  | fault r | refused r => simp only [Runs, Host.Core.run, hstep, reduceCtorEq] at h

theorem Runs.cons (h : step s = .next t) (hrest : Runs k t u) : Runs (k + 1) s u :=
  (run_of_step h).trans hrest

theorem Runs.one (h : step s = .next t) : Runs 1 s t :=
  .cons h (.refl t)

theorem Runs.trans (h : Runs j s t) (hrest : Runs k t u) : Runs (j + k) s u := by
  induction j generalizing s with
  | zero =>
    obtain rfl : s = t := Host.Outcome.next.inj h
    rwa [Nat.zero_add]
  | succ j ih =>
    obtain ⟨s1, hstep, hj⟩ := h.exists_step
    rw [Nat.add_right_comm]
    exact .cons hstep (ih hj)

end

/-- A frame on the wire, byte by byte (R273). -/
theorem frameOf_eq (payload : List Byte) :
    frameOf payload = dollarByte :: (payload ++
      [hashByte, hexDigit ((sumBytes payload).extractLsb' 4 4), hexDigit ((sumBytes payload).extractLsb' 0 4)]) :=
  rfl

/-! ## packetSend (R285) -/

section
variable {s : State}

theorem sendPayloadByte_of_some {i : Nat} {b : Byte} (h : s.buffer.data[i]? = some b) :
    s.sendPayloadByte i = { s.sendChar b with
      packet := { s.packet with sum := s.packet.sum + b }, engine := .sendPayload (i + 1) } := by
  simp only [State.sendPayloadByte, h]

theorem sendPayloadByte_length :
    s.sendPayloadByte s.buffer.data.length = { s.sendChar hashByte with engine := .sendHigh } := by
  simp only [State.sendPayloadByte, List.getElem?_length]

/-- `s` after the last payload bytes `bs` are sent: they stand behind the transmit stream and in the sum. -/
def State.sentPayload (s : State) (bs : List Byte) : State :=
  { s with
    engine := .sendPayload s.buffer.data.length
    packet := { s.packet with sum := s.packet.sum + sumBytes bs }
    comm := { s.comm with tx := s.comm.tx ++ bs } }

/-- From the index where the payload's last bytes `bs` begin, they go out one by one. -/
theorem runs_sendPayload {sent bs : List Byte} (hdata : s.buffer.data = sent ++ bs)
    (he : s.engine = .sendPayload sent.length) : Runs bs.length s (s.sentPayload bs) := by
  induction bs generalizing s sent with
  | nil =>
    have hend : s.engine = .sendPayload s.buffer.data.length := by rw [he, hdata, List.append_nil]
    have hsent : s.sentPayload [] = s := by
      simp only [State.sentPayload, sumBytes, BitVec.add_zero, List.append_nil, ← hend]
    rw [hsent]
    exact .refl s
  | cons b bs ih =>
    have hb : s.buffer.data[sent.length]? = some b := by simp [hdata]
    have hstep := step_sendPayload he
    rw [sendPayloadByte_of_some hb] at hstep
    have hrest := ih (s := { s.sendChar b with
      packet := { s.packet with sum := s.packet.sum + b }, engine := .sendPayload (sent.length + 1) })
      (sent := sent ++ [b]) (by simp [hdata]) (by simp)
    simpa [State.sentPayload, State.sendChar, sumBytes, BitVec.add_assoc] using Runs.cons hstep hrest

/-- Behind the payload: `#` and the two digits of the sum. -/
theorem runs_sendChecksum (he : s.engine = .sendPayload s.buffer.data.length) :
    Runs 3 s { s with
      engine := .wait
      comm := { s.comm with tx := s.comm.tx ++
        [hashByte, hexDigit (s.packet.sum.extractLsb' 4 4), hexDigit (s.packet.sum.extractLsb' 0 4)] } } := by
  have hhash := step_sendPayload he
  rw [sendPayloadByte_length] at hhash
  have hruns := Runs.cons hhash (.cons (step_sendHigh rfl) (.one (step_sendLow rfl)))
  simpa [State.sendHighDigit, State.sendLowDigit, State.sendChar] using hruns

end

/-- Settles O50: `$`, the payload by induction on its bytes, then `#` and the digits. -/
theorem sendTransmitsTheFrame : Obligations.SendTransmitsTheFrame := by
  intro s he
  have hpayload : Runs s.buffer.data.length s.sendDollar (s.sendDollar.sentPayload s.buffer.data) :=
    runs_sendPayload (sent := []) rfl rfl
  have hframe := Runs.cons (step_sendStart he) (hpayload.trans (runs_sendChecksum rfl))
  change Runs (s.buffer.data.length + 3 + 1) s _
  simpa [State.sentPayload, State.sendDollar, State.sendChar, frameOf_eq] using hframe

/-! ## packetGet (R276) -/

section
variable {s : State} {rest : List Byte}

/-- `s` after it has captured the bytes `bs`, with `rest` still queued. -/
def State.captured (s : State) (bs rest : List Byte) : State :=
  { s with
    packet := { s.packet with last := bs.getLastD s.packet.last, sum := s.packet.sum + sumBytes bs }
    buffer := { s.buffer with data := s.buffer.data ++ bs }
    comm := { s.comm with rx := rest } }

theorem captured_captured (b : Byte) (bs queued : List Byte) :
    (s.captured [b] queued).captured bs rest = s.captured (b :: bs) rest := by
  simp [State.captured, sumBytes, BitVec.add_assoc, List.getLastD_cons, List.getLastD_nil, -List.getLastD_eq_getLast?]

/-- Bytes that fit the buffer and are neither `$` nor `#` are captured one by one. -/
theorem runs_capture {bs : List Byte} (he : s.engine = .capture) (ha : s.comm.arrivals = [])
    (hrx : s.comm.rx = bs ++ rest) (hd : dollarByte ∉ bs) (hh : hashByte ∉ bs)
    (hfit : s.buffer.data.length + bs.length ≤ s.buffer.cap) : Runs bs.length s (s.captured bs rest) := by
  induction bs generalizing s with
  | nil =>
    have hcaptured : s.captured [] rest = s := by
      rw [List.nil_append] at hrx
      simp [State.captured, sumBytes, ← hrx]
    rw [hcaptured]
    exact .refl s
  | cons b bs ih =>
    rw [List.mem_cons, not_or] at hd hh
    obtain ⟨hbd, hd⟩ := hd
    obtain ⟨hbh, hh⟩ := hh
    rw [List.length_cons] at hfit
    have hstep := step_takes (p := .capture) rfl he ha hrx
    rw [EnginePhase.takes, captureByte_appends (Ne.symm hbd) (Ne.symm hbh) (by simp only; omega)] at hstep
    have hrest := ih (s := s.captured [b] (bs ++ rest)) he ha rfl hd hh (by simp [State.captured]; omega)
    rw [captured_captured] at hrest
    exact .cons (hstep.trans (by rw [State.captured, sumBytes_singleton]; rfl)) hrest

/-- The digits of the sum are accepted (R279). -/
theorem step_check2_digitsOfSum (he : s.engine = .check2 (hexDigit (s.packet.sum.extractLsb' 4 4)))
    (ha : s.comm.arrivals = []) (hrx : s.comm.rx = hexDigit (s.packet.sum.extractLsb' 0 4) :: rest) :
    step s = .next { s with
      comm := { s.comm with rx := rest }
      packet := { s.packet with last := 0#8, expected := s.packet.sum }
      engine := .reply true } := by
  rw [step_takes rfl he ha hrx, EnginePhase.takes, check2Byte_hex (hexValue_hexDigit _) (hexValue_hexDigit _),
    nibbles_append, beq_self_eq_true]

/-- Behind the payload: `#`, the digits of its sum, ACK, and a poll that finds nothing queued. -/
theorem runs_checksumValid (he : s.engine = .capture) (ha : s.comm.arrivals = [])
    (hrx : s.comm.rx =
      [hashByte, hexDigit (s.packet.sum.extractLsb' 4 4), hexDigit (s.packet.sum.extractLsb' 0 4)]) :
    Runs 5 s { s with
      engine := .idle
      packet := ⟨0#8, s.packet.sum, s.packet.sum⟩
      buffer := s.buffer.rewind
      comm := ⟨[], [], s.comm.tx ++ [ackByte]⟩ } := by
  have hhash := step_takes (p := .capture) rfl he ha hrx
  rw [EnginePhase.takes, captureByte_hash] at hhash
  have hruns := Runs.cons hhash <| .cons (step_takes (p := .check1) rfl rfl ha rfl) <|
    .cons (step_check2_digitsOfSum rfl ha rfl) <| .cons (step_reply rfl) <|
    .one ((step_more rfl).trans (congrArg _ (peekMore_quiet ha rfl)))
  simpa [State.sendReply, State.sendChar, EnginePhase.takes, State.check1Byte, ha] using hruns

end

/-- Settles O52: `$`, the payload by induction on its bytes, then the checksum, ACK and the poll. -/
theorem getReturnsThePayload : Obligations.GetReturnsThePayload := by
  intro s payload he ha hrx hd hh hfit
  have hdollar := step_takes (p := .scan) rfl he ha (hrx.trans (frameOf_eq payload))
  rw [EnginePhase.takes, scanByte_dollar] at hdollar
  have hframe := Runs.cons hdollar <| Runs.trans
    (runs_capture rfl ha rfl hd hh (by simpa [State.startCapture] using hfit))
    (runs_checksumValid rfl ha (by simp [State.captured, State.startCapture]))
  change Runs (payload.length + 5 + 1) s _
  simpa [State.captured, State.startCapture, Buffer.clear, Buffer.rewind, ackByte] using hframe

/-! ## Loopback (R290) -/

/-- Settles O53: the frame sent by O50 is the one received by O52, and its `+` ends the wait by O51. -/
theorem loopbackReconstructsThePayload : Obligations.LoopbackReconstructsThePayload := by
  intro s g hs htx hrx ha hg hgtx hga hd hh hfit
  have hframe : s.comm.tx ++ frameOf s.buffer.data = frameOf s.buffer.data := by rw [htx, List.nil_append]
  have hreply : g.comm.tx ++ [0x2B#8] = [ackByte] := by rw [hgtx]; rfl
  exact ⟨_, _, _, sendTransmitsTheFrame s hs, rfl,
    getReturnsThePayload { g with comm := { g.comm with rx := _ } } s.buffer.data hg hga hframe hd hh hfit,
    rfl, rfl, hreply, rfl, acknowledgementRules _ ackByte [] rfl ha hreply, rfl, rfl⟩

end Sys2Proof.Machine
end
